-- ==== Sys2Proof/Word.lean ====
section
/-! DEFINITION. The word types of the Vantobel 2416: octets, house times and samples (00_scope.md, Conventions). -/

namespace Sys2Proof

/-- One octet of a burst. -/
abbrev Byte := BitVec 8

/-- A 32-bit word: a house time, an input index, a frame count, or a word of the delay store. -/
abbrev Word32 := BitVec 32

/-- A sample: a 24-bit two's complement value (00_scope.md, Numbers). -/
abbrev Sample := BitVec 24

end Sys2Proof
end

