-- ==== Sys2Proof/Syntax.lean ====
section
/-! DEFINITION. The commands of the part: one constructor of `Instr` for each row of spec/opcode_table.json,
with the operands that the spec's own text gives the row (the table itself lists none). -/

namespace Sys2Proof

/-- A symbol of a trunk line (09, 9.1): four control symbols and the data symbols. -/
inductive LineSymbol where
  | openBurst
  | closeBurst
  | abandon
  | idle
  | data (octet : Byte)
  deriving DecidableEq, Repr

/-- A SAMPLE burst (R159, R183): stream number, channel count, frames of samples, and a capture time if it carries one. -/
structure SampleBurst where
  stream   : Byte
  channels : Nat
  frames   : List (List Sample)
  capture  : Option Word32
  deriving DecidableEq, Repr

/-- A CONTROL burst (R183). `spare` holds header octets 8 to 11, which are not examined but are carried on unchanged (R161). -/
structure ControlBurst where
  destination : Byte
  originator  : Byte
  tag         : Byte
  code        : Byte
  form        : Byte
  spare       : List Byte
  params      : List Byte
  deriving DecidableEq, Repr

/-- A REPORT burst (R183). `spare` holds header octets 6 to 11, carried on unchanged (R161). -/
structure ReportBurst where
  station    : Byte
  reportType : Byte
  digest     : Byte
  spare      : List Byte
  body       : List Byte
  deriving DecidableEq, Repr

/-- A burst of any of the three kinds of 9.1. -/
inductive Burst where
  | sample  (b : SampleBurst)
  | control (b : ControlBurst)
  | report  (b : ReportBurst)
  deriving DecidableEq, Repr

/-- What a management command's burst header says of its sender (R171, R168). -/
structure Sender where
  originator : Byte
  tag        : Byte
  deriving DecidableEq, Repr

/-- A programme, or in the group form a 16-bit programme selection (R34, R98): bit n stands for Pn (R183). -/
inductive ProgrammeChoice where
  | single (programme : Byte)
  | group  (selection : BitVec 16)
  deriving DecidableEq, Repr

/-- The two forms of ACKNOWLEDGE (R134). -/
inductive AcknowledgeChoice where
  | single (index : BitVec 16)
  | group  (kind : Byte) (selection : BitVec 16)
  deriving DecidableEq, Repr

/-- A position record as a TAKE carries it: four octets (R184). -/
structure PositionCode where
  role    : Byte
  feed    : Byte
  channel : Byte
  weight  : Byte
  deriving DecidableEq, Repr

/-- The orders that the spec leaves open among the alarm sweep, the log's write pass and the transfer steps that the write
pass calls for, all at one slice end (R129, R139, R143, R146, R174). -/
inductive SliceOrder where
  | writeStepSweep
  | writeSweepStep
  | sweepWriteStep
  deriving DecidableEq, Repr

/-- The steps of spec/opcode_table.json, one constructor a row, in the table's order. A management command carries its sender
and its parameter fields at the widths R184 gives them, so every value a CONTROL burst can hold is an operand. -/
inductive Instr where
  | powerOnReset (straps : BitVec 6)
  | houseFrame (order : List (Fin 16))
  | burstBoundary
  | servoEvent
  | sliceEnd (order : SliceOrder)
  | referenceEdge
  | referencePresent
  | referenceAbsent
  | symbolReceived (trunk : Fin 4) (symbol : LineSymbol)
  | badBurst (trunk : Fin 4)
  | trunkUnframed (trunk : Fin 4)
  | trunkFramed (trunk : Fin 4)
  | trunkSilenceDown (trunk : Fin 4)
  | sampleBurst (trunk : Fin 4) (burst : SampleBurst)
  | controlBurst (trunk : Fin 4) (burst : ControlBurst)
  | reportBurst (trunk : Fin 4) (burst : ReportBurst)
  | takeFires (programme : Fin 16)
  | feedHoldover (feed : Fin 8)
  | feedLost (feed : Fin 8)
  | feedLocked (feed : Fin 8)
  | clearingComplete (programme : Fin 16)
  | realignmentTaken (programme : Fin 16)
  | managementWindow (trunk : Fin 2) (transferFirst : Bool)
  | restartActs
  | rideStep (programme : Fin 16) (order : SliceOrder)
  | logEntryDue (programme : Fin 16) (order : SliceOrder)
  | alarmRaise (record : Fin 400) (order : SliceOrder)
  | alarmFallEnd (record : Fin 400) (order : SliceOrder)
  | repeatDue (record : Fin 400) (order : SliceOrder)
  | transferStep
  | unknownCommand (sender : Sender) (code form : Byte) (params : List Byte)
  | setFeedRecord (sender : Sender) (object field : Byte) (value : Word32)
  | setProgrammeField (sender : Sender) (object field : Byte) (value : Word32)
  | setOutputMap (sender : Sender) (object field : Byte) (value : Word32)
  | setInputTrunk (sender : Sender) (object field : Byte) (value : Word32)
  | setKindPolicy (sender : Sender) (object field : Byte) (value : Word32)
  | setOriginatorRecord (sender : Sender) (object field : Byte) (value : Word32)
  | setReplyTrunk (sender : Sender) (object field : Byte) (value : Word32)
  | groupSet (sender : Sender) (selection : BitVec 16) (field : Byte) (value : Word32)
  | read (sender : Sender) (group object : Byte) (start count : BitVec 16)
  | load (sender : Sender) (table : Byte) (start : BitVec 16) (codes : List Byte)
  | take (sender : Sender) (programme immediate : Byte) (time : Word32) (restart : Byte) (layout : List PositionCode)
  | takeCancel (sender : Sender) (choice : ProgrammeChoice)
  | allocate (sender : Sender) (programme : Byte) (frames : Word32)
  | release (sender : Sender) (programme : Byte)
  | retire (sender : Sender) (page : BitVec 16)
  | restore (sender : Sender) (page : BitVec 16)
  | readFault (sender : Sender)
  | timeSet (sender : Sender) (value : Word32)
  | timeAdjust (sender : Sender) (shift : Word32)
  | restartMeasurement (sender : Sender) (choice : ProgrammeChoice)
  | acknowledge (sender : Sender) (choice : AcknowledgeChoice)
  | releaseHold (sender : Sender) (programme cls : Byte)
  | logRead (sender : Sender) (mode : Byte) (count : BitVec 16) (stopOnAlarm : Byte)
  | logCancel (sender : Sender)
  | logStatus (sender : Sender)
  | status (sender : Sender)
  | restart (sender : Sender)
  deriving DecidableEq, Repr

end Sys2Proof
end

