-- ==== Sys2Proof/Decode.lean ====
section
/-! DEFINITION. The decoder of command words. The opcode table gives no row any bits: a command reaches the part as a burst of symbols
or as an event, and never as one word. So no word of the table's numbering spells a command. -/

namespace Sys2Proof

/-- The command that a word spells by the table's bits: none, since no row has any. -/
def decodeTableWord (_nbits _w : Nat) : Option Instr := none

end Sys2Proof
end

