-- ==== Sys2Proof/Config.lean ====
section
/-! DEFINITION. What the spec leaves without a value, as constants that nothing in Lean can evaluate. -/

namespace Sys2Proof

/-- The free values: the n-th value the spec does not state. It has no body, so a theorem about it holds whatever it is.
It is taken for the refusal octet of a group reply in which nothing was refused (R184) and for the take time that READ
returns of an immediate take (R184); log entry 4. -/
opaque Config.freeWord : Nat → Word32

end Sys2Proof
end

