-- ==== Sys2Proof/Machine/State.lean ====
section
/-! DEFINITION. The state of the Vantobel 2416: every item the chapters give its blocks, as plain data, with its value after
power-on reset. A field marked MODEL'S OWN is not the spec's: its docstring says what it stands for and which log entry names it. -/

namespace Sys2Proof.Machine

/-! ### Feeds and rate conversion (chapter 01) -/

/-- Feed states (R4). -/
inductive FeedState where
  | off | waiting | priming | acquiring | locked | holdover | lost
  deriving DecidableEq, Repr

/-- The feed record of R1; the ratios are unsigned Q4.28. -/
structure FeedRecord where
  enabled    : Bool
  trunk      : Fin 4
  channels   : Nat
  kernel     : Fin 4
  nominal    : Nat
  rmin       : Nat
  rmax       : Nat
  setpoint   : Nat
  lockWindow : Nat
  timeout    : Nat
  deriving DecidableEq, Repr

/-- An anchor mark: an input index and a capture time (R4, R16). -/
structure Anchor where
  index   : Word32
  capture : Word32
  deriving DecidableEq, Repr

/-- The feed context of R4. `frames` is the buffer, oldest first; the newest index is one before `oldest` plus the count of frames. -/
structure FeedContext where
  state     : FeedState
  frames    : List (List Sample)
  oldest    : Word32
  phase     : Word32
  fraction  : BitVec 28
  started   : Bool
  ratio     : Nat
  rbase     : Nat
  lockCount : Nat
  silence   : Nat
  anchors   : List Anchor
  starve    : Bool
  slip      : Bool
  format    : Bool
  deriving DecidableEq, Repr

/-- A feed: its record and its context. -/
structure Feed where
  record  : FeedRecord
  context : FeedContext
  deriving DecidableEq, Repr

/-- The default feed record (R1). -/
def FeedRecord.initial : FeedRecord :=
  { enabled := false, trunk := 0, channels := 2, kernel := 0, nominal := 268435456, rmin := 268173312, rmax := 268697600,
    setpoint := 48, lockWindow := 4, timeout := 50 }

/-- The feed context at power-on reset (R4). -/
def FeedContext.initial : FeedContext :=
  { state := .off, frames := [], oldest := 0, phase := 0, fraction := 0, started := false, ratio := 268435456,
    rbase := 268435456, lockCount := 0, silence := 0, anchors := [], starve := false, slip := false, format := false }

/-! ### The loaded tables (R22, R83, R86, R91, R104) -/

/-- An entry of the level table: threshold T[j] and representative power V[j] (R91). -/
structure LevelEntry where
  threshold : BitVec 40
  power     : BitVec 40
  deriving DecidableEq, Repr

/-- The tables that LOAD writes, each indexed as R185 gives. -/
structure Tables where
  taps      : List (BitVec 18)
  latencies : List (BitVec 10)
  levels    : List LevelEntry
  gains     : List (BitVec 24)
  unity     : Byte
  weights   : List (BitVec 16)
  filters   : List (BitVec 24)
  deriving DecidableEq, Repr

/-- The taps of one branch of the power-on kernel, linear interpolation (R22); the code of +131,072 is that of −131,072. -/
def initialBranch (b : Nat) : List (BitVec 18) :=
  [0, 0, 0, 0, 0, 0, 0, BitVec.ofNat 18 (131072 - 1024 * b), BitVec.ofNat 18 (1024 * b), 0, 0, 0, 0, 0, 0, 0]

/-- The tables at power-on reset. -/
def Tables.initial : Tables :=
  { taps := (List.range 4).flatMap fun _ => (List.range 128).flatMap initialBranch
    latencies := List.replicate 4 0
    levels := (List.range 256).map fun j => { threshold := BitVec.ofNat 40 (65536 * j), power := BitVec.ofNat 40 (65536 * j + 32768) }
    gains := List.replicate 256 1048576
    unity := 128
    weights := List.replicate 16 16384
    filters := (List.range 8).flatMap fun _ => [1048576, 0, 0, 0, 0] }

/-! ### Programmes and layouts (chapter 02) -/

/-- Position roles, in the order of R26. -/
inductive Role where
  | l | r | c | lfe | ls | rs | lb | rb | m | x
  deriving DecidableEq, Repr

/-- A position record (R26). -/
structure Position where
  role    : Role
  feed    : Fin 8
  channel : Fin 16
  weight  : Fin 16
  deriving DecidableEq, Repr

/-- A layout: 0 to 8 position records (R26). -/
abbrev Layout := List Position

/-- A pending take (R31): `time` is absent when the take is immediate. -/
structure TakeRecord where
  layout  : Layout
  time    : Option Word32
  restart : Bool
  deriving DecidableEq, Repr

inductive TimingMode where
  | tracked | fixed
  deriving DecidableEq, Repr

inductive RideSource where
  | shortTerm | integrated
  deriving DecidableEq, Repr

inductive GainMode where
  | ride | fixed
  deriving DecidableEq, Repr

/-- The TIMING class fields of a programme record (R27). -/
structure TimingFields where
  feed       : Fin 8
  mode       : TimingMode
  offset     : Nat
  fixedDelay : Nat
  tolerance  : Nat
  deriving DecidableEq, Repr

/-- The LEVEL class fields of a programme record (R27). -/
structure LevelFields where
  filterSet      : Fin 4
  target         : Nat
  absoluteGate   : Nat
  relativeOffset : Nat
  rideSource     : RideSource
  gainMode       : GainMode
  fixedGain      : Nat
  gMin           : Nat
  gMax           : Nat
  riseInterval   : Nat
  fallInterval   : Nat
  clipGuard      : Bool
  ceiling        : Nat
  logInterval    : Nat
  deriving DecidableEq, Repr

/-- The holder priorities of a programme (R172). -/
structure Holds where
  route  : Fin 8
  timing : Fin 8
  level  : Fin 8
  deriving DecidableEq, Repr

/-! ### The delay store (chapter 03) -/

inductive StoreState where
  | unallocated | clearing | running
  deriving DecidableEq, Repr

/-- A page number of the delay store, 0 to 16,383. -/
abbrev Page := Fin 16384

/-- The store context of R46. The ring length is 128 times the count of pages. -/
structure StoreContext where
  state    : StoreState
  pages    : List Page
  cleared  : Nat
  write    : Nat
  holds    : Vector Sample 8
  deriving DecidableEq, Repr

/-- The fault record (R59). -/
structure FaultRecord where
  valid     : Bool
  page      : Page
  offset    : BitVec 10
  programme : Fin 16
  time      : Word32
  further   : Nat
  deriving DecidableEq, Repr

/-- The delay store controller's shared state, with the contents of the external DRAM: octet addresses rising, none equal to what
an unlisted address reads as (`blankOctet`, log entry 3). -/
structure DelayStore where
  memory   : List Host.Cell
  freeList : List Page
  retired  : List Page
  fault    : FaultRecord
  deriving DecidableEq, Repr

/-! ### Alignment (chapter 04) -/

/-- The alignment context of R69. The committed delay is the pending target if there is one and `delay` otherwise, so it is
computed (`AlignContext.committed`) and not stored. -/
structure AlignContext where
  delay      : Nat
  pending    : Option Nat
  muted      : Bool
  aligned    : Bool
  misses     : Nat
  delayShort : Bool
  late       : Bool
  realigned  : Bool
  deriving DecidableEq, Repr

inductive ReferenceState where
  | present | absent
  deriving DecidableEq, Repr

/-- The house timebase and the reference monitor (R62, R63, R67). -/
structure Timebase where
  houseTime     : Word32
  frameCounter  : Word32
  /-- MODEL'S OWN: the house time that the next house frame will carry (R62, R64, R65; log entry 5). -/
  nextTime      : Word32
  /-- MODEL'S OWN: the frame count that the next house frame will have (R62; log entry 5). -/
  nextFrame     : Word32
  reference     : ReferenceState
  edgeCount     : Nat
  gapCount      : Nat
  /-- MODEL'S OWN: the coming oscillator period has already been counted by the reference monitor (log entry 9). -/
  gapTaken      : Bool
  /-- MODEL'S OWN: a burst boundary has fallen (R63) and has not yet been taken (log entry 6). -/
  boundaryDue   : Bool
  /-- MODEL'S OWN: a servo event has fallen and has not yet been taken (log entry 6). -/
  servoDue      : Bool
  /-- MODEL'S OWN: a slice end has fallen and has not yet been taken (log entry 6). -/
  sliceDue      : Bool
  /-- MODEL'S OWN: the house frames of the slice in progress, the slice length n_s at its end (5.4; log entry 7). -/
  sliceFrames   : Nat
  deriving DecidableEq, Repr

/-! ### Loudness measurement (chapter 05) -/

/-- The state of one filter stage: two previous inputs and two previous outputs (R81). -/
structure StageState where
  x1 : Int
  x2 : Int
  y1 : Int
  y2 : Int
  deriving DecidableEq, Repr

/-- The filter state of one position: stages 1 and 2 (R81). -/
structure FilterState where
  stage1 : StageState
  stage2 : StageState
  deriving DecidableEq, Repr

/-- An entry of the slice ring: a slice power and a void mark (R89). -/
structure SliceEntry where
  power : Nat
  void  : Bool
  deriving DecidableEq, Repr

/-- The meter context of R81. -/
structure MeterContext where
  filter      : Vector FilterState 8
  powerSum    : Nat
  measured    : Nat
  substituted : Nat
  peaks       : Vector Nat 8
  ring        : List SliceEntry
  histogram   : List Nat
  momentaryPower  : Option Nat
  shortTermPower  : Option Nat
  integratedPower : Option Nat
  momentary   : Option Nat
  shortTerm   : Option Nat
  integrated  : Option Nat
  voidMark    : Bool
  nAbs        : Nat
  gate        : Option Nat
  deriving DecidableEq, Repr

/-! ### Gain riding (chapter 06) -/

/-- The rider context of R103. -/
structure RiderContext where
  gain    : Nat
  rise    : Nat
  fall    : Nat
  aim     : Option Int
  limit   : Bool
  latched : Nat
  deriving DecidableEq, Repr

/-- The PHASE tally of a programme (R123). -/
structure Tally where
  both    : Nat
  opposed : Nat
  deriving DecidableEq, Repr

/-- The loudness log's companions of a programme (R140): the interval counter and the EPOCH mark. -/
structure LogMarks where
  interval : Nat
  epoch    : Bool
  deriving DecidableEq, Repr

/-- A programme: its record (R27) and what each block holds for it. `slots` and `marks` are indexed by slot number;
`outputs` holds the last output sample of each position that has one (R113), and `clips` the clip counts (R114). -/
structure Programme where
  slots   : Vector Layout 2
  take    : Option TakeRecord
  eIn     : BitVec 2
  eOut    : BitVec 2
  marks   : Vector Bool 2
  timing  : TimingFields
  level   : LevelFields
  holds   : Holds
  store   : StoreContext
  align   : AlignContext
  meter   : MeterContext
  rider   : RiderContext
  outputs : List Sample
  clips   : Vector Nat 8
  tally   : Tally
  log     : LogMarks
  deriving DecidableEq, Repr

def StoreContext.initial : StoreContext :=
  { state := .unallocated, pages := [], cleared := 0, write := 0, holds := Vector.replicate 8 0 }

def AlignContext.initial : AlignContext :=
  { delay := 0, pending := none, muted := false, aligned := false, misses := 0, delayShort := false, late := false,
    realigned := false }

def StageState.initial : StageState := { x1 := 0, x2 := 0, y1 := 0, y2 := 0 }

def FilterState.initial : FilterState := { stage1 := StageState.initial, stage2 := StageState.initial }

def MeterContext.initial : MeterContext :=
  { filter := Vector.replicate 8 FilterState.initial, powerSum := 0, measured := 0, substituted := 0,
    peaks := Vector.replicate 8 0, ring := [], histogram := List.replicate 256 0,
    momentaryPower := none, shortTermPower := none, integratedPower := none,
    momentary := none, shortTerm := none, integrated := none, voidMark := false, nAbs := 0, gate := none }

def RiderContext.initial : RiderContext :=
  { gain := 128, rise := 0, fall := 0, aim := none, limit := false, latched := 128 }

def TimingFields.initial : TimingFields :=
  { feed := 0, mode := .fixed, offset := 0, fixedDelay := 0, tolerance := 24 }

def LevelFields.initial : LevelFields :=
  { filterSet := 0, target := 150, absoluteGate := 40, relativeOffset := 40, rideSource := .shortTerm, gainMode := .fixed,
    fixedGain := 128, gMin := 96, gMax := 160, riseInterval := 10, fallInterval := 4, clipGuard := false, ceiling := 8388607,
    logInterval := 0 }

/-- A programme at power-on reset (R27, R46, R69, R81, R103, R114, R123, R140). -/
def Programme.initial : Programme :=
  { slots := Vector.replicate 2 [], take := none, eIn := 0, eOut := 0, marks := Vector.replicate 2 false,
    timing := TimingFields.initial, level := LevelFields.initial, holds := { route := 0, timing := 0, level := 0 },
    store := StoreContext.initial, align := AlignContext.initial, meter := MeterContext.initial, rider := RiderContext.initial,
    outputs := [], clips := Vector.replicate 8 0, tally := { both := 0, opposed := 0 }, log := { interval := 0, epoch := false } }

/-! ### Trunks and output maps (R41, chapter 09) -/

/-- An output map entry: EMPTY, or a programme and a position (R41). -/
abbrev MapEntry := Option (Fin 16 × Fin 8)

/-- An output map record (R41). -/
structure OutputMap where
  stream      : Fin 8
  count       : Nat
  captureTime : Bool
  entries     : Vector MapEntry 32
  deriving DecidableEq, Repr

inductive LastServed where
  | forward | report
  deriving DecidableEq, Repr

/-- An output trunk: its map record, the copy in use, the burst under assembly (frames oldest first, with the house time of the
first), the bursts its transmitter sends in this burst period, and its forward queue and arbiter. -/
structure OutputTrunk where
  map        : OutputMap
  copy       : OutputMap
  assembly   : List (List Sample)
  firstTime  : Word32
  sample     : Option SampleBurst
  management : Option Burst
  /-- MODEL'S OWN: the management window of this burst period has not yet opened (R163; log entry 8). -/
  windowDue  : Bool
  forward    : List Burst
  lastServed : LastServed
  deriving DecidableEq, Repr

inductive ReceiverState where
  | down | hunt | framed
  deriving DecidableEq, Repr

/-- A trunk receiver's context (R153). `assembly` is absent outside a burst, and inside one holds the octets collected, newest first. -/
structure Receiver where
  state    : ReceiverState
  silence  : Nat
  goodRun  : Nat
  badRun   : Nat
  assembly : Option (List Byte)
  /-- MODEL'S OWN: this receiver has already counted the coming house frame (R154; log entry 9). -/
  ticked   : Bool
  deriving DecidableEq, Repr

/-- An input trunk: its record (R152) and its receiver. -/
structure InputTrunk where
  enabled  : Bool
  forward  : Option (Fin 2)
  loopback : Bool
  receiver : Receiver
  deriving DecidableEq, Repr

def OutputMap.initial (n : Fin 8) : OutputMap :=
  { stream := n, count := 2, captureTime := false, entries := Vector.replicate 32 none }

/-- Output trunk `n` at power-on reset (R41, R116, R162, R163, R164). -/
def OutputTrunk.initial (n : Fin 8) : OutputTrunk :=
  { map := OutputMap.initial n, copy := OutputMap.initial n, assembly := [], firstTime := 0, sample := none, management := none,
    windowDue := false, forward := [], lastServed := .forward }

def InputTrunk.initial : InputTrunk :=
  { enabled := true, forward := none, loopback := false,
    receiver := { state := .down, silence := 0, goodRun := 0, badRun := 0, assembly := none, ticked := false } }

/-! ### Alarms (chapter 07) -/

inductive Severity where
  | none | minor | major
  deriving DecidableEq, Repr

/-- A kind policy (R120). -/
structure KindPolicy where
  enabled        : Bool
  severity       : Severity
  raiseCount     : Nat
  clearCount     : Nat
  latching       : Bool
  repeatDelay    : Nat
  repeatInterval : Nat
  parameter1     : Nat
  parameter2     : Nat
  deriving DecidableEq, Repr

inductive AlarmState where
  | clear | rising | active | falling | latched
  deriving DecidableEq, Repr

/-- An alarm record (R130). -/
structure AlarmRecord where
  state        : AlarmState
  count        : Nat
  repeatCount  : Nat
  repeatsDue   : Nat
  acknowledged : Bool
  unreported   : Bool
  timeOfRaise  : Word32
  deriving DecidableEq, Repr

/-- The alarm unit: records, policies, lines, and the two overrun marks of the slice in progress (R118, R120, R129, R133). -/
structure AlarmUnit where
  records        : Vector AlarmRecord 400
  policies       : Vector KindPolicy 18
  major          : Bool
  minor          : Bool
  commandOverrun : Bool
  logOverrun     : Bool
  deriving DecidableEq, Repr

def AlarmRecord.initial : AlarmRecord :=
  { state := .clear, count := 0, repeatCount := 0, repeatsDue := 0, acknowledged := false, unreported := false, timeOfRaise := 0 }

/-- The default policy of each kind (R120). -/
def KindPolicy.initial (kind : Nat) : KindPolicy :=
  { enabled := true
    severity := if kind = 0 ∨ kind = 9 ∨ kind = 13 ∨ kind = 14 ∨ kind = 15 then .major else .minor
    raiseCount := if kind = 0 then 50 else 3
    clearCount := 3, latching := false, repeatDelay := 0, repeatInterval := 0
    parameter1 := if kind = 0 then 256 else if kind = 1 then 1 else if kind = 2 ∨ kind = 3 then 8 else if kind = 4 then 192 else 0
    parameter2 := if kind = 4 then 8192 else 0 }

def AlarmUnit.initial : AlarmUnit :=
  { records := Vector.replicate 400 AlarmRecord.initial, policies := Vector.ofFn fun k => KindPolicy.initial k.val,
    major := false, minor := false, commandOverrun := false, logOverrun := false }

/-! ### The loudness log (chapter 08) -/

/-- A log entry (R141). -/
structure LogEntry where
  time       : Word32
  programme  : Fin 16
  momentary  : Option Nat
  shortTerm  : Option Nat
  integrated : Option Nat
  gain       : Nat
  void       : Bool
  gate       : Bool
  realigned  : Bool
  epoch      : Bool
  alarm      : Bool
  deriving DecidableEq, Repr

inductive TransferState where
  | none | active | ended
  deriving DecidableEq, Repr

inductive TransferMode where
  | single | continuous
  deriving DecidableEq, Repr

inductive EndCause where
  | count | empty | matched | aborted
  deriving DecidableEq, Repr

/-- The transfer record (R145). A `count` of 0 is UNLIMITED, as R184 codes it; `cause` is present while ENDED. -/
structure Transfer where
  state       : TransferState
  mode        : TransferMode
  count       : Nat
  stopOnAlarm : Bool
  delivered   : Nat
  overrun     : Bool
  cause       : Option EndCause
  deriving DecidableEq, Repr

/-- The loudness log (R140). The fill count is the length of the ring. -/
structure LoudnessLog where
  ring     : List LogEntry
  overflow : Bool
  transfer : Transfer
  deriving DecidableEq, Repr

def LoudnessLog.initial : LoudnessLog :=
  { ring := [], overflow := false,
    transfer := { state := .none, mode := .single, count := 0, stopOnAlarm := false, delivered := 0, overrun := false, cause := none } }

/-! ### The command processor (chapter 10) -/

/-- The results of R169, in the order of their codes (R184). -/
inductive CommandResult where
  | done | clamped | noRight | outranked | badValue | busy | noRoom | unknown
  deriving DecidableEq, Repr

/-- The class rights, in the order of R170. -/
inductive RightClass where
  | route | timing | level | alarm | store | tables | log
  deriving DecidableEq, Repr

/-- An originator record (R170); `rights` is indexed in the order ROUTE to LOG. -/
structure Originator where
  enabled  : Bool
  rights   : Vector Bool 7
  priority : Fin 8
  deriving DecidableEq, Repr

inductive AlarmReportType where
  | raise | clear | rpt | state
  deriving DecidableEq, Repr

/-- An alarm report (R135); its kind and object follow from the record index (R119). -/
structure AlarmReport where
  type         : AlarmReportType
  index        : Fin 400
  state        : AlarmState
  severity     : Severity
  acknowledged : Bool
  timeOfRaise  : Word32
  houseTime    : Word32
  deriving DecidableEq, Repr

/-- A REPLY (R168): `items` are the octets of the command's own items, after the five that every REPLY begins with (R184). -/
structure Reply where
  tag        : Byte
  originator : Byte
  code       : Byte
  form       : Byte
  result     : CommandResult
  items      : List Byte
  deriving DecidableEq, Repr

/-- A LOG report (R146); `cause` is present when the report is final. -/
structure LogReport where
  entries   : List LogEntry
  overrun   : Bool
  delivered : Nat
  cause     : Option EndCause
  deriving DecidableEq, Repr

/-- A report of the report queue (R174). -/
inductive Report where
  | reply (r : Reply)
  | alarm (a : AlarmReport)
  | log   (l : LogReport)
  deriving DecidableEq, Repr

inductive ProcessorState where
  | ready | restartPending
  deriving DecidableEq, Repr

/-- The command processor (R167, R170, R174, R165, R158). -/
structure Processor where
  state       : ProcessorState
  commands    : List ControlBurst
  originators : Vector Originator 8
  replyTrunk  : Fin 2
  station     : BitVec 6
  reports     : List Report
  deriving DecidableEq, Repr

/-- Originator record 0 is fixed; records 1 to 7 are disabled with no rights and priority 0 at power-on reset (R170). -/
def Originator.initial (n : Nat) : Originator :=
  if n = 0 then { enabled := true, rights := Vector.replicate 7 true, priority := 7 }
  else { enabled := false, rights := Vector.replicate 7 false, priority := 0 }

def Processor.initial : Processor :=
  { state := .ready, commands := [], originators := Vector.ofFn fun n => Originator.initial n.val, replyTrunk := 0, station := 0,
    reports := [] }

/-! ### The machine -/

/-- The whole part. `pending` is the queue of the commands and events that wait to be taken by `step`, first in, first out. -/
structure State where
  /-- MODEL'S OWN: the commands and events sent to the part and not yet taken (log entry 1). -/
  pending    : List Instr
  feeds      : Vector Feed 8
  tables     : Tables
  programmes : Vector Programme 16
  store      : DelayStore
  time       : Timebase
  inputs     : Vector InputTrunk 4
  outputs    : Vector OutputTrunk 2
  alarms     : AlarmUnit
  log        : LoudnessLog
  processor  : Processor
  /-- MODEL'S OWN: how many free values have been taken, the argument of the next one (log entry 4). -/
  freeCount  : Nat
  deriving DecidableEq, Repr

def DelayStore.initial : DelayStore :=
  { memory := [], freeList := List.finRange 16384, retired := [],
    fault := { valid := false, page := 0, offset := 0, programme := 0, time := 0, further := 0 } }

def Timebase.initial : Timebase :=
  { houseTime := 0, frameCounter := 0, nextTime := 0, nextFrame := 0, reference := .absent, edgeCount := 0, gapCount := 0,
    gapTaken := false, boundaryDue := false, servoDue := false, sliceDue := false, sliceFrames := 0 }

/-- The part after power-on reset. The station number is read from straps, which no reset value fixes: it stands at 0 here
(DESIGN CHOICE, log entry 2), and a POWER_ON_RESET command carries the strap lines' value (R158). -/
def State.reset : State :=
  { pending := []
    feeds := Vector.replicate 8 { record := FeedRecord.initial, context := FeedContext.initial }
    tables := Tables.initial
    programmes := Vector.replicate 16 Programme.initial
    store := DelayStore.initial
    time := Timebase.initial
    inputs := Vector.replicate 4 InputTrunk.initial
    outputs := Vector.ofFn fun n => OutputTrunk.initial ⟨n.val, by omega⟩
    alarms := AlarmUnit.initial
    log := LoudnessLog.initial
    processor := Processor.initial
    freeCount := 0 }

/-! ### Why a step can stop -/

/-- Faults. -/
inductive Fault where
  /-- Raised by a house frame (HOUSE_FRAME) when the write index of a RUNNING programme names no slot of its ring, so that the
  fetch and the write of R55 and R56 have no address in the store. No run from reset comes there (R46 keeps w in 0 to L − 1).
  Safe: the model stops where the spec describes no machine. -/
  | noSlot
  deriving DecidableEq, Repr

/-- Refusals. -/
inductive Refusal where
  /-- Raised by an arm of `exec` whose command has no meaning in the model yet; no arm raises it. Safe. -/
  | notModelled (mnemonic : String)
  deriving DecidableEq, Repr

end Sys2Proof.Machine
end

