-- ==== Sys2Proof/Machine/Ops.lean ====
section
/-! DEFINITION. The shared operations: arithmetic of the conventions chapter, updates of one numbered item, the delay store's
memory and words, the report queue, and what every block asks of programmes, feeds and layouts. -/

namespace Sys2Proof.Machine

/-! ### Arithmetic (00_scope.md, Arithmetic and Time comparison) -/

/-- The difference of two house times or input indices: (a − b) mod 2^32 read as a signed number (R62, R4). -/
def timeDiff (a b : Word32) : Int := (a - b).toInt

/-- House time `a` is at or after house time `b` (R62). -/
def atOrAfter (a b : Word32) : Bool := decide (0 ≤ timeDiff a b)

/-- Clamp a natural number into a range. -/
def clampNat (lo hi x : Nat) : Nat := if x < lo then lo else if hi < x then hi else x

/-- Clamp an integer into a range; saturation is the same. -/
def clampInt (lo hi x : Int) : Int := if x < lo then lo else if hi < x then hi else x

/-- Divide by a positive divisor with rounding half up: add half of the divisor, then floor. -/
def roundHalfUp (x divisor : Int) : Int := (x + divisor / 2) / divisor

/-- Saturate to the sample range and hold as a sample. -/
def toSample (x : Int) : Sample := BitVec.ofInt 24 (clampInt (-8388608) 8388607 x)

/-- Add one, saturating at `top`. -/
def bump (top n : Nat) : Nat := if n < top then n + 1 else top

/-! ### One item of a numbered set -/

/-- Change item `i` by `g`. -/
def updAt {α : Type} {n : Nat} (v : Vector α n) (i : Fin n) (g : α → α) : Vector α n := v.set i (g v[i])

/-- Change every item, each knowing its number. -/
def mapAll {α β : Type} {n : Nat} (g : Fin n → α → β) (v : Vector α n) : Vector β n := Vector.ofFn fun i => g i v[i]

def State.updFeed (s : State) (f : Fin 8) (g : Feed → Feed) : State := { s with feeds := updAt s.feeds f g }

def State.updContext (s : State) (f : Fin 8) (g : FeedContext → FeedContext) : State :=
  s.updFeed f fun x => { x with context := g x.context }

def State.updProgramme (s : State) (p : Fin 16) (g : Programme → Programme) : State :=
  { s with programmes := updAt s.programmes p g }

def State.updInput (s : State) (n : Fin 4) (g : InputTrunk → InputTrunk) : State := { s with inputs := updAt s.inputs n g }

def State.updReceiver (s : State) (n : Fin 4) (g : Receiver → Receiver) : State :=
  s.updInput n fun x => { x with receiver := g x.receiver }

def State.updOutput (s : State) (k : Fin 2) (g : OutputTrunk → OutputTrunk) : State := { s with outputs := updAt s.outputs k g }

def State.updRecord (s : State) (r : Fin 400) (g : AlarmRecord → AlarmRecord) : State :=
  { s with alarms := { s.alarms with records := updAt s.alarms.records r g } }

/-- Take the next free value (log entry 4). -/
def State.free (s : State) : Word32 × State := (Config.freeWord s.freeCount, { s with freeCount := s.freeCount + 1 })

/-! ### The memory of the delay store (chapter 03; log entry 3)

The store is addressed here by octet: word `o` of page `n` stands at octets 4 × (1,024 × n + o) onward, most significant first (R183). -/

/-- Octets in the store: 16,384 pages of 1,024 words. -/
def storeOctets : Nat := 67108864

/-- What an address that is not listed reads as: the word that page clearing writes under epoch 0 (log entry 3). -/
def blankOctet (a : Nat) : Byte := if a % 4 = 0 then 0x84 else 0

/-- The octet at address `a`. -/
def readOctet (m : List Host.Cell) (a : Nat) : Byte :=
  match m.find? fun c => c.1 == a with
  | some c => c.2
  | none => blankOctet a

/-- The cells that a run of octets at `a` onward lists: those that differ from what an unlisted address reads as. -/
def runCells : Nat → List Byte → List Host.Cell
  | _, [] => []
  | a, b :: bs => if b = blankOctet a then runCells (a + 1) bs else (a, b) :: runCells (a + 1) bs

/-- Write a run of octets at `a` onward, keeping the canonical form. -/
def writeRun (m : List Host.Cell) (a : Nat) (bs : List Byte) : List Host.Cell :=
  (m.filter fun c => decide (c.1 < a)) ++ runCells a bs ++ m.filter fun c => decide (a + bs.length ≤ c.1)

/-- Read a run of `n` octets at `a` onward. -/
def readRun (m : List Host.Cell) (a n : Nat) : List Byte :=
  let near := m.filter fun c => decide (a ≤ c.1) && decide (c.1 < a + n)
  (List.range n).map fun i => readOctet near (a + i)

/-- The canonical form: addresses rising, all within the store, and no entry equal to what an unlisted address reads as. -/
abbrev Memory.wf (m : List Host.Cell) : Prop :=
  m.Pairwise (fun c d => c.1 < d.1) ∧ ∀ c ∈ m, c.1 < storeOctets ∧ c.2 ≠ blankOctet c.1

/-- The four octets of a word, most significant first (R183). -/
def wordOctets (w : Word32) : List Byte :=
  [w.extractLsb' 24 8, w.extractLsb' 16 8, w.extractLsb' 8 8, w.extractLsb' 0 8]

/-- The words that a run of octets holds. -/
def octetWords : List Byte → List Word32
  | a :: b :: c :: d :: rest => (a ++ b ++ c ++ d) :: octetWords rest
  | _ => []

/-! ### The delay word (R47, R185) -/

/-- What a delay word carries beside its parity. -/
structure DelayWord where
  sample      : Sample
  epoch       : BitVec 2
  substituted : Bool
  deriving DecidableEq, Repr

/-- The count of ones in a bit string. -/
def ones {n : Nat} (w : BitVec n) : Nat := (List.range n).countP fun i => w.getLsbD i

/-- A word as the part writes it: sample, epoch, substituted mark, four zeros, and even parity (R47, R185). -/
def packWord (x : DelayWord) : Word32 :=
  let low : BitVec 31 := 0#4 ++ BitVec.ofBool x.substituted ++ x.epoch ++ x.sample
  BitVec.ofBool (ones low % 2 == 1) ++ low

/-- The word's fields if it passes parity (R47). -/
def unpackWord (w : Word32) : Option DelayWord :=
  if ones w % 2 = 0 then
    some { sample := w.extractLsb' 0 24, epoch := w.extractLsb' 24 2, substituted := w.getLsbD 26 }
  else none

/-- The octet address of frame `k` (0 to 127) of a page: eight words at word offset 8 × k (R55). -/
def frameAddress (page : Page) (k : Nat) : Nat := 4096 * page.val + 32 * k

/-- Read the eight words of a delay frame. -/
def readFrame (m : List Host.Cell) (page : Page) (k : Nat) : List Word32 := octetWords (readRun m (frameAddress page k) 32)

/-- Write the eight words of a delay frame. -/
def writeFrame (m : List Host.Cell) (page : Page) (k : Nat) (words : List DelayWord) : List Host.Cell :=
  writeRun m (frameAddress page k) (words.flatMap fun x => wordOctets (packWord x))

/-- Clear a page under an epoch: all 1,024 words zero, substituted, with that epoch (R49). -/
def clearPage (m : List Host.Cell) (epoch : BitVec 2) (page : Page) : List Host.Cell :=
  writeRun m (frameAddress page 0)
    ((List.range 1024).flatMap fun _ => wordOctets (packWord { sample := 0, epoch := epoch, substituted := true }))

/-! ### Programmes and feeds -/

/-- The ring length L: 128 delay frames a page (R46). -/
def StoreContext.ringLength (c : StoreContext) : Nat := 128 * c.pages.length

/-- The store state is RUNNING. -/
def Programme.running (p : Programme) : Bool := p.store.state == .running

/-- The slot of an epoch: slot (e mod 2) (R29). -/
def slotOf (e : BitVec 2) : Fin 2 := ⟨e.toNat % 2, Nat.mod_lt _ (by decide)⟩

/-- The in-layout (R29). -/
def Programme.inLayout (p : Programme) : Layout := p.slots[slotOf p.eIn]

/-- The out-layout (R29). -/
def Programme.outLayout (p : Programme) : Layout := p.slots[slotOf p.eOut]

/-- The committed delay: the pending target if there is one, otherwise d (R69). -/
def AlignContext.committed (a : AlignContext) : Nat := a.pending.getD a.delay

/-- Order a realignment (R73). -/
def AlignContext.order (a : AlignContext) (target : Nat) : AlignContext := { a with pending := some target }

/-- A delay clamped into 0 to L − 1. -/
def Programme.clampDelay (p : Programme) (d : Nat) : Nat := clampNat 0 (p.store.ringLength - 1) d

/-- A ratio clamped into Rmin to Rmax (R2). -/
def FeedRecord.clampRatio (r : FeedRecord) (x : Nat) : Nat := clampNat r.rmin r.rmax x

/-- The newest input index (R4). -/
def FeedContext.newest (c : FeedContext) : Word32 := c.oldest + BitVec.ofNat 32 c.frames.length - 1

/-- A feed is converting in ACQUIRING or LOCKED, or in HOLDOVER with its started flag set (1.3). -/
def FeedContext.converting (c : FeedContext) : Bool :=
  match c.state with
  | .acquiring | .locked => true
  | .holdover => c.started
  | _ => false

/-- Empty the buffer, and with it the started flag and the anchor list (R4). -/
def FeedContext.emptied (c : FeedContext) : FeedContext := { c with frames := [], oldest := 0, started := false, anchors := [] }

/-- Reset a feed for priming (R6, R12). -/
def Feed.primingReset (x : Feed) : FeedContext :=
  { x.context.emptied with
    ratio := x.record.clampRatio x.record.nominal, rbase := x.record.clampRatio x.record.nominal,
    lockCount := 0, silence := 0, state := .priming }

/-- A feed in PRIMING, ACQUIRING or LOCKED goes to HOLDOVER, keeping its started flag and silence timer (R8, R9). -/
def FeedContext.toHoldover (c : FeedContext) : FeedContext :=
  match c.state with
  | .priming | .acquiring | .locked => { c with state := .holdover }
  | _ => c

/-- What the feeds of input trunk `n` do when its receiver leaves FRAMED (R9, R155). -/
def State.trunkUnframed (s : State) (n : Fin 4) : State :=
  { s with feeds := mapAll (fun _ x => if x.record.trunk = n then { x with context := x.context.toHoldover } else x) s.feeds }

/-! ### The report queue (R174) -/

/-- The alarm reports in the report queue. -/
def Processor.alarmReports (c : Processor) : Nat := c.reports.countP fun r => match r with | .alarm _ => true | _ => false

/-- The report queue holds fewer than 32 entries. -/
def State.reportRoom (s : State) : Bool := decide (s.processor.reports.length < 32)

/-- Append a report at the tail of the report queue. -/
def State.pushReport (s : State) (r : Report) : State :=
  { s with processor := { s.processor with reports := s.processor.reports ++ [r] } }

end Sys2Proof.Machine
end

