-- ==== Sys2Proof/Machine/Alignment.lean ====
section
/-! DEFINITION. The alignment unit (chapter 04): age samples, realignments, and the effects of TIMING writes. -/

namespace Sys2Proof.Machine

/-! ### Age samples (R70 to R72) -/

/-- The candidate delay D' and the two flags, formed from the wanted delay (R71). -/
def Programme.wantedFlags (p : Programme) (wanted : Int) : AlignContext :=
  { p.align with
    late := decide (wanted < 0)
    delayShort := decide (((p.store.ringLength : Int) - 1) < wanted) }

/-- The candidate delay D': the wanted delay clamped into 0 to L − 1 (R71). -/
def Programme.candidate (p : Programme) (wanted : Int) : Nat := (clampInt 0 (p.store.ringLength - 1) wanted).toNat

/-- Judge a candidate delay against the committed delay (R72). -/
def AlignContext.judge (a : AlignContext) (tolerance candidate : Nat) : AlignContext :=
  if !a.aligned then { a.order candidate with aligned := true, misses := 0 }
  else if ((candidate : Int) - a.committed).natAbs ≤ tolerance then { a with misses := 0 }
  else if a.misses < 2 then { a with misses := a.misses + 1 }
  else { a.order candidate with misses := 0 }

/-- A programme receives an age sample of value `a` (R71, R72). -/
def Programme.ageSample (p : Programme) (a : Int) : Programme :=
  let wanted := (p.timing.offset : Int) - a
  { p with align := (p.wantedFlags wanted).judge p.timing.tolerance (p.candidate wanted) }

/-- The programmes that receive the age samples of feed `f` (R70). -/
def Programme.receivesAges (p : Programme) (f : Fin 8) : Bool :=
  p.running && (p.timing.feed == f) && (p.timing.mode == .tracked)

/-! ### Burst boundaries (R74, R75) -/

/-- A pending realignment whose target differs from d (R74). -/
def AlignContext.realigns (a : AlignContext) : Bool :=
  match a.pending with
  | some t => t != a.delay
  | none => false

/-- What a burst boundary does to the alignment context of a RUNNING programme (R74). -/
def AlignContext.boundary (a : AlignContext) : AlignContext :=
  match a.pending with
  | some t =>
    if t = a.delay then { a with pending := none, muted := false }
    else { a with delay := t, pending := none, muted := true, realigned := true }
  | none => { a with muted := false }

/-- The alignment context at the completion of page clearing (R50, R78). The REALIGNED mark is kept as it stands. -/
def Programme.alignStart (p : Programme) : AlignContext :=
  { AlignContext.initial with delay := p.clampDelay p.timing.fixedDelay, realigned := p.align.realigned }

/-! ### Writes of TIMING fields and of house time (R66, R77) -/

/-- Lose alignment: the aligned flag becomes false and the miss count 0. -/
def AlignContext.unalign (a : AlignContext) : AlignContext := { a with aligned := false, misses := 0 }

/-- A write of the timing mode (R77). -/
def Programme.writeMode (p : Programme) (mode : TimingMode) : Programme :=
  let q : Programme := { p with timing := { p.timing with mode := mode } }
  if mode = p.timing.mode then q
  else
    match mode with
    | .fixed =>
      let a := { p.align with delayShort := false, late := false }
      if p.running then { q with align := a.unalign.order (p.clampDelay p.timing.fixedDelay) } else { q with align := a }
    | .tracked => if p.running then { q with align := { p.align with pending := none }.unalign } else q

/-- A write of the fixed delay (R77). -/
def Programme.writeFixedDelay (p : Programme) (d : Nat) : Programme :=
  let q : Programme := { p with timing := { p.timing with fixedDelay := d } }
  if p.running ∧ p.timing.mode = .fixed then { q with align := p.align.order (p.clampDelay d) } else q

/-- A write of the presentation offset or the timing feed loses the alignment of a RUNNING programme in TRACKED mode (R77). -/
def Programme.writeTiming (p : Programme) (t : TimingFields) : Programme :=
  if p.running ∧ p.timing.mode = .tracked then { p with timing := t, align := p.align.unalign } else { p with timing := t }

/-- What TIME SET and TIME ADJUST do to a programme (R66, step 2). -/
def Programme.timeJump (p : Programme) : Programme :=
  if p.timing.mode = .tracked then { p with align := p.align.unalign } else p

end Sys2Proof.Machine
end

