-- ==== Sys2Proof/Machine/Meter.lean ====
section
/-! DEFINITION. The loudness meter (chapter 05): filtering, power, slices, levels, histogram and integrated level. -/

namespace Sys2Proof.Machine

/-- One position of a frame as the read side hands it on: a sample and its substituted mark (stage 5 of R56). -/
structure Handed where
  sample      : Sample
  substituted : Bool
  deriving DecidableEq, Repr

/-! ### The weighting filter and power (R84 to R87) -/

/-- Coefficient `c` (b0, b1, b2, a1, a2) of a stage (0 or 1) of a filter set (R83, R185). -/
def Tables.coefficient (t : Tables) (set : Fin 4) (stage c : Nat) : Int :=
  (t.filters.getD (10 * set.val + 5 * stage + c) 0).toInt

/-- The output of a stage for the input `u` (R84). -/
def stageOutput (t : Tables) (set : Fin 4) (stage : Nat) (s : StageState) (u : Int) : Int :=
  let v := t.coefficient set stage 0 * u + t.coefficient set stage 1 * s.x1 + t.coefficient set stage 2 * s.x2
    - t.coefficient set stage 3 * s.y1 - t.coefficient set stage 4 * s.y2
  clampInt (-134217728) 134217727 (roundHalfUp v 1048576)

/-- A stage's state after it has formed output `z` from input `u` (R85). -/
def StageState.move (s : StageState) (u z : Int) : StageState := { x1 := u, x2 := s.x1, y1 := z, y2 := s.y1 }

/-- One position through both stages: its new filter state and the output of stage 2 (R84, R85). -/
def filterPosition (t : Tables) (set : Fin 4) (f : FilterState) (x : Int) : FilterState × Int :=
  let z1 := stageOutput t set 0 f.stage1 x
  let z2 := stageOutput t set 1 f.stage2 z1
  ({ stage1 := f.stage1.move x z1, stage2 := f.stage2.move z1 z2 }, z2)

/-- The weighted power r of a position: q = floor(z² / 2^24), r = floor(q × w / 2^14) (R86). -/
def weightedPower (t : Tables) (weight : Fin 16) (z : Int) : Nat :=
  (z * z).toNat / 16777216 * (t.weights.getD weight.val 0).toNat / 16384

/-- Measure one position of a frame (R82): filter state, peak and power sum move; the others stay. -/
def measurePosition (t : Tables) (set : Fin 4) (weight : Fin 16) (x : Sample) (i : Fin 8) (m : MeterContext) : MeterContext :=
  let (f, z) := filterPosition t set m.filter[i] x.toInt
  { m with
    filter := m.filter.set i f
    peaks := updAt m.peaks i fun peak => max peak x.toInt.natAbs
    powerSum := m.powerSum + weightedPower t weight z }

/-- A frame counts as substituted when a position below the out-layout's count carries the mark (R40, R82). -/
def substitutedFrame (layout : Layout) (frame : Vector Handed 8) : Bool :=
  (List.finRange 8).any fun i => decide (i.val < layout.length) && frame[i].substituted

/-- Measure one frame handed on by the read side (R82). -/
def MeterContext.measure (t : Tables) (set : Fin 4) (layout : Layout) (frame : Vector Handed 8) (m : MeterContext) : MeterContext :=
  let m1 := (List.finRange 8).foldl (fun m i =>
    match layout[i.val]? with
    | some pos => measurePosition t set pos.weight frame[i].sample i m
    | none => m) m
  { m1 with
    measured := m1.measured + 1
    substituted := if substitutedFrame layout frame then m1.substituted + 1 else m1.substituted }

/-- Zero the filter state of all eight positions (R85). -/
def MeterContext.zeroFilter (m : MeterContext) : MeterContext := { m with filter := Vector.replicate 8 FilterState.initial }

/-- A measurement restart (R96). -/
def MeterContext.restart (m : MeterContext) : MeterContext :=
  { m with
    ring := [], histogram := List.replicate 256 0, momentaryPower := none, shortTermPower := none, integratedPower := none,
    momentary := none, shortTerm := none, integrated := none, nAbs := 0, gate := none, powerSum := 0, measured := 0,
    substituted := 0 }

/-! ### The slice end (R88 to R95) -/

/-- bin(P): the largest index whose threshold does not exceed P (R91). -/
def bin (levels : List LevelEntry) (power : Nat) : Option Nat :=
  ((levels.zipIdx.filter fun e => decide (e.1.threshold.toNat ≤ power)).getLast?).map (·.2)

/-- The void judgement of a slice of `n` frames (R88). -/
def MeterContext.sliceVoid (m : MeterContext) (n : Nat) : Bool := decide (n < 10 * (m.substituted + (n - m.measured)))

/-- The ring with a new entry, the oldest removed first if it holds 30 (R89). -/
def pushSlice (ring : List SliceEntry) (e : SliceEntry) : List SliceEntry :=
  (if ring.length < 30 then ring else ring.drop 1) ++ [e]

/-- The 4 newest entries of the ring. -/
def newest4 (ring : List SliceEntry) : List SliceEntry := ring.drop (ring.length - 4)

/-- The mean power of some entries. -/
def meanPower (es : List SliceEntry) (n : Nat) : Nat := (es.map SliceEntry.power).sum / n

/-- The momentary power M (R90). -/
def momentaryOf (ring : List SliceEntry) : Option Nat := if 4 ≤ ring.length then some (meanPower (newest4 ring) 4) else none

/-- The short-term power St (R90). -/
def shortTermOf (ring : List SliceEntry) : Option Nat := if 30 ≤ ring.length then some (meanPower ring 30) else none

/-- One count entered at bin `j`; a full bin halves every count first (R92). -/
def countBin (h : List Nat) (j : Nat) : List Nat :=
  (if h.getD j 0 = 65535 then h.map (· / 2) else h).modify j (· + 1)

/-- The histogram after the test of R92. -/
def histogramTest (gAbs : Nat) (ring : List SliceEntry) (level : Option Nat) (h : List Nat) : List Nat :=
  match level with
  | some j => if 4 ≤ ring.length ∧ (newest4 ring).all (fun e => !e.void) ∧ gAbs ≤ j then countBin h j else h
  | none => h

/-- The sum of h[j] over every j at or above a bin (R93). -/
def countFrom (h : List Nat) (gate : Nat) : Nat := (h.drop gate).sum

/-- The sum of h[j] × V[j] over every j at or above a bin (R93). -/
def energyFrom (levels : List LevelEntry) (h : List Nat) (gate : Nat) : Nat :=
  (((h.zip levels).drop gate).map fun e => e.1 * e.2.power.toNat).sum

/-- The integrated power and level and the gate record formed at a slice end (R93). -/
structure Integrated where
  power : Option Nat
  level : Option Nat
  nAbs  : Nat
  gate  : Option Nat
  deriving DecidableEq, Repr

/-- The integrated measurement from the histogram as it stands (R93). -/
def integrate (levels : List LevelEntry) (gAbs offset : Nat) (h : List Nat) : Integrated :=
  let nAbs := countFrom h gAbs
  if nAbs = 0 then { power := none, level := none, nAbs := 0, gate := none }
  else
    let gRel := match bin levels (energyFrom levels h gAbs / nAbs) with
      | some b => b - offset
      | none => 0
    let gate := max gAbs gRel
    let n := countFrom h gate
    if n = 0 then { power := none, level := none, nAbs := nAbs, gate := some gate }
    else
      let power := energyFrom levels h gate / n
      { power := some power, level := bin levels power, nAbs := nAbs, gate := some gate }

/-- The whole slice end of a RUNNING programme's meter, in the order of R94, for a slice of `n` frames. The accumulators and
peaks are set to 0; what they held is handed on by `State.handover`. -/
def MeterContext.slice (levels : List LevelEntry) (gAbs offset n : Nat) (m : MeterContext) : MeterContext :=
  let void := m.sliceVoid n
  let ring := pushSlice m.ring { power := m.powerSum / n, void := void }
  let mp := momentaryOf ring
  let sp := shortTermOf ring
  let level := mp.bind (bin levels)
  let h := histogramTest gAbs ring level m.histogram
  let i := integrate levels gAbs offset h
  { m with
    powerSum := 0, measured := 0, substituted := 0, peaks := Vector.replicate 8 0, ring := ring, histogram := h,
    momentaryPower := mp, shortTermPower := sp, integratedPower := i.power,
    momentary := level, shortTerm := sp.bind (bin levels), integrated := i.level,
    voidMark := m.voidMark || void, nAbs := i.nAbs, gate := i.gate }

end Sys2Proof.Machine
end

