-- ==== Sys2Proof/Machine/Rider.lean ====
section
/-! DEFINITION. The gain rider and the output assembler's arithmetic (chapter 06). -/

namespace Sys2Proof.Machine

/-! ### The ride at a slice end (R105 to R109) -/

/-- The control level (R106). -/
def Programme.controlLevel (p : Programme) : Option Nat :=
  match p.level.rideSource with
  | .shortTerm => p.meter.shortTerm
  | .integrated => p.meter.integrated

/-- The newest entry of the slice ring carries a void mark. -/
def MeterContext.newestVoid (m : MeterContext) : Bool := (m.ring.getLast?.map SliceEntry.void).getD false

/-- In RIDE mode the ride holds (R106). -/
def Programme.rideHolds (p : Programme) : Bool :=
  p.controlLevel.isNone || p.meter.newestVoid ||
    (match p.meter.shortTerm with
     | some b => decide (b < p.level.absoluteGate)
     | none => false)

/-- The aim: U + target bin − control level (R107). -/
def Programme.aimOf (p : Programme) (unity : Byte) (control : Nat) : Int :=
  (unity.toNat : Int) + p.level.target - control

/-- The wanted index g*: the aim clamped into g_min to g_max (R107). -/
def LevelFields.wanted (l : LevelFields) (aim : Int) : Nat := (clampInt l.gMin l.gMax aim).toNat

/-- The ride step of R107 toward the wanted index for an aim. -/
def RiderContext.ride (r : RiderContext) (l : LevelFields) (aim : Int) : RiderContext :=
  let want := l.wanted aim
  if r.gain < want then
    if l.riseInterval ≤ r.rise + 1 then { r with aim := some aim, gain := r.gain + 1, rise := 0, fall := 0 }
    else { r with aim := some aim, rise := r.rise + 1, fall := 0 }
  else if want < r.gain then
    if l.fallInterval ≤ r.fall + 1 then { r with aim := some aim, gain := r.gain - 1, rise := 0, fall := 0 }
    else { r with aim := some aim, rise := 0, fall := r.fall + 1 }
  else { r with aim := some aim, rise := 0, fall := 0 }

/-- A ride that holds (R106). -/
def RiderContext.hold (r : RiderContext) : RiderContext := { r with rise := 0, fall := 0, aim := none }

/-- The ride step at a slice end, according to the gain mode (R105, step 1). -/
def Programme.rideStep (p : Programme) (unity : Byte) : RiderContext :=
  match p.level.gainMode with
  | .fixed => { p.rider.hold with gain := p.level.fixedGain }
  | .ride =>
    if p.rideHolds then p.rider.hold
    else
      match p.controlLevel with
      | some c => p.rider.ride p.level (p.aimOf unity c)
      | none => p.rider.hold

/-- The clip guard (R108). -/
def RiderContext.guard (r : RiderContext) (l : LevelFields) (clipped : Bool) : RiderContext :=
  if l.gainMode = .ride ∧ l.clipGuard ∧ clipped then
    { r with gain := if l.gMin < r.gain then r.gain - 1 else r.gain, rise := 0, fall := 0 }
  else r

/-- The limit mark (R109). -/
def RiderContext.limitMark (r : RiderContext) (l : LevelFields) : RiderContext :=
  { r with
    limit :=
      match l.gainMode, r.aim with
      | .ride, some aim => (decide (r.gain = l.gMax) && decide ((l.gMax : Int) < aim)) ||
          (decide (r.gain = l.gMin) && decide (aim < (l.gMin : Int)))
      | _, _ => false }

/-- Some position has a clip count above 0 (R108). After an epoch switch to a smaller layout within the slice a position at or beyond its
count still hands on the clips kept from before the switch (R114; DESIGN CHOICE, log entry 37). -/
def Programme.clipped (p : Programme) : Bool := (List.finRange 8).any fun i => decide (0 < p.clips[i])

/-- The rider at a slice end: ride step, clip guard, limit mark, in that order (R105). -/
def Programme.riderSlice (p : Programme) (unity : Byte) : RiderContext :=
  ((p.rideStep unity).guard p.level p.clipped).limitMark p.level

/-! ### Writes that act on the rider (R110) -/

/-- g clamped into g_min to g_max; a change resets the counters (R110). -/
def RiderContext.limitTo (r : RiderContext) (gMin gMax : Nat) : RiderContext :=
  let g := clampNat gMin gMax r.gain
  if g = r.gain then r else { r with gain := g, rise := 0, fall := 0 }

/-- A write of g_min or g_max (R110). -/
def Programme.writeLimits (p : Programme) (gMin gMax : Nat) : Programme :=
  { p with
    level := { p.level with gMin := gMin, gMax := gMax }
    rider := if p.level.gainMode = .ride then p.rider.limitTo gMin gMax else p.rider }

/-- A write of the gain mode (R110). -/
def Programme.writeGainMode (p : Programme) (mode : GainMode) : Programme :=
  let q : Programme := { p with level := { p.level with gainMode := mode } }
  if mode = p.level.gainMode then q
  else
    match mode with
    | .fixed => { q with rider := { p.rider with gain := p.level.fixedGain, rise := 0, fall := 0, aim := none, limit := false } }
    | .ride =>
      { q with rider := { p.rider with gain := clampNat p.level.gMin p.level.gMax p.rider.gain, rise := 0, fall := 0, aim := none } }

/-- A write of the fixed gain index (R110). -/
def Programme.writeFixedGain (p : Programme) (g : Nat) : Programme :=
  { p with
    level := { p.level with fixedGain := g }
    rider := if p.level.gainMode = .fixed then { p.rider with gain := g } else p.rider }

/-- What ALLOCATE and RELEASE do to the rider context (R115). -/
def RiderContext.cleared (r : RiderContext) : RiderContext := { r with rise := 0, fall := 0, aim := none, limit := false }

/-- What the RESTART command does to the rider context (R115). -/
def Programme.riderRestart (p : Programme) (unity : Byte) : RiderContext :=
  { p.rider.cleared with
    gain := match p.level.gainMode with
      | .fixed => p.level.fixedGain
      | .ride => clampNat p.level.gMin p.level.gMax unity.toNat }

/-! ### Gain, ceiling and clips (R113, R114) -/

/-- A sample after gain and before saturation (R113). -/
def gained (t : Tables) (latched : Nat) (x : Sample) : Int :=
  roundHalfUp (x.toInt * (t.gains.getD latched 0).toNat) 1048576

/-- Saturate to −c to c (R113). -/
def ceilingTo (c : Nat) (y : Int) : Sample := BitVec.ofInt 24 (clampInt (-c) c y)

/-- An output sample clips when its value before saturation lies outside −c to c (R114). -/
def isClip (c : Nat) (y : Int) : Bool := decide (y < -c) || decide ((c : Int) < y)

/-- The output samples of a frame handed on, one for each position of the out-layout (R113). -/
def Programme.outputSamples (t : Tables) (frame : Vector Handed 8) (p : Programme) : List Sample :=
  ((List.finRange 8).filter fun i => decide (i.val < p.outLayout.length)).map fun i =>
    ceilingTo p.level.ceiling (gained t p.rider.latched frame[i].sample)

/-- The clip counts after a frame handed on (R114). -/
def Programme.countClips (t : Tables) (frame : Vector Handed 8) (p : Programme) : Vector Nat 8 :=
  mapAll (fun i n =>
    if i.val < p.outLayout.length ∧ isClip p.level.ceiling (gained t p.rider.latched frame[i].sample) then n + 1 else n) p.clips

end Sys2Proof.Machine
end

