-- ==== Sys2Proof/Machine/Store.lean ====
section
/-! DEFINITION. The delay store controller (chapter 03): the ring's places, reading and writing delay frames, faults and
retirement, page clearing, and what ALLOCATE, RELEASE and completion of clearing do to a programme. -/

namespace Sys2Proof.Machine

/-! ### Faults and retirement (R57 to R60) -/

/-- A parity fault: where the failing word stood, who fetched it, and when (R59). -/
structure ParityFault where
  page      : Page
  offset    : BitVec 10
  programme : Fin 16
  time      : Word32
  deriving DecidableEq, Repr

/-- Offer a fault to the fault record (R59). -/
def FaultRecord.offer (r : FaultRecord) (f : ParityFault) : FaultRecord :=
  if r.valid then { r with further := bump 255 r.further }
  else { valid := true, page := f.page, offset := f.offset, programme := f.programme, time := f.time, further := 0 }

/-- Enter a page at the end of the retire table, if it is not there and there is room (R58, R53). -/
def retireEntry (retired : List Page) (page : Page) : List Page :=
  if retired.contains page then retired else if retired.length < 32 then retired ++ [page] else retired

/-- A parity fault reaches the fault record, and its page the retire table (R57, R58, R59). -/
def DelayStore.fault1 (d : DelayStore) (f : ParityFault) : DelayStore :=
  { d with fault := d.fault.offer f, retired := retireEntry d.retired f.page }

/-- The fault record after READ FAULT (R60). The page, the word offset, the programme and the house time keep their values, which a later READ
still shows beside the clear valid flag (DESIGN CHOICE, log entry 35). -/
def FaultRecord.emptied (r : FaultRecord) : FaultRecord := { r with valid := false, further := 0 }

/-! ### The ring (R55, R56) -/

/-- The page and the frame within it of a ring slot (R55). -/
def StoreContext.place (c : StoreContext) (slot : Nat) : Option (Page × Nat) :=
  (c.pages[slot / 128]?).map fun page => (page, slot % 128)

/-- The slot fetched: (w − 1 − d) mod L (R56). -/
def Programme.fetchSlot (p : Programme) : Nat :=
  (((p.store.write : Int) - 1 - p.align.delay) % (p.store.ringLength : Int)).toNat

/-- The words of a ring slot as read from the store; a slot without a page has none. -/
def DelayStore.readSlot (d : DelayStore) (c : StoreContext) (slot : Nat) : List Word32 :=
  match c.place slot with
  | some (page, k) => readFrame d.memory page k
  | none => []

/-- Write a delay frame into a ring slot (R55). -/
def DelayStore.writeSlot (d : DelayStore) (c : StoreContext) (slot : Nat) (words : List DelayWord) : DelayStore :=
  match c.place slot with
  | some (page, k) => { d with memory := writeFrame d.memory page k words }
  | none => d

/-- The faults of a fetched frame, in position order (R56, R57). -/
def frameFaults (p : Fin 16) (time : Word32) (place : Option (Page × Nat)) (words : List Word32) : List ParityFault :=
  match place with
  | some (page, k) =>
    (words.zipIdx.filter fun w => (unpackWord w.1).isNone).map fun w =>
      { page := page, offset := BitVec.ofNat 10 (8 * k + w.2), programme := p, time := time }
  | none => []

/-- What a fetched word hands on at a position: its own sample and mark, or the hold value marked substituted (R57). -/
def handWord (hold : Sample) (w : Option DelayWord) : Handed :=
  match w with
  | some x => { sample := x.sample, substituted := x.substituted }
  | none => { sample := hold, substituted := true }

/-- The frame handed on before muting: each word as R57 directs. -/
def handFrame (holds : Vector Sample 8) (words : List Word32) : Vector Handed 8 :=
  Vector.ofFn fun i => handWord holds[i] (words[i.val]?.bind unpackWord)

/-- A muted frame: zero and substituted in every position (R75). -/
def mutedFrame : Vector Handed 8 := Vector.replicate 8 { sample := 0, substituted := true }

/-- The epoch of a fetched frame: that of the lowest-numbered word that passes parity, or e_out (R36). -/
def frameEpoch (eOut : BitVec 2) (words : List Word32) : BitVec 2 :=
  match (words.filterMap unpackWord).head? with
  | some x => x.epoch
  | none => eOut

/-- The output epoch switches on a frame of this epoch (R37, R38). -/
def Programme.switches (p : Programme) (epoch : BitVec 2) : Bool := (epoch == p.eOut + 1) && (p.eOut != p.eIn)

/-- An output epoch switch (R37, R97). -/
def Programme.switchEpoch (p : Programme) : Programme :=
  let e := p.eOut + 1
  let zeroed := p.meter.zeroFilter
  { p with
    eOut := e
    meter := if p.marks[slotOf e] then zeroed.restart else zeroed
    marks := p.marks.set (slotOf e) false
    log := { p.log with epoch := true } }

/-! ### Clearing and completion (R49, R50) -/

/-- The pages that the next burst boundary clears: the next 32 of the list, or all that remain (R49). -/
def StoreContext.nextPages (c : StoreContext) : List Page := (c.pages.drop c.cleared).take 32

/-- The next burst boundary clears the last page (R50). -/
def StoreContext.completes (c : StoreContext) : Bool := decide (c.pages.length ≤ c.cleared + 32)

/-- Completion of clearing, all but the clearing itself (R50, R78, R39). -/
def Programme.complete (p : Programme) : Programme :=
  { p with
    store := { p.store with state := .running, cleared := p.store.pages.length, write := 0, holds := Vector.replicate 8 0 }
    eOut := p.eIn
    align := p.alignStart }

/-- One burst boundary of clearing (R49, R50). -/
def Programme.clearStep (p : Programme) : Programme :=
  if p.store.completes then p.complete else { p with store := { p.store with cleared := p.store.cleared + 32 } }

/-! ### Allocation and release (R48, R52, R115, R123, R140) -/

/-- What the blocks clear at an accepted ALLOCATE and at a RELEASE alike (R99, R115, R123, R140). -/
def Programme.cleared (p : Programme) : Programme :=
  { p with
    meter := MeterContext.initial, rider := p.rider.cleared, clips := Vector.replicate 8 0, outputs := [],
    tally := { both := 0, opposed := 0 }, log := { interval := 0, epoch := false } }

/-- An accepted ALLOCATE gives a programme its pages (R48, R78). -/
def Programme.allocated (p : Programme) (pages : List Page) : Programme :=
  { p.cleared with
    store := { p.store with state := .clearing, pages := pages, cleared := 0 }
    align := { p.align with realigned := false } }

/-- A RELEASE of a programme (R52, R39, R78). -/
def Programme.released (p : Programme) : Programme :=
  { p.cleared with
    store := StoreContext.initial, align := AlignContext.initial, eOut := p.eIn, marks := Vector.replicate 2 false }

/-- A programme at the RESTART command (R29, R46, R78, R99, R115, R138, R140, R172). -/
def Programme.restarted (p : Programme) (unity : Byte) : Programme :=
  { p.released with
    slots := #v[p.inLayout, []], eIn := 0, eOut := 0, take := none, rider := p.riderRestart unity
    holds := { route := 0, timing := 0, level := 0 } }

/-! ### Takes (R32, R33) -/

/-- The house time carried by a coming house frame lets a pending take fire (R32). -/
def TakeRecord.due (t : TakeRecord) (now : Word32) : Bool :=
  match t.time with
  | some time => atOrAfter now time
  | none => true

/-- A take fires (R32 for a RUNNING programme, R33 for any other). -/
def Programme.fire (p : Programme) (t : TakeRecord) : Programme :=
  if p.running then
    let e := p.eIn + 1
    { p with slots := p.slots.set (slotOf e) t.layout, marks := p.marks.set (slotOf e) t.restart, eIn := e, take := none }
  else
    { p with slots := p.slots.set (slotOf p.eIn) t.layout, marks := p.marks.set (slotOf p.eIn) false, take := none }

/-- Fire the pending take of a programme if house time lets it (R32). -/
def Programme.fireDue (now : Word32) (p : Programme) : Programme :=
  match p.take with
  | some t => if t.due now then p.fire t else p
  | none => p

/-- A page that no programme owns and that is not free is parked; every retired page is owned or parked (R43). -/
def State.ownerOf (s : State) (page : Page) : Option (Fin 16) :=
  (List.finRange 16).find? fun p => s.programmes[p].store.pages.contains page

/-- The number of parked pages: retired pages with no owner (R43, R61). -/
def State.parkedCount (s : State) : Nat := s.store.retired.countP fun page => (s.ownerOf page).isNone

end Sys2Proof.Machine
end

