-- ==== Sys2Proof/Machine/Flags.lean ====
section
/-! DEFINITION. Indications computed from the state: the MAJOR and MINOR lines (R133), the alarm kinds and objects of the records
(R118, R119), the programme alarm flag of the log (R141), and the status digest (R175). -/

namespace Sys2Proof.Machine

/-- The object an alarm record watches (R118). -/
inductive AlarmObject where
  | position (p : Fin 16) (q : Fin 8)
  | programme (p : Fin 16)
  | feed (f : Fin 8)
  | trunk (n : Fin 4)
  | part
  deriving DecidableEq, Repr

/-- The kind of a record, from its index (R119). -/
def recordKind (r : Fin 400) : Fin 18 :=
  if r.val < 256 then ⟨r.val % 2, by omega⟩
  else if r.val < 352 then ⟨2 + (r.val - 256) % 6, by omega⟩
  else if r.val < 392 then ⟨8 + (r.val - 352) % 5, by omega⟩
  else if r.val < 396 then 13
  else ⟨14 + (r.val - 396) % 4, by omega⟩

/-- The object of a record, from its index (R119). -/
def recordObject (r : Fin 400) : AlarmObject :=
  if h : r.val < 256 then .position ⟨r.val / 16, by omega⟩ ⟨r.val / 2 % 8, by omega⟩
  else if h2 : r.val < 352 then .programme ⟨(r.val - 256) / 6, by omega⟩
  else if h3 : r.val < 392 then .feed ⟨(r.val - 352) / 5, by omega⟩
  else if h4 : r.val < 396 then .trunk ⟨r.val - 392, by omega⟩
  else .part

/-- The record of a position kind (0 SILENCE, 1 OVER) (R119). -/
def positionRecord (p : Fin 16) (q : Fin 8) (k : Fin 2) : Fin 400 := ⟨2 * (8 * p.val + q.val) + k.val, by omega⟩

/-- The record of a programme kind, `k` counted from LOUD HIGH (R119). -/
def programmeRecord (p : Fin 16) (k : Fin 6) : Fin 400 := ⟨256 + 6 * p.val + k.val, by omega⟩

/-- The policy of a record's kind. -/
def AlarmUnit.policyOf (a : AlarmUnit) (r : Fin 400) : KindPolicy := a.policies[recordKind r]

/-- A record in ACTIVE, FALLING or LATCHED. -/
def AlarmRecord.standing (x : AlarmRecord) : Bool :=
  match x.state with
  | .active | .falling | .latched => true
  | _ => false

/-- Some record of an enabled kind of this severity stands (R133). -/
def AlarmUnit.lineOf (a : AlarmUnit) (v : Severity) : Bool :=
  (List.finRange 400).any fun r => (a.policyOf r).enabled && ((a.policyOf r).severity == v) && a.records[r].standing

/-- Form the MAJOR and MINOR lines anew (R133). -/
def AlarmUnit.formLines (a : AlarmUnit) : AlarmUnit := { a with major := a.lineOf .major, minor := a.lineOf .minor }

def State.formLines (s : State) : State := { s with alarms := s.alarms.formLines }

/-- Some record of the programme or of one of its eight positions stands (R141). -/
def AlarmUnit.programmeAlarm (a : AlarmUnit) (p : Fin 16) : Bool :=
  ((List.finRange 8).any fun q =>
    a.records[positionRecord p q 0].standing || a.records[positionRecord p q 1].standing) ||
  (List.finRange 6).any fun k => a.records[programmeRecord p k].standing

/-- The eight indications of the status digest, in the order of R175 and R183. -/
def State.indications (s : State) : List Bool :=
  [s.alarms.major, s.alarms.minor, (List.finRange 400).any fun r => s.alarms.records[r].unreported,
    !s.log.ring.isEmpty, s.log.transfer.state == .active, s.store.fault.valid, s.time.reference == .present,
    !s.processor.commands.isEmpty]

/-- The status digest octet: the first indication in bit 0 (R183). -/
def State.digest (s : State) : Byte :=
  s.indications.zipIdx.foldl (fun acc b => if b.1 then acc ||| (1#8 <<< b.2) else acc) 0

end Sys2Proof.Machine
end

