-- ==== Sys2Proof/Machine/Log.lean ====
section
/-! DEFINITION. The loudness log (chapter 08): the write pass, discards, transfer steps and the end of a transfer. -/

namespace Sys2Proof.Machine

/-! ### Writing (R141 to R144) -/

/-- The interval counter counts at a slice end of a programme that formed a slice (R142). -/
def Programme.logCounts (p : Programme) : Bool := decide (0 < p.level.logInterval)

/-- The programme is due for an entry at a slice end at which it formed a slice (R142). -/
def Programme.logDue (p : Programme) : Bool := p.logCounts && decide (p.level.logInterval ≤ p.log.interval + 1)

/-- The short-term level is present and below the absolute gate bin (R141, GATE). -/
def Programme.gated (p : Programme) : Bool := p.meter.shortTerm.any fun b => decide (b < p.level.absoluteGate)

/-- The entry formed for a programme (R141). -/
def State.logEntry (s : State) (i : Fin 16) : LogEntry :=
  let p := s.programmes[i]
  { time := s.time.houseTime, programme := i, momentary := p.meter.momentary, shortTerm := p.meter.shortTerm,
    integrated := p.meter.integrated, gain := p.rider.gain, void := p.meter.voidMark, gate := p.gated,
    realigned := p.align.realigned, epoch := p.log.epoch, alarm := s.alarms.programmeAlarm i }

/-- The marks VOID, REALIGNED and EPOCH are cleared when an entry is written, and the interval counter becomes 0 (R142, R143). -/
def Programme.logWritten (p : Programme) : Programme :=
  { p with
    meter := { p.meter with voidMark := false }, align := { p.align with realigned := false },
    log := { interval := 0, epoch := false } }

/-- The discard of the head entry of a full ring (R144). -/
def State.logDiscard (s : State) : State :=
  { s with
    log := { s.log with
      ring := s.log.ring.drop 1, overflow := true
      transfer := if s.log.transfer.state = .active then { s.log.transfer with overrun := true } else s.log.transfer }
    alarms := { s.alarms with logOverrun := true } }

/-- Append an entry at the tail of the ring, discarding the head first if the ring holds 512 (R143, R144). -/
def State.logAppend (s : State) (e : LogEntry) : State :=
  let t := if s.log.ring.length < 512 then s else s.logDiscard
  { t with log := { t.log with ring := t.log.ring ++ [e] } }

/-- The write pass for one programme that formed a slice (R142, R143). -/
def State.logProgramme (s : State) (i : Fin 16) : State :=
  if s.programmes[i].logDue then (s.logAppend (s.logEntry i)).updProgramme i Programme.logWritten
  else if s.programmes[i].logCounts then
    s.updProgramme i fun p => { p with log := { p.log with interval := p.log.interval + 1 } }
  else s

/-- The write pass over the programmes that formed a slice, in ascending number (R143). -/
def State.writePass (formed : Fin 16 → Bool) (s : State) : State :=
  ((List.finRange 16).filter formed).foldl State.logProgramme s

/-! ### Transfer steps (R146, R147) -/

/-- A transfer step can be taken (R146). -/
def State.canStep (s : State) : Bool :=
  (s.log.transfer.state == .active) && s.reportRoom && (!s.log.ring.isEmpty || s.log.transfer.mode == .single)

/-- The entries that a step takes: at most 4, stopping after the one that reaches the count or carries ALARM (R146). -/
def stepEntries (t : Transfer) : Nat → Nat → List LogEntry → List LogEntry
  | _, 0, _ => []
  | _, _, [] => []
  | delivered, room + 1, e :: es =>
    let n := bump 4294967295 delivered
    if (t.count ≠ 0 ∧ n = t.count) ∨ (t.stopOnAlarm ∧ e.alarm) then [e] else e :: stepEntries t n room es

/-- The end cause that holds after a step, the first of the table of R147. -/
def stepCause (t : Transfer) (delivered : Nat) (taken rest : List LogEntry) : Option EndCause :=
  if t.stopOnAlarm ∧ (taken.getLast?.any LogEntry.alarm) then some .matched
  else if t.count ≠ 0 ∧ delivered = t.count then some .count
  else if t.mode = .single ∧ rest = [] then some .empty
  else none

/-- One transfer step (R146, R147). -/
def State.transferStep (s : State) : State :=
  let t := s.log.transfer
  let taken := stepEntries t t.delivered 4 s.log.ring
  let rest := s.log.ring.drop taken.length
  let delivered := clampNat 0 4294967295 (t.delivered + taken.length)
  let cause := stepCause t delivered taken rest
  let after : Transfer :=
    { t with delivered := delivered, state := if cause.isSome then .ended else t.state, cause := cause }
  { s with log := { s.log with ring := rest, transfer := after } }.pushReport
    (.log { entries := taken, overrun := t.overrun, delivered := delivered, cause := cause })

/-- Transfer steps one after another while the condition of R146 holds. Each adds a report, so `fuel` 33 is never used up. -/
def State.transferSteps : Nat → State → State
  | 0, s => s
  | fuel + 1, s => if s.canStep then State.transferSteps fuel s.transferStep else s

/-- The transfer record of an aborted transfer (R148). -/
def Transfer.aborted (t : Transfer) : Transfer := { t with state := .ended, cause := some .aborted }

/-- Offer the final LOG report of an aborted transfer; if the queue is full it does not enter (R148). -/
def State.offerAborted (s : State) : State :=
  if s.reportRoom then
    s.pushReport (.log { entries := [], overrun := s.log.transfer.overrun, delivered := s.log.transfer.delivered, cause := some .aborted })
  else s

end Sys2Proof.Machine
end

