-- ==== Sys2Proof/Machine/Alarms.lean ====
section
/-! DEFINITION. The alarm unit (chapter 07): reports and their entry into the report queue, the moves of a record, the conditions,
the sweep, and what a disable, a RESTART and an acknowledgement do. -/

namespace Sys2Proof.Machine

/-! ### Alarm reports (R135, R136) -/

/-- An alarm report as it is formed when it is offered (R135). -/
def State.formAlarm (s : State) (type : AlarmReportType) (r : Fin 400) : AlarmReport :=
  let x := s.alarms.records[r]
  { type := type, index := r, state := x.state, severity := (s.alarms.policyOf r).severity, acknowledged := x.acknowledged,
    timeOfRaise := x.timeOfRaise, houseTime := s.time.houseTime }

/-- An alarm report can enter: fewer than 24 alarm reports and fewer than 32 entries (R136). -/
def State.alarmRoom (s : State) : Bool := decide (s.processor.alarmReports < 24) && s.reportRoom

/-- Offer an alarm report of record `r` (R136). -/
def State.offerAlarm (s : State) (type : AlarmReportType) (r : Fin 400) : State :=
  if s.alarmRoom then (s.pushReport (.alarm (s.formAlarm type r))).updRecord r fun x => { x with unreported := false }
  else
    match type with
    | .raise | .clear => s.updRecord r fun x => { x with unreported := true }
    | .rpt | .state => s

/-! ### The moves of a record (R130, R131) -/

/-- A move of a record at a sweep: its new contents and the report it offers. -/
structure RecordMove where
  record : AlarmRecord
  offer  : Option AlarmReportType
  deriving DecidableEq, Repr

/-- A record is raised at house time `now` (R130). -/
def AlarmRecord.raised (x : AlarmRecord) (now : Word32) : RecordMove :=
  { record := { x with state := .active, count := 0, repeatCount := 0, repeatsDue := 0, timeOfRaise := now }, offer := some .raise }

/-- A record ends its fall (R130). -/
def AlarmRecord.endFall (x : AlarmRecord) (latching : Bool) : RecordMove :=
  if latching then { record := { x with state := .latched, count := 0, acknowledged := false }, offer := none }
  else { record := { x with state := .clear, count := 0, acknowledged := false }, offer := some .clear }

/-- The count a repeat must reach to fall due (R131). -/
def KindPolicy.repeatAt (k : KindPolicy) (x : AlarmRecord) : Nat :=
  if x.repeatsDue = 0 ∧ k.repeatDelay ≠ 0 then k.repeatDelay else k.repeatInterval

/-- A record that stays ACTIVE: its repeats (R131). -/
def AlarmRecord.stayActive (x : AlarmRecord) (k : KindPolicy) : RecordMove :=
  if x.acknowledged then { record := x, offer := none }
  else
    let n := bump 255 x.repeatCount
    if 0 < k.repeatInterval ∧ k.repeatAt x ≤ n then
      { record := { x with repeatCount := 0, repeatsDue := bump 255 x.repeatsDue }, offer := some .rpt }
    else { record := { x with repeatCount := n }, offer := none }

/-- The move of a record of an enabled kind at a sweep (R130, R131). -/
def AlarmRecord.move (x : AlarmRecord) (k : KindPolicy) (now : Word32) (condition : Bool) : RecordMove :=
  match x.state, condition with
  | .clear, true => if k.raiseCount ≤ 1 then x.raised now else { record := { x with state := .rising, count := 1 }, offer := none }
  | .clear, false => { record := { x with count := 0 }, offer := none }
  | .rising, true =>
    let n := bump 255 x.count
    if k.raiseCount ≤ n then x.raised now else { record := { x with count := n }, offer := none }
  | .rising, false => { record := { x with state := .clear, count := 0 }, offer := none }
  | .active, true => x.stayActive k
  | .active, false =>
    if k.clearCount ≤ 1 then x.endFall k.latching
    else { record := { x with state := .falling, count := 1, acknowledged := false }, offer := none }
  | .falling, true => { record := { x with state := .active, count := 0, acknowledged := false }, offer := none }
  | .falling, false =>
    let n := bump 255 x.count
    if k.clearCount ≤ n then x.endFall k.latching else { record := { x with count := n }, offer := none }
  | .latched, true => { record := { x with state := .active, count := 0, acknowledged := false }, offer := none }
  | .latched, false => { record := x, offer := none }

/-! ### What the slice end hands to the sweep (R122) -/

/-- A feed's flags of the slice just ended (R25). -/
structure FeedFlags where
  starve : Bool
  slip   : Bool
  format : Bool
  deriving DecidableEq, Repr

/-- What a programme whose meter formed a slice hands to the sweep: peaks, clip counts and the PHASE tally. -/
structure SliceValues where
  peaks : Vector Nat 8
  clips : Vector Nat 8
  tally : Tally
  deriving DecidableEq, Repr

/-- The values handed over at a slice end. A programme without values does not count as RUNNING for the sweep. -/
structure SliceHandover where
  feeds      : Vector FeedFlags 8
  programmes : Vector (Option SliceValues) 16
  deriving DecidableEq, Repr

/-! ### The conditions (R123 to R129) -/

/-- Some position of the layout below 8 has this role, and only one: its place (R123, R125). -/
def soleRole (layout : Layout) (role : Role) : Option (Fin 8) :=
  match (List.finRange 8).filter fun i => (layout[i.val]?).any fun pos => pos.role == role with
  | [i] => some i
  | _ => none

/-- The conditions of the position kinds (R124). -/
def positionCondition (k : KindPolicy) (kind : Fin 18) (v : SliceValues) (p : Programme) (q : Fin 8) : Bool :=
  decide (q.val < p.outLayout.length) &&
    (if kind = 0 then decide (v.peaks[q] < k.parameter1) else decide (k.parameter1 ≤ v.clips[q]))

/-- The PHASE condition (R125). -/
def phaseCondition (k : KindPolicy) (v : SliceValues) (p : Programme) : Bool :=
  (soleRole p.outLayout .l).isSome && (soleRole p.outLayout .r).isSome && decide (480 ≤ v.tally.both) &&
    decide (k.parameter1 * v.tally.both < 256 * v.tally.opposed)

/-- The conditions of the programme kinds (R125 to R127). -/
def programmeCondition (k : KindPolicy) (kind : Fin 18) (v : SliceValues) (p : Programme) : Bool :=
  match kind.val with
  | 2 => p.meter.shortTerm.any fun b => decide (p.level.target + k.parameter1 < b)
  | 3 => p.meter.shortTerm.any fun b => decide (p.level.absoluteGate ≤ b) && decide (b + k.parameter1 < p.level.target)
  | 4 => phaseCondition k v p
  | 5 => p.timing.mode == .tracked && p.align.delayShort
  | 6 => p.timing.mode == .tracked && p.align.late
  | _ => p.rider.limit

/-- The conditions of the feed kinds (R128). -/
def feedCondition (kind : Fin 18) (flags : FeedFlags) (x : Feed) : Bool :=
  match kind.val with
  | 8 => x.record.enabled && x.context.state != .locked
  | 9 => x.context.state == .lost
  | 10 => flags.starve
  | 11 => flags.slip
  | _ => flags.format

/-- The conditions of the part's kinds (R129). -/
def partCondition (kind : Fin 18) (s : State) : Bool :=
  match kind.val with
  | 14 => s.time.reference == .absent
  | 15 => s.store.fault.valid
  | 16 => s.alarms.commandOverrun
  | _ => s.alarms.logOverrun

/-- The condition of a record at a sweep (R122). -/
def condition (h : SliceHandover) (s : State) (r : Fin 400) : Bool :=
  let kind := recordKind r
  let k := s.alarms.policyOf r
  match recordObject r with
  | .position p q => (h.programmes[p]).any fun v => positionCondition k kind v s.programmes[p] q
  | .programme p => (h.programmes[p]).any fun v => programmeCondition k kind v s.programmes[p]
  | .feed f => feedCondition kind h.feeds[f] s.feeds[f]
  | .trunk n => s.inputs[n].enabled && s.inputs[n].receiver.state != .framed
  | .part => partCondition kind s

/-! ### The sweep (R122, R137) -/

/-- The re-offer of unreported records, in index order, until one cannot enter (R137). -/
def reoffer : List (Fin 400) → State → State
  | [], s => s
  | r :: rs, s =>
    if s.alarms.records[r].unreported then
      if s.alarmRoom then reoffer rs (s.offerAlarm .state r) else s
    else reoffer rs s

/-- Step 2 of the sweep for one record (R122). -/
def sweepRecord (h : SliceHandover) (s : State) (r : Fin 400) : State :=
  if (s.alarms.policyOf r).enabled then
    let m := s.alarms.records[r].move (s.alarms.policyOf r) s.time.houseTime (condition h s r)
    let t := s.updRecord r fun _ => m.record
    match m.offer with
    | some type => t.offerAlarm type r
    | none => t
  else s

/-- Read the two overrun marks as those of the slice just ended, then clear them (R129). -/
def State.clearOverruns (s : State) : State :=
  { s with alarms := { s.alarms with commandOverrun := false, logOverrun := false } }

/-- One sweep of the alarm unit (R122). -/
def State.sweep (h : SliceHandover) (s : State) : State :=
  ((List.finRange 400).foldl (sweepRecord h) (reoffer (List.finRange 400) s)).clearOverruns.formLines

/-! ### Disable, RESTART and acknowledgement (R132, R134, R138) -/

/-- A record forced to CLEAR, its unreported flag and time of raise kept (R132, R134). -/
def AlarmRecord.forced (x : AlarmRecord) : AlarmRecord :=
  { x with state := .clear, count := 0, repeatCount := 0, repeatsDue := 0, acknowledged := false }

/-- The records of a kind, in index order. -/
def kindRecords (kind : Fin 18) : List (Fin 400) := (List.finRange 400).filter fun r => recordKind r = kind

/-- Of some records, those that stand and so offer a CLEAR report (R132, R138). -/
def State.standingOf (s : State) (rs : List (Fin 400)) : List (Fin 400) := rs.filter fun r => s.alarms.records[r].standing

/-- Offer the CLEAR reports of some records, in order. -/
def State.offerClears (s : State) (rs : List (Fin 400)) : State := rs.foldl (fun s r => s.offerAlarm .clear r) s

/-- The records of a kind that is written disabled, all forced to CLEAR (R132). -/
def State.forceKind (s : State) (kind : Fin 18) : State :=
  { s with alarms := { s.alarms with
      records := mapAll (fun r x => if recordKind r = kind then x.forced else x) s.alarms.records } }

/-- Every record at the RESTART command: CLEAR with its time of raise 0 (R138). -/
def State.forceAll (s : State) : State :=
  { s with alarms := { s.alarms with records := mapAll (fun _ x => { x.forced with timeOfRaise := 0 }) s.alarms.records } }

/-- The result of an ACKNOWLEDGE of one record: DONE, or BUSY in CLEAR, RISING and FALLING (R134). -/
def AlarmRecord.acknowledgeable (x : AlarmRecord) : Bool :=
  match x.state with
  | .active | .latched => true
  | _ => false

/-- The effect of an acknowledgement on a record (R134). -/
def AlarmRecord.acknowledge (x : AlarmRecord) : AlarmRecord :=
  match x.state with
  | .active => { x with acknowledged := true }
  | .latched => x.forced
  | _ => x

/-- The records that a group acknowledgement of a kind 0 to 7 reaches for a programme (R134). -/
def acknowledgeRecords (kind : Fin 8) (p : Fin 16) : List (Fin 400) :=
  if h : kind.val < 2 then (List.finRange 8).map fun q => positionRecord p q ⟨kind.val, h⟩
  else [programmeRecord p ⟨kind.val - 2, by omega⟩]

end Sys2Proof.Machine
end

