-- ==== Sys2Proof/Machine/Feeds.lean ====
section
/-! DEFINITION. The feed converter (chapter 01): arrival of sample bursts, conversion at a house frame, silence and servo. -/

namespace Sys2Proof.Machine

/-! ### Arrival of a sample burst (R6, R7, R10, R13 to R16) -/

/-- The state change that the arrival of an accepted burst causes, before it is stored (R6, R10). -/
def Feed.arrival (x : Feed) : FeedContext :=
  match x.context.state with
  | .waiting | .lost => x.primingReset
  | .holdover =>
    if x.context.started then { x.context with state := .acquiring, lockCount := 0 } else { x.context with state := .priming }
  | _ => x.context

/-- The marks that an overflow leaves: those at or after `limit` (R14, R15). -/
def keepMarks (limit : Word32) (marks : List Anchor) : List Anchor := marks.filter fun m => atOrAfter m.index limit

/-- Store a burst's frames at the tail of the buffer; past 256 frames the oldest are discarded (R14, R15). -/
def FeedContext.storeFrames (c : FeedContext) (frames : List (List Sample)) : FeedContext :=
  let all := c.frames ++ frames
  let k := all.length - 256
  if k = 0 then { c with frames := all }
  else
    let oldest := c.oldest + BitVec.ofNat 32 k
    if c.converting then
      let phase := c.phase + BitVec.ofNat 32 k
      { c with frames := all.drop k, oldest := oldest, phase := phase, slip := true, anchors := keepMarks phase c.anchors }
    else { c with frames := all.drop k, oldest := oldest, slip := true, anchors := keepMarks oldest c.anchors }

/-- Append an anchor mark, dropping the oldest when the list holds 8 (R16). -/
def appendMark (marks : List Anchor) (m : Anchor) : List Anchor :=
  (if marks.length < 8 then marks else marks.drop 1) ++ [m]

/-- Conversion starts when a priming buffer holds the setpoint plus 8 frames (R7). -/
def FeedContext.startConversion (c : FeedContext) (setpoint : Nat) : FeedContext :=
  if c.state = .priming ∧ setpoint + 8 ≤ c.frames.length then
    { c with phase := c.oldest + 7, fraction := 0, started := true, lockCount := 0, state := .acquiring }
  else c

/-- Take an accepted burst: state change, storing, anchor mark, silence timer, start of conversion (R13, step 3). -/
def Feed.accept (x : Feed) (b : SampleBurst) : FeedContext :=
  let c := x.arrival
  let first := c.newest + 1
  let stored := c.storeFrames b.frames
  let marked :=
    match b.capture with
    | some t => { stored with anchors := appendMark stored.anchors { index := first, capture := t } }
    | none => stored
  { marked with silence := 0 }.startConversion x.record.setpoint

/-- A SAMPLE burst delivered for a feed from input trunk `n` (R13). -/
def Feed.deliver (x : Feed) (n : Fin 4) (b : SampleBurst) : FeedContext :=
  if x.context.state = .off then x.context
  else if n ≠ x.record.trunk ∨ b.channels ≠ x.record.channels then { x.context with format := true }
  else x.accept b

/-! ### Conversion at a house frame (R17 to R21) -/

/-- The output frame that a feed presents at a house frame: channel-count samples and one substituted mark (R17). -/
structure FeedOutput where
  samples     : List Sample
  substituted : Bool
  deriving DecidableEq, Repr

/-- A frame of zeros marked substituted (R17). -/
def FeedOutput.silent (channels : Nat) : FeedOutput := { samples := List.replicate channels 0, substituted := true }

/-- The value of a tap code: two's complement, save that the code of −131,072 stands for +131,072 (R22). -/
def tapValue (t : BitVec 18) : Int := if t = 0x20000 then 131072 else t.toInt

/-- The sixteen taps of branch `b` of kernel `k` (R22, R185). -/
def Tables.branch (t : Tables) (k : Fin 4) (b : Nat) : List (BitVec 18) := (t.taps.drop (2048 * k.val + 16 * b)).take 16

/-- The exact sum S of sixteen products (R19, step 2). -/
def tapSum : List (BitVec 18) → List Int → Int
  | t :: ts, x :: xs => tapValue t * x + tapSum ts xs
  | _, _ => 0

/-- The sixteen stored frames that interpolation reads, indices i − 7 to i + 8 (R19). -/
def FeedContext.window (c : FeedContext) : List (List Sample) := (c.frames.drop (c.phase - 7 - c.oldest).toNat).take 16

/-- The output frame of a converting feed that is not starved (R19). -/
def interpolate (t : Tables) (r : FeedRecord) (c : FeedContext) : FeedOutput :=
  let taps := t.branch r.kernel (c.fraction.toNat / 2097152)
  { samples := (List.range r.channels).map fun ch =>
      toSample (roundHalfUp (tapSum taps (c.window.map fun frame => (frame.getD ch 0).toInt)) 131072)
    substituted := false }

/-- The phase advances by R; frames before i − 7 are released (R20). The marks crossed are taken by `crossedMarks`. -/
def FeedContext.advance (c : FeedContext) : FeedContext :=
  let sum := c.fraction.toNat + c.ratio
  let phase := c.phase + BitVec.ofNat 32 (sum / 268435456)
  let oldest := phase - 7
  { c with
    phase := phase, fraction := BitVec.ofNat 28 (sum % 268435456),
    frames := c.frames.drop (oldest - c.oldest).toNat, oldest := oldest,
    anchors := c.anchors.dropWhile fun m => atOrAfter phase m.index }

/-- The marks that `advance` crosses, in list order (R20). -/
def FeedContext.crossedMarks (c : FeedContext) : List Anchor :=
  c.anchors.takeWhile fun m => atOrAfter c.advance.phase m.index

/-- What one feed does at a house frame of house time `h`: its context, its output frame, and its age samples in order. -/
structure Conversion where
  context : FeedContext
  output  : FeedOutput
  ages    : List Int

/-- A converting feed is starved when the newest index is before i + 8 (R18). -/
def FeedContext.starved (c : FeedContext) : Bool := !atOrAfter c.newest (c.phase + 8)

/-- The value of an age sample (R21). -/
def ageValue (h t : Word32) (latency : BitVec 10) : Int := timeDiff h t + latency.toNat

/-- One feed at a house frame (R17 to R21). -/
def Feed.convert (t : Tables) (h : Word32) (x : Feed) : Conversion :=
  let c := x.context
  if c.converting then
    if c.starved then
      { context := { c with starve := true }, output := FeedOutput.silent x.record.channels, ages := [] }
    else
      { context := c.advance, output := interpolate t x.record c
        ages := c.crossedMarks.map fun m => ageValue h m.capture (t.latencies.getD x.record.kernel.val 0) }
  else { context := c, output := FeedOutput.silent x.record.channels, ages := [] }

/-! ### Silence and servo (R8, R11, R23, R24) -/

/-- A feed that enters LOST (R11). -/
def FeedContext.toLost (c : FeedContext) : FeedContext := { c.emptied with state := .lost, silence := 0 }

/-- The silence timer of one feed at a burst boundary, and what its new value does (R8, R11). -/
def Feed.silenceTick (x : Feed) : FeedContext :=
  let c := x.context
  match c.state with
  | .priming | .acquiring | .locked =>
    let n := bump 255 c.silence
    if 4 ≤ n then { c with silence := n, state := .holdover } else { c with silence := n }
  | .holdover =>
    let n := bump 255 c.silence
    if x.record.timeout ≤ n then c.toLost else { c with silence := n }
  | _ => c

/-- The fill error e (R23). -/
def Feed.fillError (x : Feed) : Int := timeDiff x.context.newest x.context.phase - x.record.setpoint

/-- A clamp into Rmin to Rmax of a signed result (R23). -/
def FeedRecord.clampRatioInt (r : FeedRecord) (x : Int) : Nat := (clampInt r.rmin r.rmax x).toNat

/-- The servo event of one feed (R23, R24). -/
def Feed.servo (x : Feed) : FeedContext :=
  let c := x.context
  if c.state = .acquiring ∨ c.state = .locked then
    let e := x.fillError
    let rbase := x.record.clampRatioInt (c.rbase + 16 * e)
    let ratio := x.record.clampRatioInt (rbase + 1024 * e)
    let lock := if e.natAbs ≤ x.record.lockWindow then bump 8 c.lockCount else 0
    let state :=
      if c.state = .acquiring ∧ lock = 8 then FeedState.locked
      else if c.state = .locked ∧ 4 * x.record.lockWindow < e.natAbs then .acquiring
      else c.state
    { c with rbase := rbase, ratio := ratio, lockCount := lock, state := state }
  else c

/-- The feed context that the RESTART command leaves (R4). -/
def Feed.restarted (x : Feed) : FeedContext :=
  { FeedContext.initial with
    state := if x.record.enabled then .waiting else .off
    ratio := x.record.clampRatio x.record.nominal
    rbase := x.record.clampRatio x.record.nominal }

/-! ### Writes of a feed record (R2, R3, R5, R12) -/

/-- A write of the enabled field (R5). -/
def Feed.writeEnabled (x : Feed) (on : Bool) : Feed :=
  let record := { x.record with enabled := on }
  if on then
    { record := record, context := if x.context.state = .off then { x.context with state := .waiting, lockCount := 0 } else x.context }
  else { record := record, context := { x.context.emptied with state := .off, silence := 0 } }

/-- A write of the channel count: a change resets a feed that is not OFF for priming (R12). -/
def Feed.writeChannels (x : Feed) (n : Nat) : Feed :=
  let y : Feed := { x with record := { x.record with channels := n } }
  if x.record.channels = n ∨ x.context.state = .off then y else { y with context := y.primingReset }

/-- A write of the source trunk; a running feed whose new trunk is not FRAMED goes to HOLDOVER at once (R3). -/
def Feed.writeTrunk (x : Feed) (n : Fin 4) (framed : Bool) : Feed :=
  { record := { x.record with trunk := n }, context := if framed then x.context else x.context.toHoldover }

/-- An accepted write of Rmin or Rmax clamps R and Rbase at once (R2). -/
def Feed.writeLimits (x : Feed) (rmin rmax : Nat) : Feed :=
  let r := { x.record with rmin := rmin, rmax := rmax }
  { record := r, context := { x.context with ratio := r.clampRatio x.context.ratio, rbase := r.clampRatio x.context.rbase } }

end Sys2Proof.Machine
end

