-- ==== Sys2Proof/Machine/Operands.lean ====
section
/-! DEFINITION. Operands and items of the management commands (R183, R184): numbers as octets, the commands by code and form, the
coding of fields and of the items that replies carry. -/

namespace Sys2Proof.Machine

/-! ### Numbers and octets (R183) -/

/-- A number of `n` octets, most significant first (R183). -/
def octetsOf : Nat → Nat → List Byte
  | 0, _ => []
  | n + 1, x => BitVec.ofNat 8 (x / 256 ^ n) :: octetsOf n x

/-- The unsigned number that octets hold, most significant first (R183). -/
def numberOf (bs : List Byte) : Nat := bs.foldl (fun acc b => 256 * acc + b.toNat) 0

/-- Two octets as a field. -/
def field2 (a b : Byte) : BitVec 16 := a ++ b

/-- Four octets as a field. -/
def field4 (a b c d : Byte) : Word32 := a ++ b ++ c ++ d

/-- A flag operand: 1 when set or yes, 0 when clear or no, no other value (R183). -/
def flagOf (x : Nat) : Option Bool := if x = 0 then some false else if x = 1 then some true else none

/-- The number of a thing below `n` (a feed, a trunk, a value from a list), if it is in range. -/
def below (n x : Nat) : Option (Fin n) := if h : x < n then some ⟨x, h⟩ else none

def codeOf (b : Bool) : Nat := if b then 1 else 0

/-! ### Commands by code and form (R184) -/

/-- A command of the command list, with its parameters at the widths of R184. -/
inductive Command where
  | set (target object field : Byte) (value : Word32)
  | groupSet (selection : BitVec 16) (field : Byte) (value : Word32)
  | read (group object : Byte) (start count : BitVec 16)
  | load (table : Byte) (start : BitVec 16) (codes : List Byte)
  | take (programme immediate : Byte) (time : Word32) (restart : Byte) (layout : List PositionCode)
  | takeCancel (choice : ProgrammeChoice)
  | allocate (programme : Byte) (frames : Word32)
  | release (programme : Byte)
  | retire (page : BitVec 16)
  | restore (page : BitVec 16)
  | readFault
  | timeSet (value : Word32)
  | timeAdjust (shift : Word32)
  | restartMeasurement (choice : ProgrammeChoice)
  | acknowledge (choice : AcknowledgeChoice)
  | releaseHold (programme cls : Byte)
  | logRead (mode : Byte) (count : BitVec 16) (stopOnAlarm : Byte)
  | logCancel
  | logStatus
  | status
  | restart
  deriving DecidableEq, Repr

/-- The position records of a TAKE, four octets each (R184). -/
def positionCodes : List Byte → Option (List PositionCode)
  | [] => some []
  | a :: b :: c :: d :: rest => (positionCodes rest).map fun ps => { role := a, feed := b, channel := c, weight := d } :: ps
  | _ => none

/-- The code width of a table in octets, by table code (R185). -/
def tableWidth (table : Byte) : Option Nat := [3, 2, 10, 3, 1, 2, 3][table.toNat]?

/-- The number of entries of a table (R185). -/
def tableSize (table : Byte) : Nat := [8192, 4, 256, 256, 1, 16, 40].getD table.toNat 0

/-- The codes of a LOAD are one or more whole codes of the table it names (R179, R185). A table that is not in the list has no code width.
DESIGN CHOICE (log 40, unsafe): its LOAD, with codes or with none, passes step 2 of R168, so the right is judged before the table number. -/
def wholeCodes (table : Byte) (codes : List Byte) : Bool :=
  match tableWidth table with
  | some w => !codes.isEmpty && codes.length % w == 0
  | none => true

/-- Why a CONTROL burst names no command that can be judged further: UNKNOWN, or BAD VALUE for its length (R168, steps 1 and 2). -/
inductive NoCommand where
  | unknown
  | badLength
  deriving DecidableEq, Repr

def withLength (c : Option Command) : Except NoCommand Command :=
  match c with
  | some c => .ok c
  | none => .error .badLength

/-- The command that a code, a form and parameter octets name (R184; R168, steps 1 and 2). -/
def decodeCommand (code form : Byte) (params : List Byte) : Except NoCommand Command :=
  match code.toNat, form.toNat with
  | 1, 0 => withLength (match params with
    | [t, o, f, a, b, c, d] => some (.set t o f (field4 a b c d))
    | _ => none)
  | 2, 0 => withLength (match params with
    | [m, n, f, a, b, c, d] => some (.groupSet (field2 m n) f (field4 a b c d))
    | _ => none)
  | 3, 0 => withLength (match params with
    | [g, o, a, b, c, d] => some (.read g o (field2 a b) (field2 c d))
    | _ => none)
  | 4, 0 => withLength (match params with
    | t :: a :: b :: codes => if wholeCodes t codes then some (.load t (field2 a b) codes) else none
    | _ => none)
  | 5, 0 => withLength (match params with
    | p :: i :: a :: b :: c :: d :: r :: n :: rest =>
      if rest.length = 4 * n.toNat then (positionCodes rest).map (.take p i (field4 a b c d) r) else none
    | _ => none)
  | 6, 0 => withLength (match params with
    | [p] => some (.takeCancel (.single p))
    | _ => none)
  | 6, 1 => withLength (match params with
    | [m, n] => some (.takeCancel (.group (field2 m n)))
    | _ => none)
  | 7, 0 => withLength (match params with
    | [p, a, b, c, d] => some (.allocate p (field4 a b c d))
    | _ => none)
  | 8, 0 => withLength (match params with
    | [p] => some (.release p)
    | _ => none)
  | 9, 0 => withLength (match params with
    | [a, b] => some (.retire (field2 a b))
    | _ => none)
  | 10, 0 => withLength (match params with
    | [a, b] => some (.restore (field2 a b))
    | _ => none)
  | 11, 0 => withLength (match params with
    | [] => some .readFault
    | _ => none)
  | 12, 0 => withLength (match params with
    | [a, b, c, d] => some (.timeSet (field4 a b c d))
    | _ => none)
  | 13, 0 => withLength (match params with
    | [a, b, c, d] => some (.timeAdjust (field4 a b c d))
    | _ => none)
  | 14, 0 => withLength (match params with
    | [p] => some (.restartMeasurement (.single p))
    | _ => none)
  | 14, 1 => withLength (match params with
    | [m, n] => some (.restartMeasurement (.group (field2 m n)))
    | _ => none)
  | 15, 0 => withLength (match params with
    | [a, b] => some (.acknowledge (.single (field2 a b)))
    | _ => none)
  | 15, 1 => withLength (match params with
    | [k, m, n] => some (.acknowledge (.group k (field2 m n)))
    | _ => none)
  | 16, 0 => withLength (match params with
    | [p, c] => some (.releaseHold p c)
    | _ => none)
  | 17, 0 => withLength (match params with
    | [m, a, b, s] => some (.logRead m (field2 a b) s)
    | _ => none)
  | 18, 0 => withLength (match params with
    | [] => some .logCancel
    | _ => none)
  | 19, 0 => withLength (match params with
    | [] => some .logStatus
    | _ => none)
  | 20, 0 => withLength (match params with
    | [] => some .status
    | _ => none)
  | 21, 0 => withLength (match params with
    | [] => some .restart
    | _ => none)
  | _, _ => .error .unknown

/-- The code, form and parameter octets that carry a command (R184). -/
structure Encoded where
  code   : Byte
  form   : Byte
  params : List Byte
  deriving DecidableEq, Repr

def octets16 (x : BitVec 16) : List Byte := [x.extractLsb' 8 8, x.extractLsb' 0 8]

def positionCodeOctets (p : PositionCode) : List Byte := [p.role, p.feed, p.channel, p.weight]

/-- The encoding of a command (R184). -/
def encodeCommand : Command → Encoded
  | .set t o f v => { code := 1, form := 0, params := [t, o, f] ++ wordOctets v }
  | .groupSet m f v => { code := 2, form := 0, params := octets16 m ++ [f] ++ wordOctets v }
  | .read g o s c => { code := 3, form := 0, params := [g, o] ++ octets16 s ++ octets16 c }
  | .load t s codes => { code := 4, form := 0, params := [t] ++ octets16 s ++ codes }
  | .take p i t r l =>
    { code := 5, form := 0, params := [p, i] ++ wordOctets t ++ [r, BitVec.ofNat 8 l.length] ++ l.flatMap positionCodeOctets }
  | .takeCancel (.single p) => { code := 6, form := 0, params := [p] }
  | .takeCancel (.group m) => { code := 6, form := 1, params := octets16 m }
  | .allocate p n => { code := 7, form := 0, params := [p] ++ wordOctets n }
  | .release p => { code := 8, form := 0, params := [p] }
  | .retire n => { code := 9, form := 0, params := octets16 n }
  | .restore n => { code := 10, form := 0, params := octets16 n }
  | .readFault => { code := 11, form := 0, params := [] }
  | .timeSet v => { code := 12, form := 0, params := wordOctets v }
  | .timeAdjust v => { code := 13, form := 0, params := wordOctets v }
  | .restartMeasurement (.single p) => { code := 14, form := 0, params := [p] }
  | .restartMeasurement (.group m) => { code := 14, form := 1, params := octets16 m }
  | .acknowledge (.single n) => { code := 15, form := 0, params := octets16 n }
  | .acknowledge (.group k m) => { code := 15, form := 1, params := [k] ++ octets16 m }
  | .releaseHold p c => { code := 16, form := 0, params := [p, c] }
  | .logRead m c f => { code := 17, form := 0, params := [m] ++ octets16 c ++ [f] }
  | .logCancel => { code := 18, form := 0, params := [] }
  | .logStatus => { code := 19, form := 0, params := [] }
  | .status => { code := 20, form := 0, params := [] }
  | .restart => { code := 21, form := 0, params := [] }

/-- A command whose parameters a CONTROL burst can hold and whose length R184 and R185 accept: at most 256 octets (R151). -/
def Command.fits : Command → Bool
  | .load t _ codes => wholeCodes t codes && decide (codes.length ≤ 253)
  | .take _ _ _ _ l => decide (l.length ≤ 62)
  | _ => true

/-! ### Items of replies (R184) -/

/-- An item of 4 octets. -/
def item (x : Nat) : List Byte := octetsOf 4 x

/-- An item of 8 octets, for powers. -/
def item8 (x : Nat) : List Byte := octetsOf 8 x

/-- A signed item, two's complement. -/
def itemInt (x : Int) : List Byte := wordOctets (BitVec.ofInt 32 x)

def itemWord (x : Word32) : List Byte := wordOctets x

def itemFlag (b : Bool) : List Byte := item (codeOf b)

/-- An item that may be absent. -/
def itemOption (x : Option Nat) : List Byte := item (x.getD 4294967295)

/-- A power that may be absent. -/
def powerOption (x : Option Nat) : List Byte := item8 (x.getD 18446744073709551615)

/-- An item that may be absent and whose values can take the absent code: a presence octet and its 4 octets (R184). -/
def itemPresence (x : Option Word32) : List Byte :=
  match x with
  | some w => 1 :: wordOctets w
  | none => [0, 0, 0, 0, 0]

/-- A list: its length followed by its members (R184). -/
def itemList (ms : List (List Byte)) : List Byte := item ms.length ++ ms.flatten

/-- The codes of values from a list, by their places (R183). -/
def FeedState.code : FeedState → Nat
  | .off => 0 | .waiting => 1 | .priming => 2 | .acquiring => 3 | .locked => 4 | .holdover => 5 | .lost => 6

def StoreState.code : StoreState → Nat
  | .unallocated => 0 | .clearing => 1 | .running => 2

def ReceiverState.code : ReceiverState → Nat
  | .down => 0 | .hunt => 1 | .framed => 2

def ReferenceState.code : ReferenceState → Nat
  | .present => 0 | .absent => 1

def AlarmState.code : AlarmState → Nat
  | .clear => 0 | .rising => 1 | .active => 2 | .falling => 3 | .latched => 4

def Severity.code : Severity → Nat
  | .none => 0 | .minor => 1 | .major => 2

def TransferState.code : TransferState → Nat
  | .none => 0 | .active => 1 | .ended => 2

def TransferMode.code : TransferMode → Nat
  | .single => 0 | .continuous => 1

/-- The end cause as an item: its place in the list of R145 (R183). -/
def EndCause.code : EndCause → Nat
  | .count => 0 | .empty => 1 | .matched => 2 | .aborted => 3

def LastServed.code : LastServed → Nat
  | .forward => 0 | .report => 1

def TimingMode.code : TimingMode → Nat
  | .tracked => 0 | .fixed => 1

def RideSource.code : RideSource → Nat
  | .shortTerm => 0 | .integrated => 1

def GainMode.code : GainMode → Nat
  | .ride => 0 | .fixed => 1

def Role.code : Role → Nat
  | .l => 0 | .r => 1 | .c => 2 | .lfe => 3 | .ls => 4 | .rs => 5 | .lb => 6 | .rb => 7 | .m => 8 | .x => 9

def CommandResult.code : CommandResult → Nat
  | .done => 0 | .clamped => 1 | .noRight => 2 | .outranked => 3 | .badValue => 4 | .busy => 5 | .noRoom => 6 | .unknown => 7

/-- The values from a list by their codes. -/
def roleOf (x : Nat) : Option Role :=
  [Role.l, .r, .c, .lfe, .ls, .rs, .lb, .rb, .m, .x][x]?

def timingModeOf (x : Nat) : Option TimingMode := [TimingMode.tracked, .fixed][x]?

def rideSourceOf (x : Nat) : Option RideSource := [RideSource.shortTerm, .integrated][x]?

def gainModeOf (x : Nat) : Option GainMode := [GainMode.ride, .fixed][x]?

def severityOf (x : Nat) : Option Severity := [Severity.none, .minor, .major][x]?

def transferModeOf (x : Nat) : Option TransferMode := [TransferMode.single, .continuous][x]?

/-- The class of a RELEASE HOLD: ROUTE 0, TIMING 1, LEVEL 2 (R184). -/
def holdClassOf (x : Nat) : Option RightClass := [RightClass.route, .timing, .level][x]?

/-- The place of a class among the rights of an originator record (R170). -/
def RightClass.index : RightClass → Fin 7
  | .route => 0 | .timing => 1 | .level => 2 | .alarm => 3 | .store => 4 | .tables => 5 | .log => 6

/-- A position record as one item: role, source feed, source channel, weight index (R184). -/
def Position.octets (p : Position) : List Byte :=
  [BitVec.ofNat 8 p.role.code, BitVec.ofNat 8 p.feed.val, BitVec.ofNat 8 p.channel.val, BitVec.ofNat 8 p.weight.val]

/-- The position that a TAKE's record names, if all four fields are in range (R26). -/
def codedPosition (c : PositionCode) : Option Position :=
  match roleOf c.role.toNat, below 8 c.feed.toNat, below 16 c.channel.toNat, below 16 c.weight.toNat with
  | some role, some feed, some channel, some weight => some { role := role, feed := feed, channel := channel, weight := weight }
  | _, _, _, _ => none

/-- The positions that some records name, if every one is valid. -/
def positionsOf : List PositionCode → Option Layout
  | [] => some []
  | c :: cs =>
    match codedPosition c, positionsOf cs with
    | some p, some ps => some (p :: ps)
    | _, _ => none

/-- The layout that a TAKE carries: 1 to 8 valid positions (R26). -/
def layoutOf (cs : List PositionCode) : Option Layout :=
  if cs.length = 0 ∨ 8 < cs.length then none else positionsOf cs

/-- The code of an output map entry (R184). -/
def MapEntry.code (e : MapEntry) : Nat :=
  match e with
  | some (p, q) => 65536 * p.val + q.val
  | none => 4294967295

/-- The output map entry that a value codes: EMPTY, or a programme and a position, if in range (R41, R184). -/
def mapEntryOf (v : Nat) : Option MapEntry :=
  if v = 4294967295 then some none
  else
    match below 16 (v / 65536), below 8 (v % 65536) with
    | some p, some q => some (some (p, q))
    | _, _ => none

end Sys2Proof.Machine
end

