-- ==== Sys2Proof/Machine/Settings.lean ====
section
/-! DEFINITION. Rights, holder priorities, and the commands that write settings: SET and GROUP SET (R170 to R172, R176, R177, and
the value rules R2, R28, R41, R121, R152, R170). -/

namespace Sys2Proof.Machine

/-! ### What judging a command yields (R168) -/

/-- Reports that a command causes, offered after its REPLY has entered (R168). -/
inductive Deferred where
  | clears (records : List (Fin 400))
  | abortedLog
  | transferSteps
  deriving DecidableEq, Repr

/-- A judged command: the state it leaves, its result, its own reply items, and the reports it causes. -/
structure Judged where
  state  : State
  result : CommandResult
  items  : List Byte
  after  : List Deferred

/-- A refused command changes nothing and carries no items (R168, R169). -/
def refuse (s : State) (r : CommandResult) : Judged := { state := s, result := r, items := [], after := [] }

/-- A command carried out. -/
def accept (s : State) (items : List Byte) : Judged := { state := s, result := .done, items := items, after := [] }

/-! ### Rights and priorities (R170 to R172) -/

/-- The originator record that a header names; numbers outside 0 to 7 name none (R171). -/
def State.originatorOf (s : State) (o : Byte) : Option Originator := (below 8 o.toNat).map fun n => s.processor.originators[n]

/-- The originator's record is enabled and holds the right (R171). -/
def State.holdsRight (s : State) (o : Byte) (cls : RightClass) : Bool :=
  (s.originatorOf o).any fun x => x.enabled && x.rights[cls.index]

/-- The originator's priority. -/
def State.priorityOf (s : State) (o : Byte) : Fin 8 :=
  match s.originatorOf o with
  | some x => x.priority
  | none => 0

/-- A programme's holder priority of a class (R172). -/
def Holds.of (h : Holds) : RightClass → Fin 8
  | .route => h.route
  | .timing => h.timing
  | .level => h.level
  | _ => 0

/-- The holder priorities with one class changed. -/
def Holds.withHold (h : Holds) (cls : RightClass) (v : Fin 8) : Holds :=
  match cls with
  | .route => { h with route := v }
  | .timing => { h with timing := v }
  | .level => { h with level := v }
  | _ => h

/-- The originator's priority is below the holder priority (R172). -/
def State.outranks (s : State) (o : Byte) (cls : RightClass) (p : Fin 16) : Bool :=
  decide (s.priorityOf o < s.programmes[p].holds.of cls)

/-- The right and the holder priority of a command on a programme: the first that refuses (R168, steps 3 and 4). -/
def State.judgeHold (s : State) (o : Byte) (cls : RightClass) (p : Fin 16) : Option CommandResult :=
  if !s.holdsRight o cls then some .noRight else if s.outranks o cls p then some .outranked else none

/-- An accepted command takes the hold (R172). -/
def State.takeHold (s : State) (o : Byte) (cls : RightClass) (p : Fin 16) : State :=
  s.updProgramme p fun q => { q with holds := q.holds.withHold cls (s.priorityOf o) }

/-! ### Values of fields -/

/-- The value that a write stores, and whether it was clamped. -/
structure FieldValue where
  stored  : Nat
  clamped : Bool
  deriving DecidableEq, Repr

/-- A numeric value: clamped to the nearer end (R169). -/
def numeric (lo hi v : Nat) : Option FieldValue := some { stored := clampNat lo hi v, clamped := decide (clampNat lo hi v ≠ v) }

/-- A structural value: one of the first `n`, or refused (R169). -/
def structural (n v : Nat) : Option FieldValue := if v < n then some { stored := v, clamped := false } else none

/-- A numeric value that must also keep a relation, judged on the value it would store. -/
def related (keeps : Nat → Bool) (v : Option FieldValue) : Option FieldValue :=
  match v with
  | some x => if keeps x.stored then some x else none
  | none => none

def FieldValue.result (v : FieldValue) : CommandResult := if v.clamped then .clamped else .done

/-! ### Programme fields (R27, R28, R77, R100, R110, R111, R142) -/

/-- The class of a programme field code: TIMING 0 to 4, LEVEL 5 to 18 (R27, R184). -/
def programmeFieldClass (field : Nat) : Option RightClass :=
  if field < 5 then some .timing else if field < 19 then some .level else none

/-- The value rule of a programme field (R28). -/
def judgeProgrammeField (p : Programme) (field v : Nat) : Option FieldValue :=
  match field with
  | 0 => structural 8 v
  | 1 => structural 2 v
  | 2 => numeric 0 1048575 v
  | 3 => numeric 0 1048575 v
  | 4 => numeric 0 4800 v
  | 5 => structural 4 v
  | 6 => numeric 0 255 v
  | 7 => numeric 0 255 v
  | 8 => numeric 0 255 v
  | 9 => structural 2 v
  | 10 => structural 2 v
  | 11 => numeric 0 255 v
  | 12 => related (fun x => decide (x ≤ p.level.gMax)) (numeric 0 255 v)
  | 13 => related (fun x => decide (p.level.gMin ≤ x)) (numeric 0 255 v)
  | 14 => numeric 1 255 v
  | 15 => numeric 1 255 v
  | 16 => structural 2 v
  | 17 => numeric 1 8388607 v
  | 18 => numeric 0 600 v
  | _ => none

/-- A value that R28 refuses for every programme alike (R177). -/
def refusedForAll (field v : Nat) : Bool :=
  match field with
  | 0 => decide (8 ≤ v)
  | 5 => decide (4 ≤ v)
  | 1 | 9 | 10 | 16 => decide (2 ≤ v)
  | _ => false

/-- A write of the filter set: a change zeroes the filter state (R100). -/
def Programme.writeFilterSet (p : Programme) (n : Fin 4) : Programme :=
  { p with
    level := { p.level with filterSet := n }
    meter := if n = p.level.filterSet then p.meter else p.meter.zeroFilter }

/-- A write of the log interval: 0 sets the interval counter to 0 (R142). -/
def Programme.writeLogInterval (p : Programme) (n : Nat) : Programme :=
  { p with
    level := { p.level with logInterval := n }
    log := if n = 0 then { p.log with interval := 0 } else p.log }

/-- An accepted write of a programme field with its effects (R28, R77, R100, R110, R111, R142). The value 1 stands for a clip guard that is on
(DESIGN CHOICE, log entry 38). -/
def Programme.writeField (p : Programme) (field v : Nat) : Programme :=
  match field with
  | 0 => p.writeTiming { p.timing with feed := (below 8 v).getD 0 }
  | 1 => p.writeMode (if v = 0 then .tracked else .fixed)
  | 2 => p.writeTiming { p.timing with offset := v }
  | 3 => p.writeFixedDelay v
  | 4 => { p with timing := { p.timing with tolerance := v } }
  | 5 => p.writeFilterSet ((below 4 v).getD 0)
  | 6 => { p with level := { p.level with target := v } }
  | 7 => { p with level := { p.level with absoluteGate := v } }
  | 8 => { p with level := { p.level with relativeOffset := v } }
  | 9 => { p with level := { p.level with rideSource := if v = 0 then .shortTerm else .integrated } }
  | 10 => p.writeGainMode (if v = 0 then .ride else .fixed)
  | 11 => p.writeFixedGain v
  | 12 => p.writeLimits v p.level.gMax
  | 13 => p.writeLimits p.level.gMin v
  | 14 => { p with level := { p.level with riseInterval := v } }
  | 15 => { p with level := { p.level with fallInterval := v } }
  | 16 => { p with level := { p.level with clipGuard := decide (v = 1) } }
  | 17 => { p with level := { p.level with ceiling := v } }
  | 18 => p.writeLogInterval v
  | _ => p

/-- A write judged for one programme: the state, the result, and the value stored. -/
structure Written where
  state  : State
  result : CommandResult
  stored : Nat

/-- One programme's field write, after its class is known: right, holder priority, value, effect, hold (R28, R172, R177). -/
def State.writeProgramme (s : State) (o : Byte) (cls : RightClass) (field v : Nat) (p : Fin 16) : Written :=
  match s.judgeHold o cls p with
  | some r => { state := s, result := r, stored := 0 }
  | none =>
    match judgeProgrammeField s.programmes[p] field v with
    | none => { state := s, result := .badValue, stored := 0 }
    | some fv =>
      { state := (s.updProgramme p fun q => q.writeField field fv.stored).takeHold o cls p, result := fv.result, stored := fv.stored }

/-- SET of a programme field (R28, R176). -/
def setProgramme (o object field : Byte) (value : Word32) (s : State) : Judged :=
  match programmeFieldClass field.toNat with
  | none => refuse s .badValue
  | some cls =>
    if !s.holdsRight o cls then refuse s .noRight
    else
      match below 16 object.toNat with
      | none => refuse s .badValue
      | some p =>
        let w := s.writeProgramme o cls field.toNat value.toNat p
        if w.result = .done ∨ w.result = .clamped then { state := w.state, result := w.result, items := item w.stored, after := [] }
        else refuse s w.result

/-! ### Feed fields (R1 to R3, R5, R12) -/

/-- The value rule of a feed field (R2). -/
def judgeFeedField (r : FeedRecord) (field v : Nat) : Option FieldValue :=
  match field with
  | 0 => structural 2 v
  | 1 => structural 4 v
  | 2 => numeric 1 16 v
  | 3 => structural 4 v
  | 4 => numeric 134217728 603979776 v
  | 5 => if 134217728 ≤ v ∧ v ≤ 603979776 ∧ v ≤ r.rmax then some { stored := v, clamped := false } else none
  | 6 => if 134217728 ≤ v ∧ v ≤ 603979776 ∧ r.rmin ≤ v then some { stored := v, clamped := false } else none
  | 7 => numeric 16 200 v
  | 8 => numeric 1 32 v
  | 9 => numeric 8 255 v
  | _ => none

/-- Whether an input trunk's receiver is FRAMED. -/
def State.framed (s : State) (n : Fin 4) : Bool := s.inputs[n].receiver.state == .framed

/-- An accepted write of a feed field with its effects (R2, R3, R5, R12). -/
def Feed.writeField (x : Feed) (framed : Fin 4 → Bool) (field v : Nat) : Feed :=
  match field with
  | 0 => x.writeEnabled (decide (v = 1))
  | 1 => x.writeTrunk ((below 4 v).getD 0) (framed ((below 4 v).getD 0))
  | 2 => x.writeChannels v
  | 3 => { x with record := { x.record with kernel := (below 4 v).getD 0 } }
  | 4 => { x with record := { x.record with nominal := v } }
  | 5 => x.writeLimits v x.record.rmax
  | 6 => x.writeLimits x.record.rmin v
  | 7 => { x with record := { x.record with setpoint := v } }
  | 8 => { x with record := { x.record with lockWindow := v } }
  | 9 => { x with record := { x.record with timeout := v } }
  | _ => x

/-- SET of a feed record field (R2, R176). -/
def setFeed (o object field : Byte) (value : Word32) (s : State) : Judged :=
  if 10 ≤ field.toNat then refuse s .badValue
  else if !s.holdsRight o .route then refuse s .noRight
  else
    match below 8 object.toNat with
    | none => refuse s .badValue
    | some f =>
      match judgeFeedField s.feeds[f].record field.toNat value.toNat with
      | none => refuse s .badValue
      | some fv =>
        { state := s.updFeed f fun x => x.writeField s.framed field.toNat fv.stored
          result := fv.result, items := item fv.stored, after := [] }

/-! ### Output map fields (R41) -/

/-- The value rule of an output map field (R41). -/
def judgeMapField (field v : Nat) : Option FieldValue :=
  match field with
  | 0 => structural 8 v
  | 1 => numeric 1 32 v
  | 2 => structural 2 v
  | _ => if (mapEntryOf v).isSome then some { stored := v, clamped := false } else none

/-- An accepted write of an output map field (R41). -/
def OutputMap.writeField (m : OutputMap) (field v : Nat) : OutputMap :=
  match field with
  | 0 => { m with stream := (below 8 v).getD 0 }
  | 1 => { m with count := v }
  | 2 => { m with captureTime := decide (v = 1) }
  | e + 3 =>
    match below 32 e, mapEntryOf v with
    | some i, some entry => { m with entries := m.entries.set i entry }
    | _, _ => m

/-- SET of an output map field (R41, R176). -/
def setMap (o object field : Byte) (value : Word32) (s : State) : Judged :=
  if 35 ≤ field.toNat then refuse s .badValue
  else if !s.holdsRight o .route then refuse s .noRight
  else
    match below 2 object.toNat with
    | none => refuse s .badValue
    | some k =>
      match judgeMapField field.toNat value.toNat with
      | none => refuse s .badValue
      | some fv =>
        { state := s.updOutput k fun t => { t with map := t.map.writeField field.toNat fv.stored }
          result := fv.result, items := item fv.stored, after := [] }

/-! ### Input trunk fields (R152, R156) -/

/-- A receiver put into a state with everything counted returned to 0 and no burst in assembly (R156). -/
def Receiver.put (r : Receiver) (state : ReceiverState) : Receiver :=
  { r with state := state, silence := 0, goodRun := 0, badRun := 0, assembly := none }

/-- When a receiver that was FRAMED is no longer, its feeds act (R155, R156). -/
def State.afterReceiver (s before : State) (n : Fin 4) : State :=
  if before.framed n ∧ ¬ s.framed n then s.trunkUnframed n else s

/-- A write of the enabled field of an input trunk (R156). -/
def InputTrunk.writeEnabled (x : InputTrunk) (on : Bool) : InputTrunk :=
  if x.enabled = on then x else { x with enabled := on, receiver := x.receiver.put .down }

/-- A write of the loopback field of an input trunk (R156). -/
def InputTrunk.writeLoopback (x : InputTrunk) (on : Bool) : InputTrunk :=
  if x.loopback = on then x
  else { x with loopback := on, receiver := if x.enabled then x.receiver.put .hunt else x.receiver }

/-- The forward target that a value codes: NONE 0, OUT0 1, OUT1 2 (R152, R183). -/
def forwardOf (v : Nat) : Option (Option (Fin 2)) := [none, some (0 : Fin 2), some 1][v]?

/-- The value rule of an input trunk field (R152). -/
def judgeTrunkField (field v : Nat) : Option FieldValue :=
  match field with
  | 1 => structural 3 v
  | _ => structural 2 v

/-- An accepted write of an input trunk field (R152, R156). The value 1 stands for a loopback that is on (DESIGN CHOICE, log entry 38). -/
def InputTrunk.writeField (x : InputTrunk) (field v : Nat) : InputTrunk :=
  match field with
  | 0 => x.writeEnabled (decide (v = 1))
  | 1 => { x with forward := (forwardOf v).getD none }
  | _ => x.writeLoopback (decide (v = 1))

/-- SET of an input trunk field (R152, R156, R176). -/
def setTrunk (o object field : Byte) (value : Word32) (s : State) : Judged :=
  if 3 ≤ field.toNat then refuse s .badValue
  else if !s.holdsRight o .route then refuse s .noRight
  else
    match below 4 object.toNat with
    | none => refuse s .badValue
    | some n =>
      match judgeTrunkField field.toNat value.toNat with
      | none => refuse s .badValue
      | some fv =>
        { state := (s.updInput n fun x => x.writeField field.toNat fv.stored).afterReceiver s n
          result := fv.result, items := item fv.stored, after := [] }

/-! ### Kind policies (R120, R121, R132) -/

/-- The upper end of parameter 1 of a kind (R120). -/
def parameter1Top (kind : Nat) : Nat :=
  match kind with
  | 1 => 8896
  | 2 | 3 => 255
  | 4 => 256
  | _ => 8388608

/-- The upper end of parameter 2 of a kind (R120). -/
def parameter2Top (kind : Nat) : Nat := if kind = 4 then 8388607 else 8388608

/-- The value rule of a kind policy field (R121). -/
def judgePolicyField (kind field v : Nat) : Option FieldValue :=
  match field with
  | 0 | 4 => structural 2 v
  | 1 => structural 3 v
  | 2 | 3 | 5 | 6 => numeric 0 255 v
  | 7 => numeric 0 (parameter1Top kind) v
  | 8 => numeric 0 (parameter2Top kind) v
  | _ => none

/-- A kind policy with one field written. -/
def KindPolicy.writeField (k : KindPolicy) (field v : Nat) : KindPolicy :=
  match field with
  | 0 => { k with enabled := decide (v = 1) }
  | 1 => { k with severity := (severityOf v).getD .none }
  | 2 => { k with raiseCount := v }
  | 3 => { k with clearCount := v }
  | 4 => { k with latching := decide (v = 1) }
  | 5 => { k with repeatDelay := v }
  | 6 => { k with repeatInterval := v }
  | 7 => { k with parameter1 := v }
  | 8 => { k with parameter2 := v }
  | _ => k

/-- A kind policy field written in the alarm unit. -/
def State.writePolicy (s : State) (kind : Fin 18) (field v : Nat) : State :=
  { s with alarms := { s.alarms with policies := updAt s.alarms.policies kind fun k => k.writeField field v } }

/-- SET of a kind policy field; a disable forces the kind's records to CLEAR, and the lines are formed anew (R121, R132, R133). -/
def setPolicy (o object field : Byte) (value : Word32) (s : State) : Judged :=
  if 9 ≤ field.toNat then refuse s .badValue
  else if !s.holdsRight o .alarm then refuse s .noRight
  else
    match below 18 object.toNat with
    | none => refuse s .badValue
    | some kind =>
      match judgePolicyField kind.val field.toNat value.toNat with
      | none => refuse s .badValue
      | some fv =>
        let t := s.writePolicy kind field.toNat fv.stored
        if field = 0 ∧ fv.stored = 0 ∧ s.alarms.policies[kind].enabled then
          { state := (t.forceKind kind).formLines, result := fv.result, items := item fv.stored
            after := [.clears (s.standingOf (kindRecords kind))] }
        else { state := t.formLines, result := fv.result, items := item fv.stored, after := [] }

/-! ### Originator records and the part (R170, R176) -/

/-- The value rule of an originator record field (R170). -/
def judgeOriginatorField (field v : Nat) : Option FieldValue := if field = 8 then numeric 0 7 v else structural 2 v

/-- An originator record with one field written: enabled 0, the rights 1 to 7, priority 8 (R184). A right is held when 1 is written and not
held when 0 is (DESIGN CHOICE, log entry 38). -/
def Originator.writeField (x : Originator) (field v : Nat) : Originator :=
  match field with
  | 0 => { x with enabled := decide (v = 1) }
  | 8 => { x with priority := (below 8 v).getD 0 }
  | r + 1 =>
    match below 7 r with
    | some i => { x with rights := x.rights.set i (decide (v = 1)) }
    | none => x

/-- SET of an originator record field, from originator 0 alone (R170). -/
def setOriginator (o object field : Byte) (value : Word32) (s : State) : Judged :=
  if 9 ≤ field.toNat then refuse s .badValue
  else if o ≠ 0 then refuse s .noRight
  else if object = 0 then refuse s .badValue
  else
    match below 8 object.toNat with
    | none => refuse s .badValue
    | some n =>
      match judgeOriginatorField field.toNat value.toNat with
      | none => refuse s .badValue
      | some fv =>
        { state := { s with processor := { s.processor with
            originators := updAt s.processor.originators n fun x => x.writeField field.toNat fv.stored } }
          result := fv.result, items := item fv.stored, after := [] }

/-- SET of the part's one field, the reply trunk (R165, R176). -/
def setPart (o object field : Byte) (value : Word32) (s : State) : Judged :=
  if field ≠ 0 ∨ object ≠ 0 then refuse s .badValue
  else if !s.holdsRight o .route then refuse s .noRight
  else
    match below 2 value.toNat with
    | none => refuse s .badValue
    | some k => accept { s with processor := { s.processor with replyTrunk := k } } (item k.val)

/-- SET by target code; a code that names no target is refused before the right is checked (R176, R184). -/
def judgeSet (o target object field : Byte) (value : Word32) (s : State) : Judged :=
  match target.toNat with
  | 0 => setFeed o object field value s
  | 1 => setProgramme o object field value s
  | 2 => setMap o object field value s
  | 3 => setTrunk o object field value s
  | 4 => setPolicy o object field value s
  | 5 => setOriginator o object field value s
  | 6 => setPart o object field value s
  | _ => refuse s .badValue

/-! ### Group forms (R177) -/

/-- What a group form has gathered: the mask of programmes accepted, the first refusal, and whether a value was clamped. -/
structure GroupTally where
  mask    : BitVec 16
  first   : Option (Fin 16 × CommandResult)
  clamped : Bool
  deriving DecidableEq, Repr

def GroupTally.initial : GroupTally := { mask := 0, first := none, clamped := false }

/-- One programme's judgement entered in the tally (R177). -/
def GroupTally.enter (g : GroupTally) (p : Fin 16) (r : CommandResult) : GroupTally :=
  if r = .done ∨ r = .clamped then
    { g with mask := g.mask ||| (1#16 <<< p.val), clamped := g.clamped || decide (r = .clamped) }
  else { g with first := match g.first with
      | some x => some x
      | none => some (p, r) }

/-- The programmes a selection names, in ascending order (R183). -/
def selected (selection : BitVec 16) : List (Fin 16) := (List.finRange 16).filter fun p => selection.getLsbD p.val

/-- Judge each selected programme alone, in ascending order (R177). -/
def judgeEach (one : State → Fin 16 → State × CommandResult) : List (Fin 16) → State → GroupTally → State × GroupTally
  | [], s, g => (s, g)
  | p :: ps, s, g =>
    let (t, r) := one s p
    judgeEach one ps t (g.enter p r)

/-- The reply of a group form (R177, R184). The octet after a first refused programme of 255 has no stated value: it is free. -/
def groupReply (s : State) (g : GroupTally) (whole : Option CommandResult) : Judged :=
  let (fill, t) := if g.first.isNone then s.free else (0, s)
  let items := octets16 g.mask ++
    (match g.first with
     | some (p, r) => [BitVec.ofNat 8 p.val, BitVec.ofNat 8 r.code]
     | none => [255, fill.setWidth 8])
  let result := match whole, g.first with
    | some r, _ => r
    | none, some (_, r) => r
    | none, none => if g.clamped then .clamped else .done
  { state := t, result := result, items := items, after := [] }

/-- A group form carried out over a selection (R177). -/
def judgeGroup (selection : BitVec 16) (one : State → Fin 16 → State × CommandResult) (s : State) : Judged :=
  let (t, g) := judgeEach one (selected selection) s GroupTally.initial
  groupReply t g none

/-- GROUP SET (R177). -/
def judgeGroupSet (o : Byte) (selection : BitVec 16) (field : Byte) (value : Word32) (s : State) : Judged :=
  match programmeFieldClass field.toNat with
  | none => groupReply s GroupTally.initial (some .badValue)
  | some cls =>
    if refusedForAll field.toNat value.toNat then groupReply s GroupTally.initial (some .badValue)
    else
      judgeGroup selection (fun t p =>
        let w := t.writeProgramme o cls field.toNat value.toNat p
        (w.state, w.result)) s

end Sys2Proof.Machine
end

