-- ==== Sys2Proof/Machine/Reading.lean ====
section
/-! DEFINITION. READ and STATUS (R61, R80, R102, R117, R139, R166, R178, R180, R184): the items of each group, as they stand. -/

namespace Sys2Proof.Machine

/-- The octets of items that one READ body can carry beside the five that every REPLY begins with (R184). -/
def readRoom : Nat := 4091

/-- The octets of an entry's items that one run body can carry beside the number of entries, in whole items of 4 octets. Only a run of
such items is ever long enough to be cut: the level table is whole at 2,560 octets (R184, R185). -/
def runRoom : Nat := (readRoom - 4) / 4 * 4

/-- A run of entries: the number of whole entries returned, then their items, cut at the end of the run and after the last whole item
that one body can carry (R178, R184). That an entry cut short is left out of the number is the model's reading (log entry 18). -/
def runItems (entries : List (List Byte)) (start count : Nat) : List Byte :=
  let run := (entries.drop start).take count
  let width := (entries.head?.map List.length).getD 1
  item (min run.length (runRoom / width)) ++ run.flatten.take runRoom

/-- The items of a feed (R178): its record in the order of R1, then state, lock count, R and Rbase. -/
def feedItems (x : Feed) : List Byte :=
  itemFlag x.record.enabled ++ item x.record.trunk.val ++ item x.record.channels ++ item x.record.kernel.val ++
    item x.record.nominal ++ item x.record.rmin ++ item x.record.rmax ++ item x.record.setpoint ++ item x.record.lockWindow ++
    item x.record.timeout ++ item x.context.state.code ++ item x.context.lockCount ++ item x.context.ratio ++ item x.context.rbase

/-- A layout as a list of position records (R184). -/
def layoutItems (l : Layout) : List Byte := itemList (l.map Position.octets)

/-- A pending take (R184); `free` stands for the take time of an immediate take, which has no stated value. -/
def takeItems (t : Option TakeRecord) (free : Word32) : List Byte :=
  match t with
  | some t =>
    item 1 ++ itemFlag t.time.isNone ++ itemWord (t.time.getD free) ++ itemFlag t.restart ++ layoutItems t.layout
  | none => item 0 ++ item 0 ++ item 0 ++ item 0 ++ layoutItems []

def timingItems (t : TimingFields) : List Byte :=
  item t.feed.val ++ item t.mode.code ++ item t.offset ++ item t.fixedDelay ++ item t.tolerance

/-- The LEVEL fields in the order of R27. The clip guard on is 1 (DESIGN CHOICE, log entry 38). -/
def levelItems (l : LevelFields) : List Byte :=
  item l.filterSet.val ++ item l.target ++ item l.absoluteGate ++ item l.relativeOffset ++ item l.rideSource.code ++
    item l.gainMode.code ++ item l.fixedGain ++ item l.gMin ++ item l.gMax ++ item l.riseInterval ++ item l.fallInterval ++
    itemFlag l.clipGuard ++ item l.ceiling ++ item l.logInterval

/-- The items of a programme record (R184, group 3). -/
def programmeItems (p : Programme) (free : Word32) : List Byte :=
  layoutItems p.slots[0] ++ layoutItems p.slots[1] ++ takeItems p.take free ++ item p.eIn.toNat ++ item p.eOut.toNat ++
    itemFlag p.marks[0] ++ itemFlag p.marks[1] ++ timingItems p.timing ++ levelItems p.level ++
    item p.holds.route.val ++ item p.holds.timing.val ++ item p.holds.level.val

/-- The items of the fault record (R59). -/
def faultItems (f : FaultRecord) : List Byte :=
  itemFlag f.valid ++ item f.page.val ++ item f.offset.toNat ++ item f.programme.val ++ itemWord f.time ++ item f.further

/-- An entry of the retire table: the page in the upper two octets, its condition, its owner or 255 (R184). -/
def retireItem (s : State) (page : Page) : List Byte :=
  octetsOf 2 page.val ++
    (match s.ownerOf page with
     | some p => [0, BitVec.ofNat 8 p.val]
     | none => [1, 255])

def storeItems (s : State) : List Byte :=
  item s.store.freeList.length ++ item s.parkedCount ++ itemList (s.store.retired.map (retireItem s)) ++ faultItems s.store.fault

def programmeStoreItems (c : StoreContext) : List Byte :=
  item c.state.code ++ item c.pages.length ++ item c.ringLength ++ item c.cleared ++ item c.write

/-- The programme items of R80. -/
def alignItems (a : AlignContext) : List Byte :=
  item a.delay ++ item a.committed ++ itemFlag a.pending.isSome ++ itemOption a.pending ++ itemFlag a.muted ++ itemFlag a.aligned ++
    item a.misses ++ itemFlag a.delayShort ++ itemFlag a.late

/-- The items of R102 before the histogram. The slice power and the void mark of the newest entry are absent while the ring is empty (DESIGN
CHOICE, log entry 36). -/
def meterItems (m : MeterContext) : List Byte :=
  itemOption m.momentary ++ itemOption m.shortTerm ++ itemOption m.integrated ++ powerOption m.momentaryPower ++
    powerOption m.shortTermPower ++ powerOption m.integratedPower ++ item m.ring.length ++ item (m.ring.countP SliceEntry.void) ++
    powerOption (m.ring.getLast?.map SliceEntry.power) ++ itemOption (m.ring.getLast?.map fun e => codeOf e.void) ++
    item m.measured ++ item m.substituted ++ item m.nAbs ++ itemOption m.gate

/-- The programme items of R117. -/
def riderItems (p : Programme) : List Byte :=
  item p.rider.gain ++ item p.rider.latched ++ item p.rider.rise ++ item p.rider.fall ++
    itemPresence (p.rider.aim.map fun a => BitVec.ofInt 32 a) ++ itemFlag p.rider.limit ++ (p.clips.toList.flatMap item)

/-- The items of an input trunk (R152, R166). Loopback on is 1 (DESIGN CHOICE, log entry 38). -/
def inputItems (x : InputTrunk) : List Byte :=
  itemFlag x.enabled ++ item (match x.forward with
    | none => 0
    | some k => k.val + 1) ++ itemFlag x.loopback ++ item x.receiver.state.code

def outputItems (t : OutputTrunk) : List Byte :=
  item t.map.stream.val ++ item t.map.count ++ itemFlag t.map.captureTime ++
    (t.map.entries.toList.flatMap fun e => item (MapEntry.code e)) ++ item t.forward.length ++ item t.lastServed.code

/-- The seven items of an alarm record (R139). -/
def recordItems (x : AlarmRecord) : List Byte :=
  item x.state.code ++ item x.count ++ item x.repeatCount ++ item x.repeatsDue ++ itemFlag x.acknowledged ++ itemFlag x.unreported ++
    itemWord x.timeOfRaise

def policyItems (k : KindPolicy) : List Byte :=
  itemFlag k.enabled ++ item k.severity.code ++ item k.raiseCount ++ item k.clearCount ++ itemFlag k.latching ++ item k.repeatDelay ++
    item k.repeatInterval ++ item k.parameter1 ++ item k.parameter2

/-- The items of an originator record, in the order of R170. A right is 1 when held and 0 when not (DESIGN CHOICE, log entry 38). -/
def originatorItems (x : Originator) : List Byte :=
  itemFlag x.enabled ++ (x.rights.toList.flatMap itemFlag) ++ item x.priority.val

/-- The entries of a table as READ returns them: items of 4 octets, and for the level table two of 5 (R185). -/
def tableEntries (t : Tables) (table : Nat) : List (List Byte) :=
  match table with
  | 0 => t.taps.map fun x => itemInt (tapValue x)
  | 1 => t.latencies.map fun x => item x.toNat
  | 2 => t.levels.map fun e => octetsOf 5 e.threshold.toNat ++ octetsOf 5 e.power.toNat
  | 3 => t.gains.map fun x => item x.toNat
  | 4 => [item t.unity.toNat]
  | 5 => t.weights.map fun x => item x.toNat
  | _ => t.filters.map fun x => itemInt x.toInt

/-- A group whose object must be 0. -/
def partGroup (object : Nat) (items : List Byte) : Option (List Byte) := if object = 0 then some items else none

/-- A run, refused when its start lies outside it (R178). -/
def readRun178 (entries : List (List Byte)) (start count : Nat) : Option (List Byte) :=
  if start < entries.length then some (runItems entries start count) else none

/-- The items that a READ returns, or none when its group, object or start is refused BAD VALUE (R178, R184). -/
def readItems (s : State) (group object start count : Nat) (free : Word32) : Option (List Byte) :=
  match group with
  | 0 => partGroup object (item s.processor.station.toNat ++ item s.processor.replyTrunk.val ++ itemWord s.time.houseTime ++
      itemWord s.time.frameCounter ++ item s.time.reference.code ++ item s.time.edgeCount)
  | 1 => partGroup object (item s.processor.reports.length ++ item s.processor.alarmReports ++ item s.processor.commands.length)
  | 2 => (below 8 object).map fun f => feedItems s.feeds[f]
  | 3 => (below 16 object).map fun p => programmeItems s.programmes[p] free
  | 4 => partGroup object (storeItems s)
  | 5 => (below 16 object).map fun p => programmeStoreItems s.programmes[p].store
  | 6 => (below 16 object).map fun p => alignItems s.programmes[p].align
  | 7 => (below 16 object).map fun p => meterItems s.programmes[p].meter
  | 8 => (below 16 object).bind fun p => readRun178 (s.programmes[p].meter.histogram.map item) start count
  | 9 => (below 16 object).map fun p => riderItems s.programmes[p]
  | 10 => (below 4 object).map fun n => inputItems s.inputs[n]
  | 11 => (below 2 object).map fun k => outputItems s.outputs[k]
  | 12 => if object = 0 then readRun178 (s.alarms.records.toList.map recordItems) start count else none
  | 13 => (below 18 object).map fun k => policyItems s.alarms.policies[k]
  | 14 => partGroup object (itemFlag s.alarms.major ++ itemFlag s.alarms.minor ++ itemFlag s.alarms.commandOverrun ++
      itemFlag s.alarms.logOverrun)
  | 15 => (below 16 object).map fun p => item s.programmes[p].tally.both ++ item s.programmes[p].tally.opposed
  | 16 => (below 8 object).map fun n => originatorItems s.processor.originators[n]
  | 17 => (below 7 object).bind fun t => readRun178 (tableEntries s.tables t.val) start count
  | _ => none

/-- READ returns the take time of an immediate take, which has no stated value (R184; log entry 4). -/
def readsImmediate (s : State) (group object : Nat) : Bool :=
  (group == 3) && ((below 16 object).any fun p => (s.programmes[p].take).any fun t => t.time.isNone)

/-- READ (R178). -/
def judgeRead (group object start count : Nat) (s : State) : Judged :=
  let (fill, t) := if readsImmediate s group object then s.free else (0, s)
  match readItems s group object start count fill with
  | some items => accept t items
  | none => refuse s .badValue

/-- The body of STATUS (R180). The digest is sent as eight items, and the three items of a programme stand together, programme by programme
(DESIGN CHOICE, log entry 39). -/
def statusItems (s : State) : List Byte :=
  (s.indications.flatMap itemFlag) ++ item s.processor.station.toNat ++ item s.processor.replyTrunk.val ++ itemWord s.time.houseTime ++
    ((List.finRange 8).flatMap fun f => item s.feeds[f].context.state.code) ++
    ((List.finRange 16).flatMap fun p => item s.programmes[p].store.state.code ++
      itemFlag (s.programmes[p].eIn != s.programmes[p].eOut) ++ itemFlag s.programmes[p].take.isSome) ++
    ((List.finRange 4).flatMap fun n => item s.inputs[n].receiver.state.code) ++
    item s.store.freeList.length ++ item s.parkedCount ++ item s.processor.commands.length ++ item s.processor.reports.length ++
    item s.processor.alarmReports

/-- The items of the transfer record (R149, R184): the end cause is absent unless ENDED. -/
def transferItems (t : Transfer) : List Byte :=
  item t.state.code ++ item t.mode.code ++ item t.count ++ itemFlag t.stopOnAlarm ++ item t.delivered ++ itemFlag t.overrun ++
    itemOption (t.cause.map EndCause.code)

/-- The termination record of an ended transfer: end cause, delivered and the overrun mark (R147, R148). -/
def terminationItems (t : Transfer) : List Byte :=
  itemOption (t.cause.map EndCause.code) ++ item t.delivered ++ itemFlag t.overrun

/-- The body of LOG STATUS (R149). -/
def logStatusItems (l : LoudnessLog) : List Byte :=
  item l.ring.length ++ itemPresence (l.ring.head?.map LogEntry.time) ++ itemOption (l.ring.head?.map fun e => e.programme.val) ++
    itemFlag l.overflow ++ transferItems l.transfer

end Sys2Proof.Machine
end

