-- ==== Sys2Proof/Machine/Commands.lean ====
section
/-! DEFINITION. The judgement and effect of the management commands other than SET, GROUP SET and READ (R168, R171, and the rules
that own each command's effect). -/

namespace Sys2Proof.Machine

/-! ### LOAD (R179, R185) -/

/-- A run of a table written from an index. -/
def overwrite {α : Type} (old : List α) (start : Nat) (new : List α) : List α :=
  old.take start ++ new ++ old.drop (start + new.length)

/-- The codes of `width` octets each that a run of octets holds, `count` of them. -/
def codesOf (width : Nat) : Nat → List Byte → List Nat
  | 0, _ => []
  | count + 1, bs => numberOf (bs.take width) :: codesOf width count (bs.drop width)

/-- A level table entry from its code of 10 octets: the threshold, then the power (R185). -/
def levelOf (x : Nat) : LevelEntry := { threshold := BitVec.ofNat 40 (x / 1099511627776), power := BitVec.ofNat 40 x }

/-- A run of codes written to a table (R22, R83, R86, R91, R104, R179). -/
def Tables.write (t : Tables) (table start : Nat) (codes : List Nat) : Tables :=
  match table with
  | 0 => { t with taps := overwrite t.taps start (codes.map (BitVec.ofNat 18)) }
  | 1 => { t with latencies := overwrite t.latencies start (codes.map (BitVec.ofNat 10)) }
  | 2 => { t with levels := overwrite t.levels start (codes.map levelOf) }
  | 3 => { t with gains := overwrite t.gains start (codes.map (BitVec.ofNat 24)) }
  | 4 => { t with unity := (codes.map (BitVec.ofNat 8)).headD t.unity }
  | 5 => { t with weights := overwrite t.weights start (codes.map (BitVec.ofNat 16)) }
  | 6 => { t with filters := overwrite t.filters start (codes.map (BitVec.ofNat 24)) }
  | _ => t

/-- LOAD (R179). -/
def judgeLoad (o table : Byte) (start : BitVec 16) (codes : List Byte) (s : State) : Judged :=
  if !s.holdsRight o .tables then refuse s .noRight
  else
    match tableWidth table with
    | none => refuse s .badValue
    | some width =>
      let count := codes.length / width
      if tableSize table < start.toNat + count ∨ tableSize table ≤ start.toNat then refuse s .badValue
      else
        accept { s with tables := s.tables.write table.toNat start.toNat (codesOf width count codes) }
          (item start.toNat ++ item count)

/-! ### TAKE and TAKE CANCEL (R31, R34) -/

/-- A take can be held: none is pending and no epoch is in flight (R31). -/
def Programme.takeFree (p : Programme) : Bool := p.take.isNone && p.eIn == p.eOut

/-- TAKE (R31). -/
def judgeTake (o programme immediate : Byte) (time : Word32) (restart : Byte) (layout : List PositionCode) (s : State) : Judged :=
  if !s.holdsRight o .route then refuse s .noRight
  else
    match below 16 programme.toNat with
    | none => refuse s .badValue
    | some p =>
      if s.outranks o .route p then refuse s .outranked
      else
        match flagOf immediate.toNat, flagOf restart.toNat, layoutOf layout with
        | some now, some again, some l =>
          if s.programmes[p].takeFree then
            accept
              ((s.updProgramme p fun q => { q with take := some { layout := l, time := if now then none else some time, restart := again } })
                |>.takeHold o .route p) []
          else refuse s .busy
        | _, _, _ => refuse s .badValue

/-- TAKE CANCEL of one programme (R34). -/
def cancelTake (o : Byte) (s : State) (p : Fin 16) : State × CommandResult :=
  match s.judgeHold o .route p with
  | some r => (s, r)
  | none =>
    if s.programmes[p].take.isSome then ((s.updProgramme p fun q => { q with take := none }).takeHold o .route p, .done)
    else (s, .busy)

/-- A command on one programme or on a selection of them (R34, R98, R177). -/
def judgeChoice (o : Byte) (cls : RightClass) (choice : ProgrammeChoice) (one : State → Fin 16 → State × CommandResult) (s : State) :
    Judged :=
  match choice with
  | .single programme =>
    if !s.holdsRight o cls then refuse s .noRight
    else
      match below 16 programme.toNat with
      | none => refuse s .badValue
      | some p => { state := (one s p).1, result := (one s p).2, items := [], after := [] }
  | .group selection => judgeGroup selection one s

/-- TAKE CANCEL (R34). -/
def judgeTakeCancel (o : Byte) (choice : ProgrammeChoice) (s : State) : Judged := judgeChoice o .route choice (cancelTake o) s

/-! ### The delay store commands (R48, R52 to R54, R60) -/

/-- ALLOCATE (R48). -/
def judgeAllocate (o programme : Byte) (frames : Word32) (s : State) : Judged :=
  if !s.holdsRight o .store then refuse s .noRight
  else
    match below 16 programme.toNat with
    | none => refuse s .badValue
    | some p =>
      let f := clampNat 1 1048576 frames.toNat
      let n := (f + 127) / 128
      if s.programmes[p].store.state ≠ .unallocated then refuse s .busy
      else if s.store.freeList.length < n then refuse s .noRoom
      else
        { state := { s with store := { s.store with freeList := s.store.freeList.drop n } }.updProgramme p fun q =>
            q.allocated (s.store.freeList.take n)
          result := if f = frames.toNat then .done else .clamped
          items := item n ++ item (128 * n), after := [] }

/-- The pages of a page list that go back to the free-page list at a release (R52). -/
def DelayStore.returned (d : DelayStore) (pages : List Page) : List Page := pages.filter fun n => !d.retired.contains n

/-- RELEASE (R52). -/
def judgeRelease (o programme : Byte) (s : State) : Judged :=
  if !s.holdsRight o .store then refuse s .noRight
  else
    match below 16 programme.toNat with
    | none => refuse s .badValue
    | some p =>
      let pages := s.programmes[p].store.pages
      let back := s.store.returned pages
      if s.programmes[p].store.state = .unallocated then refuse s .busy
      else
        accept ({ s with store := { s.store with freeList := s.store.freeList ++ back } }.updProgramme p Programme.released)
          (item back.length ++ item (pages.length - back.length))

/-- The reply items of a RETIRE: the case, and the owner when the page was owned (R53, R184). -/
def retireItems (case : Nat) (owner : Option (Fin 16)) : List Byte := item case ++ itemOption (owner.map Fin.val)

/-- RETIRE (R53). -/
def judgeRetire (o : Byte) (page : BitVec 16) (s : State) : Judged :=
  if !s.holdsRight o .store then refuse s .noRight
  else
    match below 16384 page.toNat with
    | none => refuse s .badValue
    | some n =>
      if s.store.retired.contains n then accept s (retireItems 0 none)
      else if 32 ≤ s.store.retired.length then { state := s, result := .noRoom, items := retireItems 3 none, after := [] }
      else
        match s.ownerOf n with
        | some p => accept { s with store := { s.store with retired := s.store.retired ++ [n] } } (retireItems 2 (some p))
        | none =>
          accept
            { s with store := { s.store with freeList := s.store.freeList.filter (· ≠ n), retired := s.store.retired ++ [n] } }
            (retireItems 1 none)

/-- RESTORE (R54). -/
def judgeRestore (o : Byte) (page : BitVec 16) (s : State) : Judged :=
  if !s.holdsRight o .store then refuse s .noRight
  else
    match below 16384 page.toNat with
    | none => refuse s .badValue
    | some n =>
      if s.store.retired.contains n then
        if (s.ownerOf n).isSome then accept { s with store := { s.store with retired := s.store.retired.filter (· ≠ n) } } (item 1)
        else
          accept
            { s with store := { s.store with freeList := s.store.freeList ++ [n], retired := s.store.retired.filter (· ≠ n) } }
            (item 0)
      else accept s (item 2)

/-- READ FAULT (R60). -/
def judgeReadFault (o : Byte) (s : State) : Judged :=
  if !s.holdsRight o .store then refuse s .noRight
  else accept { s with store := { s.store with fault := s.store.fault.emptied } } (faultItems s.store.fault)

/-! ### House time (R64 to R66) -/

/-- What a house time command does at once: every anchor list is emptied, and TRACKED programmes lose their alignment (R66). -/
def State.timeJump (s : State) : State :=
  { s with
    feeds := mapAll (fun _ x => { x with context := { x.context with anchors := [] } }) s.feeds
    programmes := mapAll (fun _ p => p.timeJump) s.programmes }

/-- TIME SET (R64). -/
def judgeTimeSet (o : Byte) (value : Word32) (s : State) : Judged :=
  if !s.holdsRight o .timing then refuse s .noRight
  else accept { s with time := { s.time with nextTime := value } }.timeJump []

/-- The step of a TIME ADJUST: −2,147,483,648 is clamped (R65). -/
def timeShift (shift : Word32) : Word32 := if shift = 0x80000000 then 0x80000001 else shift

/-- TIME ADJUST (R65). -/
def judgeTimeAdjust (o : Byte) (shift : Word32) (s : State) : Judged :=
  if !s.holdsRight o .timing then refuse s .noRight
  else
    { state := { s with time := { s.time with nextTime := s.time.nextTime + timeShift shift } }.timeJump
      result := if shift = 0x80000000 then .clamped else .done, items := [], after := [] }

/-! ### RESTART MEASUREMENT, ACKNOWLEDGE and RELEASE HOLD (R98, R134, R173) -/

/-- A measurement restart by command (R98). -/
def Programme.restartMeasurement (p : Programme) : Programme := if p.running then { p with meter := p.meter.restart } else p

/-- RESTART MEASUREMENT of one programme (R98). -/
def restartMeter (o : Byte) (s : State) (p : Fin 16) : State × CommandResult :=
  match s.judgeHold o .level p with
  | some r => (s, r)
  | none => ((s.updProgramme p Programme.restartMeasurement).takeHold o .level p, .done)

/-- RESTART MEASUREMENT (R98). -/
def judgeRestartMeasurement (o : Byte) (choice : ProgrammeChoice) (s : State) : Judged :=
  judgeChoice o .level choice (restartMeter o) s

/-- ACKNOWLEDGE of some records that may each be acknowledged: a LATCHED one clears with a CLEAR report, and the lines are formed
anew (R134). -/
def State.acknowledgeAll (s : State) (rs : List (Fin 400)) : State :=
  (rs.foldl (fun t r => t.updRecord r AlarmRecord.acknowledge) s).formLines

/-- Of some records, those that stand LATCHED. -/
def State.latchedOf (s : State) (rs : List (Fin 400)) : List (Fin 400) := rs.filter fun r => s.alarms.records[r].state == .latched

/-- ACKNOWLEDGE in its single form (R134). -/
def acknowledgeOne (o : Byte) (index : BitVec 16) (s : State) : Judged :=
  if !s.holdsRight o .alarm then refuse s .noRight
  else
    match below 400 index.toNat with
    | none => refuse s .badValue
    | some r =>
      if s.alarms.records[r].acknowledgeable then
        { state := s.acknowledgeAll [r], result := .done, items := [], after := [.clears (s.latchedOf [r])] }
      else refuse s .busy

/-- ACKNOWLEDGE in its group form (R134, R177). The right is judged before the kind (R168). Without it each selected programme is refused NO
RIGHT, and an empty selection is answered DONE when its kind is 0 to 7 and refused NO RIGHT as a whole when it is not (log entry 25). -/
def acknowledgeGroup (o kind : Byte) (selection : BitVec 16) (s : State) : Judged :=
  if !s.holdsRight o .alarm ∧ selection ≠ 0 then judgeGroup selection (fun t _ => (t, .noRight)) s
  else
    match below 8 kind.toNat with
    | none => groupReply s GroupTally.initial (some (if s.holdsRight o .alarm then .badValue else .noRight))
    | some k =>
      let rs := (selected selection).flatMap (acknowledgeRecords k)
      let j := judgeGroup selection (fun t _ => (t, .done)) s
      { j with state := j.state.acknowledgeAll rs, after := [.clears (s.latchedOf rs)] }

/-- ACKNOWLEDGE (R134). -/
def judgeAcknowledge (o : Byte) (choice : AcknowledgeChoice) (s : State) : Judged :=
  match choice with
  | .single index => acknowledgeOne o index s
  | .group kind selection => acknowledgeGroup o kind selection s

/-- RELEASE HOLD (R173). -/
def judgeReleaseHold (o programme cls : Byte) (s : State) : Judged :=
  match holdClassOf cls.toNat with
  | none => refuse s .badValue
  | some c =>
    if !s.holdsRight o c then refuse s .noRight
    else
      match below 16 programme.toNat with
      | none => refuse s .badValue
      | some p =>
        if s.outranks o c p then refuse s .outranked
        else
          accept (s.updProgramme p fun q => { q with holds := q.holds.withHold c 0 }) (item (s.programmes[p].holds.of c).val)

/-! ### The log commands (R145, R148, R149) -/

/-- The transfer record that an accepted LOG READ leaves (R145). -/
def Transfer.opened (mode : TransferMode) (count : Nat) (stopOnAlarm : Bool) : Transfer :=
  { state := .active, mode := mode, count := count, stopOnAlarm := stopOnAlarm, delivered := 0, overrun := false, cause := none }

def State.setTransfer (s : State) (t : Transfer) : State := { s with log := { s.log with transfer := t } }

/-- LOG READ (R145). -/
def judgeLogRead (o mode : Byte) (count : BitVec 16) (stopOnAlarm : Byte) (s : State) : Judged :=
  if !s.holdsRight o .log then refuse s .noRight
  else
    match transferModeOf mode.toNat, flagOf stopOnAlarm.toNat with
    | some m, some stop =>
      if s.log.transfer.state = .active then refuse s .busy
      else { state := s.setTransfer (Transfer.opened m count.toNat stop), result := .done, items := [], after := [.transferSteps] }
    | _, _ => refuse s .badValue

/-- LOG CANCEL (R148). -/
def judgeLogCancel (o : Byte) (s : State) : Judged :=
  if !s.holdsRight o .log then refuse s .noRight
  else if s.log.transfer.state ≠ .active then refuse s .busy
  else
    { state := s.setTransfer s.log.transfer.aborted, result := .done, items := terminationItems s.log.transfer.aborted
      after := [.abortedLog] }

/-- LOG STATUS (R149). -/
def judgeLogStatus (s : State) : Judged := accept { s with log := { s.log with overflow := false } } (logStatusItems s.log)

/-! ### RESTART (R181) -/

/-- RESTART: taken from originator 0 alone; the processor goes to RESTART PENDING (R181). -/
def judgeRestart (o : Byte) (s : State) : Judged :=
  if o ≠ 0 then refuse s .noRight else accept { s with processor := { s.processor with state := .restartPending } } []

/-! ### Every command -/

/-- The judgement of a command from an originator (R168, from step 3 on). -/
def judge (o : Byte) (c : Command) (s : State) : Judged :=
  match c with
  | .set target object field value => judgeSet o target object field value s
  | .groupSet selection field value => judgeGroupSet o selection field value s
  | .read group object start count => judgeRead group.toNat object.toNat start.toNat count.toNat s
  | .load table start codes => judgeLoad o table start codes s
  | .take programme immediate time again layout => judgeTake o programme immediate time again layout s
  | .takeCancel choice => judgeTakeCancel o choice s
  | .allocate programme frames => judgeAllocate o programme frames s
  | .release programme => judgeRelease o programme s
  | .retire page => judgeRetire o page s
  | .restore page => judgeRestore o page s
  | .readFault => judgeReadFault o s
  | .timeSet value => judgeTimeSet o value s
  | .timeAdjust shift => judgeTimeAdjust o shift s
  | .restartMeasurement choice => judgeRestartMeasurement o choice s
  | .acknowledge choice => judgeAcknowledge o choice s
  | .releaseHold programme cls => judgeReleaseHold o programme cls s
  | .logRead mode count stop => judgeLogRead o mode count stop s
  | .logCancel => judgeLogCancel o s
  | .logStatus => judgeLogStatus s
  | .status => accept s (statusItems s)
  | .restart => judgeRestart o s

end Sys2Proof.Machine
end

