-- ==== Sys2Proof/Machine/Formats.lean ====
section
/-! DEFINITION. The bursts on the trunks (R151, R183) and the bodies of reports (R184): what the part sends as octets, and the
judgement of the octets that a receiver has collected. -/

namespace Sys2Proof.Machine

/-! ### The check word (R183) -/

/-- One bit into the remainder register. -/
def checkBit (r : BitVec 16) (bit : Bool) : BitVec 16 :=
  if r.getLsbD 15 != bit then (r <<< 1) ^^^ 0x8005#16 else r <<< 1

/-- One octet, most significant bit first. -/
def checkOctet (r : BitVec 16) (b : Byte) : BitVec 16 :=
  [7, 6, 5, 4, 3, 2, 1, 0].foldl (fun r i => checkBit r (b.getLsbD i)) r

/-- The check word over a header and a body. -/
def checkWord (bs : List Byte) : BitVec 16 := bs.foldl checkOctet 0xFFFF#16

/-! ### Bursts as octets (R183) -/

/-- A sample as three octets. -/
def sampleOctets (x : Sample) : List Byte := [x.extractLsb' 16 8, x.extractLsb' 8 8, x.extractLsb' 0 8]

/-- The samples that octets hold. -/
def samplesOf : List Byte → List Sample
  | a :: b :: c :: rest => (a ++ b ++ c) :: samplesOf rest
  | _ => []

/-- `count` frames of `channels` samples each. -/
def framesOf : Nat → Nat → List Sample → List (List Sample)
  | 0, _, _ => []
  | count + 1, channels, xs => xs.take channels :: framesOf count channels (xs.drop channels)

/-- The first three octets of a header: the kind and the body length. -/
def headerStart (kind : Byte) (length : Nat) : List Byte := kind :: octetsOf 2 length

/-- Header and body of a burst. -/
def burstContent : Burst → List Byte
  | .sample b =>
    let body := b.frames.flatMap fun frame => frame.flatMap sampleOctets
    headerStart 1 body.length ++ [b.stream, BitVec.ofNat 8 b.frames.length, BitVec.ofNat 8 b.channels] ++
      (match b.capture with
       | some t => 1 :: wordOctets t
       | none => [0, 0, 0, 0, 0]) ++ [0] ++ body
  | .control b =>
    headerStart 2 b.params.length ++ [b.destination, b.originator, b.tag, b.code, b.form] ++ b.spare ++ b.params
  | .report b => headerStart 3 b.body.length ++ [b.station, b.reportType, b.digest] ++ b.spare ++ b.body

/-- Header, body and check word of a burst. -/
def burstOctets (b : Burst) : List Byte := burstContent b ++ octets16 (checkWord (burstContent b))

/-- The symbols of a burst on the line, with IDLE before and after it (R163). -/
def burstSymbols (b : Burst) : List LineSymbol :=
  [LineSymbol.idle, .openBurst] ++ (burstOctets b).map .data ++ [.closeBurst, .idle]

/-! ### The judgement of a burst (R151) -/

/-- The structural points of a SAMPLE burst (R151). -/
def sampleGood (b : SampleBurst) : Bool :=
  decide (1 ≤ b.frames.length) && decide (b.frames.length ≤ 64) && decide (1 ≤ b.channels) && decide (b.channels ≤ 32) &&
    decide (b.stream.toNat ≤ 7) && b.frames.all (fun frame => frame.length == b.channels) &&
    decide (b.frames.length * b.channels * 3 ≤ 4608)

/-- The structural points of a CONTROL burst (R151). -/
def controlGood (b : ControlBurst) : Bool := decide (b.params.length ≤ 256) && b.spare.length == 4

/-- The structural points of a REPORT burst (R151). -/
def reportGood (b : ReportBurst) : Bool := decide (b.body.length ≤ 4608) && b.spare.length == 6

/-- A burst meets the structural points of its kind. -/
def burstGood : Burst → Bool
  | .sample b => sampleGood b
  | .control b => controlGood b
  | .report b => reportGood b

/-- The burst that a header of 12 octets and a body name, by the header's kind (R183). -/
def burstOf (header body : List Byte) : Option Burst :=
  match header with
  | [kind, _, _, h3, h4, h5, h6, h7, h8, h9, h10, h11] =>
    if kind = 1 then
      if body.length = h4.toNat * h5.toNat * 3 then
        some (.sample
          { stream := h3, channels := h5.toNat, frames := framesOf h4.toNat h5.toNat (samplesOf body)
            capture := if h6.getLsbD 0 then some (field4 h7 h8 h9 h10) else none })
      else none
    else if kind = 2 then
      some (.control
        { destination := h3, originator := h4, tag := h5, code := h6, form := h7, spare := [h8, h9, h10, h11], params := body })
    else if kind = 3 then
      some (.report { station := h3, reportType := h4, digest := h5, spare := [h6, h7, h8, h9, h10, h11], body := body })
    else none
  | _ => none

/-- The judgement at CLOSE of the octets collected: the good burst they hold, or none if the burst is bad (R151). -/
def judgeBurst (octets : List Byte) : Option Burst :=
  if octets.length < 14 then none
  else
    let content := octets.take (octets.length - 2)
    let header := content.take 12
    let body := content.drop 12
    if numberOf (header.drop 1 |>.take 2) ≠ body.length then none
    else if octets16 (checkWord content) ≠ octets.drop (octets.length - 2) then none
    else
      match burstOf header body with
      | some b => if burstGood b then some b else none
      | none => none

/-! ### Report bodies (R184) -/

/-- The object of an alarm report: programme, feed or trunk in the upper octet, position in the lower, 0 for the part. -/
def AlarmObject.octets : AlarmObject → List Byte
  | .position p q => [BitVec.ofNat 8 p.val, BitVec.ofNat 8 q.val]
  | .programme p => [BitVec.ofNat 8 p.val, 0]
  | .feed f => [BitVec.ofNat 8 f.val, 0]
  | .trunk n => [BitVec.ofNat 8 n.val, 0]
  | .part => [0, 0]

def octetFlag (b : Bool) : Byte := if b then 1 else 0

/-- The body of an alarm report: 16 octets. -/
def AlarmReport.body (a : AlarmReport) : List Byte :=
  octetsOf 2 a.index.val ++ [BitVec.ofNat 8 (recordKind a.index).val] ++ (recordObject a.index).octets ++
    [BitVec.ofNat 8 a.state.code, BitVec.ofNat 8 a.severity.code, octetFlag a.acknowledged] ++
    wordOctets a.timeOfRaise ++ wordOctets a.houseTime

/-- The flags octet of a log entry: VOID, GATE, REALIGNED, EPOCH, ALARM, and the presence of the three levels. -/
def LogEntry.flags (e : LogEntry) : Byte :=
  [e.void, e.gate, e.realigned, e.epoch, e.alarm, e.momentary.isSome, e.shortTerm.isSome, e.integrated.isSome].zipIdx.foldl
    (fun acc b => if b.1 then acc ||| (1#8 <<< b.2) else acc) 0

/-- A log entry in a LOG report: 10 octets. -/
def LogEntry.octets (e : LogEntry) : List Byte :=
  wordOctets e.time ++ [BitVec.ofNat 8 e.programme.val, BitVec.ofNat 8 (e.momentary.getD 0), BitVec.ofNat 8 (e.shortTerm.getD 0),
    BitVec.ofNat 8 (e.integrated.getD 0), BitVec.ofNat 8 e.gain, e.flags]

/-- The end cause in a LOG report: 0 when not final. -/
def logCause : Option EndCause → Byte
  | none => 0
  | some .count => 1
  | some .empty => 2
  | some .matched => 3
  | some .aborted => 4

/-- The body of a LOG report. -/
def LogReport.body (l : LogReport) : List Byte :=
  [BitVec.ofNat 8 l.entries.length, octetFlag l.cause.isSome, octetFlag l.overrun] ++ item l.delivered ++ [logCause l.cause] ++
    l.entries.flatMap LogEntry.octets

/-- The body of a REPLY: tag, originator, command code, form and result, then the command's own items. -/
def Reply.body (r : Reply) : List Byte := [r.tag, r.originator, r.code, r.form, BitVec.ofNat 8 r.result.code] ++ r.items

/-- The report type of a report (R183). -/
def Report.typeCode : Report → Byte
  | .reply _ => 1
  | .alarm a =>
    match a.type with
    | .raise => 2
    | .clear => 3
    | .rpt => 4
    | .state => 5
  | .log _ => 6

/-- The body of a report. -/
def Report.body : Report → List Byte
  | .reply r => r.body
  | .alarm a => a.body
  | .log l => l.body

/-- The REPORT burst formed from a report when it departs, with the status digest as it stands then (R165, R175). -/
def State.formReport (s : State) (r : Report) : ReportBurst :=
  { station := s.processor.station.setWidth 8, reportType := r.typeCode, digest := s.digest, spare := List.replicate 6 0,
    body := r.body }

end Sys2Proof.Machine
end

