-- ==== Sys2Proof/Machine/Processor.lean ====
section
/-! DEFINITION. The command processor: taking commands from the command queue, their REPLYs and the reports they cause
(R167, R168), and the acts of a RESTART (R182). -/

namespace Sys2Proof.Machine

/-! ### Taking a command (R168) -/

/-- Offer the reports that a command causes (R168). -/
def Deferred.run (d : Deferred) (s : State) : State :=
  match d with
  | .clears rs => s.offerClears rs
  | .abortedLog => s.offerAborted
  | .transferSteps => State.transferSteps 33 s

/-- The REPLY of a command (R168). -/
def replyOf (b : ControlBurst) (j : Judged) : Reply :=
  { tag := b.tag, originator := b.originator, code := b.code, form := b.form, result := j.result, items := j.items }

/-- The judgement of a CONTROL burst's command: UNKNOWN, a wrong length, or the command itself (R168). The REPLY to an UNKNOWN command or to
a wrong length carries no items, in the group forms too (DESIGN CHOICE, log entry 23). -/
def judgeBurstCommand (b : ControlBurst) (s : State) : Judged :=
  match decodeCommand b.code b.form b.params with
  | .ok c => judge b.originator c s
  | .error .unknown => refuse s .unknown
  | .error .badLength => refuse s .badValue

/-- A judged command's REPLY enters the report queue, and then the reports it causes are offered, in order (R168). -/
def Judged.answer (j : Judged) (b : ControlBurst) : State :=
  j.after.foldl (fun s d => d.run s) (j.state.pushReport (.reply (replyOf b j)))

/-- A command taken: its judgement, its effect, its REPLY and the reports it causes, as one event (R168). -/
def State.takeCommand (s : State) (b : ControlBurst) : State := (judgeBurstCommand b s).answer b

/-- The command processor takes a command now: READY, and room in the report queue (R167). -/
def State.takesNow (s : State) : Bool := (s.processor.state == .ready) && s.reportRoom

def State.setCommands (s : State) (bs : List ControlBurst) : State := { s with processor := { s.processor with commands := bs } }

/-- Commands taken one after another from the head of the queue while the condition of R167 holds. Each command taken leaves the
queue and none enters it, so as many rounds as the queue holds are enough. -/
def State.drainRounds : Nat → State → State
  | 0, s => s
  | n + 1, s =>
    match s.processor.commands with
    | [] => s
    | b :: rest => if s.takesNow then State.drainRounds n ((s.setCommands rest).takeCommand b) else s

/-- The test of R167 made again after an event, with all the commands it lets be taken (log entry 11). -/
def State.drain (s : State) : State := State.drainRounds s.processor.commands.length s

/-- A CONTROL burst bound for the command queue enters at its tail, or is dropped with the command overrun mark (R160, R167). -/
def State.enqueue (s : State) (b : ControlBurst) : State :=
  if s.processor.commands.length < 8 then s.setCommands (s.processor.commands ++ [b])
  else { s with alarms := { s.alarms with commandOverrun := true } }

/-- A CONTROL burst reaches the command queue, and the condition of R167 is tested. -/
def State.intake (s : State) (b : ControlBurst) : State := (s.enqueue b).drain

/-- The CONTROL burst that carries a command to this station (R183, R184). -/
def State.commandBurst (s : State) (sender : Sender) (e : Encoded) : ControlBurst :=
  { destination := s.processor.station.setWidth 8, originator := sender.originator, tag := sender.tag, code := e.code, form := e.form,
    spare := List.replicate 4 0, params := e.params }

/-- A management command delivered to the command processor in its CONTROL burst (log entry 10). -/
def State.submit (s : State) (sender : Sender) (c : Command) : State := s.intake (s.commandBurst sender (encodeCommand c))

/-! ### The acts of a RESTART (R182) -/

/-- Step 1: the command queue, the report queue and both forward queues are emptied; with them the arbiters' marks (R164). -/
def State.emptyQueues (s : State) : State :=
  { s with
    processor := { s.processor with commands := [], reports := [] }
    outputs := mapAll (fun _ t => { t with forward := [], lastServed := .forward }) s.outputs }

/-- Every page that is not retired, in ascending order (R44). -/
def freshPages (retired : List Page) : List Page := (List.finRange 16384).filter fun n => !retired.contains n

/-- Steps 2 and 3: programmes released, the free-page list rebuilt, feed contexts set (R4, R29, R44, R182). -/
def State.releaseAll (s : State) : State :=
  { s with
    programmes := mapAll (fun _ p => p.restarted s.tables.unity) s.programmes
    store := { s.store with freeList := freshPages s.store.retired }
    feeds := mapAll (fun _ x => { x with context := x.restarted }) s.feeds }

/-- Step 4: alarm records cleared, with CLEAR reports in record index order, and the lines formed anew (R133, R138). -/
def State.clearAlarms (s : State) : State :=
  (s.forceAll.offerClears (s.standingOf (List.finRange 400))).formLines

/-- Step 5: an ACTIVE transfer ends ABORTED with its final LOG report, and the ring is emptied (R140, R148). -/
def State.endLog (s : State) : State :=
  let t := if s.log.transfer.state = .active then (s.setTransfer s.log.transfer.aborted).offerAborted else s
  { t with log := { t.log with ring := [], overflow := false } }

/-- Step 6: the command processor returns to READY. -/
def State.ready (s : State) : State := { s with processor := { s.processor with state := .ready } }

/-- A restart acts, as one event (R182). -/
def State.restartActs (s : State) : State := s.emptyQueues.releaseAll.clearAlarms.endLog.ready

end Sys2Proof.Machine
end

