-- ==== Sys2Proof/Machine/Trunks.lean ====
section
/-! DEFINITION. The trunk receivers (chapter 09): assembly of bursts from symbols, framing, delivery and forwarding, and the silence
count. -/

namespace Sys2Proof.Machine

/-! ### Delivery and forwarding (R159 to R162) -/

/-- A SAMPLE burst handed on from input trunk `n` is delivered to the feed its stream number names (R13, R159). -/
def State.deliverSample (s : State) (n : Fin 4) (b : SampleBurst) : State :=
  match below 8 b.stream.toNat with
  | some f => s.updFeed f fun x => { x with context := x.deliver n b }
  | none => s

/-- A burst is offered to a forward queue: it enters at the tail if the queue holds fewer than 4 (R161, R162). -/
def OutputTrunk.offer (t : OutputTrunk) (b : Burst) : OutputTrunk :=
  if t.forward.length < 4 then { t with forward := t.forward ++ [b] } else t

/-- A burst handed on by the receiver of trunk `n` is offered to its forward target (R161). -/
def State.forwardBurst (s : State) (n : Fin 4) (b : Burst) : State :=
  match s.inputs[n].forward with
  | some k => s.updOutput k fun t => t.offer b
  | none => s

/-- The destination is this station (R158, R160). -/
def State.addressed (s : State) (destination : Byte) : Bool := destination == s.processor.station.setWidth 8

/-- A CONTROL burst handed on (R160): forwarded unless it is for this station alone; to the command queue if it is for this station
or for all. -/
def State.handControl (s : State) (n : Fin 4) (b : ControlBurst) : State :=
  if s.addressed b.destination then s.intake b
  else if b.destination = 255 then (s.forwardBurst n (.control b)).intake b
  else s.forwardBurst n (.control b)

/-- A good burst handed on by a FRAMED receiver (R159 to R161). -/
def State.handOn (s : State) (n : Fin 4) (b : Burst) : State :=
  match b with
  | .sample x => s.deliverSample n x
  | .control x => s.handControl n x
  | .report _ => s.forwardBurst n b

/-! ### Framing (R155) -/

/-- The receiver enters a state: both runs 0, outside a burst (R150, R154, R155). -/
def Receiver.enter (r : Receiver) (state : ReceiverState) : Receiver :=
  { r with state := state, goodRun := 0, badRun := 0, assembly := none }

/-- A good burst at the receiver itself (R155). -/
def Receiver.good (r : Receiver) : Receiver :=
  match r.state with
  | .down => r
  | .hunt => if 2 ≤ r.goodRun + 1 then r.enter .framed else { r with goodRun := r.goodRun + 1 }
  | .framed => { r with badRun := 0 }

/-- A bad burst at the receiver itself (R155). -/
def Receiver.bad (r : Receiver) : Receiver :=
  match r.state with
  | .down => r
  | .hunt => { r with goodRun := 0 }
  | .framed => if 4 ≤ r.badRun + 1 then r.enter .hunt else { r with badRun := r.badRun + 1 }

/-- A good burst judged at the receiver of trunk `n`: it is handed on if the receiver was FRAMED (R155). -/
def State.goodBurst (s : State) (n : Fin 4) (b : Burst) : State :=
  let t := s.updReceiver n Receiver.good
  if s.framed n then t.handOn n b else t

/-- A bad burst at the receiver of trunk `n`; its feeds act if it leaves FRAMED (R9, R155). -/
def State.badBurst (s : State) (n : Fin 4) : State := (s.updReceiver n Receiver.bad).afterReceiver s n

/-! ### Symbols (R150, R154) -/

/-- A symbol reaches a receiver: the silence count becomes 0, and a DOWN receiver goes to HUNT (R154). -/
def Receiver.wake (r : Receiver) : Receiver :=
  let q : Receiver := { r with silence := 0 }
  if r.state = .down then q.enter .hunt else q

def State.setAssembly (s : State) (n : Fin 4) (a : Option (List Byte)) : State := s.updReceiver n fun r => { r with assembly := a }

/-- A symbol received inside a burst of which `octets` have been collected, newest first (R150, R151). -/
def State.symbolInside (s : State) (n : Fin 4) (octets : List Byte) (symbol : LineSymbol) : State :=
  match symbol with
  | .data b => if 4672 ≤ octets.length then (s.setAssembly n none).badBurst n else s.setAssembly n (some (b :: octets))
  | .closeBurst =>
    match judgeBurst octets.reverse with
    | some b => (s.setAssembly n none).goodBurst n b
    | none => (s.setAssembly n none).badBurst n
  | .abandon => s.setAssembly n none
  | .openBurst => ((s.setAssembly n none).badBurst n).setAssembly n (some [])
  | .idle => (s.setAssembly n none).badBurst n

/-- A symbol received by an enabled receiver (R150, R154). -/
def State.receive (s : State) (n : Fin 4) (symbol : LineSymbol) : State :=
  let t := s.updReceiver n Receiver.wake
  match t.inputs[n].receiver.assembly with
  | some octets => t.symbolInside n octets symbol
  | none => if symbol = .openBurst then t.setAssembly n (some []) else t

/-- Symbols received one after another. -/
def State.receiveAll (s : State) (n : Fin 4) (symbols : List LineSymbol) : State := symbols.foldl (fun t x => t.receive n x) s

/-- The receiver takes symbols from its line: enabled, with loopback off (R152, R157). -/
def State.listens (s : State) (n : Fin 4) : Bool := s.inputs[n].enabled && !s.inputs[n].loopback

/-- The receiver takes its symbols from the transmitter of output trunk `k`: IN0 and IN2 from OUT0, IN1 and IN3 from OUT1 (R157). -/
def State.loops (s : State) (n : Fin 4) (k : Fin 2) : Bool :=
  s.inputs[n].enabled && s.inputs[n].loopback && decide (n.val % 2 = k.val)

/-- One symbol that output trunk `k` sends reaches the receivers looped to it, in trunk order (R157). -/
def State.loopSymbol (k : Fin 2) (s : State) (symbol : LineSymbol) : State :=
  (List.finRange 4).foldl (fun t n => if t.loops n k then t.receive n symbol else t) s

/-- The symbols that output trunk `k` sends reach the looped receivers in the order sent (R157). -/
def State.sendLooped (s : State) (k : Fin 2) (symbols : List LineSymbol) : State := symbols.foldl (State.loopSymbol k) s

/-- The receiver of trunk `n` after a burst that the line carried whole: its silence count is 0 and no burst is in assembly
(R150, R154). Octets of a burst in assembly are dropped, and are not counted as a bad burst (DESIGN CHOICE, log entry 12). -/
def State.afterWholeBurst (s : State) (n : Fin 4) : State := s.updReceiver n fun r => { r with silence := 0, assembly := none }

/-- A burst ends at the receiver of trunk `n` while it finds bursts: it listens and is not DOWN (R150, R153). -/
def State.findsBursts (s : State) (n : Fin 4) : Bool := s.listens n && s.inputs[n].receiver.state != .down

/-- A burst of the line, judged at the receiver of trunk `n` by its structural points (R151, R155). -/
def State.burstArrives (s : State) (n : Fin 4) (b : Burst) : State :=
  if s.findsBursts n then
    if burstGood b then (s.afterWholeBurst n).goodBurst n b else (s.afterWholeBurst n).badBurst n
  else s

/-! ### Silence (R154) -/

/-- The silence count at a house frame (R154). -/
def Receiver.tick (r : Receiver) : Receiver :=
  let q : Receiver := { r with silence := bump 96 r.silence }
  if r.state ≠ .down ∧ 96 ≤ q.silence then q.enter .down else q

/-- The silence count of trunk `n` at a house frame; its feeds act if its receiver leaves FRAMED (R9, R154, R155). -/
def State.tickReceiver (s : State) (n : Fin 4) : State :=
  if s.inputs[n].enabled then (s.updReceiver n Receiver.tick).afterReceiver s n else s

/-- The coming house frame's count takes the receiver of trunk `n` to DOWN, and has not been made yet. -/
def State.silenceEnds (s : State) (n : Fin 4) : Bool :=
  let r := s.inputs[n].receiver
  s.inputs[n].enabled && r.state != .down && decide (95 ≤ r.silence) && !r.ticked

/-- The house frame's own silence counts: those not made already by TRUNK_SILENCE_DOWN (log entry 9). -/
def State.tickReceivers (s : State) : State :=
  (List.finRange 4).foldl (fun t n =>
    if t.inputs[n].receiver.ticked then t.updReceiver n fun r => { r with ticked := false } else t.tickReceiver n) s

end Sys2Proof.Machine
end

