-- ==== Sys2Proof/Machine/Frame.lean ====
section
/-! DEFINITION. The house frame (R62): time, takes, gain latch, feed conversion, the delay lines, measurement, output samples and
output frames, and the counts of silence and of the reference gap. -/

namespace Sys2Proof.Machine

/-! ### The house timebase and the reference monitor (R62, R63, R67) -/

/-- A house frame is produced: it carries the next house time and frame count, and the boundary, servo event and slice end that fall
after it become due (R62, R63; log entries 5 and 6). -/
def Timebase.frame (t : Timebase) : Timebase :=
  let n := t.nextFrame.toNat
  { t with
    houseTime := t.nextTime, frameCounter := t.nextFrame, nextTime := t.nextTime + 1, nextFrame := t.nextFrame + 1,
    boundaryDue := decide ((n + 1) % 48 = 0) || decide (n = 4294967295), servoDue := decide ((n + 1) % 960 = 0),
    sliceDue := decide ((n + 1) % 4800 = 0), sliceFrames := t.sliceFrames + 1 }

/-- An oscillator period at the reference monitor (R67). -/
def Timebase.gapTick (t : Timebase) : Timebase :=
  let u : Timebase := { t with gapCount := bump 96 t.gapCount }
  if 96 ≤ u.gapCount then { u with edgeCount := 0, reference := .absent } else u

/-- The house frame's own oscillator period: one that REFERENCE_ABSENT has not taken already (log entry 9). -/
def Timebase.oscillate (t : Timebase) : Timebase := if t.gapTaken then { t with gapTaken := false } else t.gapTick

/-- A reference edge (R67). -/
def Timebase.edge (t : Timebase) : Timebase :=
  let u : Timebase := { t with gapCount := 0 }
  match t.reference with
  | .present => u
  | .absent =>
    let n := bump 48 t.edgeCount
    if 48 ≤ n then { u with edgeCount := n, reference := .present } else { u with edgeCount := n }

/-! ### Takes, gain latch and conversion (R17, R32, R70, R112) -/

/-- The pending takes that house time lets fire do so, before any delay frame is formed (R32). -/
def State.fireTakes (s : State) : State := { s with programmes := mapAll (fun _ p => p.fireDue s.time.houseTime) s.programmes }

/-- The gain latch at the first house frame of a burst period (R112). -/
def State.latchGains (s : State) : State :=
  if s.time.frameCounter.toNat % 48 = 0 then
    { s with programmes := mapAll (fun _ p => { p with rider := { p.rider with latched := p.rider.gain } }) s.programmes }
  else s

/-- What each feed does at this house frame (R17). -/
def State.conversions (s : State) : Vector Conversion 8 := mapAll (fun _ x => x.convert s.tables s.time.houseTime) s.feeds

/-- The age samples of feed `f` delivered, in the order of the marks (R70). -/
def Programme.takeAges (f : Fin 8) (ages : List Int) (p : Programme) : Programme :=
  if p.receivesAges f then ages.foldl Programme.ageSample p else p

/-- The feeds convert, and their age samples are delivered (R17 to R21, R70). -/
def State.convertFeeds (s : State) : State :=
  let conv := s.conversions
  { s with
    feeds := mapAll (fun f x => { x with context := conv[f].context }) s.feeds
    programmes := mapAll (fun _ p => (List.finRange 8).foldl (fun q f => q.takeAges f conv[f].ages) p) s.programmes }

/-! ### One RUNNING programme (R30, R36, R37, R40, R55 to R59, R75, R82, R113, R114, R123) -/

/-- The delay word that a programme forms for position `i` from the feeds' output frames (R30). -/
def Programme.formWord (p : Programme) (outputs : Vector FeedOutput 8) (i : Nat) : DelayWord :=
  match p.inLayout[i]? with
  | none => { sample := 0, epoch := p.eIn, substituted := false }
  | some pos =>
    match outputs[pos.feed].samples[pos.channel.val]? with
    | some x => { sample := x, epoch := p.eIn, substituted := outputs[pos.feed].substituted }
    | none => { sample := 0, epoch := p.eIn, substituted := true }

/-- The delay frame that a programme forms (R30). -/
def Programme.formFrame (p : Programme) (outputs : Vector FeedOutput 8) : List DelayWord := (List.range 8).map (p.formWord outputs)

/-- The PHASE tally after a frame handed on (R123). -/
def Programme.countPhase (threshold : Nat) (frame : Vector Handed 8) (p : Programme) : Tally :=
  match soleRole p.outLayout .l, soleRole p.outLayout .r with
  | some l, some r =>
    let x := frame[l].sample.toInt
    let y := frame[r].sample.toInt
    if threshold < x.natAbs ∧ threshold < y.natAbs then
      { both := p.tally.both + 1, opposed := if (0 < x ∧ y < 0) ∨ (x < 0 ∧ 0 < y) then p.tally.opposed + 1 else p.tally.opposed }
    else p.tally
  | _, _ => p.tally

/-- The epoch of the fetched words judged, with the output epoch switch it may make (R36 to R38). -/
def Programme.judgeEpoch (words : List Word32) (p : Programme) : Programme :=
  if p.switches (frameEpoch p.eOut words) then p.switchEpoch else p

/-- The frame handed on by the read side, muted if a realignment mutes the burst period (R56, R57, R75). -/
def Programme.handedFrame (words : List Word32) (p : Programme) : Vector Handed 8 :=
  if p.align.muted then mutedFrame else handFrame p.store.holds words

/-- A frame handed on to the meter, the alarm unit's tally and the output assembler, and kept as the hold values (R56, stages 5
and 6; R82, R113, R114, R123). -/
def Programme.takeFrame (t : Tables) (threshold : Nat) (frame : Vector Handed 8) (p : Programme) : Programme :=
  { p with
    meter := p.meter.measure t p.level.filterSet p.outLayout frame
    tally := p.countPhase threshold frame
    outputs := p.outputSamples t frame
    clips := p.countClips t frame
    store := { p.store with holds := Vector.ofFn fun i => frame[i].sample } }

/-- The write index after the write of a delay frame (R55). -/
def Programme.stepWrite (p : Programme) : Programme :=
  { p with store := { p.store with write := (p.store.write + 1) % p.store.ringLength } }

/-- What a programme does with the words it has fetched: epoch, mute, hand on, advance (R56). -/
def Programme.passFrame (t : Tables) (threshold : Nat) (words : List Word32) (p : Programme) : Programme :=
  let q := p.judgeEpoch words
  (q.takeFrame t threshold (q.handedFrame words)).stepWrite

/-- The store after a programme's fetch and write at a house frame: its parity faults in position order, then its delay frame written
(R30, R55, R57 to R59). -/
def DelayStore.serve (d : DelayStore) (i : Fin 16) (now : Word32) (outputs : Vector FeedOutput 8) (p : Programme) : DelayStore :=
  let words := d.readSlot p.store p.fetchSlot
  ((frameFaults i now (p.store.place p.fetchSlot) words).foldl DelayStore.fault1 d).writeSlot p.store p.store.write (p.formFrame outputs)

/-- The sample threshold of the PHASE tally: parameter 2 of kind 4 (R123). -/
def State.phaseThreshold (s : State) : Nat := s.alarms.policies[(4 : Fin 18)].parameter2

/-- A RUNNING programme at a house frame: fetch, hand on, write (R55, R56). -/
def State.runProgramme (outputs : Vector FeedOutput 8) (s : State) (i : Fin 16) : State :=
  let p := s.programmes[i]
  if p.running then
    let words := s.store.readSlot p.store p.fetchSlot
    { s with store := s.store.serve i s.time.houseTime outputs p }.updProgramme i (Programme.passFrame s.tables s.phaseThreshold words)
  else s

/-- The order in which the programmes are taken: those of the list first, each once, then the rest in ascending number. The spec leaves
it open and only the fault record can show it (R59; log entry 14). -/
def programmeOrder (order : List (Fin 16)) : List (Fin 16) :=
  order.eraseDups ++ (List.finRange 16).filter fun p => !order.contains p

/-- Every RUNNING programme in turn. -/
def State.runProgrammes (outputs : Vector FeedOutput 8) (order : List (Fin 16)) (s : State) : State :=
  (programmeOrder order).foldl (State.runProgramme outputs) s

/-! ### Output frames (R42, R116) -/

/-- What an output map entry reads (R42). -/
def State.entrySample (s : State) (e : MapEntry) : Sample :=
  match e with
  | none => 0
  | some (p, q) =>
    if s.programmes[p].running ∧ q.val < s.programmes[p].outLayout.length then s.programmes[p].outputs.getD q.val 0 else 0

/-- The output frame of a trunk under its map copy (R42, R116). -/
def State.outputFrame (s : State) (m : OutputMap) : List Sample :=
  ((List.finRange 32).filter fun i => decide (i.val < m.count)).map fun i => s.entrySample m.entries[i]

/-- The output frames appended to the bursts under assembly; the first frame's house time is kept for the capture time (R116). -/
def State.assembleOutputs (s : State) : State :=
  { s with
    outputs := mapAll (fun _ t =>
      { t with assembly := t.assembly ++ [s.outputFrame t.copy]
               firstTime := if t.assembly.isEmpty then s.time.houseTime else t.firstTime }) s.outputs }

/-- The IDLE fill that the transmitters send reaches the looped receivers (R157; log entry 13). -/
def State.idleFill (s : State) : State := (List.finRange 2).foldl (fun t k => t.sendLooped k [.idle]) s

/-- Every RUNNING programme's write index names a slot of its ring (R46). -/
def State.slotsHold (s : State) : Bool :=
  (List.finRange 16).all fun i => !s.programmes[i].running || decide (s.programmes[i].store.write < s.programmes[i].store.ringLength)

/-- A house frame, once the events due before it have been taken (R62). -/
def State.frame (s : State) (order : List (Fin 16)) : State :=
  let a := { s with time := s.time.frame }.fireTakes.latchGains
  let outputs := mapAll (fun _ c => c.output) a.conversions
  let b := ((a.convertFeeds.runProgrammes outputs order).assembleOutputs).idleFill.tickReceivers
  { b with time := b.time.oscillate }

end Sys2Proof.Machine
end

