-- ==== Sys2Proof/Machine/Boundary.lean ====
section
/-! DEFINITION. What falls between house frames: the management windows and the arbiters (R163 to R165), the burst boundary (R63), the
servo event (R23) and the slice end (R94). -/

namespace Sys2Proof.Machine

/-! ### The arbiter and the management window (R164, R165) -/

/-- The choice of an arbiter among its candidates (R164). -/
def arbitrate (forwardWaits reportWaits : Bool) (last : LastServed) : Option LastServed :=
  match forwardWaits, reportWaits, last with
  | false, false, _ => none
  | true, false, _ => some .forward
  | false, true, _ => some .report
  | true, true, .forward => some .report
  | true, true, .report => some .forward

/-- The report queue is a candidate at output trunk `k` (R164, R165). -/
def State.reportWaits (s : State) (k : Fin 2) : Bool := (s.processor.replyTrunk == k) && !s.processor.reports.isEmpty

/-- What the arbiter of output trunk `k` serves as the state stands (R164). -/
def State.choice (s : State) (k : Fin 2) : Option LastServed :=
  arbitrate (!s.outputs[k].forward.isEmpty) (s.reportWaits k) s.outputs[k].lastServed

/-- The head of the forward queue leaves and is sent (R164). -/
def OutputTrunk.serveForward (t : OutputTrunk) : OutputTrunk :=
  { t with management := t.forward.head?, forward := t.forward.drop 1, lastServed := .forward }

/-- The report is the REPLY of an accepted RESTART (R181). -/
def Report.answersRestart (r : Report) : Bool :=
  match r with
  | .reply x => x.code == 21 && x.result == .done
  | _ => false

/-- The departure of a report lets a restart act (R181). -/
def State.restartActsAt (s : State) (r : Report) : Bool := (s.processor.state == .restartPending) && r.answersRestart

/-- The tests that a departure calls for, a transfer step's and a command's, in either order (R146, R167, R174). -/
def State.afterDeparture (s : State) (transferFirst : Bool) : State :=
  if transferFirst then (State.transferSteps 33 s).drain else State.transferSteps 33 s.drain

/-- A report departs on output trunk `k` as a REPORT burst: formed with its digest, then the restart it lets act, then the tests that
the departure calls for (R165, R174, R175, R181). -/
def State.depart (s : State) (k : Fin 2) (transferFirst : Bool) (r : Report) (rest : List Report) : State :=
  let sent := { s with processor := { s.processor with reports := rest } }.updOutput k fun t =>
    { t with management := some (.report (s.formReport r)), lastServed := .report }
  (if s.restartActsAt r then sent.restartActs else sent).afterDeparture transferFirst

/-- The arbiter of output trunk `k` serves at most one candidate (R164). -/
def State.serve (s : State) (k : Fin 2) (transferFirst : Bool) : State :=
  match s.choice k, s.processor.reports with
  | some .forward, _ => s.updOutput k OutputTrunk.serveForward
  | some .report, r :: rest => s.depart k transferFirst r rest
  | _, _ => s.updOutput k fun t => { t with management := none }

/-- The SAMPLE burst of output trunk `k` has been sent: its symbols reach the looped receivers (R157, R163). -/
def State.sendSample (s : State) (k : Fin 2) : State :=
  match s.outputs[k].sample with
  | some b => s.sendLooped k (burstSymbols (.sample b))
  | none => s

/-- The management burst of output trunk `k` is sent: its symbols reach the looped receivers (R157, R163). -/
def State.sendManagement (s : State) (k : Fin 2) : State :=
  match s.outputs[k].management with
  | some b => s.sendLooped k (burstSymbols b)
  | none => s

/-- The SAMPLE burst sent and the window open: what the arbiter of output trunk `k` looks at. -/
def State.openWindow (s : State) (k : Fin 2) : State := (s.updOutput k fun t => { t with windowDue := false }).sendSample k

/-- The management window of output trunk `k` opens (R163, R164; log entry 13). -/
def State.window (s : State) (k : Fin 2) (transferFirst : Bool) : State := ((s.openWindow k).serve k transferFirst).sendManagement k

/-- The window of output trunk `k`, if it has not opened in this burst period (log entry 8). -/
def State.lateWindow (s : State) (k : Fin 2) : State := if s.outputs[k].windowDue then s.window k false else s

/-! ### The burst boundary (R63) -/

/-- What a burst boundary does to a programme: clearing moves on, or the alignment context acts (R49, R50, R74). -/
def Programme.boundary (p : Programme) : Programme :=
  match p.store.state with
  | .unallocated => p
  | .clearing => p.clearStep
  | .running => { p with align := p.align.boundary }

/-- The pages that a programme's clearing writes at a burst boundary (R49). -/
def clearPages (p : Programme) (m : List Host.Cell) : List Host.Cell :=
  if p.store.state = .clearing then p.store.nextPages.foldl (fun m n => clearPage m p.eIn n) m else m

/-- The store after the clearing of a burst boundary (R49). -/
def State.clearedMemory (s : State) : List Host.Cell :=
  (List.finRange 16).foldl (fun m i => clearPages s.programmes[i] m) s.store.memory

/-- The completed burst of an output trunk (R116). -/
def OutputTrunk.completed (t : OutputTrunk) : SampleBurst :=
  { stream := BitVec.ofNat 8 t.copy.stream.val, channels := t.copy.count, frames := t.assembly
    capture := if t.copy.captureTime then some t.firstTime else none }

/-- The output burst handed to the transmitter, the map copy taken, and a new burst period opened (R41, R116, R163). -/
def OutputTrunk.handOver (t : OutputTrunk) : OutputTrunk :=
  { t with sample := some t.completed, management := none, copy := t.map, assembly := [], windowDue := true }

/-- What a burst boundary does once both management windows of the period it closes have opened (R8, R41, R49, R74, R116). -/
def State.closePeriod (s : State) : State :=
  { s with
    feeds := mapAll (fun _ x => { x with context := x.silenceTick }) s.feeds
    programmes := mapAll (fun _ p => p.boundary) s.programmes
    store := { s.store with memory := s.clearedMemory }
    outputs := mapAll (fun _ o => o.handOver) s.outputs
    time := { s.time with boundaryDue := false } }

/-- A burst boundary (R63). -/
def State.boundary (s : State) : State := ((s.lateWindow 0).lateWindow 1).closePeriod

/-! ### The servo event (R23) -/

/-- A servo event (R23, R24). -/
def State.servo (s : State) : State :=
  { s with feeds := mapAll (fun _ x => { x with context := x.servo }) s.feeds, time := { s.time with servoDue := false } }

/-! ### The slice end (R25, R94, R105, R114, R122, R123, R143) -/

/-- The values handed to the sweep at a slice end (R25, R114, R122, R123). -/
def State.handover (s : State) : SliceHandover :=
  { feeds := mapAll (fun _ x => { starve := x.context.starve, slip := x.context.slip, format := x.context.format }) s.feeds
    programmes := mapAll (fun _ p =>
      if p.running then some { peaks := p.meter.peaks, clips := p.clips, tally := p.tally } else none) s.programmes }

/-- A programme at a slice end of `n` frames: if it is RUNNING its meter forms the slice and its rider acts; its clip counts and its
tally are handed on and set to 0 (R94, R105, R114, R123). -/
def Programme.slice (levels : List LevelEntry) (unity : Byte) (n : Nat) (p : Programme) : Programme :=
  let q : Programme :=
    if p.running then
      let m : Programme := { p with meter := p.meter.slice levels p.level.absoluteGate p.level.relativeOffset n }
      { m with rider := m.riderSlice unity }
    else p
  { q with clips := Vector.replicate 8 0, tally := { both := 0, opposed := 0 } }

/-- A feed's flags cleared at a slice end (R25). -/
def FeedContext.clearFlags (c : FeedContext) : FeedContext := { c with starve := false, slip := false, format := false }

/-- The feed converter, the meters, the riders and the output assembler at a slice end. -/
def State.formSlices (s : State) : State :=
  { s with
    feeds := mapAll (fun _ x => { x with context := x.context.clearFlags }) s.feeds
    programmes := mapAll (fun _ p => p.slice s.tables.levels s.tables.unity s.time.sliceFrames) s.programmes }

/-- The log's write pass over the programmes that formed a slice (R143). -/
def State.logPass (h : SliceHandover) (s : State) : State := s.writePass fun i => (h.programmes[i]).isSome

/-- The write pass, the transfer steps it calls for and the sweep, in an order that the spec leaves open (R129, R143, R146). -/
def State.closeSlice (order : SliceOrder) (h : SliceHandover) (s : State) : State :=
  match order with
  | .writeStepSweep => (State.transferSteps 33 (s.logPass h)).sweep h
  | .writeSweepStep => State.transferSteps 33 ((s.logPass h).sweep h)
  | .sweepWriteStep => State.transferSteps 33 ((s.sweep h).logPass h)

/-- A slice end (R94). -/
def State.slice (s : State) (order : SliceOrder) : State :=
  let t := s.formSlices.closeSlice order s.handover
  { t with time := { t.time with sliceDue := false, sliceFrames := 0 } }

/-! ### Events that are due (log entry 6) -/

/-- The burst boundary, if one is due. -/
def State.boundaryIfDue (s : State) : State := if s.time.boundaryDue then s.boundary else s

/-- The servo event, if one is due. -/
def State.servoIfDue (s : State) : State := if s.time.servoDue then s.servo else s

/-- The slice end, if one is due. -/
def State.sliceIfDue (s : State) (order : SliceOrder) : State := if s.time.sliceDue then s.slice order else s

/-- What is still due is taken before the next house frame (R63). -/
def State.catchUp (s : State) : State := s.boundaryIfDue.servoIfDue.sliceIfDue .writeStepSweep

end Sys2Proof.Machine
end

