-- ==== Sys2Proof/Machine/Events.lean ====
section
/-! DEFINITION. The meanings of the events: one definition for each row of the opcode table that is not a management command. -/

namespace Sys2Proof.Machine

/-- The answer of every meaning, named once. -/
abbrev Answer := Host.Outcome State Fault Refusal

/-! ### Reset, house frames and the periodic events -/

/-- The part at its power-on values with a station number. The DRAM keeps its words, and the queue of waiting commands is not the
part's (log entries 1 and 3). -/
def State.powerOn (s : State) (straps : BitVec 6) : State :=
  { State.reset with
    pending := s.pending
    store := { DelayStore.initial with memory := s.store.memory }
    processor := { Processor.initial with station := straps }
    freeCount := s.freeCount }

/-- POWER_ON_RESET (R158): every block at its power-on values, the station number read from the straps. -/
def execPowerOnReset (straps : BitVec 6) (s : State) : Answer := .next (s.powerOn straps)

/-- HOUSE_FRAME (R62): what is still due is taken, then the house frame. -/
def execHouseFrame (order : List (Fin 16)) (s : State) : Answer :=
  if s.catchUp.slotsHold then .next (s.catchUp.frame order) else .fault .noSlot

/-- BURST_BOUNDARY (R63): taken if one is due. -/
def execBurstBoundary (s : State) : Answer := .next s.boundaryIfDue

/-- SERVO_EVENT (R23): taken if one is due. -/
def execServoEvent (s : State) : Answer := .next s.servoIfDue

/-- SLICE_END (R94): taken if one is due. -/
def execSliceEnd (order : SliceOrder) (s : State) : Answer := .next (s.sliceIfDue order)

/-! ### The reference (R67) -/

/-- REFERENCE_EDGE (R67). -/
def execReferenceEdge (s : State) : Answer := .next { s with time := s.time.edge }

/-- The next reference edge brings the state to PRESENT (R67). -/
def Timebase.nearsPresent (t : Timebase) : Bool := (t.reference == .absent) && decide (47 ≤ t.edgeCount)

/-- REFERENCE_PRESENT (R67): the edge that completes the run of 48. -/
def execReferencePresent (s : State) : Answer := .next (if s.time.nearsPresent then { s with time := s.time.edge } else s)

/-- The next oscillator period brings the gap count to 96, and has not been counted yet (R67). -/
def Timebase.nearsAbsent (t : Timebase) : Bool := decide (t.gapCount = 95) && !t.gapTaken

/-- REFERENCE_ABSENT (R67): the coming oscillator period, counted at the reference monitor ahead of its house frame (log entry 9). -/
def execReferenceAbsent (s : State) : Answer :=
  .next (if s.time.nearsAbsent then { s with time := { s.time.gapTick with gapTaken := true } } else s)

/-! ### The trunk receivers (R150 to R161) -/

/-- SYMBOL_RECEIVED (R150, R154): a symbol of the line; a disabled or looped receiver takes none from it (R156, R157). -/
def execSymbolReceived (n : Fin 4) (symbol : LineSymbol) (s : State) : Answer :=
  .next (if s.listens n then s.receive n symbol else s)

/-- BAD_BURST (R155): a burst of the line ended as bad or judged bad (log entry 12). -/
def execBadBurst (n : Fin 4) (s : State) : Answer :=
  .next (if s.findsBursts n then (s.afterWholeBurst n).badBurst n else s)

/-- TRUNK_UNFRAMED (R155): the fourth bad burst in a row. -/
def execTrunkUnframed (n : Fin 4) (s : State) : Answer :=
  .next (if s.listens n && s.framed n && decide (s.inputs[n].receiver.badRun = 3) then (s.afterWholeBurst n).badBurst n else s)

/-- The receiver of trunk `n` is in HUNT. -/
def State.hunting (s : State) (n : Fin 4) : Bool := s.inputs[n].receiver.state == .hunt

/-- TRUNK_FRAMED (R155): the second good burst in a row, which is not handed on. -/
def execTrunkFramed (n : Fin 4) (s : State) : Answer :=
  .next
    (if s.listens n && s.hunting n && decide (s.inputs[n].receiver.goodRun = 1) then
      (s.afterWholeBurst n).updReceiver n Receiver.good
    else s)

/-- TRUNK_SILENCE_DOWN (R154): the coming house frame's silence count, made ahead of it, takes the receiver to DOWN (log entry 9). -/
def execTrunkSilenceDown (n : Fin 4) (s : State) : Answer :=
  .next (if s.silenceEnds n then (s.tickReceiver n).updReceiver n fun r => { r with ticked := true } else s)

/-- SAMPLE_BURST (R13, R151, R155, R159): a whole SAMPLE burst of the line. -/
def execSampleBurst (n : Fin 4) (b : SampleBurst) (s : State) : Answer := .next (s.burstArrives n (.sample b))

/-- CONTROL_BURST (R151, R155, R160): a whole CONTROL burst of the line. -/
def execControlBurst (n : Fin 4) (b : ControlBurst) (s : State) : Answer := .next (s.burstArrives n (.control b))

/-- REPORT_BURST (R151, R155, R161): a whole REPORT burst of the line. -/
def execReportBurst (n : Fin 4) (b : ReportBurst) (s : State) : Answer := .next (s.burstArrives n (.report b))

/-! ### What comes about inside a boundary, a servo event or a house frame (log entry 15)

Each of these events is the consequence of a larger one. The meaning takes the larger one, if it is due and brings the consequence
about for the object named; otherwise the event does not occur and nothing changes. -/

/-- Take what is due if it brings the event about. -/
def State.takeWhen (s : State) (due : Bool) (t : State) (brings : Bool) : State := if due && brings then t else s

/-- TAKE_FIRES (R32, R33): a pending take that the coming house frame lets fire, ahead of that frame's other work. -/
def execTakeFires (p : Fin 16) (s : State) : Answer := .next (s.updProgramme p (Programme.fireDue s.time.nextTime))

/-- Between two states feed `f` enters feed state `x`. -/
def State.feedEnters (s t : State) (f : Fin 8) (x : FeedState) : Bool :=
  s.feeds[f].context.state != x && t.feeds[f].context.state == x

/-- FEED_HOLDOVER (R8): the burst boundary at which the feed goes to HOLDOVER. -/
def execFeedHoldover (f : Fin 8) (s : State) : Answer :=
  .next (s.takeWhen s.time.boundaryDue s.boundary (s.feedEnters s.boundary f .holdover))

/-- FEED_LOST (R11): the burst boundary at which the feed goes to LOST. -/
def execFeedLost (f : Fin 8) (s : State) : Answer :=
  .next (s.takeWhen s.time.boundaryDue s.boundary (s.feedEnters s.boundary f .lost))

/-- FEED_LOCKED (R24): the servo event at which the feed goes to LOCKED. -/
def execFeedLocked (f : Fin 8) (s : State) : Answer :=
  .next (s.takeWhen s.time.servoDue s.servo (s.feedEnters s.servo f .locked))

/-- CLEARING_COMPLETE (R50): the burst boundary that clears the programme's last page. -/
def execClearingComplete (p : Fin 16) (s : State) : Answer :=
  .next (s.takeWhen s.time.boundaryDue s.boundary
    (s.programmes[p].store.state == .clearing && s.boundary.programmes[p].store.state == .running))

/-- REALIGNMENT_TAKEN (R74): the burst boundary that takes a pending realignment to another delay. -/
def execRealignmentTaken (p : Fin 16) (s : State) : Answer :=
  .next (s.takeWhen s.time.boundaryDue s.boundary (s.programmes[p].running && s.programmes[p].align.realigns))

/-! ### The management window and the restart (R164, R182) -/

/-- MANAGEMENT_WINDOW (R163 to R165): opens if it has not opened in this burst period. -/
def execManagementWindow (k : Fin 2) (transferFirst : Bool) (s : State) : Answer :=
  .next (if s.outputs[k].windowDue then s.window k transferFirst else s)

/-- The window of output trunk `k`, once open, lets the REPLY of a RESTART depart (R164, R181). -/
def State.restartDeparts (s : State) (k : Fin 2) : Bool :=
  s.outputs[k].windowDue && ((s.openWindow k).choice k == some .report) &&
    (s.openWindow k).processor.reports.head?.any fun r => (s.openWindow k).restartActsAt r

/-- RESTART_ACTS (R181, R182): the window of the reply trunk in which the RESTART's REPLY departs. -/
def execRestartActs (s : State) : Answer :=
  .next (if s.restartDeparts s.processor.replyTrunk then s.window s.processor.replyTrunk false else s)

/-! ### What comes about inside a slice end (log entry 15) -/

/-- The ride of R107 moves g at a slice end of `n` frames. -/
def Programme.rides (levels : List LevelEntry) (unity : Byte) (n : Nat) (p : Programme) : Bool :=
  let m : Programme := { p with meter := p.meter.slice levels p.level.absoluteGate p.level.relativeOffset n }
  p.running && p.level.gainMode == .ride && (m.rideStep unity).gain != p.rider.gain

/-- RIDE_STEP (R107): the slice end at which the ride moves g. -/
def execRideStep (p : Fin 16) (order : SliceOrder) (s : State) : Answer :=
  .next (s.takeWhen s.time.sliceDue (s.slice order)
    (s.programmes[p].rides s.tables.levels s.tables.unity s.time.sliceFrames))

/-- LOG_ENTRY_DUE (R142): the slice end at which the programme is due for an entry. -/
def execLogEntryDue (p : Fin 16) (order : SliceOrder) (s : State) : Answer :=
  .next (s.takeWhen s.time.sliceDue (s.slice order) (s.programmes[p].running && s.programmes[p].logDue))

/-- Between two states a record is raised (R130). -/
def State.raises (s t : State) (r : Fin 400) : Bool :=
  (s.alarms.records[r].state == .clear || s.alarms.records[r].state == .rising) && t.alarms.records[r].state == .active

/-- ALARM_RAISE (R130): the slice end whose sweep raises the record. -/
def execAlarmRaise (r : Fin 400) (order : SliceOrder) (s : State) : Answer :=
  .next (s.takeWhen s.time.sliceDue (s.slice order) (s.raises (s.slice order) r))

/-- Between two states a record ends its fall (R130). -/
def State.endsFall (s t : State) (r : Fin 400) : Bool :=
  (s.alarms.records[r].state == .active || s.alarms.records[r].state == .falling) &&
    (t.alarms.records[r].state == .clear || t.alarms.records[r].state == .latched)

/-- ALARM_FALL_END (R130): the slice end whose sweep ends the record's fall. -/
def execAlarmFallEnd (r : Fin 400) (order : SliceOrder) (s : State) : Answer :=
  .next (s.takeWhen s.time.sliceDue (s.slice order) (s.endsFall (s.slice order) r))

/-- Between two states a repeat of a record of an enabled kind that stays ACTIVE falls due: its repeat count has returned to 0
(R131). -/
def State.repeats (s t : State) (r : Fin 400) : Bool :=
  (s.alarms.policyOf r).enabled && s.alarms.records[r].state == .active && !s.alarms.records[r].acknowledged &&
    t.alarms.records[r].state == .active && t.alarms.records[r].repeatCount == 0

/-- REPEAT_DUE (R131): the slice end whose sweep makes a repeat of the record fall due. -/
def execRepeatDue (r : Fin 400) (order : SliceOrder) (s : State) : Answer :=
  .next (s.takeWhen s.time.sliceDue (s.slice order) (s.repeats (s.slice order) r))

/-- TRANSFER_STEP (R146): one step, if one can be taken. -/
def execTransferStep (s : State) : Answer := .next (if s.canStep then s.transferStep else s)

end Sys2Proof.Machine
end

