-- ==== Sys2Proof/Machine/Management.lean ====
section
/-! DEFINITION. The meanings of the management commands: each is its CONTROL burst reaching the command queue of this station, which
the command processor takes as soon as it may (R167, R168; log entry 10). -/

namespace Sys2Proof.Machine

/-- UNKNOWN_COMMAND (R168): a CONTROL burst whose code and form the command list does not name. -/
def execUnknownCommand (sender : Sender) (code form : Byte) (params : List Byte) (s : State) : Answer :=
  .next (s.intake (s.commandBurst sender { code := code, form := form, params := params }))

/-- SET_FEED_RECORD (R2, R176): target 0. -/
def execSetFeedRecord (sender : Sender) (object field : Byte) (value : Word32) (s : State) : Answer :=
  .next (s.submit sender (.set 0 object field value))

/-- SET_PROGRAMME_FIELD (R28, R176): target 1. -/
def execSetProgrammeField (sender : Sender) (object field : Byte) (value : Word32) (s : State) : Answer :=
  .next (s.submit sender (.set 1 object field value))

/-- SET_OUTPUT_MAP (R41, R176): target 2. -/
def execSetOutputMap (sender : Sender) (object field : Byte) (value : Word32) (s : State) : Answer :=
  .next (s.submit sender (.set 2 object field value))

/-- SET_INPUT_TRUNK (R152, R176): target 3. -/
def execSetInputTrunk (sender : Sender) (object field : Byte) (value : Word32) (s : State) : Answer :=
  .next (s.submit sender (.set 3 object field value))

/-- SET_KIND_POLICY (R121, R176): target 4. -/
def execSetKindPolicy (sender : Sender) (object field : Byte) (value : Word32) (s : State) : Answer :=
  .next (s.submit sender (.set 4 object field value))

/-- SET_ORIGINATOR_RECORD (R170, R176): target 5. -/
def execSetOriginatorRecord (sender : Sender) (object field : Byte) (value : Word32) (s : State) : Answer :=
  .next (s.submit sender (.set 5 object field value))

/-- SET_REPLY_TRUNK (R165, R176): target 6. -/
def execSetReplyTrunk (sender : Sender) (object field : Byte) (value : Word32) (s : State) : Answer :=
  .next (s.submit sender (.set 6 object field value))

/-- GROUP_SET (R177). -/
def execGroupSet (sender : Sender) (selection : BitVec 16) (field : Byte) (value : Word32) (s : State) : Answer :=
  .next (s.submit sender (.groupSet selection field value))

/-- READ (R178). -/
def execRead (sender : Sender) (group object : Byte) (start count : BitVec 16) (s : State) : Answer :=
  .next (s.submit sender (.read group object start count))

/-- LOAD (R179). -/
def execLoad (sender : Sender) (table : Byte) (start : BitVec 16) (codes : List Byte) (s : State) : Answer :=
  .next (s.submit sender (.load table start codes))

/-- TAKE (R31). -/
def execTake (sender : Sender) (programme immediate : Byte) (time : Word32) (restart : Byte) (layout : List PositionCode) (s : State) :
    Answer :=
  .next (s.submit sender (.take programme immediate time restart layout))

/-- TAKE_CANCEL (R34). -/
def execTakeCancel (sender : Sender) (choice : ProgrammeChoice) (s : State) : Answer := .next (s.submit sender (.takeCancel choice))

/-- ALLOCATE (R48). -/
def execAllocate (sender : Sender) (programme : Byte) (frames : Word32) (s : State) : Answer :=
  .next (s.submit sender (.allocate programme frames))

/-- RELEASE (R52). -/
def execRelease (sender : Sender) (programme : Byte) (s : State) : Answer := .next (s.submit sender (.release programme))

/-- RETIRE (R53). -/
def execRetire (sender : Sender) (page : BitVec 16) (s : State) : Answer := .next (s.submit sender (.retire page))

/-- RESTORE (R54). -/
def execRestore (sender : Sender) (page : BitVec 16) (s : State) : Answer := .next (s.submit sender (.restore page))

/-- READ_FAULT (R60). -/
def execReadFault (sender : Sender) (s : State) : Answer := .next (s.submit sender .readFault)

/-- TIME_SET (R64). -/
def execTimeSet (sender : Sender) (value : Word32) (s : State) : Answer := .next (s.submit sender (.timeSet value))

/-- TIME_ADJUST (R65). -/
def execTimeAdjust (sender : Sender) (shift : Word32) (s : State) : Answer := .next (s.submit sender (.timeAdjust shift))

/-- RESTART_MEASUREMENT (R98). -/
def execRestartMeasurement (sender : Sender) (choice : ProgrammeChoice) (s : State) : Answer :=
  .next (s.submit sender (.restartMeasurement choice))

/-- ACKNOWLEDGE (R134). -/
def execAcknowledge (sender : Sender) (choice : AcknowledgeChoice) (s : State) : Answer :=
  .next (s.submit sender (.acknowledge choice))

/-- RELEASE_HOLD (R173). -/
def execReleaseHold (sender : Sender) (programme cls : Byte) (s : State) : Answer :=
  .next (s.submit sender (.releaseHold programme cls))

/-- LOG_READ (R145). -/
def execLogRead (sender : Sender) (mode : Byte) (count : BitVec 16) (stopOnAlarm : Byte) (s : State) : Answer :=
  .next (s.submit sender (.logRead mode count stopOnAlarm))

/-- LOG_CANCEL (R148). -/
def execLogCancel (sender : Sender) (s : State) : Answer := .next (s.submit sender .logCancel)

/-- LOG_STATUS (R149). -/
def execLogStatus (sender : Sender) (s : State) : Answer := .next (s.submit sender .logStatus)

/-- STATUS (R180). -/
def execStatus (sender : Sender) (s : State) : Answer := .next (s.submit sender .status)

/-- RESTART (R181). -/
def execRestart (sender : Sender) (s : State) : Answer := .next (s.submit sender .restart)

end Sys2Proof.Machine
end

