-- ==== Sys2Proof/Machine/Dispatch.lean ====
section
/-! DEFINITION. The dispatch of every command and event to its meaning. -/

namespace Sys2Proof.Machine

def exec (i : Instr) (s : State) : Host.Outcome State Fault Refusal :=
  match i with
  | .powerOnReset straps => Sys2Proof.Machine.execPowerOnReset straps s
  | .houseFrame order => Sys2Proof.Machine.execHouseFrame order s
  | .burstBoundary => Sys2Proof.Machine.execBurstBoundary s
  | .servoEvent => Sys2Proof.Machine.execServoEvent s
  | .sliceEnd order => Sys2Proof.Machine.execSliceEnd order s
  | .referenceEdge => Sys2Proof.Machine.execReferenceEdge s
  | .referencePresent => Sys2Proof.Machine.execReferencePresent s
  | .referenceAbsent => Sys2Proof.Machine.execReferenceAbsent s
  | .symbolReceived trunk symbol => Sys2Proof.Machine.execSymbolReceived trunk symbol s
  | .badBurst trunk => Sys2Proof.Machine.execBadBurst trunk s
  | .trunkUnframed trunk => Sys2Proof.Machine.execTrunkUnframed trunk s
  | .trunkFramed trunk => Sys2Proof.Machine.execTrunkFramed trunk s
  | .trunkSilenceDown trunk => Sys2Proof.Machine.execTrunkSilenceDown trunk s
  | .sampleBurst trunk burst => Sys2Proof.Machine.execSampleBurst trunk burst s
  | .controlBurst trunk burst => Sys2Proof.Machine.execControlBurst trunk burst s
  | .reportBurst trunk burst => Sys2Proof.Machine.execReportBurst trunk burst s
  | .takeFires programme => Sys2Proof.Machine.execTakeFires programme s
  | .feedHoldover feed => Sys2Proof.Machine.execFeedHoldover feed s
  | .feedLost feed => Sys2Proof.Machine.execFeedLost feed s
  | .feedLocked feed => Sys2Proof.Machine.execFeedLocked feed s
  | .clearingComplete programme => Sys2Proof.Machine.execClearingComplete programme s
  | .realignmentTaken programme => Sys2Proof.Machine.execRealignmentTaken programme s
  | .managementWindow trunk transferFirst => Sys2Proof.Machine.execManagementWindow trunk transferFirst s
  | .restartActs => Sys2Proof.Machine.execRestartActs s
  | .rideStep programme order => Sys2Proof.Machine.execRideStep programme order s
  | .logEntryDue programme order => Sys2Proof.Machine.execLogEntryDue programme order s
  | .alarmRaise record order => Sys2Proof.Machine.execAlarmRaise record order s
  | .alarmFallEnd record order => Sys2Proof.Machine.execAlarmFallEnd record order s
  | .repeatDue record order => Sys2Proof.Machine.execRepeatDue record order s
  | .transferStep => Sys2Proof.Machine.execTransferStep s
  | .unknownCommand sender code form params => Sys2Proof.Machine.execUnknownCommand sender code form params s
  | .setFeedRecord sender object field value => Sys2Proof.Machine.execSetFeedRecord sender object field value s
  | .setProgrammeField sender object field value => Sys2Proof.Machine.execSetProgrammeField sender object field value s
  | .setOutputMap sender object field value => Sys2Proof.Machine.execSetOutputMap sender object field value s
  | .setInputTrunk sender object field value => Sys2Proof.Machine.execSetInputTrunk sender object field value s
  | .setKindPolicy sender object field value => Sys2Proof.Machine.execSetKindPolicy sender object field value s
  | .setOriginatorRecord sender object field value => Sys2Proof.Machine.execSetOriginatorRecord sender object field value s
  | .setReplyTrunk sender object field value => Sys2Proof.Machine.execSetReplyTrunk sender object field value s
  | .groupSet sender selection field value => Sys2Proof.Machine.execGroupSet sender selection field value s
  | .read sender group object start count => Sys2Proof.Machine.execRead sender group object start count s
  | .load sender table start codes => Sys2Proof.Machine.execLoad sender table start codes s
  | .take sender programme immediate time restart layout => Sys2Proof.Machine.execTake sender programme immediate time restart layout s
  | .takeCancel sender choice => Sys2Proof.Machine.execTakeCancel sender choice s
  | .allocate sender programme frames => Sys2Proof.Machine.execAllocate sender programme frames s
  | .release sender programme => Sys2Proof.Machine.execRelease sender programme s
  | .retire sender page => Sys2Proof.Machine.execRetire sender page s
  | .restore sender page => Sys2Proof.Machine.execRestore sender page s
  | .readFault sender => Sys2Proof.Machine.execReadFault sender s
  | .timeSet sender value => Sys2Proof.Machine.execTimeSet sender value s
  | .timeAdjust sender shift => Sys2Proof.Machine.execTimeAdjust sender shift s
  | .restartMeasurement sender choice => Sys2Proof.Machine.execRestartMeasurement sender choice s
  | .acknowledge sender choice => Sys2Proof.Machine.execAcknowledge sender choice s
  | .releaseHold sender programme cls => Sys2Proof.Machine.execReleaseHold sender programme cls s
  | .logRead sender mode count stopOnAlarm => Sys2Proof.Machine.execLogRead sender mode count stopOnAlarm s
  | .logCancel sender => Sys2Proof.Machine.execLogCancel sender s
  | .logStatus sender => Sys2Proof.Machine.execLogStatus sender s
  | .status sender => Sys2Proof.Machine.execStatus sender s
  | .restart sender => Sys2Proof.Machine.execRestart sender s

end Sys2Proof.Machine
end

