-- ==== Sys2Proof/WellFormed.lean ====
section
/-! DEFINITION. Which operands a command of the table can have: those that the spec lets reach the part. A meaning is given for every
operand all the same. -/

namespace Sys2Proof

/-- The operands of a command are ones the spec lets it have: a burst handed on meets the structural points of its kind (R151), an
unknown command's code and form are in no row of R184, the parameters of a command fit a CONTROL burst (R151), and the order of the
programmes at a house frame names each at most once. -/
def Instr.wellFormed : Instr → Bool
  | .houseFrame order => order.eraseDups == order
  | .sampleBurst _ b => Machine.sampleGood b
  | .controlBurst _ b => Machine.controlGood b
  | .reportBurst _ b => Machine.reportGood b
  | .unknownCommand _ code form params =>
    decide (params.length ≤ 256) &&
      (match Machine.decodeCommand code form params with
       | .error .unknown => true
       | _ => false)
  | .load _ _ _ codes => decide (codes.length ≤ 253)
  | .take _ _ _ _ _ layout => decide (layout.length ≤ 62)
  | .powerOnReset _ => true
  | .burstBoundary => true
  | .servoEvent => true
  | .sliceEnd _ => true
  | .referenceEdge => true
  | .referencePresent => true
  | .referenceAbsent => true
  | .symbolReceived _ _ => true
  | .badBurst _ => true
  | .trunkUnframed _ => true
  | .trunkFramed _ => true
  | .trunkSilenceDown _ => true
  | .takeFires _ => true
  | .feedHoldover _ => true
  | .feedLost _ => true
  | .feedLocked _ => true
  | .clearingComplete _ => true
  | .realignmentTaken _ => true
  | .managementWindow _ _ => true
  | .restartActs => true
  | .rideStep _ _ => true
  | .logEntryDue _ _ => true
  | .alarmRaise _ _ => true
  | .alarmFallEnd _ _ => true
  | .repeatDue _ _ => true
  | .transferStep => true
  | .setFeedRecord _ _ _ _ => true
  | .setProgrammeField _ _ _ _ => true
  | .setOutputMap _ _ _ _ => true
  | .setInputTrunk _ _ _ _ => true
  | .setKindPolicy _ _ _ _ => true
  | .setOriginatorRecord _ _ _ _ => true
  | .setReplyTrunk _ _ _ _ => true
  | .groupSet _ _ _ _ => true
  | .read _ _ _ _ _ => true
  | .takeCancel _ _ => true
  | .allocate _ _ _ => true
  | .release _ _ => true
  | .retire _ _ => true
  | .restore _ _ => true
  | .readFault _ => true
  | .timeSet _ _ => true
  | .timeAdjust _ _ => true
  | .restartMeasurement _ _ => true
  | .acknowledge _ _ => true
  | .releaseHold _ _ _ => true
  | .logRead _ _ _ _ => true
  | .logCancel _ => true
  | .logStatus _ => true
  | .status _ => true
  | .restart _ => true

end Sys2Proof
end

