-- ==== Sys2Proof/Safety.lean ====
section
/-! DEFINITION. The terms that claims use: the laws that every run keeps, the conditions under which a command is taken and answered,
and the readings of the state that statements compare. -/

namespace Sys2Proof.Machine

/-! ### Laws of the state -/

/-- The memory of the delay store is in its canonical form (log entry 3). -/
def State.MemoryLaw (s : State) : Prop := Memory.wf s.store.memory

/-- The law of queues, retire table, log ring, loaded tables and histograms. The command queue holds at most 8 bursts (R167), the report
queue at most 32 reports of which at most 24 are alarm reports (R174), each forward queue at most 4 bursts (R162), the ring of the loudness
log at most 512 entries (R140) and the retire table at most 32 pages (R45). The kernel taps and latencies (R22), the level table (R91), the
gain table (R104), the weight table (R86), the filter table (R83), with their sizes of R185, and every histogram (R81) have all their
entries. Other bounded collections have their bounds elsewhere (`PageLaw`, `Feed.Law`) or in the operations that fill them. -/
structure State.CapacityLaw (s : State) : Prop where
  commands : s.processor.commands.length ≤ 8
  reports  : s.processor.reports.length ≤ 32
  alarms   : s.processor.alarmReports ≤ 24
  forward  : ∀ k : Fin 2, s.outputs[k].forward.length ≤ 4
  ring     : s.log.ring.length ≤ 512
  retired  : s.store.retired.length ≤ 32
  taps      : s.tables.taps.length = 8192
  latencies : s.tables.latencies.length = 4
  levels    : s.tables.levels.length = 256
  gains     : s.tables.gains.length = 256
  weights   : s.tables.weights.length = 16
  filters   : s.tables.filters.length = 40
  bins      : ∀ p : Fin 16, s.programmes[p].meter.histogram.length = 256

/-- The pages that the programmes own, in programme order. -/
def State.ownedPages (s : State) : List Page := (List.finRange 16).flatMap fun p => s.programmes[p].store.pages

/-- The law of pages (R43): the free-page list and the page lists hold each page at most once between them, no free page is retired,
every page on no list is retired, the retire table holds no page twice, an UNALLOCATED programme owns no page, and the counts of free,
owned and parked pages add up to 16,384. -/
structure State.PageLaw (s : State) : Prop where
  once        : (s.store.freeList ++ s.ownedPages).Nodup
  freeUnhurt  : ∀ n ∈ s.store.freeList, n ∉ s.store.retired
  parked      : ∀ n : Page, n ∉ s.store.freeList → n ∉ s.ownedPages → n ∈ s.store.retired
  retired     : s.store.retired.Nodup
  unallocated : ∀ p : Fin 16, s.programmes[p].store.state = .unallocated → s.programmes[p].store.pages = []
  count       : s.store.freeList.length + s.ownedPages.length + s.parkedCount = 16384

/-- The law of a delay line (R46, R69): while CLEARING it has a page; while RUNNING its write index, its applied delay and a pending
target lie in 0 to L − 1. -/
structure Programme.RingLaw (p : Programme) : Prop where
  clearing : p.store.state = .clearing → p.store.pages ≠ []
  write    : p.store.state = .running → p.store.write < p.store.ringLength
  delay    : p.store.state = .running → p.align.delay < p.store.ringLength
  pending  : p.store.state = .running → ∀ t, p.align.pending = some t → t < p.store.ringLength

def State.RingLaw (s : State) : Prop := ∀ p : Fin 16, s.programmes[p].RingLaw

/-- The law of epochs (R29, R39): e_in is e_out or one ahead of it, a take is pending only while they are equal, and they are equal
while the programme is not RUNNING. -/
structure Programme.EpochLaw (p : Programme) : Prop where
  ahead   : p.eIn = p.eOut ∨ p.eIn = p.eOut + 1
  pending : p.take.isSome → p.eIn = p.eOut
  resting : p.store.state ≠ .running → p.eIn = p.eOut

def State.EpochLaw (s : State) : Prop := ∀ p : Fin 16, s.programmes[p].EpochLaw

/-- The law of the gain index (R103): within its limits in RIDE mode, equal to the fixed gain index in FIXED mode. -/
structure Programme.GainLaw (p : Programme) : Prop where
  limits : p.level.gMin ≤ p.level.gMax
  ride   : p.level.gainMode = .ride → p.level.gMin ≤ p.rider.gain ∧ p.rider.gain ≤ p.level.gMax
  fixed  : p.level.gainMode = .fixed → p.rider.gain = p.level.fixedGain

def State.GainLaw (s : State) : Prop := ∀ p : Fin 16, s.programmes[p].GainLaw

/-- The law of a feed (R2, R4): the ratios lie within Rmin to Rmax, the buffer holds at most 256 frames and the anchor list at most 8
marks. -/
structure Feed.Law (x : Feed) : Prop where
  limits  : x.record.rmin ≤ x.record.rmax
  ratio   : x.record.rmin ≤ x.context.ratio ∧ x.context.ratio ≤ x.record.rmax
  rbase   : x.record.rmin ≤ x.context.rbase ∧ x.context.rbase ≤ x.record.rmax
  frames  : x.context.frames.length ≤ 256
  anchors : x.context.anchors.length ≤ 8

def State.FeedLaw (s : State) : Prop := ∀ f : Fin 8, s.feeds[f].Law

/-- The law of the alarm lines (R133): each is asserted exactly while some record of an enabled kind of its severity is ACTIVE, FALLING
or LATCHED. -/
structure State.LineLaw (s : State) : Prop where
  major : s.alarms.major = true ↔
    ∃ r : Fin 400, (s.alarms.policyOf r).enabled = true ∧ (s.alarms.policyOf r).severity = .major ∧ s.alarms.records[r].standing = true
  minor : s.alarms.minor = true ↔
    ∃ r : Fin 400, (s.alarms.policyOf r).enabled = true ∧ (s.alarms.policyOf r).severity = .minor ∧ s.alarms.records[r].standing = true

/-! ### Commands taken and answered (R167, R168) -/

/-- The command processor takes a command that arrives at once: READY, no command waiting, room in the report queue (R167). -/
def State.Idle (s : State) : Prop := s.takesNow = true ∧ s.processor.commands = []

/-- An originator that may write programme `p` in a class: the right, and a priority at or above the hold (R171, R172). -/
def State.MayWrite (s : State) (o : Byte) (cls : RightClass) (p : Fin 16) : Prop :=
  s.holdsRight o cls = true ∧ s.outranks o cls p = false

/-- The state after a REPLY to a command has entered the report queue (R168, R184). -/
def State.replied (s : State) (sender : Sender) (code form : Byte) (result : CommandResult) (items : List Byte) : State :=
  s.pushReport
    (.reply { tag := sender.tag, originator := sender.originator, code := code, form := form, result := result, items := items })

/-- A numeric operand clamped to the nearer end of its range (R169). -/
def within (lo hi v : Nat) : Nat := min hi (max lo v)

/-- The result of an accepted write of `v` that stores `stored` (R169). -/
def storedResult (stored v : Nat) : CommandResult := if stored = v then .done else .clamped

/-- A command of a group form, whose selected programmes each stand alone (R169, R177). -/
def Command.isGroup : Command → Bool
  | .groupSet _ _ _ => true
  | .takeCancel (.group _) => true
  | .restartMeasurement (.group _) => true
  | .acknowledge (.group _ _) => true
  | _ => false

/-- The group form of a command judges each selected programme as the single form of the same command would (R177): each programme ends
as the single form would leave it, an unselected one stays, and the reply gives the mask of the programmes accepted and the first refusal.
The octet after a first refused programme of 255 is free. `single p` is the single form for programme `p`. -/
def State.JudgesEachAlone (s : State) (sender : Sender) (selection : BitVec 16) (code form : Byte)
    (single : Fin 16 → State → Host.Outcome State Fault Refusal) (group : State → Host.Outcome State Fault Refusal) : Prop :=
  ∀ (u : Fin 16 → State) (r : Fin 16 → Reply),
    (∀ p, single p s = .next (u p) ∧ (u p).processor.reports = s.processor.reports ++ [.reply (r p)]) →
    let accepts := fun p => (r p).result = .done ∨ (r p).result = .clamped
    ∃ (t : State) (mask : BitVec 16) (first second : Byte) (result : CommandResult),
      group s =
        .next ({ s with programmes := t.programmes, freeCount := t.freeCount }.replied sender code form result
          (mask.extractLsb' 8 8 :: mask.extractLsb' 0 8 :: [first, second])) ∧
      (∀ p : Fin 16, t.programmes[p] = if selection.getLsbD p.val then (u p).programmes[p] else s.programmes[p]) ∧
      (∀ p : Fin 16, mask.getLsbD p.val = true ↔ selection.getLsbD p.val = true ∧ accepts p) ∧
      ((∀ p : Fin 16, selection.getLsbD p.val = true → accepts p) → first = 255 ∧
        result = if ∃ p : Fin 16, selection.getLsbD p.val = true ∧ (r p).result = .clamped then .clamped else .done) ∧
      ∀ p : Fin 16, selection.getLsbD p.val = true → ¬ accepts p →
        (∀ q : Fin 16, q < p → selection.getLsbD q.val = true → accepts q) →
        first = BitVec.ofNat 8 p.val ∧ second = BitVec.ofNat 8 (r p).result.code ∧ result = (r p).result

/-- A command that needs no right (R171). -/
def Command.needsNoRight : Command → Bool
  | .read _ _ _ _ => true
  | .status => true
  | .logStatus => true
  | _ => false

/-- The report is a REPLY. -/
def Report.isReply : Report → Bool
  | .reply _ => true
  | _ => false

/-! ### Boundaries -/

/-- No boundary, servo event or slice end is due (R63). -/
def State.NothingDue (s : State) : Prop := s.time.boundaryDue = false ∧ s.time.servoDue = false ∧ s.time.sliceDue = false

/-- Both management windows of the burst period have opened (R163). -/
def State.WindowsOpened (s : State) : Prop := ∀ k : Fin 2, s.outputs[k].windowDue = false

/-- No receiver takes its symbols from a transmitter (R157). -/
def State.NoLoop (s : State) : Prop := ∀ n : Fin 4, s.inputs[n].loopback = false

/-- The state with every loopback off. -/
def State.unlooped (s : State) : State := { s with inputs := mapAll (fun _ x => { x with loopback := false }) s.inputs }

/-- The state with every loopback as `t` has it. -/
def State.loopedAs (s t : State) : State :=
  { s with inputs := mapAll (fun n x => { x with loopback := t.inputs[n].loopback }) s.inputs }

/-- The row by which a whole burst arrives on the line of input trunk `n`. -/
def arrivalRow (n : Fin 4) : Burst → Instr
  | .sample b => .sampleBurst n b
  | .control b => .controlBurst n b
  | .report b => .reportBurst n b

/-- From `s` to `t` the receivers looped to output trunk `k` take burst `b`, as each would take it from its line: IN0 and then IN2 for OUT0,
IN1 and then IN3 for OUT1 (R157; the order is that of log entry 13). -/
def State.LoopTakes (s : State) (k : Fin 2) (b : Burst) (t : State) : Prop :=
  let takes := fun (n : Fin 4) (u v : State) =>
    if u.inputs[n].enabled = true ∧ u.inputs[n].loopback = true then
      ∃ w, exec (arrivalRow n b) u.unlooped = .next w ∧ v = w.loopedAs u
    else v = u
  ∃ m, takes (if k = 0 then 0 else 1) s m ∧ takes (if k = 0 then 2 else 3) m t

/-- The octets of a ring slot of a programme: 32 of them from the slot's frame address (R55). -/
def StoreContext.slotCovers (c : StoreContext) (slot a : Nat) : Prop :=
  ∃ page k, c.place slot = some (page, k) ∧ frameAddress page k ≤ a ∧ a < frameAddress page k + 32

/-! ### Feeds and age samples at a house frame (R17 to R22, R70 to R72) -/

/-- A feed that converts at a house frame and is not starved (R17, R18). -/
def Feed.yields (x : Feed) : Bool :=
  let c := x.context
  decide (c.state = .acquiring ∨ c.state = .locked ∨ (c.state = .holdover ∧ c.started = true)) &&
    decide (0 ≤ timeDiff c.newest (c.phase + 8))

/-- The output sample of a channel of such a feed (R19): sixteen stored samples weighted by the taps of the branch that φ names, summed
exactly, divided by 2^17 with rounding half up, and saturated. The tap code of −131,072 stands for +131,072 (R22). -/
def Feed.interpolated (t : Tables) (x : Feed) (channel : Nat) : Sample :=
  let c := x.context
  let code := fun k : Nat => t.taps.getD (2048 * x.record.kernel.val + 16 * (c.fraction.toNat / 2097152) + k) 0
  let stored := fun k : Nat => ((c.frames.getD ((c.phase - 7 - c.oldest).toNat + k) []).getD channel 0).toInt
  let sum := ((List.range 16).map fun k => (if code k = 131072 then (131072 : Int) else (code k).toInt) * stored k).sum
  BitVec.ofInt 24 (clampInt (-8388608) 8388607 ((sum + 65536) / 131072))

/-- The age samples of a feed at a house frame of house time `now`, in the order of the marks that its phase crosses (R20, R21). -/
def Feed.ages (t : Tables) (now : Word32) (x : Feed) : List Int :=
  let c := x.context
  let i := c.phase + BitVec.ofNat 32 ((c.fraction.toNat + c.ratio) / 268435456)
  if x.yields then
    (c.anchors.takeWhile fun m => decide (0 ≤ timeDiff i m.index)).map fun m =>
      timeDiff now m.capture + ((t.latencies.getD x.record.kernel.val 0).toNat : Int)
  else []

/-- What an age sample does to the alignment context `a` of a programme that receives it (R71, R72). -/
def Programme.afterAge (p : Programme) (a : AlignContext) (age : Int) : AlignContext :=
  let wanted : Int := p.timing.offset - age
  let top : Int := 128 * p.store.pages.length - 1
  let target := (max 0 (min top wanted)).toNat
  let near := ((target : Int) - (a.pending.getD a.delay)).natAbs ≤ p.timing.tolerance
  { a with
    late := decide (wanted < 0)
    delayShort := decide (top < wanted)
    aligned := true
    pending := if a.aligned = false ∨ (¬ near ∧ 2 ≤ a.misses) then some target else a.pending
    misses := if a.aligned = false ∨ near ∨ 2 ≤ a.misses then 0 else a.misses + 1 }

/-! ### The slice end -/

/-- The programme is due for a log entry at a slice end (R142). -/
def Programme.entryDue (p : Programme) : Bool :=
  decide (p.store.state = .running ∧ 0 < p.level.logInterval ∧ p.level.logInterval ≤ p.log.interval + 1)

/-- The programmes that are due for a log entry at a slice end, in ascending number (R142, R143). -/
def State.entriesDue (s : State) : List (Fin 16) := (List.finRange 16).filter fun p => s.programmes[p].entryDue

/-- The write pass of a slice end discards an entry (R144). -/
def State.passDiscards (s : State) : Bool :=
  !s.entriesDue.isEmpty && decide (512 < s.log.ring.length + s.entriesDue.length)

/-- The alarm reports that can enter the report queue: while it holds fewer than 24 of them and fewer than 32 entries (R136). -/
def State.alarmSpace (s : State) : Nat := min (24 - s.processor.alarmReports) (32 - s.processor.reports.length)

/-- The record stands for the programme or for one of its positions. -/
def concerns (r : Fin 400) (p : Fin 16) : Prop := recordObject r = .programme p ∨ ∃ q, recordObject r = .position p q

/-- The condition of a record at the sweep of a slice end, as R122 and R124 to R129 give it: `s` is the state before the slice end, which
holds what the slice hands over, and `t` the state after it, which holds what the meters and the riders formed. -/
def State.alarmHolds (s t : State) (order : SliceOrder) (r : Fin 400) : Prop :=
  let k := s.alarms.policies[recordKind r]
  let kind := (recordKind r).val
  match recordObject r with
  | .position p q =>
    s.programmes[p].store.state = .running ∧ q.val < t.programmes[p].outLayout.length ∧
      (kind = 0 → s.programmes[p].meter.peaks[q] < k.parameter1) ∧ (kind = 1 → k.parameter1 ≤ s.programmes[p].clips[q])
  | .programme p =>
    let x := t.programmes[p]
    let sole := fun role : Role => (x.outLayout.take 8).countP (fun y => decide (y.role = role)) = 1
    s.programmes[p].store.state = .running ∧
      (kind = 2 → ∃ b, x.meter.shortTerm = some b ∧ x.level.target + k.parameter1 < b) ∧
      (kind = 3 → ∃ b, x.meter.shortTerm = some b ∧ x.level.absoluteGate ≤ b ∧ (b : Int) < x.level.target - k.parameter1) ∧
      (kind = 4 → sole .l ∧ sole .r ∧ 480 ≤ s.programmes[p].tally.both ∧
        k.parameter1 * s.programmes[p].tally.both < 256 * s.programmes[p].tally.opposed) ∧
      (kind = 5 → x.timing.mode = .tracked ∧ x.align.delayShort = true) ∧
      (kind = 6 → x.timing.mode = .tracked ∧ x.align.late = true) ∧ (kind = 7 → x.rider.limit = true)
  | .feed f =>
    (kind = 8 → t.feeds[f].record.enabled = true ∧ t.feeds[f].context.state ≠ .locked) ∧
      (kind = 9 → t.feeds[f].context.state = .lost) ∧ (kind = 10 → s.feeds[f].context.starve = true) ∧
      (kind = 11 → s.feeds[f].context.slip = true) ∧ (kind = 12 → s.feeds[f].context.format = true)
  | .trunk n => t.inputs[n].enabled = true ∧ t.inputs[n].receiver.state ≠ .framed
  | .part =>
    (kind = 14 → t.time.reference = .absent) ∧ (kind = 15 → t.store.fault.valid = true) ∧
      (kind = 16 → s.alarms.commandOverrun = true) ∧
      (kind = 17 → s.alarms.logOverrun = true ∨ (order ≠ .sweepWriteStep ∧ s.passDiscards = true))

/-- The state on which the sweep of a slice end is taken, by the order of the write pass, the transfer steps and the sweep. -/
def State.atSweep (s : State) (order : SliceOrder) : State :=
  match order with
  | .writeStepSweep => State.transferSteps 33 (s.formSlices.logPass s.handover)
  | .writeSweepStep => s.formSlices.logPass s.handover
  | .sweepWriteStep => s.formSlices

end Sys2Proof.Machine

namespace Sys2Proof

/-- The sender and the command of a management row. UNKNOWN_COMMAND carries no command of the list, and an event has no sender. -/
def Instr.management : Instr → Option (Sender × Machine.Command)
  | .setFeedRecord sender object field value => some (sender, .set 0 object field value)
  | .setProgrammeField sender object field value => some (sender, .set 1 object field value)
  | .setOutputMap sender object field value => some (sender, .set 2 object field value)
  | .setInputTrunk sender object field value => some (sender, .set 3 object field value)
  | .setKindPolicy sender object field value => some (sender, .set 4 object field value)
  | .setOriginatorRecord sender object field value => some (sender, .set 5 object field value)
  | .setReplyTrunk sender object field value => some (sender, .set 6 object field value)
  | .groupSet sender selection field value => some (sender, .groupSet selection field value)
  | .read sender group object start count => some (sender, .read group object start count)
  | .load sender table start codes => some (sender, .load table start codes)
  | .take sender programme immediate time again layout => some (sender, .take programme immediate time again layout)
  | .takeCancel sender choice => some (sender, .takeCancel choice)
  | .allocate sender programme frames => some (sender, .allocate programme frames)
  | .release sender programme => some (sender, .release programme)
  | .retire sender page => some (sender, .retire page)
  | .restore sender page => some (sender, .restore page)
  | .readFault sender => some (sender, .readFault)
  | .timeSet sender value => some (sender, .timeSet value)
  | .timeAdjust sender shift => some (sender, .timeAdjust shift)
  | .restartMeasurement sender choice => some (sender, .restartMeasurement choice)
  | .acknowledge sender choice => some (sender, .acknowledge choice)
  | .releaseHold sender programme cls => some (sender, .releaseHold programme cls)
  | .logRead sender mode count stopOnAlarm => some (sender, .logRead mode count stopOnAlarm)
  | .logCancel sender => some (sender, .logCancel)
  | .logStatus sender => some (sender, .logStatus)
  | .status sender => some (sender, .status)
  | .restart sender => some (sender, .restart)
  | .unknownCommand _ _ _ _ => none
  | .powerOnReset _ => none
  | .houseFrame _ => none
  | .burstBoundary => none
  | .servoEvent => none
  | .sliceEnd _ => none
  | .referenceEdge => none
  | .referencePresent => none
  | .referenceAbsent => none
  | .symbolReceived _ _ => none
  | .badBurst _ => none
  | .trunkUnframed _ => none
  | .trunkFramed _ => none
  | .trunkSilenceDown _ => none
  | .sampleBurst _ _ => none
  | .controlBurst _ _ => none
  | .reportBurst _ _ => none
  | .takeFires _ => none
  | .feedHoldover _ => none
  | .feedLost _ => none
  | .feedLocked _ => none
  | .clearingComplete _ => none
  | .realignmentTaken _ => none
  | .managementWindow _ _ => none
  | .restartActs => none
  | .rideStep _ _ => none
  | .logEntryDue _ _ => none
  | .alarmRaise _ _ => none
  | .alarmFallEnd _ _ => none
  | .repeatDue _ _ => none
  | .transferStep => none

end Sys2Proof
end

