-- ==== Sys2Proof/Certificates/Slice0/Obligations.lean ====
section
/-! DEFINITION. The statements for the provers, each a property of the model that a numbered rule of the spec, or a convention named in
the assumption log, calls for. -/

open Sys2Proof Sys2Proof.Machine

/-! ### The queue, and reset -/

/-- The command at the front of the queue is what a step takes, with the rest of the queue left waiting; an empty queue leaves the part
as it is. Both are the model's conventions (log entry 1). -/
def Obligations.StepTakesTheFrontCommand : Prop :=
  ∀ s : State,
    (∀ c rest, s.pending = c :: rest → step s = exec c (s.withPending rest)) ∧
    (s.pending = [] → step s = .next s)

/-- POWER_ON_RESET (R158): every block at its power-on values (R1, R4, R22, R27, R29, R41, R44 to R46, R59, R62, R67, R69, R81, R83, R86,
R91, R103, R104, R114, R116, R120, R123, R129, R130, R133, R140, R145, R152, R153, R162, R163, R164, R165, R167, R170, R172, R174), the station number
read from the straps; the tables hold linear interpolation, unity filters, weights and gains, and the level table of R91; the DRAM keeps
its words (log entry 3). -/
def Obligations.PowerOnResetSetsPowerOnValues : Prop :=
  ∀ (straps : BitVec 6) (s : State), ∃ t, exec (.powerOnReset straps) s = .next t ∧
    (∀ f : Fin 8,
      t.feeds[f].record =
        { enabled := false, trunk := 0, channels := 2, kernel := 0, nominal := 268435456, rmin := 268173312, rmax := 268697600,
          setpoint := 48, lockWindow := 4, timeout := 50 } ∧
      t.feeds[f].context =
        { state := .off, frames := [], oldest := 0, phase := 0, fraction := 0, started := false, ratio := 268435456,
          rbase := 268435456, lockCount := 0, silence := 0, anchors := [], starve := false, slip := false, format := false }) ∧
    (∀ p : Fin 16,
      t.programmes[p].slots = Vector.replicate 2 [] ∧ t.programmes[p].take = none ∧ t.programmes[p].eIn = 0 ∧
      t.programmes[p].eOut = 0 ∧ t.programmes[p].marks = Vector.replicate 2 false ∧
      t.programmes[p].timing = { feed := 0, mode := .fixed, offset := 0, fixedDelay := 0, tolerance := 24 } ∧
      t.programmes[p].level =
        { filterSet := 0, target := 150, absoluteGate := 40, relativeOffset := 40, rideSource := .shortTerm, gainMode := .fixed,
          fixedGain := 128, gMin := 96, gMax := 160, riseInterval := 10, fallInterval := 4, clipGuard := false, ceiling := 8388607,
          logInterval := 0 } ∧
      t.programmes[p].holds = { route := 0, timing := 0, level := 0 } ∧
      t.programmes[p].store = { state := .unallocated, pages := [], cleared := 0, write := 0, holds := Vector.replicate 8 0 } ∧
      t.programmes[p].align =
        { delay := 0, pending := none, muted := false, aligned := false, misses := 0, delayShort := false, late := false,
          realigned := false } ∧
      t.programmes[p].rider = { gain := 128, rise := 0, fall := 0, aim := none, limit := false, latched := 128 } ∧
      t.programmes[p].meter =
        { filter := Vector.replicate 8
            { stage1 := { x1 := 0, x2 := 0, y1 := 0, y2 := 0 }, stage2 := { x1 := 0, x2 := 0, y1 := 0, y2 := 0 } }
          powerSum := 0, measured := 0, substituted := 0, peaks := Vector.replicate 8 0, ring := [], histogram := List.replicate 256 0
          momentaryPower := none, shortTermPower := none, integratedPower := none, momentary := none, shortTerm := none
          integrated := none, voidMark := false, nAbs := 0, gate := none } ∧
      t.programmes[p].outputs = [] ∧ t.programmes[p].clips = Vector.replicate 8 0 ∧
      t.programmes[p].tally = { both := 0, opposed := 0 } ∧ t.programmes[p].log = { interval := 0, epoch := false }) ∧
    (t.tables.taps.length = 8192 ∧
      (∀ (kernel : Fin 4) (branch : Fin 128) (tap : Fin 16),
        t.tables.taps[2048 * kernel.val + 16 * branch.val + tap.val]? =
          some (BitVec.ofNat 18
            (if tap.val = 7 then 131072 - 1024 * branch.val else if tap.val = 8 then 1024 * branch.val else 0))) ∧
      t.tables.latencies = List.replicate 4 0 ∧ t.tables.levels.length = 256 ∧
      (∀ j < 256, t.tables.levels[j]? =
        some { threshold := BitVec.ofNat 40 (65536 * j), power := BitVec.ofNat 40 (65536 * j + 32768) }) ∧
      t.tables.gains = List.replicate 256 1048576 ∧ t.tables.unity = 128 ∧ t.tables.weights = List.replicate 16 16384 ∧
      t.tables.filters.length = 40 ∧
      ∀ i < 40, t.tables.filters[i]? = some (if i % 5 = 0 then 1048576 else 0)) ∧
    (t.store.freeList = List.finRange 16384 ∧ t.store.retired = [] ∧
      t.store.fault = { valid := false, page := 0, offset := 0, programme := 0, time := 0, further := 0 } ∧
      t.store.memory = s.store.memory) ∧
    (t.time.houseTime = 0 ∧ t.time.frameCounter = 0 ∧ t.time.nextTime = 0 ∧ t.time.nextFrame = 0 ∧ t.time.reference = .absent ∧
      t.time.edgeCount = 0 ∧ t.time.gapCount = 0) ∧
    (∀ n : Fin 4, t.inputs[n].enabled = true ∧ t.inputs[n].forward = none ∧ t.inputs[n].loopback = false ∧
      t.inputs[n].receiver.state = .down ∧ t.inputs[n].receiver.silence = 0 ∧ t.inputs[n].receiver.goodRun = 0 ∧
      t.inputs[n].receiver.badRun = 0 ∧ t.inputs[n].receiver.assembly = none) ∧
    (∀ k : Fin 2, t.outputs[k].map.stream.val = k.val ∧ t.outputs[k].map.count = 2 ∧ t.outputs[k].map.captureTime = false ∧
      t.outputs[k].map.entries = Vector.replicate 32 none ∧ t.outputs[k].copy = t.outputs[k].map ∧ t.outputs[k].assembly = [] ∧
      t.outputs[k].sample = none ∧ t.outputs[k].management = none ∧ t.outputs[k].forward = [] ∧ t.outputs[k].lastServed = .forward) ∧
    (∀ k : Fin 18, t.alarms.policies[k].enabled = true ∧ t.alarms.policies[k].clearCount = 3 ∧
      t.alarms.policies[k].latching = false ∧ t.alarms.policies[k].repeatDelay = 0 ∧ t.alarms.policies[k].repeatInterval = 0 ∧
      t.alarms.policies[k].raiseCount = (if k.val = 0 then 50 else 3) ∧
      (k.val = 0 → t.alarms.policies[k].parameter1 = 256) ∧ (k.val = 1 → t.alarms.policies[k].parameter1 = 1) ∧
      (k.val = 2 ∨ k.val = 3 → t.alarms.policies[k].parameter1 = 8) ∧
      (k.val = 4 → t.alarms.policies[k].parameter1 = 192 ∧ t.alarms.policies[k].parameter2 = 8192) ∧
      (4 < k.val → t.alarms.policies[k].parameter1 = 0) ∧ (k.val ≠ 4 → t.alarms.policies[k].parameter2 = 0) ∧
      t.alarms.policies[k].severity = (if k.val ∈ [0, 9, 13, 14, 15] then .major else .minor)) ∧
    (∀ r : Fin 400, t.alarms.records[r] =
      { state := .clear, count := 0, repeatCount := 0, repeatsDue := 0, acknowledged := false, unreported := false,
        timeOfRaise := 0 }) ∧
    (t.alarms.major = false ∧ t.alarms.minor = false ∧ t.alarms.commandOverrun = false ∧ t.alarms.logOverrun = false) ∧
    (t.log.ring = [] ∧ t.log.overflow = false ∧
      t.log.transfer =
        { state := .none, mode := .single, count := 0, stopOnAlarm := false, delivered := 0, overrun := false, cause := none }) ∧
    (t.processor.state = .ready ∧ t.processor.commands = [] ∧ t.processor.reports = [] ∧ t.processor.replyTrunk = 0 ∧
      t.processor.station = straps ∧
      t.processor.originators[(0 : Fin 8)] = { enabled := true, rights := Vector.replicate 7 true, priority := 7 } ∧
      ∀ n : Fin 8, n ≠ 0 → t.processor.originators[n] = { enabled := false, rights := Vector.replicate 7 false, priority := 0 })

/-- Every law that a step keeps holds right after reset. -/
def Obligations.ResetKeepsEveryLaw : Prop :=
  State.reset.MemoryLaw ∧ State.reset.CapacityLaw ∧ State.reset.PageLaw ∧ State.reset.RingLaw ∧ State.reset.EpochLaw ∧
    State.reset.GainLaw ∧ State.reset.FeedLaw ∧ State.reset.LineLaw

/-! ### Encodings -/

/-- Every command whose parameters a CONTROL burst can hold is read back from the code, form and parameter octets that carry it (R184,
R183), and those octets number at most 256 (R151). -/
def Obligations.CommandsDecodeAsEncoded : Prop :=
  ∀ c : Command, c.fits = true →
    (encodeCommand c).params.length ≤ 256 ∧
    decodeCommand (encodeCommand c).code (encodeCommand c).form (encodeCommand c).params = .ok c

/-- The judgement of the octets of a burst (R151, R183). The octets of every burst that meets the structural points of its kind are judged
good and read as that very burst. Octets are judged good exactly when they hold a whole header and a check word, a known kind, the body
length that the header gives, at most 4,608 and for CONTROL at most 256, the check word of header and body, and for SAMPLE a frame count of 1
to 64, a channel count of 1 to 32, a stream number of 0 to 7 and a body of frames × channels × 3 octets; and the burst is then read from
the places of R183. -/
def Obligations.GoodBurstsAreJudgedGood : Prop :=
  (∀ b : Burst, burstGood b = true → judgeBurst (burstOctets b) = some b) ∧
  ∀ octets : List Byte,
    let n := octets.length
    let octet := fun i : Nat => octets.getD i 0
    let number := fun i : Nat => (octet i).toNat
    let length := 256 * number 1 + number 2
    let content := octets.take (n - 2)
    ((∃ b, judgeBurst octets = some b) ↔
      14 ≤ n ∧ length = n - 14 ∧ length ≤ 4608 ∧ octets.drop (n - 2) = octets16 (checkWord content) ∧
      ((number 0 = 1 ∧ 1 ≤ number 4 ∧ number 4 ≤ 64 ∧ 1 ≤ number 5 ∧ number 5 ≤ 32 ∧ number 3 ≤ 7 ∧
          length = number 4 * number 5 * 3) ∨
        (number 0 = 2 ∧ length ≤ 256) ∨ number 0 = 3)) ∧
    (∀ b, judgeBurst octets = some (.sample b) →
      number 0 = 1 ∧ b.stream = octet 3 ∧ b.frames.length = number 4 ∧ b.channels = number 5 ∧
      b.capture = (if (octet 6).getLsbD 0 then some (octet 7 ++ octet 8 ++ octet 9 ++ octet 10) else none) ∧
      (∀ frame ∈ b.frames, frame.length = b.channels) ∧
      ∀ i j, i < number 4 → j < number 5 →
        let k := 12 + 3 * (i * number 5 + j)
        (b.frames.getD i []).getD j 0 = octet k ++ octet (k + 1) ++ octet (k + 2)) ∧
    (∀ b, judgeBurst octets = some (.control b) →
      number 0 = 2 ∧
      b = { destination := octet 3, originator := octet 4, tag := octet 5, code := octet 6, form := octet 7,
            spare := [octet 8, octet 9, octet 10, octet 11], params := content.drop 12 }) ∧
    (∀ b, judgeBurst octets = some (.report b) →
      number 0 = 3 ∧
      b = { station := octet 3, reportType := octet 4, digest := octet 5,
            spare := [octet 6, octet 7, octet 8, octet 9, octet 10, octet 11], body := content.drop 12 })

/-- The delay word (R47, with the places of R185): what the part writes holds the sample, the epoch and the substituted mark, zeros in
the four remaining bits, and an even number of ones; a word read passes parity exactly when its ones are even, and then its three fields
are used as they stand. -/
def Obligations.DelayWordsHoldTheirFields : Prop :=
  (∀ x : DelayWord, (packWord x).extractLsb' 0 24 = x.sample ∧ (packWord x).extractLsb' 24 2 = x.epoch ∧
    (packWord x).getLsbD 26 = x.substituted ∧ (packWord x).extractLsb' 27 4 = 0 ∧ ones (packWord x) % 2 = 0) ∧
  (∀ w : Word32,
    (ones w % 2 = 0 →
      unpackWord w = some { sample := w.extractLsb' 0 24, epoch := w.extractLsb' 24 2, substituted := w.getLsbD 26 }) ∧
    (ones w % 2 = 1 → unpackWord w = none)) ∧
  ∀ (x : DelayWord) (i : Nat), i < 32 → unpackWord (packWord x ^^^ (1#32 <<< i)) = none

/-! ### The house frame -/

/-- A house frame carries the house time and frame count that follow (R62), the burst boundary, servo event and slice end that fall after
it become due (R63), and at the first house frame of a burst period every programme's gain index is latched (R112). Its frame: the tables,
the alarm unit, the log, the command processor, the free-page list, the records of feeds and trunks, and each programme's TIMING and LEVEL
fields, holder priorities, store state and pages stay; a programme that is not RUNNING changes by a take that fires (R33) and by the latch
alone. By the model's choices, what is still due is taken before the frame (log entry 6), and a write index that names no slot of its ring
stops it (log entry 27). -/
def Obligations.HouseFrameAdvancesTimeAndLatchesGains : Prop :=
  ∀ (s : State) (order : List (Fin 16)),
    (s.NothingDue → s.slotsHold = true →
      ∃ t, exec (.houseFrame order) s = .next t ∧
        t.time.houseTime = s.time.nextTime ∧ t.time.nextTime = s.time.nextTime + 1 ∧
        t.time.frameCounter = s.time.nextFrame ∧ t.time.nextFrame = s.time.nextFrame + 1 ∧
        (t.time.boundaryDue = true ↔ (s.time.nextFrame.toNat + 1) % 48 = 0 ∨ s.time.nextFrame.toNat = 4294967295) ∧
        (t.time.servoDue = true ↔ (s.time.nextFrame.toNat + 1) % 960 = 0) ∧
        (t.time.sliceDue = true ↔ (s.time.nextFrame.toNat + 1) % 4800 = 0) ∧
        t.time.sliceFrames = s.time.sliceFrames + 1 ∧
        t = { s with
          feeds := t.feeds, programmes := t.programmes, time := t.time, inputs := t.inputs, outputs := t.outputs
          store := { s.store with memory := t.store.memory, retired := t.store.retired, fault := t.store.fault } } ∧
        (∀ f : Fin 8, t.feeds[f].record = s.feeds[f].record) ∧
        (∀ n : Fin 4, t.inputs[n] = { s.inputs[n] with receiver := t.inputs[n].receiver }) ∧
        (∀ k : Fin 2, t.outputs[k] =
          { s.outputs[k] with assembly := t.outputs[k].assembly, firstTime := t.outputs[k].firstTime }) ∧
        ∀ p : Fin 16,
          let q := s.programmes[p]
          let u := t.programmes[p]
          u.rider =
            { q.rider with latched := if s.time.nextFrame.toNat % 48 = 0 then q.rider.gain else q.rider.latched } ∧
          u =
            { q with
              slots := u.slots, take := u.take, eIn := u.eIn, eOut := u.eOut, marks := u.marks, align := u.align, meter := u.meter
              rider := u.rider, outputs := u.outputs, clips := u.clips, tally := u.tally, log := { q.log with epoch := u.log.epoch }
              store := { q.store with write := u.store.write, holds := u.store.holds } } ∧
          (q.running = false → u = { q with slots := u.slots, take := u.take, marks := u.marks, rider := u.rider })) ∧
    (s.NothingDue → s.slotsHold = false → exec (.houseFrame order) s = .fault .noSlot) ∧
    ∃ a b c, exec .burstBoundary s = .next a ∧ exec .servoEvent a = .next b ∧ exec (.sliceEnd .writeStepSweep) b = .next c ∧
      c.NothingDue ∧ exec (.houseFrame order) s = exec (.houseFrame order) c

/-- What a house frame does to each feed: one that is not converting is unchanged (R17); a starved one sets STARVE and stays as it is
(R18); any other moves its phase by R, releases the frames before the new i − 7 and the marks it crosses (R20). Each mark crossed gives an
age sample (R21), which every RUNNING programme in TRACKED mode with that timing feed takes, in the order of the marks: it forms the wanted
delay, sets the DELAY SHORT and LATE flags (R71), and judges a hit, a miss or a third miss, ordering a realignment as R72 directs; no other
alignment context changes (R70). -/
def Obligations.HouseFrameMovesConvertingFeeds : Prop :=
  ∀ (s : State) (order : List (Fin 16)), s.NothingDue → s.slotsHold = true → s.NoLoop → (∀ n, s.silenceEnds n = false) →
    ∃ t, exec (.houseFrame order) s = .next t ∧
      (∀ f : Fin 8,
        let c := s.feeds[f].context
        let sum := c.fraction.toNat + c.ratio
        let i := c.phase + BitVec.ofNat 32 (sum / 268435456)
        t.feeds[f].record = s.feeds[f].record ∧
        t.feeds[f].context =
          if c.state = .acquiring ∨ c.state = .locked ∨ (c.state = .holdover ∧ c.started = true) then
            if 0 ≤ timeDiff c.newest (c.phase + 8) then
              { c with
                phase := i, fraction := BitVec.ofNat 28 (sum % 268435456), oldest := i - 7,
                frames := c.frames.drop (i - 7 - c.oldest).toNat,
                anchors := c.anchors.dropWhile fun m => decide (0 ≤ timeDiff i m.index) }
            else { c with starve := true }
          else c) ∧
      ∀ p : Fin 16,
        let q := s.programmes[p]
        t.programmes[p].align =
          if q.store.state = .running ∧ q.timing.mode = .tracked then
            (s.feeds[q.timing.feed].ages s.tables s.time.nextTime).foldl q.afterAge q.align
          else q.align

/-- What a house frame writes in the delay store: outside the slots that RUNNING programmes write nothing changes; into its slot w each
writes the frame that R30 forms under its in-layout and e_in, takes that fire at this frame included, and its write index advances by one
modulo L (R30, R55). The samples are those of the feeds' output frames: interpolated and not marked for a feed that converts and is not
starved (R19, R22), and zero and marked substituted for any other (R17, R18). The page law keeps the programmes' slots apart. -/
def Obligations.HouseFrameWritesDelayFrames : Prop :=
  ∀ (s : State) (order : List (Fin 16)), s.NothingDue → s.slotsHold = true →
    ∃ t, exec (.houseFrame order) s = .next t ∧
      (∀ a, (∀ p : Fin 16, s.programmes[p].running = true →
          ¬ s.programmes[p].store.slotCovers s.programmes[p].store.write a) →
        readOctet t.store.memory a = readOctet s.store.memory a) ∧
      (∀ p : Fin 16, s.programmes[p].running = true →
        t.programmes[p].store.write = (s.programmes[p].store.write + 1) % (128 * s.programmes[p].store.pages.length)) ∧
      (∀ p : Fin 16, s.programmes[p].running = false → t.programmes[p].store = s.programmes[p].store) ∧
      (s.PageLaw → ∀ (p : Fin 16) (page : Page) (k : Nat), s.programmes[p].running = true →
        s.programmes[p].store.place s.programmes[p].store.write = some (page, k) →
        let q := s.programmes[p].fireDue s.time.nextTime
        readFrame t.store.memory page k = (List.range 8).map fun i =>
          packWord
            (match q.inLayout[i]? with
             | none => { sample := 0, epoch := q.eIn, substituted := false }
             | some pos =>
               let x := s.feeds[pos.feed]
               if pos.channel.val < x.record.channels ∧ x.yields = true then
                 { sample := x.interpolated s.tables pos.channel.val, epoch := q.eIn, substituted := false }
               else { sample := 0, epoch := q.eIn, substituted := true }))

/-- What a RUNNING programme does with the frame it fetches: slot (w − 1 − d) mod L (R56); the output epoch switches when the frame's
epoch is e_out + 1 while e_out differs from e_in, muted or not (R36 to R38), with a measurement restart exactly when the restart mark of
the slot switched to is set, and otherwise the ring, the histogram and the levels stay (R96, R97); each position hands on zero while muted
(R75), its own sample if its word passes parity and its hold value if not (R57), and that is its hold value from then on (R56); each
position of the out-layout gives an output sample under the latched gain and the ceiling (R113). -/
def Obligations.HouseFrameReadsTheRing : Prop :=
  ∀ (s : State) (order : List (Fin 16)), s.NothingDue → s.slotsHold = true → s.PageLaw →
    ∃ t, exec (.houseFrame order) s = .next t ∧
      ∀ p : Fin 16, s.programmes[p].running = true →
        let q := s.programmes[p].fireDue s.time.nextTime
        let slot := (((q.store.write : Int) - 1 - q.align.delay) % ((128 * q.store.pages.length : Nat) : Int)).toNat
        let words := s.store.readSlot q.store slot
        let epoch := match (words.filterMap unpackWord).head? with
          | some x => x.epoch
          | none => q.eOut
        let u := t.programmes[p]
        -- the meter `m`, but for what measuring a frame moves
        let counts := fun m : MeterContext => u.meter =
          { m with filter := u.meter.filter, powerSum := u.meter.powerSum, measured := u.meter.measured
                   substituted := u.meter.substituted, peaks := u.meter.peaks }
        u.eIn = q.eIn ∧
        (epoch = q.eOut + 1 ∧ q.eOut ≠ q.eIn →
          u.eOut = q.eOut + 1 ∧ u.marks = q.marks.set (slotOf u.eOut) false ∧ u.log = { q.log with epoch := true } ∧
          (q.marks[slotOf u.eOut] = true →
            counts { q.meter with
              ring := [], histogram := List.replicate 256 0, momentaryPower := none, shortTermPower := none, integratedPower := none
              momentary := none, shortTerm := none, integrated := none, nAbs := 0, gate := none }) ∧
          (q.marks[slotOf u.eOut] = false → counts q.meter)) ∧
        (¬ (epoch = q.eOut + 1 ∧ q.eOut ≠ q.eIn) →
          u.eOut = q.eOut ∧ u.marks = q.marks ∧ u.log = q.log ∧ counts q.meter) ∧
        (∀ i : Fin 8, u.store.holds[i] =
          if q.align.muted then 0
          else match words[i.val]?.bind unpackWord with
            | some x => x.sample
            | none => q.store.holds[i]) ∧
        ∀ i : Fin 8, i.val < u.outLayout.length →
          u.outputs[i.val]? =
            some (BitVec.ofInt 24
              (clampInt (-(q.level.ceiling : Int)) q.level.ceiling
                ((u.store.holds[i].toInt * ((s.tables.gains.getD u.rider.latched 0).toNat : Int) + 524288) / 1048576)))

/-- What the meter, the alarm unit's tally and the output assembler take from the frame that a RUNNING programme hands on: each position of
the out-layout passes both filter stages, from zero state at an output epoch switch (R84, R85), adds its weighted power to the power sum
(R86, R87) and moves its peak; the frame is counted, and counted substituted when a position of the out-layout carries the mark (R82); the
PHASE tally (R123) and the clip counts (R114) move; positions beyond the out-layout stay. Every output trunk's burst under assembly gains
the frame that its map copy gives (R42, R116). -/
def Obligations.HouseFrameMeasuresAndAssembles : Prop :=
  ∀ (s : State) (order : List (Fin 16)), s.NothingDue → s.slotsHold = true → s.PageLaw →
    ∃ t, exec (.houseFrame order) s = .next t ∧
      (∀ p : Fin 16, s.programmes[p].running = true →
        let q := s.programmes[p].fireDue s.time.nextTime
        let slot := (((q.store.write : Int) - 1 - q.align.delay) % ((128 * q.store.pages.length : Nat) : Int)).toNat
        let words := s.store.readSlot q.store slot
        let u := t.programmes[p]
        let restarts := u.eOut ≠ q.eOut ∧ q.marks[slotOf u.eOut] = true
        let marked := fun i : Fin 8 => q.align.muted = true ∨ words[i.val]?.bind unpackWord = none ∨
          ∃ x, words[i.val]?.bind unpackWord = some x ∧ x.substituted = true
        let coefficient := fun stage k : Nat => (s.tables.filters.getD (10 * q.level.filterSet.val + 5 * stage + k) 0).toInt
        let output := fun (stage : Nat) (f : StageState) (a : Int) =>
          clampInt (-134217728) 134217727
            ((coefficient stage 0 * a + coefficient stage 1 * f.x1 + coefficient stage 2 * f.x2 - coefficient stage 3 * f.y1 -
              coefficient stage 4 * f.y2 + 524288) / 1048576)
        u.meter.measured = (if restarts then 0 else q.meter.measured) + 1 ∧
        ((∃ i : Fin 8, i.val < u.outLayout.length ∧ marked i) →
          u.meter.substituted = (if restarts then 0 else q.meter.substituted) + 1) ∧
        ((∀ i : Fin 8, i.val < u.outLayout.length → ¬ marked i) →
          u.meter.substituted = (if restarts then 0 else q.meter.substituted)) ∧
        u.meter.powerSum = (if restarts then 0 else q.meter.powerSum) +
          ((List.finRange 8).map fun i =>
            match u.outLayout[i.val]? with
            | some pos =>
              let z := u.meter.filter[i].stage2.y1
              (z * z).toNat / 16777216 * (s.tables.weights.getD pos.weight.val 0).toNat / 16384
            | none => 0).sum ∧
        (∀ i : Fin 8,
          let f := if u.eOut = q.eOut then q.meter.filter[i] else FilterState.initial
          let x := u.store.holds[i].toInt
          let y := (x * ((s.tables.gains.getD u.rider.latched 0).toNat : Int) + 524288) / 1048576
          let z1 := output 0 f.stage1 x
          let z2 := output 1 f.stage2 z1
          (i.val < u.outLayout.length →
            u.meter.filter[i] =
              { stage1 := { x1 := x, x2 := f.stage1.x1, y1 := z1, y2 := f.stage1.y1 }
                stage2 := { x1 := z1, x2 := f.stage2.x1, y1 := z2, y2 := f.stage2.y1 } } ∧
            u.meter.peaks[i] = max q.meter.peaks[i] x.natAbs ∧
            u.clips[i] = if y < -(q.level.ceiling : Int) ∨ (q.level.ceiling : Int) < y then q.clips[i] + 1 else q.clips[i]) ∧
          (u.outLayout.length ≤ i.val → u.meter.filter[i] = f ∧ u.meter.peaks[i] = q.meter.peaks[i] ∧ u.clips[i] = q.clips[i])) ∧
        (soleRole u.outLayout .l = none ∨ soleRole u.outLayout .r = none → u.tally = q.tally) ∧
        (∀ l r, soleRole u.outLayout .l = some l → soleRole u.outLayout .r = some r →
          let x := u.store.holds[l].toInt
          let y := u.store.holds[r].toInt
          let least := s.alarms.policies[(4 : Fin 18)].parameter2
          u.tally =
            if least < x.natAbs ∧ least < y.natAbs then
              { both := q.tally.both + 1
                opposed := if (0 < x ∧ y < 0) ∨ (x < 0 ∧ 0 < y) then q.tally.opposed + 1 else q.tally.opposed }
            else q.tally)) ∧
      ∀ k : Fin 2,
        let o := s.outputs[k]
        t.outputs[k].map = o.map ∧ t.outputs[k].copy = o.copy ∧
        t.outputs[k].firstTime = (if o.assembly = [] then s.time.nextTime else o.firstTime) ∧
        t.outputs[k].assembly = o.assembly ++
          [((List.finRange 32).filter fun i => decide (i.val < o.copy.count)).map fun i =>
            match o.copy.entries[i] with
            | none => 0
            | some (p, i) =>
              if t.programmes[p].running = true ∧ i.val < t.programmes[p].outLayout.length then t.programmes[p].outputs.getD i.val 0
              else 0]

/-- Parity faults of a house frame. A word that a RUNNING programme fetches with an odd number of ones is a fault; each is found once, the
programmes taken in the order of the operand (log entry 14). A valid fault record keeps its first fault and counts the others, to at most
255 (R59); an empty one takes the first fault, the lowest position of the first programme, and counts the rest. The page of a failing word
enters the retire table at its end, if it is not there and the table holds fewer than 32 entries (R58); no free page is touched (R45). -/
def Obligations.HouseFrameRecordsParityFaults : Prop :=
  ∀ (s : State) (order : List (Fin 16)), s.NothingDue → s.slotsHold = true → s.PageLaw →
    let words := fun p : Fin 16 => s.store.readSlot s.programmes[p].store s.programmes[p].fetchSlot
    let faults := fun p : Fin 16 =>
      if s.programmes[p].running = true then (words p).countP fun w => decide (ones w % 2 = 1) else 0
    let total := ((List.finRange 16).map faults).sum
    let failing := (programmeOrder order).filter fun p => decide (0 < faults p)
    let pages := failing.filterMap fun p => (s.programmes[p].store.place s.programmes[p].fetchSlot).map Prod.fst
    ∃ t, exec (.houseFrame order) s = .next t ∧ t.store.freeList = s.store.freeList ∧
      t.store.retired =
        s.store.retired ++ (pages.filter fun n => decide (n ∉ s.store.retired)).take (32 - s.store.retired.length) ∧
      (∀ (p : Fin 16) (page : Page) (k : Nat), 0 < faults p →
        s.programmes[p].store.place s.programmes[p].fetchSlot = some (page, k) →
        page ∈ t.store.retired ∨ 32 ≤ t.store.retired.length) ∧
      (total = 0 → t.store.fault = s.store.fault ∧ t.store.retired = s.store.retired) ∧
      (s.store.fault.valid = true → s.store.fault.further ≤ 255 →
        t.store.fault = { s.store.fault with further := min 255 (s.store.fault.further + total) }) ∧
      (s.store.fault.valid = false → ∀ (p : Fin 16) (page : Page) (k i : Nat), failing.head? = some p →
        s.programmes[p].store.place s.programmes[p].fetchSlot = some (page, k) →
        (∃ w, (words p)[i]? = some w ∧ ones w % 2 = 1) → (∀ j w, j < i → (words p)[j]? = some w → ones w % 2 = 0) →
        t.store.fault =
          { valid := true, page := page, offset := BitVec.ofNat 10 (8 * k + i), programme := p, time := s.time.nextTime
            further := min 255 (total - 1) })

/-! ### The burst boundary and the servo event -/

/-- The silence timers at a burst boundary (R8), the state that enters LOST (R11), and the rows FEED_HOLDOVER and FEED_LOST, which take
that boundary exactly when it sends their feed there and otherwise change nothing (log entry 15). With no boundary due nothing changes
(log entry 6), and the silence timer of a feed that enters LOST is 0 (R8; log entry 26). -/
def Obligations.BoundaryCountsSilenceTimers : Prop :=
  ∀ s : State,
    (s.time.boundaryDue = false →
      exec .burstBoundary s = .next s ∧ ∀ f, exec (.feedHoldover f) s = .next s ∧ exec (.feedLost f) s = .next s) ∧
    (s.time.boundaryDue = true → s.WindowsOpened →
      ∃ t, exec .burstBoundary s = .next t ∧
        ∀ f : Fin 8,
          let x := s.feeds[f]
          let n := min (x.context.silence + 1) 255
          t.feeds[f].record = x.record ∧
          t.feeds[f].context =
            (match x.context.state with
             | .priming | .acquiring | .locked =>
               if 4 ≤ n then { x.context with silence := n, state := .holdover } else { x.context with silence := n }
             | .holdover =>
               if x.record.timeout ≤ n then
                 { x.context with state := .lost, silence := 0, frames := [], oldest := 0, started := false, anchors := [] }
               else { x.context with silence := n }
             | .off | .waiting | .lost => x.context) ∧
          exec (.feedHoldover f) s =
            .next (if x.context.state ∈ [.priming, .acquiring, .locked] ∧ 4 ≤ n then t else s) ∧
          exec (.feedLost f) s = .next (if x.context.state = .holdover ∧ x.record.timeout ≤ n then t else s))

/-- What a burst boundary does to each programme: clearing goes on by 32 pages or completes (R49, R50, R78), and a RUNNING programme's
alignment context takes its pending realignment or ends its mute (R74). CLEARING_COMPLETE and REALIGNMENT_TAKEN take that boundary
exactly when it completes their programme's clearing, or moves its delay (log entry 15). With no boundary due nothing changes (log entry
6). -/
def Obligations.BoundaryClearsAndRealignsProgrammes : Prop :=
  ∀ s : State,
    (s.time.boundaryDue = false →
      ∀ p, exec (.clearingComplete p) s = .next s ∧ exec (.realignmentTaken p) s = .next s) ∧
    (s.time.boundaryDue = true → s.WindowsOpened →
      ∃ t, exec .burstBoundary s = .next t ∧
        ∀ p : Fin 16,
          let q := s.programmes[p]
          t.programmes[p] =
            (match q.store.state with
             | .unallocated => q
             | .clearing =>
               if q.store.pages.length ≤ q.store.cleared + 32 then
                 { q with
                   store := { q.store with state := .running, cleared := q.store.pages.length, write := 0,
                                           holds := Vector.replicate 8 0 }
                   eOut := q.eIn
                   align := { delay := min q.timing.fixedDelay (128 * q.store.pages.length - 1), pending := none, muted := false,
                              aligned := false, misses := 0, delayShort := false, late := false, realigned := q.align.realigned } }
               else { q with store := { q.store with cleared := q.store.cleared + 32 } }
             | .running =>
               match q.align.pending with
               | none => { q with align := { q.align with muted := false } }
               | some d =>
                 if d = q.align.delay then { q with align := { q.align with pending := none, muted := false } }
                 else { q with align := { q.align with delay := d, pending := none, muted := true, realigned := true } }) ∧
          exec (.clearingComplete p) s =
            .next (if q.store.state = .clearing ∧ q.store.pages.length ≤ q.store.cleared + 32 then t else s) ∧
          exec (.realignmentTaken p) s =
            .next (if q.store.state = .running ∧ ∃ d, q.align.pending = some d ∧ d ≠ q.align.delay then t else s))

/-- What a burst boundary writes in the delay store (R49): outside the pages it clears nothing changes; every frame of a page it clears
reads as eight words of sample zero, the programme's e_in and the substituted mark. The page law keeps the programmes' pages apart. -/
def Obligations.BoundaryWritesClearedPages : Prop :=
  ∀ s : State, s.time.boundaryDue = true → s.WindowsOpened →
    ∃ t, exec .burstBoundary s = .next t ∧
      (∀ a, (∀ p : Fin 16, s.programmes[p].store.state = .clearing →
          ∀ n ∈ (s.programmes[p].store.pages.drop s.programmes[p].store.cleared).take 32,
            a < 4096 * n.val ∨ 4096 * n.val + 4096 ≤ a) →
        readOctet t.store.memory a = readOctet s.store.memory a) ∧
      (s.PageLaw → ∀ p : Fin 16, s.programmes[p].store.state = .clearing →
        ∀ n ∈ (s.programmes[p].store.pages.drop s.programmes[p].store.cleared).take 32, ∀ k < 128,
          readFrame t.store.memory n k =
            List.replicate 8 (packWord { sample := 0, epoch := s.programmes[p].eIn, substituted := true }))

/-- What a burst boundary does on the output side (R41, R116, R163): the burst under assembly is handed over with the stream number and
position count of the map copy and, if the copy's flag is set, the house time of its first frame; the copy is taken from the record as it
stands; a new burst begins. Nothing else of the part outside the feeds, the programmes and the store's memory changes. A management window
of the closing burst period that has not opened does so first, by the model's choice (log entry 8). -/
def Obligations.BoundaryHandsOverOutputBursts : Prop :=
  ∀ s : State, s.time.boundaryDue = true →
    (s.WindowsOpened →
      ∃ t, exec .burstBoundary s = .next t ∧
        (∀ k : Fin 2, t.outputs[k] =
          { s.outputs[k] with
            sample := some
              { stream := BitVec.ofNat 8 s.outputs[k].copy.stream.val, channels := s.outputs[k].copy.count,
                frames := s.outputs[k].assembly,
                capture := if s.outputs[k].copy.captureTime then some s.outputs[k].firstTime else none }
            management := none, copy := s.outputs[k].map, assembly := [], windowDue := true }) ∧
        t = { s with
          feeds := t.feeds, programmes := t.programmes, outputs := t.outputs
          store := { s.store with memory := t.store.memory }
          time := { s.time with boundaryDue := false } }) ∧
    ∃ a b, exec (.managementWindow 0 false) s = .next a ∧ exec (.managementWindow 1 false) a = .next b ∧ b.WindowsOpened ∧
      exec .burstBoundary s = exec .burstBoundary b

/-- The servo event (R23, R24), and the row FEED_LOCKED, which takes it exactly when it locks its feed (log entry 15). The ratio limits
stand in order, as the feed law says. With no servo event due nothing changes (log entry 6). -/
def Obligations.ServoSteersAndLocksFeeds : Prop :=
  ∀ s : State,
    (s.time.servoDue = false → exec .servoEvent s = .next s ∧ ∀ f, exec (.feedLocked f) s = .next s) ∧
    (s.time.servoDue = true →
      ∃ t, exec .servoEvent s = .next t ∧
        t = { s with feeds := t.feeds, time := { s.time with servoDue := false } } ∧
        ∀ f : Fin 8,
          let x := s.feeds[f]
          let c := x.context
          let u := t.feeds[f].context
          let e : Int := timeDiff c.newest c.phase - x.record.setpoint
          t.feeds[f].record = x.record ∧
          (c.state ≠ .acquiring → c.state ≠ .locked → u = c) ∧
          (x.record.rmin ≤ x.record.rmax → c.state = .acquiring ∨ c.state = .locked →
            (u.rbase : Int) = max (x.record.rmin : Int) (min (x.record.rmax : Int) (c.rbase + 16 * e)) ∧
            (u.ratio : Int) = max (x.record.rmin : Int) (min (x.record.rmax : Int) (u.rbase + 1024 * e)) ∧
            u.lockCount = (if e.natAbs ≤ x.record.lockWindow then min (c.lockCount + 1) 8 else 0) ∧
            u.state =
              (if c.state = .acquiring ∧ u.lockCount = 8 then .locked
               else if c.state = .locked ∧ 4 * x.record.lockWindow < e.natAbs then .acquiring
               else c.state) ∧
            u = { c with rbase := u.rbase, ratio := u.ratio, lockCount := u.lockCount, state := u.state }) ∧
          exec (.feedLocked f) s =
            .next (if c.state = .acquiring ∧ e.natAbs ≤ x.record.lockWindow ∧ 7 ≤ c.lockCount then t else s))

/-! ### The slice end -/

/-- bin(P) is the largest index whose threshold does not exceed P, and absent when no threshold qualifies (R91). -/
def Obligations.BinIsTheLargestQualifyingIndex : Prop :=
  ∀ (levels : List LevelEntry) (power : Nat),
    (∀ j, bin levels power = some j ↔
      (∃ e, levels[j]? = some e ∧ e.threshold.toNat ≤ power) ∧
        ∀ (k : Nat) e, j < k → levels[k]? = some e → power < e.threshold.toNat) ∧
    (bin levels power = none ↔ ∀ e ∈ levels, power < e.threshold.toNat)

/-- A slice end forms the slice of every RUNNING programme's meter (R88 to R95): void mark and slice power, the ring, the momentary and
short-term powers and levels, the histogram entry, the integrated power, level and gate record; the accumulators and peaks return to 0.
A void slice sets the VOID mark, which stays set while the log interval is 0, since no entry is then written; with an interval above 0 the
mark left is that of SliceEndWritesDueLogEntries. The meter of a programme that is not RUNNING is unchanged. With no slice end due nothing
changes (log entry 6). -/
def Obligations.SliceEndFormsMeasurements : Prop :=
  ∀ (s : State) (order : SliceOrder),
    (s.time.sliceDue = false → exec (.sliceEnd order) s = .next s) ∧
    (s.time.sliceDue = true →
      ∃ t, exec (.sliceEnd order) s = .next t ∧
        ∀ p : Fin 16,
          let q := s.programmes[p]
          let m := q.meter
          let n := s.time.sliceFrames
          let u := t.programmes[p].meter
          let g := q.level.absoluteGate
          (q.running = false → u = m) ∧
          (q.running = true →
            u.ring = (if m.ring.length < 30 then m.ring else m.ring.drop 1) ++
              [{ power := m.powerSum / n, void := decide (n < 10 * (m.substituted + (n - m.measured))) }] ∧
            (q.level.logInterval = 0 →
              u.voidMark = (m.voidMark || decide (n < 10 * (m.substituted + (n - m.measured))))) ∧
            u.powerSum = 0 ∧ u.measured = 0 ∧ u.substituted = 0 ∧ u.peaks = Vector.replicate 8 0 ∧ u.filter = m.filter ∧
            u.momentaryPower =
              (if 4 ≤ u.ring.length then some (((u.ring.drop (u.ring.length - 4)).map SliceEntry.power).sum / 4) else none) ∧
            u.shortTermPower = (if 30 ≤ u.ring.length then some ((u.ring.map SliceEntry.power).sum / 30) else none) ∧
            u.momentary = u.momentaryPower.bind (bin s.tables.levels) ∧
            u.shortTerm = u.shortTermPower.bind (bin s.tables.levels) ∧
            (∀ j, u.momentary = some j → g ≤ j → (∀ e ∈ u.ring.drop (u.ring.length - 4), e.void = false) →
              u.histogram = (if m.histogram.getD j 0 = 65535 then m.histogram.map (· / 2) else m.histogram).modify j (· + 1)) ∧
            (u.momentary = none ∨ (∃ j, u.momentary = some j ∧ j < g) ∨ (∃ e ∈ u.ring.drop (u.ring.length - 4), e.void = true) →
              u.histogram = m.histogram) ∧
            u.nAbs = (u.histogram.drop g).sum ∧
            (u.nAbs = 0 → u.gate = none ∧ u.integratedPower = none ∧ u.integrated = none) ∧
            (u.nAbs ≠ 0 →
              let energy := fun lowest : Nat =>
                (((u.histogram.zip s.tables.levels).drop lowest).map fun e => e.1 * e.2.power.toNat).sum
              let gRel := match bin s.tables.levels (energy g / u.nAbs) with
                | some b => b - q.level.relativeOffset
                | none => 0
              u.gate = some (max g gRel) ∧
              ((u.histogram.drop (max g gRel)).sum = 0 → u.integratedPower = none ∧ u.integrated = none) ∧
              ((u.histogram.drop (max g gRel)).sum ≠ 0 →
                u.integratedPower = some (energy (max g gRel) / (u.histogram.drop (max g gRel)).sum) ∧
                u.integrated = u.integratedPower.bind (bin s.tables.levels)))))

/-- The ride of a slice end (R105 to R109): FIXED mode sets g to the fixed gain index; in RIDE mode a hold leaves g, and otherwise g
moves at most one step toward the aim clamped into g_min to g_max once its counter reaches its interval; the clip guard and the limit
mark follow. The guard acts on the clips kept at any position, those past the count after an output epoch switch among them (log entry
37). RIDE_STEP takes the slice end exactly when R107 moves g (log entry 15). With no slice end due nothing changes (log entry 6). -/
def Obligations.SliceEndRidesTheGain : Prop :=
  ∀ (s : State) (order : SliceOrder),
    (s.time.sliceDue = false → ∀ p, exec (.rideStep p order) s = .next s) ∧
    (s.time.sliceDue = true →
      ∃ t, exec (.sliceEnd order) s = .next t ∧
        ∀ p : Fin 16,
          let q := s.programmes[p]
          let l := q.level
          let r := q.rider
          let u := t.programmes[p]
          let control := match l.rideSource with
            | .shortTerm => u.meter.shortTerm
            | .integrated => u.meter.integrated
          let holds := control = none ∨ (∃ e, u.meter.ring.getLast? = some e ∧ e.void = true) ∨
            ∃ b, u.meter.shortTerm = some b ∧ b < l.absoluteGate
          (q.running = false → u.rider = r ∧ exec (.rideStep p order) s = .next s) ∧
          (q.running = true → l.gainMode = .fixed →
            u.rider = { r with gain := l.fixedGain, rise := 0, fall := 0, aim := none, limit := false } ∧
            exec (.rideStep p order) s = .next s) ∧
          (q.running = true → l.gainMode = .ride →
            ∃ w : RiderContext,
              (holds → w = { r with rise := 0, fall := 0, aim := none }) ∧
              (¬ holds → ∀ c, control = some c →
                let aim : Int := s.tables.unity.toNat + l.target - c
                let want := (clampInt l.gMin l.gMax aim).toNat
                w =
                  if r.gain < want then
                    if l.riseInterval ≤ r.rise + 1 then { r with aim := some aim, gain := r.gain + 1, rise := 0, fall := 0 }
                    else { r with aim := some aim, rise := r.rise + 1, fall := 0 }
                  else if want < r.gain then
                    if l.fallInterval ≤ r.fall + 1 then { r with aim := some aim, gain := r.gain - 1, rise := 0, fall := 0 }
                    else { r with aim := some aim, rise := 0, fall := r.fall + 1 }
                  else { r with aim := some aim, rise := 0, fall := 0 }) ∧
              (exec (.rideStep p order) s = .next (if w.gain = r.gain then s else t)) ∧
              let guards := l.clipGuard = true ∧ ∃ i : Fin 8, 0 < q.clips[i]
              (guards → u.rider.gain = (if l.gMin < w.gain then w.gain - 1 else w.gain) ∧ u.rider.rise = 0 ∧ u.rider.fall = 0) ∧
              (¬ guards → u.rider.gain = w.gain ∧ u.rider.rise = w.rise ∧ u.rider.fall = w.fall) ∧
              u.rider.aim = w.aim ∧ u.rider.latched = r.latched ∧
              (u.rider.limit = true ↔ ∃ aim : Int, w.aim = some aim ∧
                ((u.rider.gain = l.gMax ∧ (l.gMax : Int) < aim) ∨ (u.rider.gain = l.gMin ∧ aim < (l.gMin : Int))))))

/-- The write pass of a slice end (R141 to R144): a RUNNING programme's interval counter counts while its log interval is not 0; when it
reaches the interval an entry of the programme is appended, its three marks are cleared and the counter is 0. The entries stand at the tail
in programme order, the oldest of the ring discarded past 512 with the overflow flag, the log overrun mark and an ACTIVE transfer's overrun
mark; what the transfer steps of the slice end take goes from the head. ALARM reads the records as the sweep left them if the operand's
order puts it first (log entry 16). LOG_ENTRY_DUE takes the slice end exactly when its programme is due (log entry 15), and with no slice
end due nothing changes (log entry 6). -/
def Obligations.SliceEndWritesDueLogEntries : Prop :=
  ∀ (s : State) (order : SliceOrder),
    (s.time.sliceDue = false → ∀ p, exec (.logEntryDue p order) s = .next s) ∧
    (s.time.sliceDue = true →
      ∃ (t : State) (entries : List LogEntry), exec (.sliceEnd order) s = .next t ∧
        entries.map LogEntry.programme = s.entriesDue ∧
        (∀ e ∈ entries, e.alarm = true ↔ ∃ r : Fin 400, concerns r e.programme ∧
          (if order = .sweepWriteStep then t.alarms.records[r].state else s.alarms.records[r].state) ∈ [.active, .falling, .latched]) ∧
        (s.log.ring.length ≤ 512 → ∃ taken : List LogEntry,
          (s.log.ring ++ entries).drop (s.log.ring.length + entries.length - 512) = taken ++ t.log.ring ∧
          (s.log.transfer.state ≠ .active → taken = [])) ∧
        t.log.overflow = (s.log.overflow || s.passDiscards) ∧
        t.log.transfer.overrun = (s.log.transfer.overrun || (decide (s.log.transfer.state = .active) && s.passDiscards)) ∧
        t.alarms.logOverrun = (decide (order = .sweepWriteStep) && s.passDiscards) ∧
        ∀ p : Fin 16,
          let q := s.programmes[p]
          let u := t.programmes[p]
          let void := q.meter.voidMark || decide (s.time.sliceFrames < 10 * (q.meter.substituted + (s.time.sliceFrames - q.meter.measured)))
          let due := q.running = true ∧ 0 < q.level.logInterval ∧ q.level.logInterval ≤ q.log.interval + 1
          exec (.logEntryDue p order) s = .next (if due then t else s) ∧
          (due →
            u.log = { interval := 0, epoch := false } ∧ u.meter.voidMark = false ∧ u.align.realigned = false ∧
            (∃ e ∈ entries, e.time = s.time.houseTime ∧ e.programme = p ∧ e.momentary = u.meter.momentary ∧
                e.shortTerm = u.meter.shortTerm ∧ e.integrated = u.meter.integrated ∧ e.gain = u.rider.gain ∧ e.void = void ∧
                e.realigned = q.align.realigned ∧ e.epoch = q.log.epoch ∧
                (s.log.transfer.state ≠ .active → s.log.ring.length ≤ 512 → e ∈ t.log.ring) ∧
                (e.gate = true ↔ ∃ b, u.meter.shortTerm = some b ∧ b < q.level.absoluteGate))) ∧
          (q.running = true → 0 < q.level.logInterval → ¬ q.level.logInterval ≤ q.log.interval + 1 →
            u.log = { q.log with interval := q.log.interval + 1 } ∧ u.meter.voidMark = void ∧
              u.align.realigned = q.align.realigned) ∧
          (q.running = false ∨ q.level.logInterval = 0 → u.log = q.log ∧ u.align.realigned = q.align.realigned))

/-- The sweep of a slice end on one record of an enabled kind (R122, R130, R131), its condition as R124 to R129 give it. A raise, the end of
a fall and a repeat are the rows ALARM_RAISE, ALARM_FALL_END and REPEAT_DUE, which take the slice end exactly when it brings them about (log
entry 15), and with no slice end due change nothing (log entry 6). The reports offered are the STATE reports of the unreported records and then
those of the moves, each in index order (R137, R130, R131); as many enter as the 24 and the 32 places allow, each clears its record's
unreported flag, and a RAISE or CLEAR that does not enter sets it (R135, R136). LOG reports of transfer steps taken after the sweep follow
(log entry 16). That the repeat count of an ACTIVE record counts also while its repeat interval is 0 is the model's reading (log entry
20). -/
def Obligations.SweepMovesAlarmRecords : Prop :=
  ∀ (s : State) (order : SliceOrder),
    (s.time.sliceDue = false → ∀ r, exec (.alarmRaise r order) s = .next s ∧ exec (.alarmFallEnd r order) s = .next s ∧
      exec (.repeatDue r order) s = .next s) ∧
    (s.time.sliceDue = true →
      ∃ (t : State) (moves : List (Fin 400 × AlarmReportType)) (logs : List LogReport), exec (.sliceEnd order) s = .next t ∧
        let again := (List.finRange 400).filter fun r => s.alarms.records[r].unreported
        let told := (again.map (fun r => (r, AlarmReportType.state)) ++ moves).take (s.atSweep order).alarmSpace
        moves.Pairwise (fun a b => a.1 < b.1) ∧ (order = .writeStepSweep → logs = []) ∧
        t.processor.reports = (s.atSweep order).processor.reports ++
          told.map (fun m =>
            let x := s.alarms.records[m.1]
            Report.alarm
              { type := m.2, index := m.1, state := (match m.2 with | .raise => .active | .clear => .clear | .rpt => .active | .state => x.state)
                severity := (s.alarms.policyOf m.1).severity, acknowledged := decide (m.2 ≠ .clear) && x.acknowledged
                timeOfRaise := if m.2 = .raise then s.time.houseTime else x.timeOfRaise, houseTime := s.time.houseTime }) ++
          logs.map .log ∧
        ∀ r : Fin 400,
          let k := s.alarms.policyOf r
          let x := s.alarms.records[r]
          let y := t.alarms.records[r]
          let holds := condition s.handover (s.atSweep order) r = true
          let raised := k.enabled = true ∧ holds ∧
            ((x.state = .clear ∧ k.raiseCount ≤ 1) ∨ (x.state = .rising ∧ k.raiseCount ≤ min (x.count + 1) 255))
          let fallen := k.enabled = true ∧ ¬ holds ∧
            ((x.state = .active ∧ k.clearCount ≤ 1) ∨ (x.state = .falling ∧ k.clearCount ≤ min (x.count + 1) 255))
          let repeated := k.enabled = true ∧ holds ∧ x.state = .active ∧ x.acknowledged = false ∧ 0 < k.repeatInterval ∧
            (if x.repeatsDue = 0 ∧ k.repeatDelay ≠ 0 then k.repeatDelay else k.repeatInterval) ≤ min (x.repeatCount + 1) 255
          (condition s.handover (s.atSweep order) r = true ↔ s.alarmHolds t order r) ∧
          ((r, .raise) ∈ moves ↔ raised) ∧ ((r, .clear) ∈ moves ↔ fallen ∧ k.latching = false) ∧ ((r, .rpt) ∈ moves ↔ repeated) ∧
          (r, .state) ∉ moves ∧
          (raised → (y.unreported = true ↔ (r, .raise) ∉ told)) ∧
          (fallen → k.latching = false → (y.unreported = true ↔ (r, .clear) ∉ told)) ∧
          (¬ raised → ¬ (fallen ∧ k.latching = false) → (y.unreported = true ↔ x.unreported = true ∧ (r, .state) ∉ told)) ∧
          (k.enabled = false → { y with unreported := x.unreported } = x) ∧
          (raised →
            { y with unreported := x.unreported } =
              { x with state := .active, count := 0, repeatCount := 0, repeatsDue := 0, timeOfRaise := s.time.houseTime } ∧
            (y.unreported = true ∨
              Report.alarm
                { type := .raise, index := r, state := .active, severity := k.severity, acknowledged := x.acknowledged,
                  timeOfRaise := s.time.houseTime, houseTime := s.time.houseTime } ∈ t.processor.reports)) ∧
          (fallen →
            { y with unreported := x.unreported } =
              { x with state := if k.latching then .latched else .clear, count := 0, acknowledged := false } ∧
            (k.latching = false → y.unreported = true ∨
              Report.alarm
                { type := .clear, index := r, state := .clear, severity := k.severity, acknowledged := false,
                  timeOfRaise := x.timeOfRaise, houseTime := s.time.houseTime } ∈ t.processor.reports)) ∧
          (repeated →
            { y with unreported := x.unreported } = { x with repeatCount := 0, repeatsDue := min (x.repeatsDue + 1) 255 }) ∧
          (k.enabled = true → ¬ raised → ¬ fallen → ¬ repeated →
            { y with unreported := x.unreported } =
              (match x.state with
               | .clear => if condition s.handover (s.atSweep order) r then { x with state := .rising, count := 1 } else { x with count := 0 }
               | .rising =>
                 if condition s.handover (s.atSweep order) r then { x with count := min (x.count + 1) 255 }
                 else { x with state := .clear, count := 0 }
               | .active =>
                 if condition s.handover (s.atSweep order) r then
                   if x.acknowledged then x else { x with repeatCount := min (x.repeatCount + 1) 255 }
                 else { x with state := .falling, count := 1, acknowledged := false }
               | .falling =>
                 if condition s.handover (s.atSweep order) r then { x with state := .active, count := 0, acknowledged := false }
                 else { x with count := min (x.count + 1) 255 }
               | .latched =>
                 if condition s.handover (s.atSweep order) r then { x with state := .active, count := 0, acknowledged := false } else x)) ∧
          (raised → exec (.alarmRaise r order) s = .next t) ∧ (¬ raised → exec (.alarmRaise r order) s = .next s) ∧
          (fallen → exec (.alarmFallEnd r order) s = .next t) ∧ (¬ fallen → exec (.alarmFallEnd r order) s = .next s) ∧
          (repeated → exec (.repeatDue r order) s = .next t) ∧ (¬ repeated → exec (.repeatDue r order) s = .next s))

/-- What a slice end sets back, and what it leaves as it was: the STARVE, SLIP and FORMAT flags of every feed (R25), the clip counts (R114) and the PHASE tally (R123)
of every programme, the command overrun mark (R129) and the slice's own count are set back; and the MAJOR and MINOR lines stand as the
records and policies say (R133). Of a programme only the meter, the rider, the counts, the log marks and the REALIGNED mark move (R94, R105,
R143), of the command processor only the report queue, and nothing of the tables, the store and the trunks. -/
def Obligations.SliceEndOpensANewSlice : Prop :=
  ∀ (s : State) (order : SliceOrder), s.time.sliceDue = true →
    ∃ t, exec (.sliceEnd order) s = .next t ∧
      (∀ f : Fin 8, t.feeds[f] =
        { s.feeds[f] with context := { s.feeds[f].context with starve := false, slip := false, format := false } }) ∧
      (∀ p : Fin 16, t.programmes[p].clips = Vector.replicate 8 0 ∧ t.programmes[p].tally = { both := 0, opposed := 0 } ∧
        t.programmes[p] =
          { s.programmes[p] with
            meter := t.programmes[p].meter, rider := t.programmes[p].rider, clips := t.programmes[p].clips
            tally := t.programmes[p].tally, log := t.programmes[p].log
            align := { s.programmes[p].align with realigned := t.programmes[p].align.realigned } }) ∧
      t.alarms.commandOverrun = false ∧ t.alarms.policies = s.alarms.policies ∧ t.LineLaw ∧
      t.time = { s.time with sliceDue := false, sliceFrames := 0 } ∧
      t = { s with
        feeds := t.feeds, programmes := t.programmes, alarms := t.alarms, log := t.log, time := t.time
        processor := { s.processor with reports := t.processor.reports } }

/-! ### The reference -/

/-- The reference monitor (R67): what an edge does, what an oscillator period does at its house frame, its values at reset, and that a
RESTART keeps it. REFERENCE_PRESENT is the edge that completes the run of 48, and REFERENCE_ABSENT the oscillator period that completes
the gap of 96, counted ahead of its house frame (log entry 9). -/
def Obligations.ReferenceMonitorCountsEdgesAndGaps : Prop :=
  (State.reset.time.reference = .absent ∧ State.reset.time.edgeCount = 0 ∧ State.reset.time.gapCount = 0) ∧
  ∀ s : State,
    (s.restartActs.time = s.time) ∧
    (s.time.reference = .present → exec .referenceEdge s = .next { s with time := { s.time with gapCount := 0 } }) ∧
    (s.time.reference = .absent → s.time.edgeCount < 47 →
      exec .referenceEdge s = .next { s with time := { s.time with gapCount := 0, edgeCount := s.time.edgeCount + 1 } } ∧
      exec .referencePresent s = .next s) ∧
    (s.time.reference = .absent → 47 ≤ s.time.edgeCount →
      exec .referenceEdge s = .next { s with time := { s.time with gapCount := 0, edgeCount := 48, reference := .present } } ∧
      exec .referencePresent s = exec .referenceEdge s) ∧
    (s.time.reference = .present → exec .referencePresent s = .next s) ∧
    (s.time.gapCount = 95 → s.time.gapTaken = false →
      exec .referenceAbsent s =
        .next { s with time := { s.time with gapCount := 96, edgeCount := 0, reference := .absent, gapTaken := true } }) ∧
    (¬ (s.time.gapCount = 95 ∧ s.time.gapTaken = false) → exec .referenceAbsent s = .next s) ∧
    ∀ order : List (Fin 16), s.NothingDue → s.slotsHold = true →
      ∃ t, exec (.houseFrame order) s = .next t ∧ t.time.gapTaken = false ∧
        (s.time.gapTaken = true →
          t.time.gapCount = s.time.gapCount ∧ t.time.edgeCount = s.time.edgeCount ∧ t.time.reference = s.time.reference) ∧
        (s.time.gapTaken = false →
          t.time.gapCount = min (s.time.gapCount + 1) 96 ∧
          (t.time.gapCount < 96 → t.time.edgeCount = s.time.edgeCount ∧ t.time.reference = s.time.reference) ∧
          (t.time.gapCount = 96 → t.time.edgeCount = 0 ∧ t.time.reference = .absent))

/-! ### The trunk receivers -/

/-- A symbol of the line (R150, R154). It sets the silence count to 0 and takes a DOWN receiver to HUNT. Outside a burst, OPEN begins one
and any other symbol is passed over; inside one, a data symbol adds its octet, ABANDON discards the octets, IDLE, OPEN, a data symbol past
4,672 octets and a CLOSE of octets that R151 does not judge good end a bad burst, and any other CLOSE ends a good one. A disabled or
looped receiver takes no symbol of its line (R156, R157). -/
def Obligations.SymbolsAssembleBursts : Prop :=
  ∀ (s : State) (n : Fin 4) (symbol : LineSymbol),
    let r := s.inputs[n].receiver
    (s.inputs[n].enabled = false ∨ s.inputs[n].loopback = true → exec (.symbolReceived n symbol) s = .next s) ∧
    (s.inputs[n].enabled = true → s.inputs[n].loopback = false →
      (r.state = .down →
        exec (.symbolReceived n symbol) s =
          .next (s.updReceiver n fun _ =>
            { r with state := .hunt, silence := 0, goodRun := 0, badRun := 0,
                     assembly := if symbol = .openBurst then some [] else none })) ∧
      (r.state ≠ .down → r.assembly = none →
        exec (.symbolReceived n symbol) s =
          .next (s.updReceiver n fun _ =>
            { r with silence := 0, assembly := if symbol = .openBurst then some [] else none })) ∧
      (r.state ≠ .down → ∀ octets, r.assembly = some octets →
        (exec (.symbolReceived n .abandon) s = .next (s.updReceiver n fun _ => { r with silence := 0, assembly := none })) ∧
        (∀ b, octets.length < 4672 →
          exec (.symbolReceived n (.data b)) s =
            .next (s.updReceiver n fun _ => { r with silence := 0, assembly := some (b :: octets) })) ∧
        (∀ b, 4672 ≤ octets.length → exec (.symbolReceived n (.data b)) s = exec (.badBurst n) s) ∧
        (exec (.symbolReceived n .idle) s = exec (.badBurst n) s) ∧
        (∃ u, exec (.badBurst n) s = .next u ∧
          exec (.symbolReceived n .openBurst) s = .next (u.updReceiver n fun q => { q with assembly := some [] })) ∧
        (judgeBurst octets.reverse = none → exec (.symbolReceived n .closeBurst) s = exec (.badBurst n) s) ∧
        (∀ b, judgeBurst octets.reverse = some (.sample b) →
          exec (.symbolReceived n .closeBurst) s = exec (.sampleBurst n b) s) ∧
        (∀ b, judgeBurst octets.reverse = some (.control b) →
          exec (.symbolReceived n .closeBurst) s = exec (.controlBurst n b) s) ∧
        (∀ b, judgeBurst octets.reverse = some (.report b) →
          exec (.symbolReceived n .closeBurst) s = exec (.reportBurst n b) s)))

/-- Bad bursts, and the change of receiver state that bursts bring about (R155, R9): the fourth bad burst in a row takes a FRAMED receiver
to HUNT and its feeds to HOLDOVER, and the second good burst in a row takes a HUNT receiver to FRAMED. TRUNK_UNFRAMED and TRUNK_FRAMED are
those two bursts, and change nothing in a receiver that is not one burst short (log entry 12). -/
def Obligations.BurstRunsFrameTheReceiver : Prop :=
  ∀ (s : State) (n : Fin 4),
    let r := s.inputs[n].receiver
    let ended := { r with silence := 0, assembly := none }
    (s.inputs[n].enabled = false ∨ s.inputs[n].loopback = true ∨ r.state = .down →
      exec (.badBurst n) s = .next s ∧ exec (.trunkUnframed n) s = .next s ∧ exec (.trunkFramed n) s = .next s) ∧
    (s.inputs[n].enabled = true → s.inputs[n].loopback = false →
      (r.state = .hunt →
        exec (.badBurst n) s = .next (s.updReceiver n fun _ => { ended with goodRun := 0 }) ∧
        exec (.trunkUnframed n) s = .next s ∧
        exec (.trunkFramed n) s =
          .next (if r.goodRun = 1 then
              s.updReceiver n fun _ => { ended with state := .framed, goodRun := 0, badRun := 0 }
            else s)) ∧
      (r.state = .framed →
        exec (.trunkFramed n) s = .next s ∧
        (r.badRun < 3 →
          exec (.badBurst n) s = .next (s.updReceiver n fun _ => { ended with badRun := r.badRun + 1 }) ∧
          exec (.trunkUnframed n) s = .next s) ∧
        (3 ≤ r.badRun → ∃ t, exec (.badBurst n) s = .next t ∧
          t.inputs[n].receiver = { ended with state := .hunt, goodRun := 0, badRun := 0 } ∧
          t = { s.updReceiver n (fun _ => t.inputs[n].receiver) with feeds := t.feeds } ∧
          (∀ f : Fin 8, t.feeds[f] =
            if s.feeds[f].record.trunk = n ∧ s.feeds[f].context.state ∈ [.priming, .acquiring, .locked] then
              { s.feeds[f] with context := { s.feeds[f].context with state := .holdover } }
            else s.feeds[f]) ∧
          (r.badRun = 3 → exec (.trunkUnframed n) s = .next t))))

/-- The silence count that reaches 96 in HUNT or FRAMED takes the receiver to DOWN, with both runs 0 and no burst in assembly, and if it
was FRAMED its feeds go to HOLDOVER (R154, R155, R9). HOUSE_FRAME counts the silence of every enabled receiver, and TRUNK_SILENCE_DOWN makes
that last count ahead of its house frame, which then does not make it again (log entry 9). A looped receiver takes the IDLE of its
transmitter at each house frame, so that its count is 1 after it (R157, log entry 13). -/
def Obligations.SilenceTakesTheReceiverDown : Prop :=
  ∀ (s : State) (n : Fin 4),
    let r := s.inputs[n].receiver
    (s.inputs[n].enabled = true → r.state ≠ .down → 95 ≤ r.silence → r.ticked = false →
      ∃ t, exec (.trunkSilenceDown n) s = .next t ∧
        t = { s.updReceiver n (fun _ =>
            { r with state := .down, silence := 96, goodRun := 0, badRun := 0, assembly := none, ticked := true })
          with feeds := t.feeds } ∧
        ∀ f : Fin 8, t.feeds[f] =
          if r.state = .framed ∧ s.feeds[f].record.trunk = n ∧ s.feeds[f].context.state ∈ [.priming, .acquiring, .locked] then
            { s.feeds[f] with context := { s.feeds[f].context with state := .holdover } }
          else s.feeds[f]) ∧
    (s.inputs[n].enabled = false ∨ r.state = .down ∨ r.silence < 95 ∨ r.ticked = true →
      exec (.trunkSilenceDown n) s = .next s) ∧
    ∀ order : List (Fin 16), s.NothingDue → s.slotsHold = true →
      ∃ t, exec (.houseFrame order) s = .next t ∧
        (s.inputs[n].enabled = false ∨ s.inputs[n].loopback = false →
          t.inputs[n] =
            { s.inputs[n] with receiver :=
                if r.ticked = true then { r with ticked := false }
                else if s.inputs[n].enabled = false then r
                else if r.state ≠ .down ∧ 95 ≤ r.silence then
                  { r with state := .down, silence := 96, goodRun := 0, badRun := 0, assembly := none }
                else { r with silence := min (r.silence + 1) 96 } } ∧
          ∀ f : Fin 8, s.feeds[f].record.trunk = n →
            t.feeds[f].context.state =
              if s.inputs[n].enabled = true ∧ r.ticked = false ∧ r.state = .framed ∧ 95 ≤ r.silence ∧
                  s.feeds[f].context.state ∈ [.priming, .acquiring, .locked] then .holdover
              else s.feeds[f].context.state) ∧
        (s.inputs[n].enabled = true → s.inputs[n].loopback = true → r.ticked = false →
          t.inputs[n].receiver.state ≠ .down ∧ t.inputs[n].receiver.silence = 1 ∧ t.inputs[n].receiver.assembly = none)

/-- A good SAMPLE burst handed on by a FRAMED receiver (R155, R159) reaches the feed its stream number names: it is discarded for an OFF
feed, and with the FORMAT flag for a wrong trunk or channel count (R13); otherwise it is stored, the oldest frames going past 256 (R14,
R15) with the anchor marks that then stand before the phase, or in PRIMING before the oldest index, its capture time becoming a mark at
the tail of a list of at most 8 (R16); the silence timer is 0, and the feed state moves as R6, R7 and R10 say. In HUNT the burst is
counted and not handed on, also the second in a row, which takes the receiver to FRAMED (R155); a disabled or looped receiver takes no burst
of its line (R156, R157). That a DOWN receiver takes no whole burst, and that octets then in assembly are dropped and count no bad burst, is
the model's choice (log entry 12). -/
def Obligations.SampleBurstsReachTheirFeed : Prop :=
  ∀ (s : State) (n : Fin 4) (b : SampleBurst) (f : Fin 8), sampleGood b = true → b.stream.toNat = f.val →
    let r := s.inputs[n].receiver
    let listens := s.inputs[n].enabled = true ∧ s.inputs[n].loopback = false
    (¬ listens ∨ r.state = .down → exec (.sampleBurst n b) s = .next s) ∧
    (listens → r.state = .hunt →
      exec (.sampleBurst n b) s = .next (s.updReceiver n fun _ =>
        if r.goodRun = 0 then { r with silence := 0, assembly := none, goodRun := 1 }
        else { r with state := .framed, silence := 0, assembly := none, goodRun := 0, badRun := 0 })) ∧
    (listens → r.state = .framed →
      let x := s.feeds[f]
      let c := x.context
      let fresh := c.state = .waiting ∨ c.state = .lost
      let wrong := n ≠ x.record.trunk ∨ b.channels ≠ x.record.channels
      let stored := (if fresh then [] else c.frames) ++ b.frames
      let excess := stored.length - 256
      ∃ u : FeedContext,
        exec (.sampleBurst n b) s =
          .next ((s.updReceiver n fun _ => { r with silence := 0, assembly := none, badRun := 0 }).updFeed f fun _ =>
            { x with context := u }) ∧
        (c.state = .off → u = c) ∧
        (c.state ≠ .off → wrong → u = { c with format := true }) ∧
        (c.state ≠ .off → ¬ wrong →
          u.frames = stored.drop excess ∧
          u.oldest = (if fresh then 0 else c.oldest) + BitVec.ofNat 32 excess ∧
          u.silence = 0 ∧ u.slip = (c.slip || decide (0 < excess)) ∧ u.starve = c.starve ∧ u.format = c.format ∧
          (fresh → u.ratio = x.record.clampRatio x.record.nominal ∧ u.rbase = x.record.clampRatio x.record.nominal ∧
            u.lockCount = 0) ∧
          (¬ fresh → u.ratio = c.ratio ∧ u.rbase = c.rbase) ∧
          (let before := if fresh then [] else c.anchors
           let limit := if c.state = .acquiring ∨ c.state = .locked ∨ (c.state = .holdover ∧ c.started = true) then
               c.phase + BitVec.ofNat 32 excess
             else u.oldest
           let kept := if excess = 0 then before else before.filter fun m => decide (0 ≤ timeDiff m.index limit)
           (b.capture = none → u.anchors = kept) ∧
           (∀ now, b.capture = some now → u.anchors =
             (if kept.length < 8 then kept else kept.drop 1) ++
               [{ index := (if fresh then 0 else c.oldest + BitVec.ofNat 32 c.frames.length), capture := now }])) ∧
          (c.state = .acquiring ∨ c.state = .locked →
            u.state = c.state ∧ u.lockCount = c.lockCount ∧ u.started = c.started ∧ u.phase = c.phase + BitVec.ofNat 32 excess ∧
            u.fraction = c.fraction) ∧
          (c.state = .holdover → c.started = true →
            u.state = .acquiring ∧ u.lockCount = 0 ∧ u.started = true ∧ u.phase = c.phase + BitVec.ofNat 32 excess ∧ u.fraction = c.fraction) ∧
          (fresh ∨ c.state = .priming ∨ (c.state = .holdover ∧ c.started = false) →
            (x.record.setpoint + 8 ≤ u.frames.length →
              u.state = .acquiring ∧ u.started = true ∧ u.phase = u.oldest + 7 ∧ u.fraction = 0 ∧ u.lockCount = 0) ∧
            (u.frames.length < x.record.setpoint + 8 → u.state = .priming ∧ (fresh → u.started = false) ∧
              (¬ fresh → u.lockCount = c.lockCount ∧ u.started = c.started ∧ u.phase = c.phase ∧ u.fraction = c.fraction)))))

/-- Good CONTROL and REPORT bursts handed on by a FRAMED receiver (R160, R161): a CONTROL burst for this station or for all enters the
command queue at its tail, or is dropped with the command overrun mark when the queue holds 8; one not for this station alone, and every
REPORT burst, enters the forward queue of the receiver's forward target at its tail while that holds fewer than 4. While the processor
takes no command the burst waits; an idle processor takes it at once, as it takes the management row of the same command (log entries 10
and 11). In HUNT such a burst is counted and not handed on, also the second in a row, which takes the receiver to FRAMED (R155); a disabled
or looped receiver takes no burst of its line (R156, R157). That a DOWN receiver takes no whole burst, and that octets then in assembly are
dropped and count no bad burst, so that the run of bad bursts is 0, is the model's choice (log entry 12). -/
def Obligations.ControlAndReportBurstsAreQueued : Prop :=
  ∀ (s : State) (n : Fin 4),
    let q := s.inputs[n].receiver
    let listens := s.inputs[n].enabled = true ∧ s.inputs[n].loopback = false
    let counted := s.updReceiver n fun _ =>
      if q.goodRun = 0 then { q with silence := 0, assembly := none, goodRun := 1 }
      else { q with state := .framed, silence := 0, assembly := none, goodRun := 0, badRun := 0 }
    (∀ b, controlGood b = true →
      (¬ listens ∨ q.state = .down → exec (.controlBurst n b) s = .next s) ∧
      (listens → q.state = .hunt → exec (.controlBurst n b) s = .next counted)) ∧
    (∀ b, reportGood b = true →
      (¬ listens ∨ q.state = .down → exec (.reportBurst n b) s = .next s) ∧
      (listens → q.state = .hunt → exec (.reportBurst n b) s = .next counted)) ∧
    (listens → q.state = .framed →
      let handed := s.updReceiver n fun r => { r with silence := 0, assembly := none, badRun := 0 }
      let forwarded := fun b : Burst =>
        match s.inputs[n].forward with
        | none => handed
        | some k =>
          if s.outputs[k].forward.length < 4 then handed.updOutput k fun t => { t with forward := t.forward ++ [b] } else handed
      let queued := fun (t : State) (b : ControlBurst) =>
        if s.processor.commands.length < 8 then
          { t with processor := { t.processor with commands := t.processor.commands ++ [b] } }
        else { t with alarms := { t.alarms with commandOverrun := true } }
      (∀ b, reportGood b = true → exec (.reportBurst n b) s = .next (forwarded (.report b))) ∧
      (∀ b, controlGood b = true → b.destination ≠ s.processor.station.setWidth 8 → b.destination ≠ 255 →
        exec (.controlBurst n b) s = .next (forwarded (.control b))) ∧
      (s.takesNow = false → ∀ b, controlGood b = true →
        (b.destination = s.processor.station.setWidth 8 → exec (.controlBurst n b) s = .next (queued handed b)) ∧
        (b.destination = 255 → exec (.controlBurst n b) s = .next (queued (forwarded (.control b)) b))) ∧
      (s.Idle → ∀ b, controlGood b = true → ∀ t : State,
        (b.destination = s.processor.station.setWidth 8 ∧ t = handed) ∨ (b.destination = 255 ∧ t = forwarded (.control b)) →
        exec (.controlBurst n b) s =
          exec (.unknownCommand { originator := b.originator, tag := b.tag } b.code b.form b.params) t ∧
        ∀ (i : Instr) (sender : Sender) (c : Command), i.management = some (sender, c) → sender.originator = b.originator →
          sender.tag = b.tag → encodeCommand c = { code := b.code, form := b.form, params := b.params } →
          exec (.controlBurst n b) s = exec i t))

/-! ### Takes -/

/-- A pending take fires at the first house frame whose house time is at or after its take time, an immediate one at the first (R32). For
a RUNNING programme the layout goes to slot (e_in + 1) mod 2 with the take's restart flag and e_in advances (R32); for any other it
replaces slot e_in mod 2, whose restart mark is cleared, and the epochs stay (R33). TAKE_FIRES is that firing, ahead of the other work of
its house frame (log entry 9), which makes it itself for every programme whose take is still due, and leaves the slots and the epoch e_in of
any other; an output switch of the same frame then clears the restart mark of the slot switched to (R37). -/
def Obligations.TakesFireAtTheirTime : Prop :=
  ∀ (s : State) (p : Fin 16),
    let q := s.programmes[p]
    -- what a house frame leaves of the take, the epoch, the slots and the restart marks, an output switch of the frame clearing one mark
    let frames := fun (take : Option TakeRecord) (eIn : BitVec 2) (slots : Vector Layout 2) (marks : Vector Bool 2) =>
      ∀ order : List (Fin 16), s.NothingDue → s.slotsHold = true →
        ∃ t, exec (.houseFrame order) s = .next t ∧ t.programmes[p].take = take ∧ t.programmes[p].eIn = eIn ∧
          t.programmes[p].slots = slots ∧ (t.programmes[p].eOut = q.eOut → t.programmes[p].marks = marks) ∧
          (t.programmes[p].eOut ≠ q.eOut →
            q.running = true ∧ t.programmes[p].eOut = q.eOut + 1 ∧ t.programmes[p].marks = marks.set (slotOf (q.eOut + 1)) false)
    (q.take = none → exec (.takeFires p) s = .next s ∧ frames none q.eIn q.slots q.marks) ∧
    (∀ k, q.take = some k →
      let due := ∀ at' : Word32, k.time = some at' → 0 ≤ timeDiff s.time.nextTime at'
      (¬ due → exec (.takeFires p) s = .next s ∧ frames (some k) q.eIn q.slots q.marks) ∧
      (due → q.store.state = .running →
        let slots := q.slots.set (slotOf (q.eIn + 1)) k.layout
        let marks := q.marks.set (slotOf (q.eIn + 1)) k.restart
        exec (.takeFires p) s =
          .next (s.updProgramme p fun _ => { q with slots := slots, marks := marks, eIn := q.eIn + 1, take := none }) ∧
        frames none (q.eIn + 1) slots marks) ∧
      (due → q.store.state ≠ .running →
        let slots := q.slots.set (slotOf q.eIn) k.layout
        let marks := q.marks.set (slotOf q.eIn) false
        exec (.takeFires p) s = .next (s.updProgramme p fun _ => { q with slots := slots, marks := marks, take := none }) ∧
        frames none q.eIn slots marks))

/-! ### The management window, the restart and the transfer steps -/

/-- The management window of an output trunk (R163 to R165): at its opening the arbiter serves nothing, the forward-queue head, or on the
reply trunk the report-queue head as a REPORT burst with the digest as it stands, and of two candidates the one other than its last-served
mark. The receivers looped to the trunk, IN0 and IN2 to OUT0 and IN1 and IN3 to OUT1, take first its SAMPLE burst and then what the arbiter
serves, as they would from their lines, at this moment by the model's choice (R157; log entry 13); this is said where no command waits and
a CONTROL burst for this station that they take has to wait too. Where no receiver is looped, the room that a departure makes lets what waits for it be taken, in the order of the operand where both wait
(R146, R167; log entries 11 and 16): a command that waits alone as its row would be taken, of several the first, and a transfer step; a
receiver that such a command loops back then takes this very burst (log entry 13). While a restart is pending no command is taken. A window
opens once in a burst period (log entry 8). -/
def Obligations.ManagementWindowServesOneBurst : Prop :=
  ∀ (s : State) (k : Fin 2) (transferFirst : Bool),
    let o := s.outputs[k]
    let reports := s.processor.replyTrunk = k ∧ s.processor.reports ≠ []
    (o.windowDue = false → exec (.managementWindow k transferFirst) s = .next s) ∧
    (o.windowDue = true → s.processor.commands = [] → (∀ x, o.sample = some x → sampleGood x = true) →
      (∀ n : Fin 4, s.inputs[n].enabled = true → s.inputs[n].loopback = true →
        s.inputs[n].receiver.state ≠ .down ∧ s.inputs[n].receiver.assembly = none) →
      ∃ t u : State,
        (match o.sample with
         | some x => s.LoopTakes k (.sample x) t
         | none => t = s) ∧
        exec (.managementWindow k transferFirst) t.unlooped = .next u ∧
        (u.outputs[k].management = none → exec (.managementWindow k transferFirst) s = .next (u.loopedAs t)) ∧
        ∀ b, u.outputs[k].management = some b → burstGood b = true →
          (∀ c, b = .control c → c.destination = s.processor.station.setWidth 8 ∨ c.destination = 255 → u.takesNow = false) →
          ∃ v, (u.loopedAs t).LoopTakes k b v ∧ exec (.managementWindow k transferFirst) s = .next v) ∧
    (s.NoLoop → o.windowDue = true →
      (o.forward = [] → ¬ reports →
        exec (.managementWindow k transferFirst) s =
          .next (s.updOutput k fun _ => { o with windowDue := false, management := none })) ∧
      (∀ b rest, o.forward = b :: rest → ¬ reports ∨ o.lastServed = .report →
        exec (.managementWindow k transferFirst) s =
          .next (s.updOutput k fun _ =>
            { o with windowDue := false, management := some b, forward := rest, lastServed := .forward })) ∧
      (∀ r rest, s.processor.replyTrunk = k → s.processor.reports = r :: rest → o.forward = [] ∨ o.lastServed = .forward →
        s.log.transfer.state ≠ .active →
        (s.processor.state = .ready ∧ s.processor.commands = []) ∨
          (s.processor.state = .restartPending ∧ ∀ x, r = .reply x → ¬ (x.code = 21 ∧ x.result = .done)) →
        exec (.managementWindow k transferFirst) s =
          .next
            ({ s with processor := { s.processor with reports := rest } }.updOutput k fun _ =>
              { o with
                windowDue := false, lastServed := .report
                management := some (.report
                  { station := s.processor.station.setWidth 8, reportType := r.typeCode, digest := s.digest,
                    spare := List.replicate 6 0, body := r.body }) })) ∧
      (∀ r rest, s.processor.replyTrunk = k → s.processor.reports = r :: rest → o.forward = [] ∨ o.lastServed = .forward →
        s.processor.state = .ready →
        let departed := { s with processor := { s.processor with reports := rest } }.updOutput k fun _ =>
          { o with
            windowDue := false, lastServed := .report
            management := some (.report
              { station := s.processor.station.setWidth 8, reportType := r.typeCode, digest := s.digest,
                spare := List.replicate 6 0, body := r.body }) }
        (∀ (i : Instr) (sender : Sender) (c : Command), i.management = some (sender, c) →
          s.processor.commands =
            [{ destination := s.processor.station.setWidth 8, originator := sender.originator, tag := sender.tag
               code := (encodeCommand c).code, form := (encodeCommand c).form, spare := [0, 0, 0, 0]
               params := (encodeCommand c).params }] →
          s.log.transfer.state ≠ .active ∨ (transferFirst = false ∧ s.processor.reports.length = 32) →
          ∃ u v, exec i { departed with processor := { departed.processor with commands := [] } } = .next u ∧
            exec (.managementWindow k transferFirst) s = .next v ∧ v = { u with inputs := v.inputs } ∧ (u.NoLoop → v = u)) ∧
        (∀ b more, s.processor.commands = b :: more → s.processor.reports.length = 32 →
          s.log.transfer.state ≠ .active ∨ transferFirst = false →
          ∃ (v : State) (result : CommandResult) (items : List Byte), exec (.managementWindow k transferFirst) s = .next v ∧
            v.processor.commands = more ∧
            v.processor.reports = rest ++
              [.reply { tag := b.tag, originator := b.originator, code := b.code, form := b.form, result := result, items := items }]) ∧
        (s.log.transfer.state = .active →
          (s.processor.commands = [] ∧ (s.processor.reports.length = 32 ∨ (s.log.ring = [] ∧ s.log.transfer.mode ≠ .single))) ∨
            (transferFirst = true ∧ s.processor.reports.length = 32 ∧ (s.log.ring ≠ [] ∨ s.log.transfer.mode = .single)) →
          exec (.managementWindow k transferFirst) s = exec .transferStep departed)))

/-- The RESTART acts at the window in which its REPLY departs (R181, R182). What it sets: queues, holds, store contexts, the free-page
list, epochs and layouts, meters, riders, alarm records and lines, the log and the arbiters' marks; what it keeps: the tables, the
records and policies, the retire table, the fault record, house time and the frame counter. The report queue holds the CLEAR reports of
the first 24 records that stood, in index order, and the final LOG report of an ACTIVE transfer; the records that stood and are not told
are unreported (R138, R148). That the departing REPLY carries the digest of the part before the restart, and the CLEAR reports the time of
raise 0, are the model's readings (log entries 22 and 21). -/
def Obligations.RestartActsAtTheDepartureOfItsReply : Prop :=
  ∀ (s : State) (r : Reply) (rest : List Report), s.NoLoop →
    let k := s.processor.replyTrunk
    s.outputs[k].windowDue = true → s.processor.state = .restartPending → s.processor.reports = .reply r :: rest → r.code = 21 →
    r.result = .done → s.outputs[k].forward = [] ∨ s.outputs[k].lastServed = .forward →
    ∃ t, exec .restartActs s = .next t ∧ (∀ first, exec (.managementWindow k first) s = .next t) ∧
      t.outputs[k].management = some (.report (s.formReport (.reply r))) ∧
      (∀ j : Fin 2, t.outputs[j].forward = [] ∧ t.outputs[j].lastServed = .forward ∧ t.outputs[j].map = s.outputs[j].map ∧
        t.outputs[j].assembly = s.outputs[j].assembly ∧ t.outputs[j].copy = s.outputs[j].copy) ∧
      t.processor.commands = [] ∧ t.processor.state = .ready ∧ t.processor.originators = s.processor.originators ∧
      t.processor.replyTrunk = k ∧ t.processor.station = s.processor.station ∧
      (let stood := (List.finRange 400).filter fun i => s.alarms.records[i].standing
       t.processor.reports =
          (stood.take 24).map (fun i => Report.alarm
            { type := .clear, index := i, state := .clear, severity := (s.alarms.policyOf i).severity, acknowledged := false
              timeOfRaise := 0, houseTime := s.time.houseTime }) ++
          (if s.log.transfer.state = .active then
            [Report.log { entries := [], overrun := s.log.transfer.overrun, delivered := s.log.transfer.delivered, cause := some .aborted }]
          else []) ∧
        ∀ i : Fin 400, t.alarms.records[i] =
          { state := .clear, count := 0, repeatCount := 0, repeatsDue := 0, acknowledged := false
            unreported := if s.alarms.records[i].standing = true then decide (i ∉ stood.take 24) else s.alarms.records[i].unreported
            timeOfRaise := 0 }) ∧
      (∀ p : Fin 16,
        let q := s.programmes[p]
        let u := t.programmes[p]
        u.holds = { route := 0, timing := 0, level := 0 } ∧ u.store = StoreContext.initial ∧ u.align = AlignContext.initial ∧
        u.meter = MeterContext.initial ∧ u.outputs = [] ∧ u.clips = Vector.replicate 8 0 ∧ u.tally = { both := 0, opposed := 0 } ∧
        u.log = { interval := 0, epoch := false } ∧ u.slots[(0 : Fin 2)] = q.slots[slotOf q.eIn] ∧ u.slots[(1 : Fin 2)] = [] ∧
        u.eIn = 0 ∧ u.eOut = 0 ∧ u.take = none ∧ u.marks = Vector.replicate 2 false ∧ u.timing = q.timing ∧ u.level = q.level ∧
        u.rider.rise = 0 ∧ u.rider.fall = 0 ∧ u.rider.aim = none ∧ u.rider.limit = false ∧ u.rider.latched = q.rider.latched ∧
        (q.level.gainMode = .fixed → u.rider.gain = q.level.fixedGain) ∧
        (q.level.gainMode = .ride → u.rider.gain = clampNat q.level.gMin q.level.gMax s.tables.unity.toNat)) ∧
      (∀ f : Fin 8,
        let x := s.feeds[f]
        t.feeds[f].record = x.record ∧
        t.feeds[f].context =
          { FeedContext.initial with
            state := if x.record.enabled then .waiting else .off
            ratio := clampNat x.record.rmin x.record.rmax x.record.nominal
            rbase := clampNat x.record.rmin x.record.rmax x.record.nominal }) ∧
      (∀ n : Page, n ∈ t.store.freeList ↔ n ∉ s.store.retired) ∧ t.store.freeList.Pairwise (· < ·) ∧
      t.store.retired = s.store.retired ∧ t.store.fault = s.store.fault ∧ t.store.memory = s.store.memory ∧
      t.alarms.policies = s.alarms.policies ∧ t.alarms.commandOverrun = s.alarms.commandOverrun ∧
      t.alarms.logOverrun = s.alarms.logOverrun ∧ t.alarms.major = false ∧ t.alarms.minor = false ∧
      t.log.ring = [] ∧ t.log.overflow = false ∧
      (s.log.transfer.state = .active → t.log.transfer = { s.log.transfer with state := .ended, cause := some .aborted }) ∧
      (s.log.transfer.state ≠ .active → t.log.transfer = s.log.transfer) ∧
      t.tables = s.tables ∧ t.time = s.time ∧ t.inputs = s.inputs ∧ t.pending = s.pending

/-- A transfer step (R146, R147): taken when the transfer is ACTIVE, the report queue holds fewer than 32 entries, and the ring is not
empty or the mode is SINGLE. It takes entries from the head until the fourth, the last of the ring, the count or the ALARM flag stops it,
forms one LOG report of them, and ends the transfer with the first cause of the table that holds. -/
def Obligations.TransferStepTakesEntries : Prop :=
  ∀ s : State,
    let x := s.log.transfer
    let can := x.state = .active ∧ s.processor.reports.length < 32 ∧ (s.log.ring ≠ [] ∨ x.mode = .single)
    (¬ can → exec .transferStep s = .next s) ∧
    (can → ∃ (taken rest : List LogEntry) (cause : Option EndCause),
      let delivered := min (x.delivered + taken.length) 4294967295
      let stops := fun (d : Nat) (e : LogEntry) => (x.count ≠ 0 ∧ d = x.count) ∨ (x.stopOnAlarm = true ∧ e.alarm = true)
      s.log.ring = taken ++ rest ∧ taken.length ≤ 4 ∧
      (∀ i e, taken[i]? = some e → i + 1 < taken.length → ¬ stops (min (x.delivered + i + 1) 4294967295) e) ∧
      (taken.length < 4 → rest = [] ∨ ∃ e, taken.getLast? = some e ∧ stops delivered e) ∧
      (s.log.ring ≠ [] → taken ≠ []) ∧
      cause =
        (if x.stopOnAlarm = true ∧ ∃ e, taken.getLast? = some e ∧ e.alarm = true then some .matched
         else if x.count ≠ 0 ∧ delivered = x.count then some .count
         else if x.mode = .single ∧ rest = [] then some .empty
         else none) ∧
      exec .transferStep s =
        .next { s with
          log := { s.log with
            ring := rest
            transfer := { x with delivered := delivered, state := if cause.isSome then .ended else .active, cause := cause } }
          processor := { s.processor with
            reports := s.processor.reports ++
              [.log { entries := taken, overrun := x.overrun, delivered := delivered, cause := cause }] } })

/-! ### Commands: what holds of all of them -/

/-- Every management command that the idle command processor is sent is taken at once and answered with exactly one REPLY, at the tail of
the report queue and ahead of the reports it causes, carrying its tag, originator, code and form (R167, R168). It leaves the command
queue, the delay store's words and house time as they were. That house time stays as it is at a TIME SET or TIME ADJUST, until the next
house frame, is the model's reading (log entry 5). -/
def Obligations.EveryCommandIsAnsweredOnce : Prop :=
  ∀ (i : Instr) (sender : Sender) (c : Command) (s : State), i.management = some (sender, c) → c.fits = true → s.Idle →
    ∃ (t : State) (result : CommandResult) (items : List Byte) (caused : List Report), exec i s = .next t ∧
      t.processor.reports = s.processor.reports ++
        .reply { tag := sender.tag, originator := sender.originator, code := (encodeCommand c).code, form := (encodeCommand c).form,
                 result := result, items := items } :: caused ∧
      (∀ r ∈ caused, r.isReply = false) ∧
      t.processor.commands = [] ∧ t.pending = s.pending ∧ t.store.memory = s.store.memory ∧ t.time.houseTime = s.time.houseTime

/-- A refused command changes nothing (R168, R169), but for its REPLY in the report queue. Group forms are judged programme by programme
(R177) and stand in a statement of their own. -/
def Obligations.RefusedCommandsChangeNothing : Prop :=
  ∀ (i : Instr) (sender : Sender) (c : Command) (s : State), i.management = some (sender, c) → c.fits = true → c.isGroup = false →
    s.Idle →
    ∃ (t : State) (r : Reply) (caused : List Report), exec i s = .next t ∧
      t.processor.reports = s.processor.reports ++ .reply r :: caused ∧
      (r.result ≠ .done → r.result ≠ .clamped → t = s.pushReport (.reply r))

/-- A sender that holds no right and is not originator 0 changes nothing in the part by any command but READ, STATUS and LOG STATUS,
group forms included: there is a REPLY in the report queue, and a free value may have been taken (R170, R171, R181). The free value is
that of log entry 4. -/
def Obligations.UnprivilegedSenderChangesNothing : Prop :=
  ∀ (i : Instr) (sender : Sender) (c : Command) (s : State), i.management = some (sender, c) → c.fits = true → s.Idle → s.LineLaw →
    sender.originator ≠ 0 → (∀ cls, s.holdsRight sender.originator cls = false) → c.needsNoRight = false →
    ∃ (n : Nat) (r : Reply), exec i s = .next ({ s with freeCount := n }.pushReport (.reply r))

/-- The group forms of GROUP SET, TAKE CANCEL and RESTART MEASUREMENT judge each selected programme alone, as the single form would (R177,
R34, R98). A GROUP SET of a field that is no TIMING or LEVEL field, or of a value that R28 refuses for every programme alike, is refused
BAD VALUE as a whole with an empty mask; that its items then are those of an empty tally, with a free octet, is the model's choice (log
entries 4 and 23). A GROUP SET that every selected programme may take is carried out: each gets what a SET of its field would leave it,
with the hold, and the reply gives the whole selection. That a limit is clamped before it is compared is log entry 29. -/
def Obligations.GroupFormsJudgeEachProgrammeAlone : Prop :=
  ∀ (sender : Sender) (selection : BitVec 16) (s : State), s.Idle →
    (∀ (field : Byte) (value : Word32),
      (19 ≤ field.toNat ∨ (field.toNat = 0 ∧ 8 ≤ value.toNat) ∨ (field.toNat = 5 ∧ 4 ≤ value.toNat) ∨
          (field.toNat ∈ [1, 9, 10, 16] ∧ 2 ≤ value.toNat) →
        ∃ (fill : Byte) (n : Nat), exec (.groupSet sender selection field value) s =
          .next ({ s with freeCount := n }.replied sender 2 0 .badValue [0, 0, 255, fill])) ∧
      (field.toNat < 19 → ¬ (field.toNat = 0 ∧ 8 ≤ value.toNat) → ¬ (field.toNat = 5 ∧ 4 ≤ value.toNat) →
          ¬ (field.toNat ∈ [1, 9, 10, 16] ∧ 2 ≤ value.toNat) →
        s.JudgesEachAlone sender selection 2 0 (fun p => exec (.setProgrammeField sender (BitVec.ofNat 8 p.val) field value))
          (exec (.groupSet sender selection field value))) ∧
      (let v := value.toNat
       let f := field.toNat
       let cls := if f < 5 then RightClass.timing else .level
       let n :=
         if f = 2 ∨ f = 3 then within 0 1048575 v else if f = 4 then within 0 4800 v
         else if f = 14 ∨ f = 15 then within 1 255 v else if f = 17 then within 1 8388607 v else if f = 18 then within 0 600 v
         else if f ∈ [6, 7, 8, 11, 12, 13] then within 0 255 v else v
       f < 19 → (f = 0 → v < 8) → (f = 5 → v < 4) → (f ∈ [1, 9, 10, 16] → v < 2) →
       (∀ p : Fin 16, selection.getLsbD p.val = true →
         s.MayWrite sender.originator cls p ∧ (f = 12 → n ≤ s.programmes[p].level.gMax) ∧ (f = 13 → s.programmes[p].level.gMin ≤ n)) →
       ∃ (t : State) (fill : Byte), exec (.groupSet sender selection field value) s =
           .next ({ s with programmes := t.programmes, freeCount := t.freeCount }.replied sender 2 0
             (if selection = 0 then .done else storedResult v n)
             [selection.extractLsb' 8 8, selection.extractLsb' 0 8, 255, fill]) ∧
         ∀ p : Fin 16,
           (selection.getLsbD p.val = false → t.programmes[p] = s.programmes[p]) ∧
           (selection.getLsbD p.val = true →
             t.programmes[p].holds.of cls = s.priorityOf sender.originator ∧
             ∃ u, exec (.setProgrammeField sender (BitVec.ofNat 8 p.val) field value) s = .next u ∧
               t.programmes[p] = u.programmes[p]))) ∧
    s.JudgesEachAlone sender selection 6 1 (fun p => exec (.takeCancel sender (.single (BitVec.ofNat 8 p.val))))
      (exec (.takeCancel sender (.group selection))) ∧
    s.JudgesEachAlone sender selection 14 1 (fun p => exec (.restartMeasurement sender (.single (BitVec.ofNat 8 p.val))))
      (exec (.restartMeasurement sender (.group selection)))

/-! ### SET -/

/-- SET of a feed record field (R2, R3, R5, R12, R176): refusals, the value stored, and what the write does to the feed. That an enabled
value above 1 is refused is the model's reading (log entry 17). That a refusal carries no items is log entry 23. -/
def Obligations.SetFeedRecordWritesItsField : Prop :=
  ∀ (sender : Sender) (object field : Byte) (value : Word32) (s : State), s.Idle →
    let v := value.toNat
    let may := s.holdsRight sender.originator .route
    let answers := fun (u : State) (result : CommandResult) (items : List Byte) =>
      exec (.setFeedRecord sender object field value) s = .next (u.replied sender 1 0 result items)
    (10 ≤ field.toNat → answers s .badValue []) ∧
    (field.toNat < 10 → may = false → answers s .noRight []) ∧
    (field.toNat < 10 → may = true → 8 ≤ object.toNat → answers s .badValue []) ∧
    (may = true → ∀ f : Fin 8, object.toNat = f.val →
      let r := s.feeds[f].record
      let c := s.feeds[f].context
      let stores := fun (n : Nat) (record : FeedRecord) (context : FeedContext) =>
        answers (s.updFeed f fun _ => { record := record, context := context }) (storedResult v n) (item n)
      (field.toNat = 0 →
        (v = 0 → stores 0 { r with enabled := false }
          { c with state := .off, frames := [], oldest := 0, started := false, anchors := [], silence := 0 }) ∧
        (v = 1 → stores 1 { r with enabled := true } (if c.state = .off then { c with state := .waiting, lockCount := 0 } else c)) ∧
        (2 ≤ v → answers s .badValue [])) ∧
      (field.toNat = 1 →
        (∀ n : Fin 4, v = n.val → stores v { r with trunk := n }
          (if s.inputs[n].receiver.state ≠ .framed ∧ c.state ∈ [.priming, .acquiring, .locked] then { c with state := .holdover }
           else c)) ∧
        (4 ≤ v → answers s .badValue [])) ∧
      (field.toNat = 2 → stores (within 1 16 v) { r with channels := within 1 16 v }
        (if r.channels = within 1 16 v ∨ c.state = .off then c
         else
          { c with
            state := .priming, frames := [], oldest := 0, started := false, anchors := [], lockCount := 0, silence := 0
            ratio := r.clampRatio r.nominal, rbase := r.clampRatio r.nominal })) ∧
      (field.toNat = 3 → (∀ k : Fin 4, v = k.val → stores v { r with kernel := k } c) ∧ (4 ≤ v → answers s .badValue [])) ∧
      (field.toNat = 4 → stores (within 134217728 603979776 v) { r with nominal := within 134217728 603979776 v } c) ∧
      (field.toNat = 5 →
        (134217728 ≤ v ∧ v ≤ 603979776 ∧ v ≤ r.rmax →
          stores v { r with rmin := v } { c with ratio := clampNat v r.rmax c.ratio, rbase := clampNat v r.rmax c.rbase }) ∧
        (¬ (134217728 ≤ v ∧ v ≤ 603979776 ∧ v ≤ r.rmax) → answers s .badValue [])) ∧
      (field.toNat = 6 →
        (134217728 ≤ v ∧ v ≤ 603979776 ∧ r.rmin ≤ v →
          stores v { r with rmax := v } { c with ratio := clampNat r.rmin v c.ratio, rbase := clampNat r.rmin v c.rbase }) ∧
        (¬ (134217728 ≤ v ∧ v ≤ 603979776 ∧ r.rmin ≤ v) → answers s .badValue [])) ∧
      (field.toNat = 7 → stores (within 16 200 v) { r with setpoint := within 16 200 v } c) ∧
      (field.toNat = 8 → stores (within 1 32 v) { r with lockWindow := within 1 32 v } c) ∧
      (field.toNat = 9 → stores (within 8 255 v) { r with timeout := within 8 255 v } c))

/-- SET of a TIMING or LEVEL field of a programme (R28, R77, R100, R110, R142, R172, R176): refusals, the value stored, what the write
does to the programme, and the hold it takes. The model's readings: g_min and g_max are clamped before they are compared (log entry 29),
a value of a field with two values above 1 is refused (log entry 17), and clip guard on is 1 (log entry 38). That a refusal carries no
items is log entry 23. -/
def Obligations.SetProgrammeFieldWritesItsField : Prop :=
  ∀ (sender : Sender) (object field : Byte) (value : Word32) (s : State), s.Idle →
    let o := sender.originator
    let v := value.toNat
    let cls := if field.toNat < 5 then RightClass.timing else .level
    let answers := fun (u : State) (result : CommandResult) (items : List Byte) =>
      exec (.setProgrammeField sender object field value) s = .next (u.replied sender 1 0 result items)
    (19 ≤ field.toNat → answers s .badValue []) ∧
    (field.toNat < 19 → s.holdsRight o cls = false → answers s .noRight []) ∧
    (field.toNat < 19 → s.holdsRight o cls = true → 16 ≤ object.toNat → answers s .badValue []) ∧
    (∀ p : Fin 16, object.toNat = p.val → field.toNat < 19 → s.holdsRight o cls = true → s.outranks o cls p = true →
      answers s .outranked []) ∧
    (∀ p : Fin 16, object.toNat = p.val → s.MayWrite o cls p →
      let q := s.programmes[p]
      let running := q.store.state = .running
      let top := 128 * q.store.pages.length - 1
      let lost := { q.align with aligned := false, misses := 0 }
      let timing := fun (n : Nat) (fields : TimingFields) (align : AlignContext) =>
        answers (s.updProgramme p fun _ =>
            { q with timing := fields, align := align, holds := { q.holds with timing := s.priorityOf o } })
          (storedResult v n) (item n)
      let level := fun (n : Nat) (fields : LevelFields) (rider : RiderContext) =>
        answers (s.updProgramme p fun _ =>
            { q with level := fields, rider := rider, holds := { q.holds with level := s.priorityOf o } })
          (storedResult v n) (item n)
      let plain := fun (n : Nat) (fields : LevelFields) => level n fields q.rider
      let limited := fun (lo hi : Nat) =>
        if q.level.gainMode = .ride ∧ clampNat lo hi q.rider.gain ≠ q.rider.gain then
          { q.rider with gain := clampNat lo hi q.rider.gain, rise := 0, fall := 0 }
        else q.rider
      (field.toNat = 0 →
        (∀ f : Fin 8, v = f.val →
          timing v { q.timing with feed := f } (if running ∧ q.timing.mode = .tracked then lost else q.align)) ∧
        (8 ≤ v → answers s .badValue [])) ∧
      (field.toNat = 1 →
        (v = 0 → timing v { q.timing with mode := .tracked }
          (if q.timing.mode = .fixed ∧ running then { lost with pending := none } else q.align)) ∧
        (v = 1 → timing v { q.timing with mode := .fixed }
          (if q.timing.mode = .fixed then q.align
           else if running then { lost with delayShort := false, late := false, pending := some (min q.timing.fixedDelay top) }
           else { q.align with delayShort := false, late := false })) ∧
        (2 ≤ v → answers s .badValue [])) ∧
      (field.toNat = 2 → timing (within 0 1048575 v) { q.timing with offset := within 0 1048575 v }
        (if running ∧ q.timing.mode = .tracked then lost else q.align)) ∧
      (field.toNat = 3 → timing (within 0 1048575 v) { q.timing with fixedDelay := within 0 1048575 v }
        (if running ∧ q.timing.mode = .fixed then { q.align with pending := some (min (within 0 1048575 v) top) } else q.align)) ∧
      (field.toNat = 4 → timing (within 0 4800 v) { q.timing with tolerance := within 0 4800 v } q.align) ∧
      (field.toNat = 5 →
        (∀ n : Fin 4, v = n.val →
          answers (s.updProgramme p fun _ =>
              { q with
                level := { q.level with filterSet := n }, holds := { q.holds with level := s.priorityOf o }
                meter := if n = q.level.filterSet then q.meter
                  else { q.meter with filter := Vector.replicate 8 FilterState.initial } })
            .done (item v)) ∧
        (4 ≤ v → answers s .badValue [])) ∧
      (field.toNat = 6 → plain (within 0 255 v) { q.level with target := within 0 255 v }) ∧
      (field.toNat = 7 → plain (within 0 255 v) { q.level with absoluteGate := within 0 255 v }) ∧
      (field.toNat = 8 → plain (within 0 255 v) { q.level with relativeOffset := within 0 255 v }) ∧
      (field.toNat = 9 →
        (v = 0 → plain v { q.level with rideSource := .shortTerm }) ∧ (v = 1 → plain v { q.level with rideSource := .integrated }) ∧
        (2 ≤ v → answers s .badValue [])) ∧
      (field.toNat = 10 →
        (v = 0 → level v { q.level with gainMode := .ride }
          (if q.level.gainMode = .ride then q.rider
           else { q.rider with gain := clampNat q.level.gMin q.level.gMax q.rider.gain, rise := 0, fall := 0, aim := none })) ∧
        (v = 1 → level v { q.level with gainMode := .fixed }
          (if q.level.gainMode = .fixed then q.rider
           else { q.rider with gain := q.level.fixedGain, rise := 0, fall := 0, aim := none, limit := false })) ∧
        (2 ≤ v → answers s .badValue [])) ∧
      (field.toNat = 11 → level (within 0 255 v) { q.level with fixedGain := within 0 255 v }
        (if q.level.gainMode = .fixed then { q.rider with gain := within 0 255 v } else q.rider)) ∧
      (field.toNat = 12 →
        (within 0 255 v ≤ q.level.gMax →
          level (within 0 255 v) { q.level with gMin := within 0 255 v } (limited (within 0 255 v) q.level.gMax)) ∧
        (q.level.gMax < within 0 255 v → answers s .badValue [])) ∧
      (field.toNat = 13 →
        (q.level.gMin ≤ within 0 255 v →
          level (within 0 255 v) { q.level with gMax := within 0 255 v } (limited q.level.gMin (within 0 255 v))) ∧
        (within 0 255 v < q.level.gMin → answers s .badValue [])) ∧
      (field.toNat = 14 → plain (within 1 255 v) { q.level with riseInterval := within 1 255 v }) ∧
      (field.toNat = 15 → plain (within 1 255 v) { q.level with fallInterval := within 1 255 v }) ∧
      (field.toNat = 16 →
        (v = 0 → plain v { q.level with clipGuard := false }) ∧ (v = 1 → plain v { q.level with clipGuard := true }) ∧
        (2 ≤ v → answers s .badValue [])) ∧
      (field.toNat = 17 → plain (within 1 8388607 v) { q.level with ceiling := within 1 8388607 v }) ∧
      (field.toNat = 18 →
        answers (s.updProgramme p fun _ =>
            { q with
              level := { q.level with logInterval := within 0 600 v }, holds := { q.holds with level := s.priorityOf o }
              log := if v = 0 then { q.log with interval := 0 } else q.log })
          (storedResult v (within 0 600 v)) (item (within 0 600 v))))

/-- SET of an output map field (R41), of an originator record, from originator 0 alone and never of record 0 (R170), and of the reply
trunk (R176). That a flag above 1 is refused is the model's reading (log entry 17), and a right is held at 1 (log entry 38). That a
refusal carries no items is log entry 23. -/
def Obligations.SetMapsOriginatorsAndReplyTrunk : Prop :=
  ∀ (sender : Sender) (object field : Byte) (value : Word32) (s : State), s.Idle →
    let o := sender.originator
    let v := value.toNat
    let answers := fun (i : Instr) (u : State) (result : CommandResult) (items : List Byte) =>
      exec i s = .next (u.replied sender 1 0 result items)
    (let map := answers (.setOutputMap sender object field value)
     (35 ≤ field.toNat → map s .badValue []) ∧
     (field.toNat < 35 → s.holdsRight o .route = false → map s .noRight []) ∧
     (field.toNat < 35 → s.holdsRight o .route = true → 2 ≤ object.toNat → map s .badValue []) ∧
     (s.holdsRight o .route = true → ∀ k : Fin 2, object.toNat = k.val →
       let m := s.outputs[k].map
       let stores := fun (n : Nat) (record : OutputMap) =>
         map (s.updOutput k fun t => { t with map := record }) (storedResult v n) (item n)
       (field.toNat = 0 → (∀ f : Fin 8, v = f.val → stores v { m with stream := f }) ∧ (8 ≤ v → map s .badValue [])) ∧
       (field.toNat = 1 → stores (within 1 32 v) { m with count := within 1 32 v }) ∧
       (field.toNat = 2 →
         (v = 0 → stores v { m with captureTime := false }) ∧ (v = 1 → stores v { m with captureTime := true }) ∧
         (2 ≤ v → map s .badValue [])) ∧
       (∀ e : Fin 32, field.toNat = 3 + e.val →
         (v = 4294967295 → stores v { m with entries := m.entries.set e none }) ∧
         (∀ (p : Fin 16) (q : Fin 8), v = 65536 * p.val + q.val → stores v { m with entries := m.entries.set e (some (p, q)) }) ∧
         ((v ≠ 4294967295 ∧ ∀ (p : Fin 16) (q : Fin 8), v ≠ 65536 * p.val + q.val) → map s .badValue [])))) ∧
    (let set := answers (.setOriginatorRecord sender object field value)
     (9 ≤ field.toNat → set s .badValue []) ∧
     (field.toNat < 9 → o ≠ 0 → set s .noRight []) ∧
     (field.toNat < 9 → o = 0 → (object = 0 ∨ 8 ≤ object.toNat) → set s .badValue []) ∧
     (o = 0 → ∀ n : Fin 8, n ≠ 0 → object.toNat = n.val →
       let x := s.processor.originators[n]
       let stores := fun (w : Nat) (record : Originator) =>
         set { s with processor := { s.processor with originators := s.processor.originators.set n record } } (storedResult v w) (item w)
       (field.toNat = 0 →
         (v = 0 → stores v { x with enabled := false }) ∧ (v = 1 → stores v { x with enabled := true }) ∧
         (2 ≤ v → set s .badValue [])) ∧
       (∀ cls : RightClass, field.toNat = 1 + cls.index.val →
         (v = 0 → stores v { x with rights := x.rights.set cls.index false }) ∧
         (v = 1 → stores v { x with rights := x.rights.set cls.index true }) ∧ (2 ≤ v → set s .badValue [])) ∧
       (field.toNat = 8 → ∀ w : Fin 8, w.val = within 0 7 v → stores w.val { x with priority := w }))) ∧
    (let part := answers (.setReplyTrunk sender object field value)
     (field ≠ 0 ∨ object ≠ 0 → part s .badValue []) ∧
     (field = 0 → object = 0 → s.holdsRight o .route = false → part s .noRight []) ∧
     (field = 0 → object = 0 → s.holdsRight o .route = true →
       (∀ k : Fin 2, v = k.val → part { s with processor := { s.processor with replyTrunk := k } } .done (item v)) ∧
       (2 ≤ v → part s .badValue [])))

/-- SET of an input trunk field (R152, R156): a change of enabled puts the receiver to DOWN, a change of loopback on an enabled trunk to
HUNT, each with its counts 0 and no burst in assembly, and when it was FRAMED its feeds go to HOLDOVER (R9). The model's readings: a flag
above 1 is refused (log entry 17), and loopback on is 1 (log entry 38). That a refusal carries no items is log entry 23. -/
def Obligations.SetInputTrunkWritesItsField : Prop :=
  ∀ (sender : Sender) (object field : Byte) (value : Word32) (s : State), s.Idle →
    let v := value.toNat
    let may := s.holdsRight sender.originator .route
    let answers := fun (u : State) (result : CommandResult) (items : List Byte) =>
      exec (.setInputTrunk sender object field value) s = .next (u.replied sender 1 0 result items)
    (3 ≤ field.toNat → answers s .badValue []) ∧
    (field.toNat < 3 → may = false → answers s .noRight []) ∧
    (field.toNat < 3 → may = true → 4 ≤ object.toNat → answers s .badValue []) ∧
    (may = true → ∀ n : Fin 4, object.toNat = n.val →
      let x := s.inputs[n]
      let stores := fun (u : InputTrunk) => answers (s.updInput n fun _ => u) .done (item v)
      let puts := fun (state : ReceiverState) (u : InputTrunk) => ∃ feeds : Vector Feed 8,
        answers ({ s with feeds := feeds }.updInput n fun _ =>
          { u with receiver := { x.receiver with state := state, silence := 0, goodRun := 0, badRun := 0, assembly := none } })
          .done (item v) ∧
        ∀ f : Fin 8, feeds[f] =
          if x.receiver.state = .framed ∧ s.feeds[f].record.trunk = n ∧ s.feeds[f].context.state ∈ [.priming, .acquiring, .locked] then
            { s.feeds[f] with context := { s.feeds[f].context with state := .holdover } }
          else s.feeds[f]
      (field.toNat = 0 →
        (v < 2 → x.enabled = decide (v = 1) → stores x) ∧
        (v < 2 → x.enabled ≠ decide (v = 1) → puts .down { x with enabled := decide (v = 1) }) ∧
        (2 ≤ v → answers s .badValue [])) ∧
      (field.toNat = 1 →
        (v = 0 → stores { x with forward := none }) ∧ (∀ k : Fin 2, v = k.val + 1 → stores { x with forward := some k }) ∧
        (3 ≤ v → answers s .badValue [])) ∧
      (field.toNat = 2 →
        (v < 2 → x.loopback = decide (v = 1) → stores x) ∧
        (v < 2 → x.loopback ≠ decide (v = 1) → x.enabled = false → stores { x with loopback := decide (v = 1) }) ∧
        (v < 2 → x.loopback ≠ decide (v = 1) → x.enabled = true → puts .hunt { x with loopback := decide (v = 1) }) ∧
        (2 ≤ v → answers s .badValue [])))

/-- SET of a kind policy field (R121, R132, R133): the field written and the lines formed anew; a disable of an enabled kind forces each
of its records to CLEAR, its time of raise kept, and offers the CLEAR reports of those that stood, in index order, while room remains.
That a flag above 1 is refused is the model's reading (log entry 17). That a refusal carries no items is log entry 23. -/
def Obligations.SetKindPolicyWritesItsField : Prop :=
  ∀ (sender : Sender) (object field : Byte) (value : Word32) (s : State), s.Idle →
    let v := value.toNat
    let may := s.holdsRight sender.originator .alarm
    let answers := fun (u : State) (result : CommandResult) (items : List Byte) =>
      exec (.setKindPolicy sender object field value) s = .next (u.replied sender 1 0 result items)
    (9 ≤ field.toNat → answers s .badValue []) ∧
    (field.toNat < 9 → may = false → answers s .noRight []) ∧
    (field.toNat < 9 → may = true → 18 ≤ object.toNat → answers s .badValue []) ∧
    (may = true → ∀ k : Fin 18, object.toNat = k.val →
      let y := s.alarms.policies[k]
      let written := fun (record : KindPolicy) =>
        { s with alarms := { s.alarms with policies := s.alarms.policies.set k record } }
      let stores := fun (n : Nat) (record : KindPolicy) => ∃ major minor : Bool,
        let u := { written record with alarms := { (written record).alarms with major := major, minor := minor } }
        u.LineLaw ∧ answers u (storedResult v n) (item n)
      (field.toNat = 0 → 2 ≤ v → answers s .badValue []) ∧
      (field.toNat = 0 → v = 1 → stores v { y with enabled := true }) ∧
      (field.toNat = 0 → v = 0 → y.enabled = false → stores v { y with enabled := false }) ∧
      (field.toNat = 0 → v = 0 → y.enabled = true →
        ∃ (t : State) (told : List (Fin 400)), exec (.setKindPolicy sender object field value) s = .next t ∧ t.LineLaw ∧
          t.alarms.policies = s.alarms.policies.set k { y with enabled := false } ∧
          told <+: (List.finRange 400).filter (fun r => decide (recordKind r = k) && s.alarms.records[r].standing) ∧
          (told = (List.finRange 400).filter (fun r => decide (recordKind r = k) && s.alarms.records[r].standing) ∨
            24 ≤ t.processor.alarmReports ∨ 32 ≤ t.processor.reports.length) ∧
          t.processor.reports = s.processor.reports ++
            .reply { tag := sender.tag, originator := sender.originator, code := 1, form := 0, result := .done, items := item 0 } ::
            told.map (fun r => .alarm
              { type := .clear, index := r, state := .clear, severity := y.severity, acknowledged := false
                timeOfRaise := s.alarms.records[r].timeOfRaise, houseTime := s.time.houseTime }) ∧
          (∀ r : Fin 400, recordKind r ≠ k → t.alarms.records[r] = s.alarms.records[r]) ∧
          (∀ r : Fin 400, recordKind r = k → t.alarms.records[r] =
            { state := .clear, count := 0, repeatCount := 0, repeatsDue := 0, acknowledged := false
              unreported := if r ∈ told then false else s.alarms.records[r].unreported || s.alarms.records[r].standing
              timeOfRaise := s.alarms.records[r].timeOfRaise }) ∧
          t = { s with
            alarms := { s.alarms with policies := t.alarms.policies, records := t.alarms.records, major := t.alarms.major,
                                      minor := t.alarms.minor }
            processor := { s.processor with reports := t.processor.reports } }) ∧
      (field.toNat = 1 →
        (v = 0 → stores v { y with severity := .none }) ∧ (v = 1 → stores v { y with severity := .minor }) ∧
        (v = 2 → stores v { y with severity := .major }) ∧ (3 ≤ v → answers s .badValue [])) ∧
      (field.toNat = 2 → stores (within 0 255 v) { y with raiseCount := within 0 255 v }) ∧
      (field.toNat = 3 → stores (within 0 255 v) { y with clearCount := within 0 255 v }) ∧
      (field.toNat = 4 →
        (v = 0 → stores v { y with latching := false }) ∧ (v = 1 → stores v { y with latching := true }) ∧
        (2 ≤ v → answers s .badValue [])) ∧
      (field.toNat = 5 → stores (within 0 255 v) { y with repeatDelay := within 0 255 v }) ∧
      (field.toNat = 6 → stores (within 0 255 v) { y with repeatInterval := within 0 255 v }) ∧
      (field.toNat = 7 →
        let top := if k.val = 1 then 8896 else if k.val = 2 ∨ k.val = 3 then 255 else if k.val = 4 then 256 else 8388608
        stores (within 0 top v) { y with parameter1 := within 0 top v }) ∧
      (field.toNat = 8 →
        let top := if k.val = 4 then 8388607 else 8388608
        stores (within 0 top v) { y with parameter2 := within 0 top v }))

/-! ### READ, STATUS and LOAD -/

/-- READ and STATUS need no right and change nothing but the report queue (R178, R180); a group or an object out of range, and a start
outside a run, are refused BAD VALUE; a run is cut at its end and after the last whole item of 4 octets that one REPLY body can carry (R184),
and gives the number of whole entries returned (log entry 18). The items of every group are those of R61, R80, R102, R117, R139, R166 and
R178 in the order of R184; a refusal carries none (log entry 23). The model's readings among them: an immediate take's time may take a free
value (log entry 4), the clearing progress and write index as they stand (24), house time and signed entries (30), the newest entry of an
empty ring absent (36), on and held as 1 (38), and the order of the STATUS items (39). -/
def Obligations.ReadAndStatusReturnItems : Prop :=
  ∀ (sender : Sender) (group object : Byte) (start count : BitVec 16) (s : State), s.Idle →
    let answers := fun (items : List Byte) => exec (.read sender group object start count) s = .next (s.replied sender 3 0 .done items)
    let bad := exec (.read sender group object start count) s = .next (s.replied sender 3 0 .badValue [])
    (∃ (n : Nat) (result : CommandResult) (items : List Byte),
      exec (.read sender group object start count) s = .next ({ s with freeCount := n }.replied sender 3 0 result items) ∧
      (group ≠ 3 → n = s.freeCount)) ∧
    (18 ≤ group.toNat → bad) ∧
    (group.toNat ∈ [0, 1, 4, 12, 14] → object ≠ 0 → bad) ∧ (group.toNat ∈ [2, 16] → 8 ≤ object.toNat → bad) ∧
    (group.toNat ∈ [3, 5, 6, 7, 8, 9, 15] → 16 ≤ object.toNat → bad) ∧ (group.toNat = 10 → 4 ≤ object.toNat → bad) ∧
    (group.toNat = 11 → 2 ≤ object.toNat → bad) ∧ (group.toNat = 13 → 18 ≤ object.toNat → bad) ∧
    (group.toNat = 17 → 7 ≤ object.toNat → bad) ∧
    (group = 0 → object = 0 → answers
      (item s.processor.station.toNat ++ item s.processor.replyTrunk.val ++ item s.time.houseTime.toNat ++
        item s.time.frameCounter.toNat ++ item (if s.time.reference = .present then 0 else 1) ++ item s.time.edgeCount)) ∧
    (group = 1 → object = 0 → answers
      (item s.processor.reports.length ++ item s.processor.alarmReports ++ item s.processor.commands.length)) ∧
    (group = 2 → ∀ f : Fin 8, object.toNat = f.val → answers
      (let r := s.feeds[f].record
       let c := s.feeds[f].context
       item (codeOf r.enabled) ++ item r.trunk.val ++ item r.channels ++ item r.kernel.val ++ item r.nominal ++ item r.rmin ++
         item r.rmax ++ item r.setpoint ++ item r.lockWindow ++ item r.timeout ++ item c.state.code ++ item c.lockCount ++
         item c.ratio ++ item c.rbase)) ∧
    (group = 4 → object = 0 → answers
      (item s.store.freeList.length ++ item s.parkedCount ++ item s.store.retired.length ++
        (s.store.retired.flatMap fun n => octetsOf 2 n.val ++
          (match s.ownerOf n with
           | some p => [0, BitVec.ofNat 8 p.val]
           | none => [1, 255])) ++
        item (codeOf s.store.fault.valid) ++ item s.store.fault.page.val ++ item s.store.fault.offset.toNat ++
        item s.store.fault.programme.val ++ item s.store.fault.time.toNat ++ item s.store.fault.further)) ∧
    (group = 5 → ∀ p : Fin 16, object.toNat = p.val → answers
      (let c := s.programmes[p].store
       item c.state.code ++ item c.pages.length ++ item (128 * c.pages.length) ++ item c.cleared ++ item c.write)) ∧
    (group = 3 → ∀ p : Fin 16, object.toNat = p.val →
      let q := s.programmes[p]
      let l := q.level
      let layout := fun x : Layout => item x.length ++ x.flatMap fun y =>
        [BitVec.ofNat 8 y.role.code, BitVec.ofNat 8 y.feed.val, BitVec.ofNat 8 y.channel.val, BitVec.ofNat 8 y.weight.val]
      ∃ (free : Word32) (n : Nat), ((∀ k, q.take = some k → k.time ≠ none) → n = s.freeCount) ∧
        exec (.read sender group object start count) s = .next ({ s with freeCount := n }.replied sender 3 0 .done
          (layout q.slots[0] ++ layout q.slots[1] ++
            (match q.take with
             | none => item 0 ++ item 0 ++ item 0 ++ item 0 ++ item 0
             | some k => item 1 ++ item (codeOf k.time.isNone) ++ item (k.time.getD free).toNat ++ item (codeOf k.restart) ++
                 layout k.layout) ++
            item q.eIn.toNat ++ item q.eOut.toNat ++ item (codeOf q.marks[0]) ++ item (codeOf q.marks[1]) ++
            item q.timing.feed.val ++ item q.timing.mode.code ++ item q.timing.offset ++ item q.timing.fixedDelay ++
            item q.timing.tolerance ++
            item l.filterSet.val ++ item l.target ++ item l.absoluteGate ++ item l.relativeOffset ++ item l.rideSource.code ++
            item l.gainMode.code ++ item l.fixedGain ++ item l.gMin ++ item l.gMax ++ item l.riseInterval ++ item l.fallInterval ++
            item (codeOf l.clipGuard) ++ item l.ceiling ++ item l.logInterval ++
            item q.holds.route.val ++ item q.holds.timing.val ++ item q.holds.level.val))) ∧
    (group = 6 → ∀ p : Fin 16, object.toNat = p.val → answers
      (let a := s.programmes[p].align
       item a.delay ++ item (a.pending.getD a.delay) ++ item (codeOf a.pending.isSome) ++ item (a.pending.getD 4294967295) ++
         item (codeOf a.muted) ++ item (codeOf a.aligned) ++ item a.misses ++ item (codeOf a.delayShort) ++ item (codeOf a.late))) ∧
    (group = 7 → ∀ p : Fin 16, object.toNat = p.val → answers
      (let m := s.programmes[p].meter
       let level := fun x : Option Nat => item (x.getD 4294967295)
       let power := fun x : Option Nat => octetsOf 8 (x.getD 18446744073709551615)
       level m.momentary ++ level m.shortTerm ++ level m.integrated ++ power m.momentaryPower ++ power m.shortTermPower ++
         power m.integratedPower ++ item m.ring.length ++ item (m.ring.countP fun e => e.void) ++
         power (m.ring.getLast?.map fun e => e.power) ++ level (m.ring.getLast?.map fun e => codeOf e.void) ++
         item m.measured ++ item m.substituted ++ item m.nAbs ++ level m.gate)) ∧
    (group = 8 → ∀ p : Fin 16, object.toNat = p.val →
      let h := s.programmes[p].meter.histogram
      (h.length ≤ start.toNat → bad) ∧
      (start.toNat < h.length →
        let n := min (min count.toNat (h.length - start.toNat)) 1021
        answers (item n ++ ((h.drop start.toNat).take n).flatMap item))) ∧
    (group = 9 → ∀ p : Fin 16, object.toNat = p.val → answers
      (let r := s.programmes[p].rider
       item r.gain ++ item r.latched ++ item r.rise ++ item r.fall ++
         (match r.aim with
          | some a => 1 :: octetsOf 4 (BitVec.ofInt 32 a).toNat
          | none => [0, 0, 0, 0, 0]) ++
         item (codeOf r.limit) ++ s.programmes[p].clips.toList.flatMap item)) ∧
    (group = 10 → ∀ n : Fin 4, object.toNat = n.val → answers
      (let x := s.inputs[n]
       item (codeOf x.enabled) ++
         item (match x.forward with
           | none => 0
           | some k => k.val + 1) ++
         item (codeOf x.loopback) ++ item x.receiver.state.code)) ∧
    (group = 11 → ∀ k : Fin 2, object.toNat = k.val → answers
      (let x := s.outputs[k]
       item x.map.stream.val ++ item x.map.count ++ item (codeOf x.map.captureTime) ++
         (x.map.entries.toList.flatMap fun e =>
           match e with
           | none => item 4294967295
           | some (p, q) => item (65536 * p.val + q.val)) ++
         item x.forward.length ++ item (if x.lastServed = .forward then 0 else 1))) ∧
    (group = 12 → object = 0 →
      (400 ≤ start.toNat → bad) ∧
      (start.toNat < 400 →
        let n := min count.toNat (400 - start.toNat)
        answers (item (min n 145) ++ (((s.alarms.records.toList.drop start.toNat).take n).flatMap fun x =>
          item x.state.code ++ item x.count ++ item x.repeatCount ++ item x.repeatsDue ++ item (codeOf x.acknowledged) ++
            item (codeOf x.unreported) ++ item x.timeOfRaise.toNat).take 4084))) ∧
    (group = 13 → ∀ k : Fin 18, object.toNat = k.val → answers
      (let x := s.alarms.policies[k]
       item (codeOf x.enabled) ++ item x.severity.code ++ item x.raiseCount ++ item x.clearCount ++ item (codeOf x.latching) ++
         item x.repeatDelay ++ item x.repeatInterval ++ item x.parameter1 ++ item x.parameter2)) ∧
    (group = 14 → object = 0 → answers
      (item (codeOf s.alarms.major) ++ item (codeOf s.alarms.minor) ++ item (codeOf s.alarms.commandOverrun) ++
        item (codeOf s.alarms.logOverrun))) ∧
    (group = 15 → ∀ p : Fin 16, object.toNat = p.val → answers
      (item s.programmes[p].tally.both ++ item s.programmes[p].tally.opposed)) ∧
    (group = 16 → ∀ n : Fin 8, object.toNat = n.val → answers
      (let x := s.processor.originators[n]
       item (codeOf x.enabled) ++ (x.rights.toList.flatMap fun y => item (codeOf y)) ++ item x.priority.val)) ∧
    (group = 17 → ∀ table : Fin 7, object.toNat = table.val →
      let entries : List (List Byte) :=
        if table = 0 then s.tables.taps.map fun x =>
          if x = 131072 then item 131072 else octetsOf 4 (BitVec.ofInt 32 x.toInt).toNat
        else if table = 1 then s.tables.latencies.map fun x => item x.toNat
        else if table = 2 then s.tables.levels.map fun e => octetsOf 5 e.threshold.toNat ++ octetsOf 5 e.power.toNat
        else if table = 3 then s.tables.gains.map fun x => item x.toNat
        else if table = 4 then [item s.tables.unity.toNat]
        else if table = 5 then s.tables.weights.map fun x => item x.toNat
        else s.tables.filters.map fun x => octetsOf 4 (BitVec.ofInt 32 x.toInt).toNat
      (entries.length ≤ start.toNat → bad) ∧
      (start.toNat < entries.length →
        let run := (entries.drop start.toNat).take count.toNat
        answers (item (min run.length (if table = 2 then 408 else 1021)) ++ run.flatten.take 4084))) ∧
    exec (.status sender) s = .next (s.replied sender 20 0 .done
      (item (codeOf s.alarms.major) ++ item (codeOf s.alarms.minor) ++
        item (codeOf (decide (∃ r : Fin 400, s.alarms.records[r].unreported = true))) ++ item (codeOf (!s.log.ring.isEmpty)) ++
        item (codeOf (decide (s.log.transfer.state = .active))) ++ item (codeOf s.store.fault.valid) ++
        item (codeOf (decide (s.time.reference = .present))) ++ item 0 ++
        item s.processor.station.toNat ++ item s.processor.replyTrunk.val ++ item s.time.houseTime.toNat ++
        ((List.finRange 8).flatMap fun f => item s.feeds[f].context.state.code) ++
        ((List.finRange 16).flatMap fun p => item s.programmes[p].store.state.code ++
          item (codeOf (decide (s.programmes[p].eIn ≠ s.programmes[p].eOut))) ++ item (codeOf s.programmes[p].take.isSome)) ++
        ((List.finRange 4).flatMap fun n => item s.inputs[n].receiver.state.code) ++
        item s.store.freeList.length ++ item s.parkedCount ++ item 0 ++ item s.processor.reports.length ++
        item s.processor.alarmReports))

/-- LOAD (R179, R185): refusals, and the run of entries written, each from its code's own octets, with every entry outside the run and
every other table as it stood. That a refusal carries no items is log entry 23; that NO RIGHT comes first for a table outside the list, with
codes or with none, is the model's choice of log entry 40. -/
def Obligations.LoadWritesARunOfEntries : Prop :=
  ∀ (sender : Sender) (table : Byte) (start : BitVec 16) (codes : List Byte) (s : State), s.Idle → s.CapacityLaw →
    (Command.load table start codes).fits = true →
    let answers := fun (u : State) (result : CommandResult) (items : List Byte) =>
      exec (.load sender table start codes) s = .next (u.replied sender 4 0 result items)
    let may := s.holdsRight sender.originator .tables
    (may = false → answers s .noRight []) ∧
    (may = true → 7 ≤ table.toNat → answers s .badValue []) ∧
    (may = true → ∀ (t : Fin 7), table.toNat = t.val →
      let width := [3, 2, 10, 3, 1, 2, 3].getD t.val 1
      let size := [8192, 4, 256, 256, 1, 16, 40].getD t.val 0
      let n := codes.length / width
      let a := start.toNat
      let code := fun i => numberOf ((codes.drop (width * (i - a))).take width)
      let written := fun i => a ≤ i ∧ i < a + n
      (size < a + n → answers s .badValue []) ∧
      (a + n ≤ size → ∃ tables : Tables,
        answers { s with tables := tables } .done (item a ++ item n) ∧
        (∀ i < 8192, tables.taps[i]? = if t.val = 0 ∧ written i then some (BitVec.ofNat 18 (code i)) else s.tables.taps[i]?) ∧
        (∀ i < 4, tables.latencies[i]? = if t.val = 1 ∧ written i then some (BitVec.ofNat 10 (code i)) else s.tables.latencies[i]?) ∧
        (∀ i < 256, tables.levels[i]? =
          if t.val = 2 ∧ written i then
            some { threshold := BitVec.ofNat 40 (numberOf ((codes.drop (10 * (i - a))).take 5))
                   power := BitVec.ofNat 40 (numberOf ((codes.drop (10 * (i - a) + 5)).take 5)) }
          else s.tables.levels[i]?) ∧
        (∀ i < 256, tables.gains[i]? = if t.val = 3 ∧ written i then some (BitVec.ofNat 24 (code i)) else s.tables.gains[i]?) ∧
        (tables.unity = if t.val = 4 then BitVec.ofNat 8 (code 0) else s.tables.unity) ∧
        (∀ i < 16, tables.weights[i]? = if t.val = 5 ∧ written i then some (BitVec.ofNat 16 (code i)) else s.tables.weights[i]?) ∧
        (∀ i < 40, tables.filters[i]? = if t.val = 6 ∧ written i then some (BitVec.ofNat 24 (code i)) else s.tables.filters[i]?)))

/-! ### Takes, store commands and house time -/

/-- TAKE and TAKE CANCEL of one programme (R26, R31, R34): the checks in their order, the pending take that an accepted TAKE leaves, and
the hold that each takes. That a flag operand other than 0 and 1 is refused BAD VALUE is the model's reading (log entry 17). That a
refusal carries no items is log entry 23. -/
def Obligations.TakeIsHeldAndCancelled : Prop :=
  ∀ (sender : Sender) (programme immediate : Byte) (time : Word32) (again : Byte) (codes : List PositionCode) (s : State), s.Idle →
    codes.length ≤ 62 →
    let o := sender.originator
    let takes := fun (u : State) (result : CommandResult) =>
      exec (.take sender programme immediate time again codes) s = .next (u.replied sender 5 0 result [])
    let cancels := fun (u : State) (result : CommandResult) =>
      exec (.takeCancel sender (.single programme)) s = .next (u.replied sender 6 0 result [])
    let valid := immediate.toNat < 2 ∧ again.toNat < 2 ∧ 1 ≤ codes.length ∧ codes.length ≤ 8 ∧
      ∀ c ∈ codes, c.role.toNat < 10 ∧ c.feed.toNat < 8 ∧ c.channel.toNat < 16 ∧ c.weight.toNat < 16
    (s.holdsRight o .route = false → takes s .noRight ∧ cancels s .noRight) ∧
    (s.holdsRight o .route = true → 16 ≤ programme.toNat → takes s .badValue ∧ cancels s .badValue) ∧
    (∀ p : Fin 16, programme.toNat = p.val →
      (s.holdsRight o .route = true → s.outranks o .route p = true → takes s .outranked ∧ cancels s .outranked) ∧
      (s.MayWrite o .route p →
        let q := s.programmes[p]
        let held := { q.holds with route := s.priorityOf o }
        (¬ valid → takes s .badValue) ∧
        (valid → q.take.isSome = true ∨ q.eIn ≠ q.eOut → takes s .busy) ∧
        (valid → q.take = none → q.eIn = q.eOut → ∃ layout : Layout,
          (layout.map fun x => (x.role.code, x.feed.val, x.channel.val, x.weight.val)) =
            (codes.map fun c => (c.role.toNat, c.feed.toNat, c.channel.toNat, c.weight.toNat)) ∧
          takes (s.updProgramme p fun _ =>
            { q with
              holds := held
              take := some { layout := layout, time := if immediate = 1 then none else some time, restart := decide (again = 1) } })
            .done) ∧
        (q.take = none → cancels s .busy) ∧
        (q.take.isSome = true → cancels (s.updProgramme p fun _ => { q with holds := held, take := none }) .done)))

/-- ALLOCATE and RELEASE (R48, R52, R78, R99, R115, R123, R140): the checks in their order, the pages and where they go, and what each
clears in the programme. That a refusal carries no items is log entry 23. -/
def Obligations.AllocateAndReleaseMovePages : Prop :=
  ∀ (sender : Sender) (programme : Byte) (frames : Word32) (s : State), s.Idle →
    let may := s.holdsRight sender.originator .store
    let allocates := fun (u : State) (result : CommandResult) (items : List Byte) =>
      exec (.allocate sender programme frames) s = .next (u.replied sender 7 0 result items)
    let releases := fun (u : State) (result : CommandResult) (items : List Byte) =>
      exec (.release sender programme) s = .next (u.replied sender 8 0 result items)
    (may = false → allocates s .noRight [] ∧ releases s .noRight []) ∧
    (may = true → 16 ≤ programme.toNat → allocates s .badValue [] ∧ releases s .badValue []) ∧
    (may = true → ∀ p : Fin 16, programme.toNat = p.val →
      let q := s.programmes[p]
      let f := within 1 1048576 frames.toNat
      let n := (f + 127) / 128
      let cleared : Programme := { q with
        meter := MeterContext.initial, rider := { q.rider with rise := 0, fall := 0, aim := none, limit := false }
        clips := Vector.replicate 8 0, outputs := [], tally := { both := 0, opposed := 0 }, log := { interval := 0, epoch := false } }
      let stay := q.store.pages.filter fun m => decide (m ∉ s.store.retired)
      (q.store.state ≠ .unallocated → allocates s .busy []) ∧
      (q.store.state = .unallocated → s.store.freeList.length < n → allocates s .noRoom []) ∧
      (q.store.state = .unallocated → n ≤ s.store.freeList.length →
        allocates
          ({ s with store := { s.store with freeList := s.store.freeList.drop n } }.updProgramme p fun _ =>
            { cleared with
              store := { q.store with state := .clearing, pages := s.store.freeList.take n, cleared := 0 }
              align := { q.align with realigned := false } })
          (storedResult frames.toNat f) (item n ++ item (128 * n))) ∧
      (q.store.state = .unallocated → releases s .busy []) ∧
      (q.store.state ≠ .unallocated →
        releases
          ({ s with store := { s.store with freeList := s.store.freeList ++ stay } }.updProgramme p fun _ =>
            { cleared with
              store := { state := .unallocated, pages := [], cleared := 0, write := 0, holds := Vector.replicate 8 0 }
              align := AlignContext.initial, eOut := q.eIn, marks := Vector.replicate 2 false })
          .done (item stay.length ++ item (q.store.pages.length - stay.length))))

/-- RETIRE and RESTORE (R53, R54): the right, the page number, and the cases by the page and the retire table, with the case and, for a
RETIRE, the owner in the reply body. That a refusal but NO ROOM carries no items is log entry 23. -/
def Obligations.RetireAndRestoreMoveThePage : Prop :=
  ∀ (sender : Sender) (page : BitVec 16) (s : State), s.Idle →
    let may := s.holdsRight sender.originator .store
    let retires := fun (u : State) (result : CommandResult) (items : List Byte) =>
      exec (.retire sender page) s = .next (u.replied sender 9 0 result items)
    let restores := fun (u : State) (items : List Byte) =>
      exec (.restore sender page) s = .next (u.replied sender 10 0 .done items)
    (may = false → retires s .noRight [] ∧ exec (.restore sender page) s = .next (s.replied sender 10 0 .noRight [])) ∧
    (may = true → 16384 ≤ page.toNat →
      retires s .badValue [] ∧ exec (.restore sender page) s = .next (s.replied sender 10 0 .badValue [])) ∧
    (may = true → ∀ n : Page, page.toNat = n.val →
      let room := s.store.retired.length < 32
      let owns := fun p : Fin 16 => n ∈ s.programmes[p].store.pages ∧ ∀ q : Fin 16, q < p → n ∉ s.programmes[q].store.pages
      let unowned := ∀ p : Fin 16, n ∉ s.programmes[p].store.pages
      (n ∈ s.store.retired → retires s .done (item 0 ++ item 4294967295)) ∧
      (n ∉ s.store.retired → unowned → room →
        retires
          { s with store := { s.store with freeList := s.store.freeList.filter (fun m => decide (m ≠ n)), retired := s.store.retired ++ [n] } }
          .done (item 1 ++ item 4294967295)) ∧
      (n ∉ s.store.retired → room → ∀ p, owns p →
        retires { s with store := { s.store with retired := s.store.retired ++ [n] } } .done (item 2 ++ item p.val)) ∧
      (n ∉ s.store.retired → ¬ room → retires s .noRoom (item 3 ++ item 4294967295)) ∧
      (n ∈ s.store.retired → unowned →
        restores
          { s with store := { s.store with
              freeList := s.store.freeList ++ [n], retired := s.store.retired.filter (fun m => decide (m ≠ n)) } }
          (item 0)) ∧
      (n ∈ s.store.retired → ∀ p, owns p →
        restores { s with store := { s.store with retired := s.store.retired.filter (fun m => decide (m ≠ n)) } } (item 1)) ∧
      (n ∉ s.store.retired → restores s (item 2)))

/-- READ FAULT (R60): the right, the whole record in the reply body, and the record emptied: valid clear and the further count 0. A READ
of the delay store's group returns the record and leaves it, for any sender. That the record's other items keep their values is the
model's choice (log entry 35). That a refusal carries no items is log entry 23. -/
def Obligations.ReadFaultEmptiesTheRecord : Prop :=
  ∀ (sender : Sender) (s : State), s.Idle →
    let r := s.store.fault
    let whole := item (codeOf r.valid) ++ item r.page.val ++ item r.offset.toNat ++ item r.programme.val ++ item r.time.toNat ++
      item r.further
    (s.holdsRight sender.originator .store = false → exec (.readFault sender) s = .next (s.replied sender 11 0 .noRight [])) ∧
    (s.holdsRight sender.originator .store = true →
      exec (.readFault sender) s =
        .next ({ s with store := { s.store with fault := { r with valid := false, further := 0 } } }.replied sender 11 0 .done whole)) ∧
    ∃ items, exec (.read sender 4 0 0 0) s = .next (s.replied sender 3 0 .done (items ++ whole))

/-- TIME SET and TIME ADJUST (R64 to R66): the first house frame after the command carries v, or the house time it would have carried and
s; every anchor list is emptied, and every TRACKED programme, whatever its store state, loses its aligned flag and its miss count. That
house time itself stays until that frame is the model's reading (log entry 5). That a refusal carries no items is log entry 23. -/
def Obligations.TimeCommandsMoveHouseTime : Prop :=
  ∀ (sender : Sender) (v : Word32) (s : State), s.Idle →
    let may := s.holdsRight sender.originator .timing
    let jumped : Word32 → State := fun next =>
      { s with
        time := { s.time with nextTime := next }
        feeds := mapAll (fun _ x => { x with context := { x.context with anchors := [] } }) s.feeds
        programmes := mapAll (fun _ p =>
          { p with align :=
              if p.timing.mode = .tracked then { p.align with aligned := false, misses := 0 } else p.align }) s.programmes }
    (may = false → exec (.timeSet sender v) s = .next (s.replied sender 12 0 .noRight []) ∧
      exec (.timeAdjust sender v) s = .next (s.replied sender 13 0 .noRight [])) ∧
    (may = true →
      exec (.timeSet sender v) s = .next ((jumped v).replied sender 12 0 .done []) ∧
      (v.toInt ≠ -2147483648 → exec (.timeAdjust sender v) s = .next ((jumped (s.time.nextTime + v)).replied sender 13 0 .done [])) ∧
      (v.toInt = -2147483648 →
        exec (.timeAdjust sender v) s =
          .next ((jumped (s.time.nextTime + BitVec.ofInt 32 (-2147483647))).replied sender 13 0 .clamped [])) ∧
      ∀ (order : List (Fin 16)) (t : State), t.NothingDue → t.slotsHold = true →
        (exec (.timeSet sender v) s = .next t →
          ∃ u, exec (.houseFrame order) t = .next u ∧ u.time.houseTime = v ∧ u.time.nextTime = v + 1 ∧
            u.time.frameCounter = s.time.nextFrame) ∧
        (exec (.timeAdjust sender v) s = .next t →
          ∃ u, exec (.houseFrame order) t = .next u ∧
            u.time.houseTime = s.time.nextTime + (if v.toInt = -2147483648 then BitVec.ofInt 32 (-2147483647) else v) ∧
            u.time.nextTime = u.time.houseTime + 1 ∧ u.time.frameCounter = s.time.nextFrame))

/-! ### Measurement, alarms, holds, the log and restart -/

/-- RESTART MEASUREMENT of one programme (R96, R98): the checks, the restart of a RUNNING programme's meter, and the hold. That a refusal
carries no items is log entry 23. -/
def Obligations.RestartMeasurementEmptiesTheMeter : Prop :=
  ∀ (sender : Sender) (programme : Byte) (s : State), s.Idle →
    let o := sender.originator
    let answers := fun (u : State) (result : CommandResult) =>
      exec (.restartMeasurement sender (.single programme)) s = .next (u.replied sender 14 0 result [])
    (s.holdsRight o .level = false → answers s .noRight) ∧
    (s.holdsRight o .level = true → 16 ≤ programme.toNat → answers s .badValue) ∧
    (∀ p : Fin 16, programme.toNat = p.val →
      (s.holdsRight o .level = true → s.outranks o .level p = true → answers s .outranked) ∧
      (s.MayWrite o .level p →
        answers (s.updProgramme p fun q =>
          { q with
            holds := { q.holds with level := s.priorityOf o }
            meter :=
              if q.store.state = .running then
                { q.meter with
                  ring := [], histogram := List.replicate 256 0, momentaryPower := none, shortTermPower := none
                  integratedPower := none, momentary := none, shortTerm := none, integrated := none, nAbs := 0, gate := none
                  powerSum := 0, measured := 0, substituted := 0 }
              else q.meter }) .done))

/-- ACKNOWLEDGE (R134). The single form acts on an ACTIVE or LATCHED record and is refused BUSY otherwise; the group form acts on the records
of a kind 0 to 7 that belong to the selected programmes and passes over the others. An ACTIVE record becomes acknowledged; a LATCHED one
goes to CLEAR, with a CLEAR report if there is room; the lines are formed anew. The model's readings: the right is judged before the kind,
and without it an empty selection is answered DONE, or NO RIGHT for a kind above 7 (log entry 25); the items of a refusal, none in the
single form and those of an empty tally for a whole group (log entry 23), with a free octet where no programme was refused (log entry 4). -/
def Obligations.AcknowledgeActsByRecordState : Prop :=
  ∀ (sender : Sender) (choice : AcknowledgeChoice) (s : State), s.Idle →
    let may := s.holdsRight sender.originator .alarm
    let reached := fun r : Fin 400 =>
      match choice with
      | .single n => r.val = n.toNat
      | .group kind selection => (recordKind r).val = kind.toNat ∧
        (∃ p : Fin 16, selection.getLsbD p.val = true ∧
          (recordObject r = .programme p ∨ ∃ q, recordObject r = .position p q))
    let carriedOut := fun (form : Byte) (items : List Byte) => ∃ (t : State) (told : List (Fin 400)),
      exec (.acknowledge sender choice) s = .next t ∧ t.LineLaw ∧
      (∀ r, r ∈ told → reached r ∧ s.alarms.records[r].state = .latched) ∧ told.Nodup ∧
      ((∀ r, reached r → s.alarms.records[r].state = .latched → r ∈ told) ∨ 24 ≤ t.processor.alarmReports ∨
        32 ≤ t.processor.reports.length) ∧
      t.processor.reports = s.processor.reports ++
        .reply { tag := sender.tag, originator := sender.originator, code := 15, form := form, result := .done, items := items } ::
        told.map (fun r => .alarm
          { type := .clear, index := r, state := .clear, severity := (s.alarms.policyOf r).severity, acknowledged := false
            timeOfRaise := s.alarms.records[r].timeOfRaise, houseTime := s.time.houseTime }) ∧
      (∀ r : Fin 400,
        let x := s.alarms.records[r]
        (reached r → x.state = .active → t.alarms.records[r] = { x with acknowledged := true }) ∧
        (reached r → x.state = .latched → t.alarms.records[r] =
          { state := .clear, count := 0, repeatCount := 0, repeatsDue := 0, acknowledged := false
            unreported := decide (r ∉ told), timeOfRaise := x.timeOfRaise }) ∧
        (¬ (reached r ∧ x.state ∈ [.active, .latched]) → t.alarms.records[r] = x)) ∧
      t = { s with
        alarms := { s.alarms with records := t.alarms.records, major := t.alarms.major, minor := t.alarms.minor }
        processor := { s.processor with reports := t.processor.reports }, freeCount := t.freeCount }
    (∀ index : BitVec 16, choice = .single index →
      let answers := fun (result : CommandResult) => exec (.acknowledge sender choice) s = .next (s.replied sender 15 0 result [])
      (may = false → answers .noRight) ∧
      (may = true → 400 ≤ index.toNat → answers .badValue) ∧
      (may = true → ∀ r : Fin 400, index.toNat = r.val →
        (s.alarms.records[r].state ∈ [.clear, .rising, .falling] → answers .busy) ∧
        (s.alarms.records[r].state ∈ [.active, .latched] → carriedOut 0 []))) ∧
    (∀ (kind : Byte) (selection : BitVec 16), choice = .group kind selection →
      (may = false → selection ≠ 0 → ∃ p : Fin 16, selection.getLsbD p.val = true ∧
        (∀ q : Fin 16, q < p → selection.getLsbD q.val = false) ∧
        exec (.acknowledge sender choice) s = .next (s.replied sender 15 1 .noRight [0, 0, BitVec.ofNat 8 p.val, 2])) ∧
      (may = true ∨ selection = 0 → 8 ≤ kind.toNat → ∃ (fill : Byte) (n : Nat),
        exec (.acknowledge sender choice) s =
          .next ({ s with freeCount := n }.replied sender 15 1 (if may then .badValue else .noRight) [0, 0, 255, fill])) ∧
      (may = true ∨ selection = 0 → kind.toNat < 8 → ∃ fill : Byte,
        carriedOut 1 [selection.extractLsb' 8 8, selection.extractLsb' 0 8, 255, fill]))

/-- RELEASE HOLD (R173): the class is checked before the right and the programme after it, then the holder priority of the class; an
accepted one sets that holder priority to 0 and gives the former one in its reply body. That a refusal carries no items is log entry 23. -/
def Obligations.ReleaseHoldClearsTheHold : Prop :=
  ∀ (sender : Sender) (programme cls : Byte) (s : State), s.Idle →
    let o := sender.originator
    let answers := fun (u : State) (result : CommandResult) (items : List Byte) =>
      exec (.releaseHold sender programme cls) s = .next (u.replied sender 16 0 result items)
    (3 ≤ cls.toNat → answers s .badValue []) ∧
    (∀ c : RightClass, (cls.toNat = 0 ∧ c = .route) ∨ (cls.toNat = 1 ∧ c = .timing) ∨ (cls.toNat = 2 ∧ c = .level) →
      (s.holdsRight o c = false → answers s .noRight []) ∧
      (s.holdsRight o c = true → 16 ≤ programme.toNat → answers s .badValue []) ∧
      ∀ p : Fin 16, programme.toNat = p.val → s.holdsRight o c = true →
        let h := s.programmes[p].holds
        (s.priorityOf o < h.of c → answers s .outranked []) ∧
        (h.of c ≤ s.priorityOf o →
          answers (s.updProgramme p fun q =>
              { q with holds :=
                  { route := if c = .route then 0 else h.route, timing := if c = .timing then 0 else h.timing
                    level := if c = .level then 0 else h.level } })
            .done (item (h.of c).val) ∧
          (h.of c = 0 → answers s .done (item 0))))

/-- LOG READ, LOG CANCEL and LOG STATUS (R145, R148, R149). An accepted LOG READ opens the transfer with the command's mode, count and
flag, delivered 0 and the overrun mark clear, and after its REPLY transfer steps are taken one after another, each as TRANSFER_STEP takes
it, exactly while R146 lets them; an accepted LOG CANCEL ends it ABORTED with the termination record in its REPLY and in a final LOG
report if there is room; LOG STATUS returns the log's items and then clears the overflow flag. The codes 0 to 3 of an end cause among a
REPLY's items are the model's reading (log entry 19). A flag above 1 is refused (log entry 17). That a refusal carries no items is log
entry 23. -/
def Obligations.LogCommandsOpenAndEndTransfers : Prop :=
  ∀ (sender : Sender) (mode : Byte) (count : BitVec 16) (stop : Byte) (s : State), s.Idle →
    let x := s.log.transfer
    let may := s.holdsRight sender.originator .log
    let reads := fun (result : CommandResult) =>
      exec (.logRead sender mode count stop) s = .next (s.replied sender 17 0 result [])
    let cancels := fun (result : CommandResult) => exec (.logCancel sender) s = .next (s.replied sender 18 0 result [])
    (may = false → reads .noRight ∧ cancels .noRight) ∧
    (may = true → 2 ≤ mode.toNat ∨ 2 ≤ stop.toNat → reads .badValue) ∧
    (may = true → mode.toNat < 2 → stop.toNat < 2 → x.state = .active → reads .busy) ∧
    (may = true → mode.toNat < 2 → stop.toNat < 2 → x.state ≠ .active →
      let opened :=
        { s with log := { s.log with transfer :=
            { state := .active, mode := if mode = 0 then .single else .continuous, count := count.toNat
              stopOnAlarm := decide (stop = 1), delivered := 0, overrun := false, cause := none } } }.replied sender 17 0 .done []
      let can := fun u : State =>
        u.log.transfer.state = .active ∧ u.processor.reports.length < 32 ∧ (u.log.ring ≠ [] ∨ u.log.transfer.mode = .single)
      (¬ can opened → exec (.logRead sender mode count stop) s = .next opened) ∧
      ∃ (n : Nat) (chain : Nat → State) (steps : List LogReport),
        let t := chain n
        exec (.logRead sender mode count stop) s = .next t ∧ ¬ can t ∧
        chain 0 = opened ∧ (∀ i < n, can (chain i) ∧ exec .transferStep (chain i) = .next (chain (i + 1))) ∧ steps.length = n ∧
        t.processor.reports = opened.processor.reports ++ steps.map .log ∧
        s.log.ring = (steps.flatMap LogReport.entries) ++ t.log.ring ∧ (∀ l ∈ steps, l.entries.length ≤ 4 ∧ l.overrun = false) ∧
        t.log.overflow = s.log.overflow ∧ t.log.transfer.mode = (if mode = 0 then .single else .continuous) ∧
        t.log.transfer.count = count.toNat ∧ t.log.transfer.stopOnAlarm = decide (stop = 1) ∧ t.log.transfer.overrun = false ∧
        t.log.transfer.delivered = (steps.flatMap LogReport.entries).length ∧
        t = { s with log := t.log, processor := { s.processor with reports := t.processor.reports } }) ∧
    (may = true → x.state ≠ .active → cancels .busy) ∧
    (may = true → x.state = .active →
      let ended := { s with log := { s.log with transfer := { x with state := .ended, cause := some .aborted } } }
      let answered := ended.replied sender 18 0 .done (item 3 ++ item x.delivered ++ item (codeOf x.overrun))
      exec (.logCancel sender) s =
        .next (if s.processor.reports.length + 1 < 32 then
            answered.pushReport (.log { entries := [], overrun := x.overrun, delivered := x.delivered, cause := some .aborted })
          else answered)) ∧
    exec (.logStatus sender) s =
      .next ({ s with log := { s.log with overflow := false } }.replied sender 19 0 .done
        (item s.log.ring.length ++
          (match s.log.ring with
           | e :: _ => 1 :: item e.time.toNat ++ item e.programme.val
           | [] => [0, 0, 0, 0, 0] ++ item 4294967295) ++
          item (codeOf s.log.overflow) ++ item x.state.code ++ item x.mode.code ++ item x.count ++ item (codeOf x.stopOnAlarm) ++
          item x.delivered ++ item (codeOf x.overrun) ++
          item (match x.cause with
            | some .count => 0
            | some .empty => 1
            | some .matched => 2
            | some .aborted => 3
            | none => 4294967295)))

/-- RESTART (R181) is taken from originator 0 alone and leaves the processor in RESTART PENDING behind its REPLY; a command whose code and
form no row of R184 lists is answered UNKNOWN (R168), and one whose parameter octets do not number as its row says, or do not hold whole
codes of its table (R185), BAD VALUE whatever the sender's rights (R168, R184). That these refusals carry no items, in the group forms too,
is log entry 23. While the processor is RESTART PENDING, or the report queue is full, every command, unknown ones too, waits: it enters the
command queue, or is dropped with the command overrun mark when that holds 8 (R167). -/
def Obligations.RestartAndUnknownAreAnswered : Prop :=
  ∀ (sender : Sender) (s : State),
    (s.Idle →
      (sender.originator ≠ 0 → exec (.restart sender) s = .next (s.replied sender 21 0 .noRight [])) ∧
      (sender.originator = 0 →
        exec (.restart sender) s =
          .next ({ s with processor := { s.processor with state := .restartPending } }.replied sender 21 0 .done []))) ∧
    (∀ (code form : Byte) (params : List Byte),
      (code = 0 ∨ 21 < code.toNat ∨ 2 ≤ form.toNat ∨ (form = 1 ∧ code.toNat ∉ [6, 14, 15])) → s.Idle →
      exec (.unknownCommand sender code form params) s = .next (s.replied sender code form .unknown [])) ∧
    (∀ (code form : Byte) (params : List Byte),
      let c := code.toNat
      let n := params.length
      let table := (params.headD 0).toNat
      (form = 0 ∧
        ((c ∈ [1, 2] ∧ n ≠ 7) ∨ (c = 3 ∧ n ≠ 6) ∨
          (c = 4 ∧ (n < 3 ∨ (table < 7 ∧ (n = 3 ∨ (n - 3) % [3, 2, 10, 3, 1, 2, 3].getD table 1 ≠ 0)))) ∨
          (c = 5 ∧ (n < 8 ∨ n ≠ 8 + 4 * (params.getD 7 0).toNat)) ∨ (c ∈ [6, 8, 14] ∧ n ≠ 1) ∨ (c = 7 ∧ n ≠ 5) ∨
          (c ∈ [9, 10, 15, 16] ∧ n ≠ 2) ∨ (c ∈ [12, 13, 17] ∧ n ≠ 4) ∨ (c ∈ [11, 18, 19, 20, 21] ∧ n ≠ 0))) ∨
        (form = 1 ∧ ((c ∈ [6, 14] ∧ n ≠ 2) ∨ (c = 15 ∧ n ≠ 3))) → s.Idle →
      exec (.unknownCommand sender code form params) s = .next (s.replied sender code form .badValue [])) ∧
    (∀ (table : Byte) (start : BitVec 16) (codes : List Byte),
      table.toNat < 7 → (codes = [] ∨ codes.length % [3, 2, 10, 3, 1, 2, 3].getD table.toNat 1 ≠ 0) → s.Idle →
      exec (.load sender table start codes) s = .next (s.replied sender 4 0 .badValue [])) ∧
    ∀ (i : Instr) (e : Encoded),
      i = .unknownCommand sender e.code e.form e.params ∨ (∃ c, i.management = some (sender, c) ∧ encodeCommand c = e) →
      s.takesNow = false →
      exec i s = .next
        (if s.processor.commands.length < 8 then
          { s with processor := { s.processor with commands := s.processor.commands ++
            [{ destination := s.processor.station.setWidth 8, originator := sender.originator, tag := sender.tag
               code := e.code, form := e.form, spare := [0, 0, 0, 0], params := e.params }] } }
        else { s with alarms := { s.alarms with commandOverrun := true } })

/-! ### What every step keeps -/

/-- Every step keeps the memory of the delay store in its canonical form, for every state and every order of what waits (log entry 3). -/
def Obligations.StepKeepsTheMemoryForm : Prop := ∀ s t : State, s.MemoryLaw → step s = .next t → t.MemoryLaw

/-- Every step keeps the bounds of these collections: the command queue at most 8 bursts (R167), the report queue at most 32 reports of which
at most 24 are alarm reports (R174), each forward queue at most 4 bursts (R162), the ring of the loudness log at most 512 entries (R140), the
retire table at most 32 pages (R45). It also keeps the sizes of the kernel taps and latencies (R22), the level table (R91), the gain table
(R104), the weight table (R86) and the filter table (R83), as R185 lists them, and the 256 counts of every histogram (R81). The slice rings,
layouts, page lists and bursts in assembly are no part of this statement. -/
def Obligations.StepKeepsCapacities : Prop := ∀ s t : State, s.CapacityLaw → step s = .next t → t.CapacityLaw

/-- Every step keeps the law of pages (R43). -/
def Obligations.StepKeepsThePageLaw : Prop := ∀ s t : State, s.PageLaw → step s = .next t → t.PageLaw

/-- Every step keeps write indices, applied delays and pending targets within their rings (R46, R69), and from such a state every step
answers a next state: no command and no event stops the part. -/
def Obligations.StepKeepsRingsAndNeverStops : Prop := ∀ s : State, s.RingLaw → ∃ t, step s = .next t ∧ t.RingLaw

/-- Every step keeps the laws of epochs and of gain indices (R29, R31, R39, R103), and each feed's ratios within its limits, its buffer
within 256 frames and its anchor list within 8 marks (R2, R4). -/
def Obligations.StepKeepsEpochsGainsAndFeeds : Prop :=
  (∀ s t : State, s.EpochLaw → step s = .next t → t.EpochLaw) ∧
  (∀ s t : State, s.GainLaw → step s = .next t → t.GainLaw) ∧
  ∀ s t : State, s.FeedLaw → step s = .next t → t.FeedLaw

/-- Every step keeps the alarm lines as the records say (R133): MAJOR is asserted exactly while some record of an enabled kind of severity
MAJOR stands ACTIVE, FALLING or LATCHED, and MINOR likewise. Right after reset both are deasserted, and the digest of every REPORT burst and
a READ of the alarm lines carry them. -/
def Obligations.StepKeepsAlarmLines : Prop :=
  (∀ s t : State, s.LineLaw → step s = .next t → t.LineLaw) ∧
  (State.reset.LineLaw ∧ State.reset.alarms.major = false ∧ State.reset.alarms.minor = false) ∧
  (∀ (s : State) (r : Report),
    (s.formReport r).digest.getLsbD 0 = s.alarms.major ∧ (s.formReport r).digest.getLsbD 1 = s.alarms.minor) ∧
  ∀ (sender : Sender) (start count : BitVec 16) (s : State), s.Idle → ∃ others : List Byte,
    exec (.read sender 14 0 start count) s =
      .next (s.replied sender 3 0 .done (item (codeOf s.alarms.major) ++ item (codeOf s.alarms.minor) ++ others))
end

