-- ==== Sys2Proof/Laws/State.lean ====
section
/-! SUPPORT. What each update of the state leaves and sets: one lemma per field per update. -/

namespace Sys2Proof.Machine

/-! ### Items of numbered sets -/

@[simp] theorem updAt_getElem {α : Type} {n : Nat} (v : Vector α n) (i : Fin n) (g : α → α) (k : Nat) (h : k < n) :
    (updAt v i g)[k] = if i.val = k then g v[k] else v[k] := by
  simp only [updAt, Vector.getElem_set]
  split <;> simp_all

theorem updAt_same {α : Type} {n : Nat} (v : Vector α n) (i : Fin n) (g : α → α) : (updAt v i g)[i] = g v[i] := by simp

theorem updAt_other {α : Type} {n : Nat} (v : Vector α n) (i j : Fin n) (g : α → α) (h : i ≠ j) : (updAt v i g)[j] = v[j] := by
  simp [Fin.val_ne_of_ne h]

@[simp] theorem mapAll_getElem {α β : Type} {n : Nat} (g : Fin n → α → β) (v : Vector α n) (k : Nat) (h : k < n) :
    (mapAll g v)[k] = g ⟨k, h⟩ v[k] := by
  simp [mapAll]

theorem updAt_updAt {α : Type} {n : Nat} (v : Vector α n) (i : Fin n) (g h : α → α) :
    updAt (updAt v i g) i h = updAt v i fun x => h (g x) := by
  apply Vector.ext
  intro k hk
  simp only [updAt_getElem]
  split <;> rfl

/-! ### Updates of the state -/

@[simp] theorem State.updFeed_pending (s : State) (f : Fin 8) (g : Feed → Feed) : (s.updFeed f g).pending = s.pending := rfl
@[simp] theorem State.updFeed_feeds (s : State) (f : Fin 8) (g : Feed → Feed) : (s.updFeed f g).feeds = updAt s.feeds f g := rfl
@[simp] theorem State.updFeed_tables (s : State) (f : Fin 8) (g : Feed → Feed) : (s.updFeed f g).tables = s.tables := rfl
@[simp] theorem State.updFeed_programmes (s : State) (f : Fin 8) (g : Feed → Feed) : (s.updFeed f g).programmes = s.programmes := rfl
@[simp] theorem State.updFeed_store (s : State) (f : Fin 8) (g : Feed → Feed) : (s.updFeed f g).store = s.store := rfl
@[simp] theorem State.updFeed_time (s : State) (f : Fin 8) (g : Feed → Feed) : (s.updFeed f g).time = s.time := rfl
@[simp] theorem State.updFeed_inputs (s : State) (f : Fin 8) (g : Feed → Feed) : (s.updFeed f g).inputs = s.inputs := rfl
@[simp] theorem State.updFeed_outputs (s : State) (f : Fin 8) (g : Feed → Feed) : (s.updFeed f g).outputs = s.outputs := rfl
@[simp] theorem State.updFeed_alarms (s : State) (f : Fin 8) (g : Feed → Feed) : (s.updFeed f g).alarms = s.alarms := rfl
@[simp] theorem State.updFeed_log (s : State) (f : Fin 8) (g : Feed → Feed) : (s.updFeed f g).log = s.log := rfl
@[simp] theorem State.updFeed_processor (s : State) (f : Fin 8) (g : Feed → Feed) : (s.updFeed f g).processor = s.processor := rfl
@[simp] theorem State.updFeed_freeCount (s : State) (f : Fin 8) (g : Feed → Feed) : (s.updFeed f g).freeCount = s.freeCount := rfl

@[simp] theorem State.updContext_pending (s : State) (f : Fin 8) (g : FeedContext → FeedContext) : (s.updContext f g).pending = s.pending := rfl
@[simp] theorem State.updContext_feeds (s : State) (f : Fin 8) (g : FeedContext → FeedContext) : (s.updContext f g).feeds = updAt s.feeds f fun x => { x with context := g x.context } := rfl
@[simp] theorem State.updContext_tables (s : State) (f : Fin 8) (g : FeedContext → FeedContext) : (s.updContext f g).tables = s.tables := rfl
@[simp] theorem State.updContext_programmes (s : State) (f : Fin 8) (g : FeedContext → FeedContext) : (s.updContext f g).programmes = s.programmes := rfl
@[simp] theorem State.updContext_store (s : State) (f : Fin 8) (g : FeedContext → FeedContext) : (s.updContext f g).store = s.store := rfl
@[simp] theorem State.updContext_time (s : State) (f : Fin 8) (g : FeedContext → FeedContext) : (s.updContext f g).time = s.time := rfl
@[simp] theorem State.updContext_inputs (s : State) (f : Fin 8) (g : FeedContext → FeedContext) : (s.updContext f g).inputs = s.inputs := rfl
@[simp] theorem State.updContext_outputs (s : State) (f : Fin 8) (g : FeedContext → FeedContext) : (s.updContext f g).outputs = s.outputs := rfl
@[simp] theorem State.updContext_alarms (s : State) (f : Fin 8) (g : FeedContext → FeedContext) : (s.updContext f g).alarms = s.alarms := rfl
@[simp] theorem State.updContext_log (s : State) (f : Fin 8) (g : FeedContext → FeedContext) : (s.updContext f g).log = s.log := rfl
@[simp] theorem State.updContext_processor (s : State) (f : Fin 8) (g : FeedContext → FeedContext) : (s.updContext f g).processor = s.processor := rfl
@[simp] theorem State.updContext_freeCount (s : State) (f : Fin 8) (g : FeedContext → FeedContext) : (s.updContext f g).freeCount = s.freeCount := rfl

@[simp] theorem State.updProgramme_pending (s : State) (p : Fin 16) (g : Programme → Programme) : (s.updProgramme p g).pending = s.pending := rfl
@[simp] theorem State.updProgramme_feeds (s : State) (p : Fin 16) (g : Programme → Programme) : (s.updProgramme p g).feeds = s.feeds := rfl
@[simp] theorem State.updProgramme_tables (s : State) (p : Fin 16) (g : Programme → Programme) : (s.updProgramme p g).tables = s.tables := rfl
@[simp] theorem State.updProgramme_programmes (s : State) (p : Fin 16) (g : Programme → Programme) : (s.updProgramme p g).programmes = updAt s.programmes p g := rfl
@[simp] theorem State.updProgramme_store (s : State) (p : Fin 16) (g : Programme → Programme) : (s.updProgramme p g).store = s.store := rfl
@[simp] theorem State.updProgramme_time (s : State) (p : Fin 16) (g : Programme → Programme) : (s.updProgramme p g).time = s.time := rfl
@[simp] theorem State.updProgramme_inputs (s : State) (p : Fin 16) (g : Programme → Programme) : (s.updProgramme p g).inputs = s.inputs := rfl
@[simp] theorem State.updProgramme_outputs (s : State) (p : Fin 16) (g : Programme → Programme) : (s.updProgramme p g).outputs = s.outputs := rfl
@[simp] theorem State.updProgramme_alarms (s : State) (p : Fin 16) (g : Programme → Programme) : (s.updProgramme p g).alarms = s.alarms := rfl
@[simp] theorem State.updProgramme_log (s : State) (p : Fin 16) (g : Programme → Programme) : (s.updProgramme p g).log = s.log := rfl
@[simp] theorem State.updProgramme_processor (s : State) (p : Fin 16) (g : Programme → Programme) : (s.updProgramme p g).processor = s.processor := rfl
@[simp] theorem State.updProgramme_freeCount (s : State) (p : Fin 16) (g : Programme → Programme) : (s.updProgramme p g).freeCount = s.freeCount := rfl

@[simp] theorem State.updInput_pending (s : State) (n : Fin 4) (g : InputTrunk → InputTrunk) : (s.updInput n g).pending = s.pending := rfl
@[simp] theorem State.updInput_feeds (s : State) (n : Fin 4) (g : InputTrunk → InputTrunk) : (s.updInput n g).feeds = s.feeds := rfl
@[simp] theorem State.updInput_tables (s : State) (n : Fin 4) (g : InputTrunk → InputTrunk) : (s.updInput n g).tables = s.tables := rfl
@[simp] theorem State.updInput_programmes (s : State) (n : Fin 4) (g : InputTrunk → InputTrunk) : (s.updInput n g).programmes = s.programmes := rfl
@[simp] theorem State.updInput_store (s : State) (n : Fin 4) (g : InputTrunk → InputTrunk) : (s.updInput n g).store = s.store := rfl
@[simp] theorem State.updInput_time (s : State) (n : Fin 4) (g : InputTrunk → InputTrunk) : (s.updInput n g).time = s.time := rfl
@[simp] theorem State.updInput_inputs (s : State) (n : Fin 4) (g : InputTrunk → InputTrunk) : (s.updInput n g).inputs = updAt s.inputs n g := rfl
@[simp] theorem State.updInput_outputs (s : State) (n : Fin 4) (g : InputTrunk → InputTrunk) : (s.updInput n g).outputs = s.outputs := rfl
@[simp] theorem State.updInput_alarms (s : State) (n : Fin 4) (g : InputTrunk → InputTrunk) : (s.updInput n g).alarms = s.alarms := rfl
@[simp] theorem State.updInput_log (s : State) (n : Fin 4) (g : InputTrunk → InputTrunk) : (s.updInput n g).log = s.log := rfl
@[simp] theorem State.updInput_processor (s : State) (n : Fin 4) (g : InputTrunk → InputTrunk) : (s.updInput n g).processor = s.processor := rfl
@[simp] theorem State.updInput_freeCount (s : State) (n : Fin 4) (g : InputTrunk → InputTrunk) : (s.updInput n g).freeCount = s.freeCount := rfl

@[simp] theorem State.updReceiver_pending (s : State) (n : Fin 4) (g : Receiver → Receiver) : (s.updReceiver n g).pending = s.pending := rfl
@[simp] theorem State.updReceiver_feeds (s : State) (n : Fin 4) (g : Receiver → Receiver) : (s.updReceiver n g).feeds = s.feeds := rfl
@[simp] theorem State.updReceiver_tables (s : State) (n : Fin 4) (g : Receiver → Receiver) : (s.updReceiver n g).tables = s.tables := rfl
@[simp] theorem State.updReceiver_programmes (s : State) (n : Fin 4) (g : Receiver → Receiver) : (s.updReceiver n g).programmes = s.programmes := rfl
@[simp] theorem State.updReceiver_store (s : State) (n : Fin 4) (g : Receiver → Receiver) : (s.updReceiver n g).store = s.store := rfl
@[simp] theorem State.updReceiver_time (s : State) (n : Fin 4) (g : Receiver → Receiver) : (s.updReceiver n g).time = s.time := rfl
@[simp] theorem State.updReceiver_inputs (s : State) (n : Fin 4) (g : Receiver → Receiver) : (s.updReceiver n g).inputs = updAt s.inputs n fun x => { x with receiver := g x.receiver } := rfl
@[simp] theorem State.updReceiver_outputs (s : State) (n : Fin 4) (g : Receiver → Receiver) : (s.updReceiver n g).outputs = s.outputs := rfl
@[simp] theorem State.updReceiver_alarms (s : State) (n : Fin 4) (g : Receiver → Receiver) : (s.updReceiver n g).alarms = s.alarms := rfl
@[simp] theorem State.updReceiver_log (s : State) (n : Fin 4) (g : Receiver → Receiver) : (s.updReceiver n g).log = s.log := rfl
@[simp] theorem State.updReceiver_processor (s : State) (n : Fin 4) (g : Receiver → Receiver) : (s.updReceiver n g).processor = s.processor := rfl
@[simp] theorem State.updReceiver_freeCount (s : State) (n : Fin 4) (g : Receiver → Receiver) : (s.updReceiver n g).freeCount = s.freeCount := rfl

@[simp] theorem State.setAssembly_pending (s : State) (n : Fin 4) (a : Option (List Byte)) : (s.setAssembly n a).pending = s.pending := rfl
@[simp] theorem State.setAssembly_feeds (s : State) (n : Fin 4) (a : Option (List Byte)) : (s.setAssembly n a).feeds = s.feeds := rfl
@[simp] theorem State.setAssembly_tables (s : State) (n : Fin 4) (a : Option (List Byte)) : (s.setAssembly n a).tables = s.tables := rfl
@[simp] theorem State.setAssembly_programmes (s : State) (n : Fin 4) (a : Option (List Byte)) : (s.setAssembly n a).programmes = s.programmes := rfl
@[simp] theorem State.setAssembly_store (s : State) (n : Fin 4) (a : Option (List Byte)) : (s.setAssembly n a).store = s.store := rfl
@[simp] theorem State.setAssembly_time (s : State) (n : Fin 4) (a : Option (List Byte)) : (s.setAssembly n a).time = s.time := rfl
@[simp] theorem State.setAssembly_outputs (s : State) (n : Fin 4) (a : Option (List Byte)) : (s.setAssembly n a).outputs = s.outputs := rfl
@[simp] theorem State.setAssembly_alarms (s : State) (n : Fin 4) (a : Option (List Byte)) : (s.setAssembly n a).alarms = s.alarms := rfl
@[simp] theorem State.setAssembly_log (s : State) (n : Fin 4) (a : Option (List Byte)) : (s.setAssembly n a).log = s.log := rfl
@[simp] theorem State.setAssembly_processor (s : State) (n : Fin 4) (a : Option (List Byte)) : (s.setAssembly n a).processor = s.processor := rfl
@[simp] theorem State.setAssembly_freeCount (s : State) (n : Fin 4) (a : Option (List Byte)) : (s.setAssembly n a).freeCount = s.freeCount := rfl

@[simp] theorem State.updOutput_pending (s : State) (k : Fin 2) (g : OutputTrunk → OutputTrunk) : (s.updOutput k g).pending = s.pending := rfl
@[simp] theorem State.updOutput_feeds (s : State) (k : Fin 2) (g : OutputTrunk → OutputTrunk) : (s.updOutput k g).feeds = s.feeds := rfl
@[simp] theorem State.updOutput_tables (s : State) (k : Fin 2) (g : OutputTrunk → OutputTrunk) : (s.updOutput k g).tables = s.tables := rfl
@[simp] theorem State.updOutput_programmes (s : State) (k : Fin 2) (g : OutputTrunk → OutputTrunk) : (s.updOutput k g).programmes = s.programmes := rfl
@[simp] theorem State.updOutput_store (s : State) (k : Fin 2) (g : OutputTrunk → OutputTrunk) : (s.updOutput k g).store = s.store := rfl
@[simp] theorem State.updOutput_time (s : State) (k : Fin 2) (g : OutputTrunk → OutputTrunk) : (s.updOutput k g).time = s.time := rfl
@[simp] theorem State.updOutput_inputs (s : State) (k : Fin 2) (g : OutputTrunk → OutputTrunk) : (s.updOutput k g).inputs = s.inputs := rfl
@[simp] theorem State.updOutput_outputs (s : State) (k : Fin 2) (g : OutputTrunk → OutputTrunk) : (s.updOutput k g).outputs = updAt s.outputs k g := rfl
@[simp] theorem State.updOutput_alarms (s : State) (k : Fin 2) (g : OutputTrunk → OutputTrunk) : (s.updOutput k g).alarms = s.alarms := rfl
@[simp] theorem State.updOutput_log (s : State) (k : Fin 2) (g : OutputTrunk → OutputTrunk) : (s.updOutput k g).log = s.log := rfl
@[simp] theorem State.updOutput_processor (s : State) (k : Fin 2) (g : OutputTrunk → OutputTrunk) : (s.updOutput k g).processor = s.processor := rfl
@[simp] theorem State.updOutput_freeCount (s : State) (k : Fin 2) (g : OutputTrunk → OutputTrunk) : (s.updOutput k g).freeCount = s.freeCount := rfl

@[simp] theorem State.updRecord_pending (s : State) (r : Fin 400) (g : AlarmRecord → AlarmRecord) : (s.updRecord r g).pending = s.pending := rfl
@[simp] theorem State.updRecord_feeds (s : State) (r : Fin 400) (g : AlarmRecord → AlarmRecord) : (s.updRecord r g).feeds = s.feeds := rfl
@[simp] theorem State.updRecord_tables (s : State) (r : Fin 400) (g : AlarmRecord → AlarmRecord) : (s.updRecord r g).tables = s.tables := rfl
@[simp] theorem State.updRecord_programmes (s : State) (r : Fin 400) (g : AlarmRecord → AlarmRecord) : (s.updRecord r g).programmes = s.programmes := rfl
@[simp] theorem State.updRecord_store (s : State) (r : Fin 400) (g : AlarmRecord → AlarmRecord) : (s.updRecord r g).store = s.store := rfl
@[simp] theorem State.updRecord_time (s : State) (r : Fin 400) (g : AlarmRecord → AlarmRecord) : (s.updRecord r g).time = s.time := rfl
@[simp] theorem State.updRecord_inputs (s : State) (r : Fin 400) (g : AlarmRecord → AlarmRecord) : (s.updRecord r g).inputs = s.inputs := rfl
@[simp] theorem State.updRecord_outputs (s : State) (r : Fin 400) (g : AlarmRecord → AlarmRecord) : (s.updRecord r g).outputs = s.outputs := rfl
@[simp] theorem State.updRecord_alarms (s : State) (r : Fin 400) (g : AlarmRecord → AlarmRecord) : (s.updRecord r g).alarms = { s.alarms with records := updAt s.alarms.records r g } := rfl
@[simp] theorem State.updRecord_log (s : State) (r : Fin 400) (g : AlarmRecord → AlarmRecord) : (s.updRecord r g).log = s.log := rfl
@[simp] theorem State.updRecord_processor (s : State) (r : Fin 400) (g : AlarmRecord → AlarmRecord) : (s.updRecord r g).processor = s.processor := rfl
@[simp] theorem State.updRecord_freeCount (s : State) (r : Fin 400) (g : AlarmRecord → AlarmRecord) : (s.updRecord r g).freeCount = s.freeCount := rfl

@[simp] theorem State.trunkUnframed_pending (s : State) (n : Fin 4) : (s.trunkUnframed n).pending = s.pending := by simp only [State.trunkUnframed]
@[simp] theorem State.trunkUnframed_tables (s : State) (n : Fin 4) : (s.trunkUnframed n).tables = s.tables := by simp only [State.trunkUnframed]
@[simp] theorem State.trunkUnframed_programmes (s : State) (n : Fin 4) : (s.trunkUnframed n).programmes = s.programmes := by simp only [State.trunkUnframed]
@[simp] theorem State.trunkUnframed_store (s : State) (n : Fin 4) : (s.trunkUnframed n).store = s.store := by simp only [State.trunkUnframed]
@[simp] theorem State.trunkUnframed_time (s : State) (n : Fin 4) : (s.trunkUnframed n).time = s.time := by simp only [State.trunkUnframed]
@[simp] theorem State.trunkUnframed_inputs (s : State) (n : Fin 4) : (s.trunkUnframed n).inputs = s.inputs := by simp only [State.trunkUnframed]
@[simp] theorem State.trunkUnframed_outputs (s : State) (n : Fin 4) : (s.trunkUnframed n).outputs = s.outputs := by simp only [State.trunkUnframed]
@[simp] theorem State.trunkUnframed_alarms (s : State) (n : Fin 4) : (s.trunkUnframed n).alarms = s.alarms := by simp only [State.trunkUnframed]
@[simp] theorem State.trunkUnframed_log (s : State) (n : Fin 4) : (s.trunkUnframed n).log = s.log := by simp only [State.trunkUnframed]
@[simp] theorem State.trunkUnframed_processor (s : State) (n : Fin 4) : (s.trunkUnframed n).processor = s.processor := by simp only [State.trunkUnframed]
@[simp] theorem State.trunkUnframed_freeCount (s : State) (n : Fin 4) : (s.trunkUnframed n).freeCount = s.freeCount := by simp only [State.trunkUnframed]

@[simp] theorem State.pushReport_pending (s : State) (r : Report) : (s.pushReport r).pending = s.pending := rfl
@[simp] theorem State.pushReport_feeds (s : State) (r : Report) : (s.pushReport r).feeds = s.feeds := rfl
@[simp] theorem State.pushReport_tables (s : State) (r : Report) : (s.pushReport r).tables = s.tables := rfl
@[simp] theorem State.pushReport_programmes (s : State) (r : Report) : (s.pushReport r).programmes = s.programmes := rfl
@[simp] theorem State.pushReport_store (s : State) (r : Report) : (s.pushReport r).store = s.store := rfl
@[simp] theorem State.pushReport_time (s : State) (r : Report) : (s.pushReport r).time = s.time := rfl
@[simp] theorem State.pushReport_inputs (s : State) (r : Report) : (s.pushReport r).inputs = s.inputs := rfl
@[simp] theorem State.pushReport_outputs (s : State) (r : Report) : (s.pushReport r).outputs = s.outputs := rfl
@[simp] theorem State.pushReport_alarms (s : State) (r : Report) : (s.pushReport r).alarms = s.alarms := rfl
@[simp] theorem State.pushReport_log (s : State) (r : Report) : (s.pushReport r).log = s.log := rfl
@[simp] theorem State.pushReport_processor (s : State) (r : Report) : (s.pushReport r).processor = { s.processor with reports := s.processor.reports ++ [r] } := rfl
@[simp] theorem State.pushReport_freeCount (s : State) (r : Report) : (s.pushReport r).freeCount = s.freeCount := rfl

@[simp] theorem State.setCommands_pending (s : State) (bs : List ControlBurst) : (s.setCommands bs).pending = s.pending := rfl
@[simp] theorem State.setCommands_feeds (s : State) (bs : List ControlBurst) : (s.setCommands bs).feeds = s.feeds := rfl
@[simp] theorem State.setCommands_tables (s : State) (bs : List ControlBurst) : (s.setCommands bs).tables = s.tables := rfl
@[simp] theorem State.setCommands_programmes (s : State) (bs : List ControlBurst) : (s.setCommands bs).programmes = s.programmes := rfl
@[simp] theorem State.setCommands_store (s : State) (bs : List ControlBurst) : (s.setCommands bs).store = s.store := rfl
@[simp] theorem State.setCommands_time (s : State) (bs : List ControlBurst) : (s.setCommands bs).time = s.time := rfl
@[simp] theorem State.setCommands_inputs (s : State) (bs : List ControlBurst) : (s.setCommands bs).inputs = s.inputs := rfl
@[simp] theorem State.setCommands_outputs (s : State) (bs : List ControlBurst) : (s.setCommands bs).outputs = s.outputs := rfl
@[simp] theorem State.setCommands_alarms (s : State) (bs : List ControlBurst) : (s.setCommands bs).alarms = s.alarms := rfl
@[simp] theorem State.setCommands_log (s : State) (bs : List ControlBurst) : (s.setCommands bs).log = s.log := rfl
@[simp] theorem State.setCommands_processor (s : State) (bs : List ControlBurst) : (s.setCommands bs).processor = { s.processor with commands := bs } := rfl
@[simp] theorem State.setCommands_freeCount (s : State) (bs : List ControlBurst) : (s.setCommands bs).freeCount = s.freeCount := rfl

@[simp] theorem State.setTransfer_pending (s : State) (t : Transfer) : (s.setTransfer t).pending = s.pending := rfl
@[simp] theorem State.setTransfer_feeds (s : State) (t : Transfer) : (s.setTransfer t).feeds = s.feeds := rfl
@[simp] theorem State.setTransfer_tables (s : State) (t : Transfer) : (s.setTransfer t).tables = s.tables := rfl
@[simp] theorem State.setTransfer_programmes (s : State) (t : Transfer) : (s.setTransfer t).programmes = s.programmes := rfl
@[simp] theorem State.setTransfer_store (s : State) (t : Transfer) : (s.setTransfer t).store = s.store := rfl
@[simp] theorem State.setTransfer_time (s : State) (t : Transfer) : (s.setTransfer t).time = s.time := rfl
@[simp] theorem State.setTransfer_inputs (s : State) (t : Transfer) : (s.setTransfer t).inputs = s.inputs := rfl
@[simp] theorem State.setTransfer_outputs (s : State) (t : Transfer) : (s.setTransfer t).outputs = s.outputs := rfl
@[simp] theorem State.setTransfer_alarms (s : State) (t : Transfer) : (s.setTransfer t).alarms = s.alarms := rfl
@[simp] theorem State.setTransfer_log (s : State) (t : Transfer) : (s.setTransfer t).log = { s.log with transfer := t } := rfl
@[simp] theorem State.setTransfer_processor (s : State) (t : Transfer) : (s.setTransfer t).processor = s.processor := rfl
@[simp] theorem State.setTransfer_freeCount (s : State) (t : Transfer) : (s.setTransfer t).freeCount = s.freeCount := rfl

@[simp] theorem State.formLines_pending (s : State) : (s.formLines).pending = s.pending := rfl
@[simp] theorem State.formLines_feeds (s : State) : (s.formLines).feeds = s.feeds := rfl
@[simp] theorem State.formLines_tables (s : State) : (s.formLines).tables = s.tables := rfl
@[simp] theorem State.formLines_programmes (s : State) : (s.formLines).programmes = s.programmes := rfl
@[simp] theorem State.formLines_store (s : State) : (s.formLines).store = s.store := rfl
@[simp] theorem State.formLines_time (s : State) : (s.formLines).time = s.time := rfl
@[simp] theorem State.formLines_inputs (s : State) : (s.formLines).inputs = s.inputs := rfl
@[simp] theorem State.formLines_outputs (s : State) : (s.formLines).outputs = s.outputs := rfl
@[simp] theorem State.formLines_alarms (s : State) : (s.formLines).alarms = s.alarms.formLines := rfl
@[simp] theorem State.formLines_log (s : State) : (s.formLines).log = s.log := rfl
@[simp] theorem State.formLines_processor (s : State) : (s.formLines).processor = s.processor := rfl
@[simp] theorem State.formLines_freeCount (s : State) : (s.formLines).freeCount = s.freeCount := rfl

@[simp] theorem State.clearOverruns_pending (s : State) : (s.clearOverruns).pending = s.pending := rfl
@[simp] theorem State.clearOverruns_feeds (s : State) : (s.clearOverruns).feeds = s.feeds := rfl
@[simp] theorem State.clearOverruns_tables (s : State) : (s.clearOverruns).tables = s.tables := rfl
@[simp] theorem State.clearOverruns_programmes (s : State) : (s.clearOverruns).programmes = s.programmes := rfl
@[simp] theorem State.clearOverruns_store (s : State) : (s.clearOverruns).store = s.store := rfl
@[simp] theorem State.clearOverruns_time (s : State) : (s.clearOverruns).time = s.time := rfl
@[simp] theorem State.clearOverruns_inputs (s : State) : (s.clearOverruns).inputs = s.inputs := rfl
@[simp] theorem State.clearOverruns_outputs (s : State) : (s.clearOverruns).outputs = s.outputs := rfl
@[simp] theorem State.clearOverruns_alarms (s : State) : (s.clearOverruns).alarms = { s.alarms with commandOverrun := false, logOverrun := false } := rfl
@[simp] theorem State.clearOverruns_log (s : State) : (s.clearOverruns).log = s.log := rfl
@[simp] theorem State.clearOverruns_processor (s : State) : (s.clearOverruns).processor = s.processor := rfl
@[simp] theorem State.clearOverruns_freeCount (s : State) : (s.clearOverruns).freeCount = s.freeCount := rfl

@[simp] theorem State.forceAll_pending (s : State) : (s.forceAll).pending = s.pending := by simp only [State.forceAll]
@[simp] theorem State.forceAll_feeds (s : State) : (s.forceAll).feeds = s.feeds := by simp only [State.forceAll]
@[simp] theorem State.forceAll_tables (s : State) : (s.forceAll).tables = s.tables := by simp only [State.forceAll]
@[simp] theorem State.forceAll_programmes (s : State) : (s.forceAll).programmes = s.programmes := by simp only [State.forceAll]
@[simp] theorem State.forceAll_store (s : State) : (s.forceAll).store = s.store := by simp only [State.forceAll]
@[simp] theorem State.forceAll_time (s : State) : (s.forceAll).time = s.time := by simp only [State.forceAll]
@[simp] theorem State.forceAll_inputs (s : State) : (s.forceAll).inputs = s.inputs := by simp only [State.forceAll]
@[simp] theorem State.forceAll_outputs (s : State) : (s.forceAll).outputs = s.outputs := by simp only [State.forceAll]
@[simp] theorem State.forceAll_log (s : State) : (s.forceAll).log = s.log := by simp only [State.forceAll]
@[simp] theorem State.forceAll_processor (s : State) : (s.forceAll).processor = s.processor := by simp only [State.forceAll]
@[simp] theorem State.forceAll_freeCount (s : State) : (s.forceAll).freeCount = s.freeCount := by simp only [State.forceAll]

@[simp] theorem State.forceKind_pending (s : State) (k : Fin 18) : (s.forceKind k).pending = s.pending := by simp only [State.forceKind]
@[simp] theorem State.forceKind_feeds (s : State) (k : Fin 18) : (s.forceKind k).feeds = s.feeds := by simp only [State.forceKind]
@[simp] theorem State.forceKind_tables (s : State) (k : Fin 18) : (s.forceKind k).tables = s.tables := by simp only [State.forceKind]
@[simp] theorem State.forceKind_programmes (s : State) (k : Fin 18) : (s.forceKind k).programmes = s.programmes := by simp only [State.forceKind]
@[simp] theorem State.forceKind_store (s : State) (k : Fin 18) : (s.forceKind k).store = s.store := by simp only [State.forceKind]
@[simp] theorem State.forceKind_time (s : State) (k : Fin 18) : (s.forceKind k).time = s.time := by simp only [State.forceKind]
@[simp] theorem State.forceKind_inputs (s : State) (k : Fin 18) : (s.forceKind k).inputs = s.inputs := by simp only [State.forceKind]
@[simp] theorem State.forceKind_outputs (s : State) (k : Fin 18) : (s.forceKind k).outputs = s.outputs := by simp only [State.forceKind]
@[simp] theorem State.forceKind_log (s : State) (k : Fin 18) : (s.forceKind k).log = s.log := by simp only [State.forceKind]
@[simp] theorem State.forceKind_processor (s : State) (k : Fin 18) : (s.forceKind k).processor = s.processor := by simp only [State.forceKind]
@[simp] theorem State.forceKind_freeCount (s : State) (k : Fin 18) : (s.forceKind k).freeCount = s.freeCount := by simp only [State.forceKind]

@[simp] theorem State.writePolicy_pending (s : State) (k : Fin 18) (field v : Nat) : (s.writePolicy k field v).pending = s.pending := rfl
@[simp] theorem State.writePolicy_feeds (s : State) (k : Fin 18) (field v : Nat) : (s.writePolicy k field v).feeds = s.feeds := rfl
@[simp] theorem State.writePolicy_tables (s : State) (k : Fin 18) (field v : Nat) : (s.writePolicy k field v).tables = s.tables := rfl
@[simp] theorem State.writePolicy_programmes (s : State) (k : Fin 18) (field v : Nat) : (s.writePolicy k field v).programmes = s.programmes := rfl
@[simp] theorem State.writePolicy_store (s : State) (k : Fin 18) (field v : Nat) : (s.writePolicy k field v).store = s.store := rfl
@[simp] theorem State.writePolicy_time (s : State) (k : Fin 18) (field v : Nat) : (s.writePolicy k field v).time = s.time := rfl
@[simp] theorem State.writePolicy_inputs (s : State) (k : Fin 18) (field v : Nat) : (s.writePolicy k field v).inputs = s.inputs := rfl
@[simp] theorem State.writePolicy_outputs (s : State) (k : Fin 18) (field v : Nat) : (s.writePolicy k field v).outputs = s.outputs := rfl
@[simp] theorem State.writePolicy_log (s : State) (k : Fin 18) (field v : Nat) : (s.writePolicy k field v).log = s.log := rfl
@[simp] theorem State.writePolicy_processor (s : State) (k : Fin 18) (field v : Nat) : (s.writePolicy k field v).processor = s.processor := rfl
@[simp] theorem State.writePolicy_freeCount (s : State) (k : Fin 18) (field v : Nat) : (s.writePolicy k field v).freeCount = s.freeCount := rfl

@[simp] theorem State.takeHold_pending (s : State) (o : Byte) (cls : RightClass) (p : Fin 16) : (s.takeHold o cls p).pending = s.pending := rfl
@[simp] theorem State.takeHold_feeds (s : State) (o : Byte) (cls : RightClass) (p : Fin 16) : (s.takeHold o cls p).feeds = s.feeds := rfl
@[simp] theorem State.takeHold_tables (s : State) (o : Byte) (cls : RightClass) (p : Fin 16) : (s.takeHold o cls p).tables = s.tables := rfl
@[simp] theorem State.takeHold_store (s : State) (o : Byte) (cls : RightClass) (p : Fin 16) : (s.takeHold o cls p).store = s.store := rfl
@[simp] theorem State.takeHold_time (s : State) (o : Byte) (cls : RightClass) (p : Fin 16) : (s.takeHold o cls p).time = s.time := rfl
@[simp] theorem State.takeHold_inputs (s : State) (o : Byte) (cls : RightClass) (p : Fin 16) : (s.takeHold o cls p).inputs = s.inputs := rfl
@[simp] theorem State.takeHold_outputs (s : State) (o : Byte) (cls : RightClass) (p : Fin 16) : (s.takeHold o cls p).outputs = s.outputs := rfl
@[simp] theorem State.takeHold_alarms (s : State) (o : Byte) (cls : RightClass) (p : Fin 16) : (s.takeHold o cls p).alarms = s.alarms := rfl
@[simp] theorem State.takeHold_log (s : State) (o : Byte) (cls : RightClass) (p : Fin 16) : (s.takeHold o cls p).log = s.log := rfl
@[simp] theorem State.takeHold_processor (s : State) (o : Byte) (cls : RightClass) (p : Fin 16) : (s.takeHold o cls p).processor = s.processor := rfl
@[simp] theorem State.takeHold_freeCount (s : State) (o : Byte) (cls : RightClass) (p : Fin 16) : (s.takeHold o cls p).freeCount = s.freeCount := rfl

@[simp] theorem State.timeJump_pending (s : State) : (s.timeJump).pending = s.pending := by simp only [State.timeJump]
@[simp] theorem State.timeJump_tables (s : State) : (s.timeJump).tables = s.tables := by simp only [State.timeJump]
@[simp] theorem State.timeJump_store (s : State) : (s.timeJump).store = s.store := by simp only [State.timeJump]
@[simp] theorem State.timeJump_time (s : State) : (s.timeJump).time = s.time := by simp only [State.timeJump]
@[simp] theorem State.timeJump_inputs (s : State) : (s.timeJump).inputs = s.inputs := by simp only [State.timeJump]
@[simp] theorem State.timeJump_outputs (s : State) : (s.timeJump).outputs = s.outputs := by simp only [State.timeJump]
@[simp] theorem State.timeJump_alarms (s : State) : (s.timeJump).alarms = s.alarms := by simp only [State.timeJump]
@[simp] theorem State.timeJump_log (s : State) : (s.timeJump).log = s.log := by simp only [State.timeJump]
@[simp] theorem State.timeJump_processor (s : State) : (s.timeJump).processor = s.processor := by simp only [State.timeJump]
@[simp] theorem State.timeJump_freeCount (s : State) : (s.timeJump).freeCount = s.freeCount := by simp only [State.timeJump]

@[simp] theorem State.logDiscard_pending (s : State) : (s.logDiscard).pending = s.pending := rfl
@[simp] theorem State.logDiscard_feeds (s : State) : (s.logDiscard).feeds = s.feeds := rfl
@[simp] theorem State.logDiscard_tables (s : State) : (s.logDiscard).tables = s.tables := rfl
@[simp] theorem State.logDiscard_programmes (s : State) : (s.logDiscard).programmes = s.programmes := rfl
@[simp] theorem State.logDiscard_store (s : State) : (s.logDiscard).store = s.store := rfl
@[simp] theorem State.logDiscard_time (s : State) : (s.logDiscard).time = s.time := rfl
@[simp] theorem State.logDiscard_inputs (s : State) : (s.logDiscard).inputs = s.inputs := rfl
@[simp] theorem State.logDiscard_outputs (s : State) : (s.logDiscard).outputs = s.outputs := rfl
@[simp] theorem State.logDiscard_processor (s : State) : (s.logDiscard).processor = s.processor := rfl
@[simp] theorem State.logDiscard_freeCount (s : State) : (s.logDiscard).freeCount = s.freeCount := rfl

@[simp] theorem State.transferStep_pending (s : State) : (s.transferStep).pending = s.pending := rfl
@[simp] theorem State.transferStep_feeds (s : State) : (s.transferStep).feeds = s.feeds := rfl
@[simp] theorem State.transferStep_tables (s : State) : (s.transferStep).tables = s.tables := rfl
@[simp] theorem State.transferStep_programmes (s : State) : (s.transferStep).programmes = s.programmes := rfl
@[simp] theorem State.transferStep_store (s : State) : (s.transferStep).store = s.store := rfl
@[simp] theorem State.transferStep_time (s : State) : (s.transferStep).time = s.time := rfl
@[simp] theorem State.transferStep_inputs (s : State) : (s.transferStep).inputs = s.inputs := rfl
@[simp] theorem State.transferStep_outputs (s : State) : (s.transferStep).outputs = s.outputs := rfl
@[simp] theorem State.transferStep_alarms (s : State) : (s.transferStep).alarms = s.alarms := rfl
@[simp] theorem State.transferStep_freeCount (s : State) : (s.transferStep).freeCount = s.freeCount := rfl

@[simp] theorem State.ready_pending (s : State) : (s.ready).pending = s.pending := rfl
@[simp] theorem State.ready_feeds (s : State) : (s.ready).feeds = s.feeds := rfl
@[simp] theorem State.ready_tables (s : State) : (s.ready).tables = s.tables := rfl
@[simp] theorem State.ready_programmes (s : State) : (s.ready).programmes = s.programmes := rfl
@[simp] theorem State.ready_store (s : State) : (s.ready).store = s.store := rfl
@[simp] theorem State.ready_time (s : State) : (s.ready).time = s.time := rfl
@[simp] theorem State.ready_inputs (s : State) : (s.ready).inputs = s.inputs := rfl
@[simp] theorem State.ready_outputs (s : State) : (s.ready).outputs = s.outputs := rfl
@[simp] theorem State.ready_alarms (s : State) : (s.ready).alarms = s.alarms := rfl
@[simp] theorem State.ready_log (s : State) : (s.ready).log = s.log := rfl
@[simp] theorem State.ready_processor (s : State) : (s.ready).processor = { s.processor with state := .ready } := rfl
@[simp] theorem State.ready_freeCount (s : State) : (s.ready).freeCount = s.freeCount := rfl

@[simp] theorem State.emptyQueues_pending (s : State) : (s.emptyQueues).pending = s.pending := by simp only [State.emptyQueues]
@[simp] theorem State.emptyQueues_feeds (s : State) : (s.emptyQueues).feeds = s.feeds := by simp only [State.emptyQueues]
@[simp] theorem State.emptyQueues_tables (s : State) : (s.emptyQueues).tables = s.tables := by simp only [State.emptyQueues]
@[simp] theorem State.emptyQueues_programmes (s : State) : (s.emptyQueues).programmes = s.programmes := by simp only [State.emptyQueues]
@[simp] theorem State.emptyQueues_store (s : State) : (s.emptyQueues).store = s.store := by simp only [State.emptyQueues]
@[simp] theorem State.emptyQueues_time (s : State) : (s.emptyQueues).time = s.time := by simp only [State.emptyQueues]
@[simp] theorem State.emptyQueues_inputs (s : State) : (s.emptyQueues).inputs = s.inputs := by simp only [State.emptyQueues]
@[simp] theorem State.emptyQueues_alarms (s : State) : (s.emptyQueues).alarms = s.alarms := by simp only [State.emptyQueues]
@[simp] theorem State.emptyQueues_log (s : State) : (s.emptyQueues).log = s.log := by simp only [State.emptyQueues]
@[simp] theorem State.emptyQueues_processor (s : State) : (s.emptyQueues).processor = { s.processor with commands := [], reports := [] } := by simp only [State.emptyQueues]
@[simp] theorem State.emptyQueues_freeCount (s : State) : (s.emptyQueues).freeCount = s.freeCount := by simp only [State.emptyQueues]

@[simp] theorem State.releaseAll_pending (s : State) : (s.releaseAll).pending = s.pending := by simp only [State.releaseAll]
@[simp] theorem State.releaseAll_tables (s : State) : (s.releaseAll).tables = s.tables := by simp only [State.releaseAll]
@[simp] theorem State.releaseAll_store (s : State) : (s.releaseAll).store = { s.store with freeList := freshPages s.store.retired } := by simp only [State.releaseAll]
@[simp] theorem State.releaseAll_time (s : State) : (s.releaseAll).time = s.time := by simp only [State.releaseAll]
@[simp] theorem State.releaseAll_inputs (s : State) : (s.releaseAll).inputs = s.inputs := by simp only [State.releaseAll]
@[simp] theorem State.releaseAll_outputs (s : State) : (s.releaseAll).outputs = s.outputs := by simp only [State.releaseAll]
@[simp] theorem State.releaseAll_alarms (s : State) : (s.releaseAll).alarms = s.alarms := by simp only [State.releaseAll]
@[simp] theorem State.releaseAll_log (s : State) : (s.releaseAll).log = s.log := by simp only [State.releaseAll]
@[simp] theorem State.releaseAll_processor (s : State) : (s.releaseAll).processor = s.processor := by simp only [State.releaseAll]
@[simp] theorem State.releaseAll_freeCount (s : State) : (s.releaseAll).freeCount = s.freeCount := by simp only [State.releaseAll]

@[simp] theorem State.fireTakes_pending (s : State) : (s.fireTakes).pending = s.pending := by simp only [State.fireTakes]
@[simp] theorem State.fireTakes_feeds (s : State) : (s.fireTakes).feeds = s.feeds := by simp only [State.fireTakes]
@[simp] theorem State.fireTakes_tables (s : State) : (s.fireTakes).tables = s.tables := by simp only [State.fireTakes]
@[simp] theorem State.fireTakes_store (s : State) : (s.fireTakes).store = s.store := by simp only [State.fireTakes]
@[simp] theorem State.fireTakes_time (s : State) : (s.fireTakes).time = s.time := by simp only [State.fireTakes]
@[simp] theorem State.fireTakes_inputs (s : State) : (s.fireTakes).inputs = s.inputs := by simp only [State.fireTakes]
@[simp] theorem State.fireTakes_outputs (s : State) : (s.fireTakes).outputs = s.outputs := by simp only [State.fireTakes]
@[simp] theorem State.fireTakes_alarms (s : State) : (s.fireTakes).alarms = s.alarms := by simp only [State.fireTakes]
@[simp] theorem State.fireTakes_log (s : State) : (s.fireTakes).log = s.log := by simp only [State.fireTakes]
@[simp] theorem State.fireTakes_processor (s : State) : (s.fireTakes).processor = s.processor := by simp only [State.fireTakes]
@[simp] theorem State.fireTakes_freeCount (s : State) : (s.fireTakes).freeCount = s.freeCount := by simp only [State.fireTakes]

@[simp] theorem State.convertFeeds_pending (s : State) : (s.convertFeeds).pending = s.pending := by simp only [State.convertFeeds]
@[simp] theorem State.convertFeeds_tables (s : State) : (s.convertFeeds).tables = s.tables := by simp only [State.convertFeeds]
@[simp] theorem State.convertFeeds_store (s : State) : (s.convertFeeds).store = s.store := by simp only [State.convertFeeds]
@[simp] theorem State.convertFeeds_time (s : State) : (s.convertFeeds).time = s.time := by simp only [State.convertFeeds]
@[simp] theorem State.convertFeeds_inputs (s : State) : (s.convertFeeds).inputs = s.inputs := by simp only [State.convertFeeds]
@[simp] theorem State.convertFeeds_outputs (s : State) : (s.convertFeeds).outputs = s.outputs := by simp only [State.convertFeeds]
@[simp] theorem State.convertFeeds_alarms (s : State) : (s.convertFeeds).alarms = s.alarms := by simp only [State.convertFeeds]
@[simp] theorem State.convertFeeds_log (s : State) : (s.convertFeeds).log = s.log := by simp only [State.convertFeeds]
@[simp] theorem State.convertFeeds_processor (s : State) : (s.convertFeeds).processor = s.processor := by simp only [State.convertFeeds]
@[simp] theorem State.convertFeeds_freeCount (s : State) : (s.convertFeeds).freeCount = s.freeCount := by simp only [State.convertFeeds]

@[simp] theorem State.assembleOutputs_pending (s : State) : (s.assembleOutputs).pending = s.pending := by simp only [State.assembleOutputs]
@[simp] theorem State.assembleOutputs_feeds (s : State) : (s.assembleOutputs).feeds = s.feeds := by simp only [State.assembleOutputs]
@[simp] theorem State.assembleOutputs_tables (s : State) : (s.assembleOutputs).tables = s.tables := by simp only [State.assembleOutputs]
@[simp] theorem State.assembleOutputs_programmes (s : State) : (s.assembleOutputs).programmes = s.programmes := by simp only [State.assembleOutputs]
@[simp] theorem State.assembleOutputs_store (s : State) : (s.assembleOutputs).store = s.store := by simp only [State.assembleOutputs]
@[simp] theorem State.assembleOutputs_time (s : State) : (s.assembleOutputs).time = s.time := by simp only [State.assembleOutputs]
@[simp] theorem State.assembleOutputs_inputs (s : State) : (s.assembleOutputs).inputs = s.inputs := by simp only [State.assembleOutputs]
@[simp] theorem State.assembleOutputs_alarms (s : State) : (s.assembleOutputs).alarms = s.alarms := by simp only [State.assembleOutputs]
@[simp] theorem State.assembleOutputs_log (s : State) : (s.assembleOutputs).log = s.log := by simp only [State.assembleOutputs]
@[simp] theorem State.assembleOutputs_processor (s : State) : (s.assembleOutputs).processor = s.processor := by simp only [State.assembleOutputs]
@[simp] theorem State.assembleOutputs_freeCount (s : State) : (s.assembleOutputs).freeCount = s.freeCount := by simp only [State.assembleOutputs]

@[simp] theorem State.servo_pending (s : State) : (s.servo).pending = s.pending := by simp only [State.servo]
@[simp] theorem State.servo_tables (s : State) : (s.servo).tables = s.tables := by simp only [State.servo]
@[simp] theorem State.servo_programmes (s : State) : (s.servo).programmes = s.programmes := by simp only [State.servo]
@[simp] theorem State.servo_store (s : State) : (s.servo).store = s.store := by simp only [State.servo]
@[simp] theorem State.servo_time (s : State) : (s.servo).time = { s.time with servoDue := false } := by simp only [State.servo]
@[simp] theorem State.servo_inputs (s : State) : (s.servo).inputs = s.inputs := by simp only [State.servo]
@[simp] theorem State.servo_outputs (s : State) : (s.servo).outputs = s.outputs := by simp only [State.servo]
@[simp] theorem State.servo_alarms (s : State) : (s.servo).alarms = s.alarms := by simp only [State.servo]
@[simp] theorem State.servo_log (s : State) : (s.servo).log = s.log := by simp only [State.servo]
@[simp] theorem State.servo_processor (s : State) : (s.servo).processor = s.processor := by simp only [State.servo]
@[simp] theorem State.servo_freeCount (s : State) : (s.servo).freeCount = s.freeCount := by simp only [State.servo]

@[simp] theorem State.formSlices_pending (s : State) : (s.formSlices).pending = s.pending := by simp only [State.formSlices]
@[simp] theorem State.formSlices_tables (s : State) : (s.formSlices).tables = s.tables := by simp only [State.formSlices]
@[simp] theorem State.formSlices_store (s : State) : (s.formSlices).store = s.store := by simp only [State.formSlices]
@[simp] theorem State.formSlices_time (s : State) : (s.formSlices).time = s.time := by simp only [State.formSlices]
@[simp] theorem State.formSlices_inputs (s : State) : (s.formSlices).inputs = s.inputs := by simp only [State.formSlices]
@[simp] theorem State.formSlices_outputs (s : State) : (s.formSlices).outputs = s.outputs := by simp only [State.formSlices]
@[simp] theorem State.formSlices_alarms (s : State) : (s.formSlices).alarms = s.alarms := by simp only [State.formSlices]
@[simp] theorem State.formSlices_log (s : State) : (s.formSlices).log = s.log := by simp only [State.formSlices]
@[simp] theorem State.formSlices_processor (s : State) : (s.formSlices).processor = s.processor := by simp only [State.formSlices]
@[simp] theorem State.formSlices_freeCount (s : State) : (s.formSlices).freeCount = s.freeCount := by simp only [State.formSlices]

@[simp] theorem State.withPending_pending (s : State) (q : List Instr) : (s.withPending q).pending = q := rfl
@[simp] theorem State.withPending_feeds (s : State) (q : List Instr) : (s.withPending q).feeds = s.feeds := rfl
@[simp] theorem State.withPending_tables (s : State) (q : List Instr) : (s.withPending q).tables = s.tables := rfl
@[simp] theorem State.withPending_programmes (s : State) (q : List Instr) : (s.withPending q).programmes = s.programmes := rfl
@[simp] theorem State.withPending_store (s : State) (q : List Instr) : (s.withPending q).store = s.store := rfl
@[simp] theorem State.withPending_time (s : State) (q : List Instr) : (s.withPending q).time = s.time := rfl
@[simp] theorem State.withPending_inputs (s : State) (q : List Instr) : (s.withPending q).inputs = s.inputs := rfl
@[simp] theorem State.withPending_outputs (s : State) (q : List Instr) : (s.withPending q).outputs = s.outputs := rfl
@[simp] theorem State.withPending_alarms (s : State) (q : List Instr) : (s.withPending q).alarms = s.alarms := rfl
@[simp] theorem State.withPending_log (s : State) (q : List Instr) : (s.withPending q).log = s.log := rfl
@[simp] theorem State.withPending_processor (s : State) (q : List Instr) : (s.withPending q).processor = s.processor := rfl
@[simp] theorem State.withPending_freeCount (s : State) (q : List Instr) : (s.withPending q).freeCount = s.freeCount := rfl

end Sys2Proof.Machine
end

