-- ==== Sys2Proof/Laws/Commands.lean ====
section
/-! SUPPORT. What every command leaves alone while it is judged and carried out, before its REPLY enters (R168). -/

namespace Sys2Proof.Machine

/-- What no command touches at all: the queue of waiting commands, the report queue and the command queue, and the memory of the delay
store. -/
structure SameQueues (s t : State) : Prop where
  pending  : t.pending = s.pending
  reports  : t.processor.reports = s.processor.reports
  commands : t.processor.commands = s.processor.commands
  memory   : t.store.memory = s.store.memory
  houseTime : t.time.houseTime = s.time.houseTime

theorem SameQueues.refl (s : State) : SameQueues s s := ⟨rfl, rfl, rfl, rfl, rfl⟩

theorem SameQueues.trans {s t u : State} (h : SameQueues s t) (k : SameQueues t u) : SameQueues s u :=
  ⟨k.pending.trans h.pending, k.reports.trans h.reports, k.commands.trans h.commands, k.memory.trans h.memory,
    k.houseTime.trans h.houseTime⟩

theorem SameQueues.updProgramme (s : State) (p : Fin 16) (g : Programme → Programme) : SameQueues s (s.updProgramme p g) :=
  ⟨rfl, rfl, rfl, rfl, rfl⟩

theorem SameQueues.takeHold (s : State) (o : Byte) (cls : RightClass) (p : Fin 16) : SameQueues s (s.takeHold o cls p) :=
  ⟨rfl, rfl, rfl, rfl, rfl⟩

theorem SameQueues.afterReceiver {s t : State} (n : Fin 4) (h : SameQueues s t) : SameQueues s (t.afterReceiver s n) := by
  unfold State.afterReceiver
  split
  · exact ⟨by simp [h.pending], by simp [h.reports], by simp [h.commands], by simp [h.memory], by simp [h.houseTime]⟩
  · exact h

theorem setFeed_same (o object field : Byte) (value : Word32) (s : State) : SameQueues s (setFeed o object field value s).state := by
  unfold setFeed refuse
  repeat' split
  all_goals exact ⟨rfl, rfl, rfl, rfl, rfl⟩

theorem writeProgramme_same (o : Byte) (cls : RightClass) (field v : Nat) (p : Fin 16) (s : State) :
    SameQueues s (s.writeProgramme o cls field v p).state := by
  unfold State.writeProgramme
  repeat' split
  all_goals exact ⟨rfl, rfl, rfl, rfl, rfl⟩

theorem setProgramme_same (o object field : Byte) (value : Word32) (s : State) :
    SameQueues s (setProgramme o object field value s).state := by
  unfold setProgramme refuse
  repeat' split
  all_goals first | exact SameQueues.refl s | (dsimp only; split; all_goals first | exact SameQueues.refl s | exact writeProgramme_same ..)

theorem setMap_same (o object field : Byte) (value : Word32) (s : State) : SameQueues s (setMap o object field value s).state := by
  unfold setMap refuse
  repeat' split
  all_goals exact ⟨rfl, rfl, rfl, rfl, rfl⟩

theorem setTrunk_same (o object field : Byte) (value : Word32) (s : State) : SameQueues s (setTrunk o object field value s).state := by
  unfold setTrunk refuse
  repeat' split
  all_goals first | exact SameQueues.refl s | exact SameQueues.afterReceiver _ ⟨rfl, rfl, rfl, rfl, rfl⟩

theorem setPolicy_same (o object field : Byte) (value : Word32) (s : State) : SameQueues s (setPolicy o object field value s).state := by
  unfold setPolicy refuse
  repeat' split
  all_goals first | (dsimp only; constructor <;> simp) | exact SameQueues.refl s

theorem setOriginator_same (o object field : Byte) (value : Word32) (s : State) :
    SameQueues s (setOriginator o object field value s).state := by
  unfold setOriginator refuse
  repeat' split
  all_goals exact ⟨rfl, rfl, rfl, rfl, rfl⟩

theorem setPart_same (o object field : Byte) (value : Word32) (s : State) : SameQueues s (setPart o object field value s).state := by
  unfold setPart refuse accept
  repeat' split
  all_goals exact ⟨rfl, rfl, rfl, rfl, rfl⟩

theorem judgeSet_same (o target object field : Byte) (value : Word32) (s : State) :
    SameQueues s (judgeSet o target object field value s).state := by
  unfold judgeSet
  split
  · exact setFeed_same ..
  · exact setProgramme_same ..
  · exact setMap_same ..
  · exact setTrunk_same ..
  · exact setPolicy_same ..
  · exact setOriginator_same ..
  · exact setPart_same ..
  · exact SameQueues.refl s

theorem judgeEach_same {one : State → Fin 16 → State × CommandResult} (h : ∀ s p, SameQueues s (one s p).1) (ps : List (Fin 16))
    (s : State) (g : GroupTally) : SameQueues s (judgeEach one ps s g).1 := by
  induction ps generalizing s g with
  | nil => exact SameQueues.refl s
  | cons p ps ih => exact (h s p).trans (ih _ _)

theorem groupReply_same (s : State) (g : GroupTally) (whole : Option CommandResult) : SameQueues s (groupReply s g whole).state := by
  unfold groupReply
  cases g.first <;> exact ⟨rfl, rfl, rfl, rfl, rfl⟩

theorem judgeGroup_same {one : State → Fin 16 → State × CommandResult} (h : ∀ s p, SameQueues s (one s p).1) (selection : BitVec 16)
    (s : State) : SameQueues s (judgeGroup selection one s).state :=
  (judgeEach_same h _ _ _).trans (groupReply_same ..)

theorem judgeChoice_same {one : State → Fin 16 → State × CommandResult} (h : ∀ s p, SameQueues s (one s p).1) (o : Byte) (cls : RightClass)
    (choice : ProgrammeChoice) (s : State) : SameQueues s (judgeChoice o cls choice one s).state := by
  unfold judgeChoice refuse
  split
  · repeat' split
    all_goals first | exact SameQueues.refl s | exact h ..
  · exact judgeGroup_same h _ s

theorem cancelTake_same (o : Byte) (s : State) (p : Fin 16) : SameQueues s (cancelTake o s p).1 := by
  unfold cancelTake
  repeat' split
  all_goals exact ⟨rfl, rfl, rfl, rfl, rfl⟩

theorem restartMeter_same (o : Byte) (s : State) (p : Fin 16) : SameQueues s (restartMeter o s p).1 := by
  unfold restartMeter
  split
  all_goals exact ⟨rfl, rfl, rfl, rfl, rfl⟩

theorem State.timeJump_same (s : State) : SameQueues s s.timeJump := ⟨by simp, by simp, by simp, by simp, by simp⟩

theorem acknowledgeAll_same (s : State) (rs : List (Fin 400)) : SameQueues s (s.acknowledgeAll rs) := by
  have h : ∀ (rs : List (Fin 400)) (s : State), SameQueues s (rs.foldl (fun t r => t.updRecord r AlarmRecord.acknowledge) s) := by
    intro rs
    induction rs with
    | nil => exact SameQueues.refl
    | cons r rs ih => intro s; exact SameQueues.trans (by constructor <;> simp) (ih (s.updRecord r AlarmRecord.acknowledge))
  exact (h rs s).trans (by unfold State.acknowledgeAll; constructor <;> simp)

theorem judgeGroupSet_same (o : Byte) (selection : BitVec 16) (field : Byte) (value : Word32) (s : State) :
    SameQueues s (judgeGroupSet o selection field value s).state := by
  unfold judgeGroupSet
  split
  · exact groupReply_same ..
  · split
    · exact groupReply_same ..
    · exact judgeGroup_same (fun t p => writeProgramme_same ..) _ s

theorem judgeRead_same (group object start count : Nat) (s : State) : SameQueues s (judgeRead group object start count s).state := by
  unfold judgeRead refuse accept
  cases readsImmediate s group object
  all_goals
    dsimp only [Bool.false_eq_true, if_true, if_false]
    split <;> exact ⟨rfl, rfl, rfl, rfl, rfl⟩

theorem judgeLoad_same (o table : Byte) (start : BitVec 16) (codes : List Byte) (s : State) :
    SameQueues s (judgeLoad o table start codes s).state := by
  unfold judgeLoad refuse accept
  repeat' split
  all_goals first | exact ⟨rfl, rfl, rfl, rfl, rfl⟩ | (dsimp only; split <;> exact ⟨rfl, rfl, rfl, rfl, rfl⟩)

theorem judgeTake_same (o programme immediate : Byte) (time : Word32) (again : Byte) (layout : List PositionCode) (s : State) :
    SameQueues s (judgeTake o programme immediate time again layout s).state := by
  unfold judgeTake refuse accept
  repeat' split
  all_goals exact ⟨rfl, rfl, rfl, rfl, rfl⟩

theorem judgeAllocate_same (o programme : Byte) (frames : Word32) (s : State) :
    SameQueues s (judgeAllocate o programme frames s).state := by
  unfold judgeAllocate refuse
  repeat' split
  all_goals first | exact ⟨rfl, rfl, rfl, rfl, rfl⟩ | (dsimp only; repeat' split; all_goals exact ⟨rfl, rfl, rfl, rfl, rfl⟩)

theorem judgeRelease_same (o programme : Byte) (s : State) : SameQueues s (judgeRelease o programme s).state := by
  unfold judgeRelease refuse accept
  repeat' split
  all_goals first | exact ⟨rfl, rfl, rfl, rfl, rfl⟩ | (dsimp only; repeat' split; all_goals exact ⟨rfl, rfl, rfl, rfl, rfl⟩)

theorem judgeRetire_same (o : Byte) (page : BitVec 16) (s : State) : SameQueues s (judgeRetire o page s).state := by
  unfold judgeRetire refuse accept
  repeat' split
  all_goals exact ⟨rfl, rfl, rfl, rfl, rfl⟩

theorem judgeRestore_same (o : Byte) (page : BitVec 16) (s : State) : SameQueues s (judgeRestore o page s).state := by
  unfold judgeRestore refuse accept
  repeat' split
  all_goals exact ⟨rfl, rfl, rfl, rfl, rfl⟩

theorem judgeReadFault_same (o : Byte) (s : State) : SameQueues s (judgeReadFault o s).state := by
  unfold judgeReadFault refuse accept
  split <;> exact ⟨rfl, rfl, rfl, rfl, rfl⟩

theorem judgeTimeSet_same (o : Byte) (value : Word32) (s : State) : SameQueues s (judgeTimeSet o value s).state := by
  unfold judgeTimeSet refuse accept
  split
  · exact SameQueues.refl s
  · dsimp only; constructor <;> simp

theorem judgeTimeAdjust_same (o : Byte) (shift : Word32) (s : State) : SameQueues s (judgeTimeAdjust o shift s).state := by
  unfold judgeTimeAdjust refuse
  split
  · exact SameQueues.refl s
  · dsimp only; constructor <;> simp

theorem judgeAcknowledge_same (o : Byte) (choice : AcknowledgeChoice) (s : State) :
    SameQueues s (judgeAcknowledge o choice s).state := by
  unfold judgeAcknowledge
  split
  · unfold acknowledgeOne refuse
    repeat' split
    all_goals first | exact SameQueues.refl s | exact acknowledgeAll_same ..
  · unfold acknowledgeGroup
    split
    · exact judgeGroup_same (fun t _ => SameQueues.refl t) _ s
    · split
      · exact groupReply_same ..
      · exact (judgeGroup_same (fun t _ => SameQueues.refl t) _ s).trans (acknowledgeAll_same ..)

theorem judgeReleaseHold_same (o programme cls : Byte) (s : State) : SameQueues s (judgeReleaseHold o programme cls s).state := by
  unfold judgeReleaseHold refuse accept
  repeat' split
  all_goals exact ⟨rfl, rfl, rfl, rfl, rfl⟩

theorem judgeLogRead_same (o mode : Byte) (count : BitVec 16) (stop : Byte) (s : State) :
    SameQueues s (judgeLogRead o mode count stop s).state := by
  unfold judgeLogRead refuse
  repeat' split
  all_goals exact ⟨rfl, rfl, rfl, rfl, rfl⟩

theorem judgeLogCancel_same (o : Byte) (s : State) : SameQueues s (judgeLogCancel o s).state := by
  unfold judgeLogCancel refuse
  repeat' split
  all_goals exact ⟨rfl, rfl, rfl, rfl, rfl⟩

/-- No command, however it is judged, touches a queue or the memory of the delay store before its REPLY enters. -/
theorem judge_same (o : Byte) (c : Command) (s : State) : SameQueues s (judge o c s).state := by
  cases c with
  | set t ob f v => exact judgeSet_same ..
  | groupSet m f v => exact judgeGroupSet_same ..
  | read g ob a n => exact judgeRead_same ..
  | load t a cs => exact judgeLoad_same ..
  | take p i t r l => exact judgeTake_same ..
  | takeCancel c => exact judgeChoice_same (cancelTake_same o) ..
  | allocate p f => exact judgeAllocate_same ..
  | release p => exact judgeRelease_same ..
  | retire n => exact judgeRetire_same ..
  | restore n => exact judgeRestore_same ..
  | readFault => exact judgeReadFault_same ..
  | timeSet v => exact judgeTimeSet_same ..
  | timeAdjust v => exact judgeTimeAdjust_same ..
  | restartMeasurement c => exact judgeChoice_same (restartMeter_same o) ..
  | acknowledge c => exact judgeAcknowledge_same ..
  | releaseHold p c => exact judgeReleaseHold_same ..
  | logRead m n f => exact judgeLogRead_same ..
  | logCancel => exact judgeLogCancel_same ..
  | logStatus => exact ⟨rfl, rfl, rfl, rfl, rfl⟩
  | status => exact SameQueues.refl s
  | restart =>
    change SameQueues s (judgeRestart o s).state
    unfold judgeRestart refuse accept
    split <;> exact ⟨rfl, rfl, rfl, rfl, rfl⟩

/-- The judgement of any CONTROL burst's command touches no queue. -/
theorem judgeBurstCommand_same (b : ControlBurst) (s : State) : SameQueues s (judgeBurstCommand b s).state := by
  unfold judgeBurstCommand
  split
  · exact judge_same ..
  · exact SameQueues.refl s
  · exact SameQueues.refl s

end Sys2Proof.Machine
end

