-- ==== Sys2Proof/Laws/Frame.lean ====
section
/-! SUPPORT. What a house frame and a transfer step leave as they were, and the chain that transfer steps form. -/

namespace Sys2Proof.Machine

/-! ### The house frame (R62) -/

/-- What a house frame does not touch is the same in two states. -/
structure State.SameBeside (s t : State) : Prop where
  pending   : t.pending = s.pending
  tables    : t.tables = s.tables
  freeList  : t.store.freeList = s.store.freeList
  alarms    : t.alarms = s.alarms
  log       : t.log = s.log
  processor : t.processor = s.processor
  freeCount : t.freeCount = s.freeCount

/-- Two such states differ in the feeds, the programmes, time, the trunks and the store's memory, retire table and fault record alone. -/
theorem State.SameBeside.eq {s t : State} (h : s.SameBeside t) :
    t = { s with
      feeds := t.feeds, programmes := t.programmes, time := t.time, inputs := t.inputs, outputs := t.outputs
      store := { s.store with memory := t.store.memory, retired := t.store.retired, fault := t.store.fault } } := by
  obtain ⟨h1, h2, h3, h4, h5, h6, h7⟩ := h
  simp only [← h1, ← h2, ← h3, ← h4, ← h5, ← h6, ← h7]

theorem State.SameBeside.refl (s : State) : s.SameBeside s := ⟨rfl, rfl, rfl, rfl, rfl, rfl, rfl⟩

theorem State.SameBeside.trans {s t u : State} (a : s.SameBeside t) (b : t.SameBeside u) : s.SameBeside u :=
  ⟨b.1.trans a.1, b.2.trans a.2, b.3.trans a.3, b.4.trans a.4, b.5.trans a.5, b.6.trans a.6, b.7.trans a.7⟩

theorem State.SameBeside.foldl {α : Type} {g : State → α → State} (h : ∀ (s : State) (a : α), s.SameBeside (g s a)) (as : List α) (s : State) :
    s.SameBeside (as.foldl g s) := by
  induction as generalizing s with
  | nil => exact .refl s
  | cons a as ih => exact (h s a).trans (ih _)

theorem State.SameBeside.ite {s t u : State} (c : Prop) [Decidable c] (a : s.SameBeside t) (b : s.SameBeside u) :
    s.SameBeside (if c then t else u) := by split <;> assumption

theorem State.updReceiver_beside (s : State) (n : Fin 4) (g : Receiver → Receiver) : s.SameBeside (s.updReceiver n g) :=
  ⟨rfl, rfl, rfl, rfl, rfl, rfl, rfl⟩

theorem DelayStore.foldl_fault1 (d : DelayStore) (fs : List ParityFault) : (fs.foldl DelayStore.fault1 d).freeList = d.freeList := by
  induction fs generalizing d with
  | nil => rfl
  | cons f fs ih => exact ih _

theorem State.afterReceiver_beside (s before : State) (n : Fin 4) : s.SameBeside (s.afterReceiver before n) :=
  .ite _ ⟨rfl, rfl, rfl, rfl, rfl, rfl, rfl⟩ (.refl _)

theorem State.badBurst_beside (s : State) (n : Fin 4) : s.SameBeside (s.badBurst n) :=
  (s.updReceiver_beside n Receiver.bad).trans (State.afterReceiver_beside _ s n)

/-- An IDLE symbol ends no good burst (R150). -/
theorem State.receive_idle_beside (s : State) (n : Fin 4) : s.SameBeside (s.receive n .idle) := by
  unfold State.receive
  dsimp only
  cases (s.updReceiver n Receiver.wake).inputs[n].receiver.assembly with
  | none => exact s.updReceiver_beside n _
  | some octets => exact (s.updReceiver_beside n _).trans ((State.updReceiver_beside _ n _).trans (State.badBurst_beside _ n))

theorem DelayStore.serve_freeList (d : DelayStore) (p : Fin 16) (now : Word32) (outputs : Vector FeedOutput 8) (q : Programme) :
    (d.serve p now outputs q).freeList = d.freeList := by
  simp only [DelayStore.serve, DelayStore.writeSlot]
  split <;> exact DelayStore.foldl_fault1 _ _

theorem State.runProgramme_beside (outputs : Vector FeedOutput 8) (s : State) (p : Fin 16) : s.SameBeside (s.runProgramme outputs p) :=
  .ite _ ⟨rfl, rfl, DelayStore.serve_freeList _ _ _ _ _, rfl, rfl, rfl, rfl⟩ (.refl s)

theorem State.loopIdle_beside (k : Fin 2) (s : State) : s.SameBeside (State.loopSymbol k s .idle) := by
  unfold State.loopSymbol
  exact State.SameBeside.foldl (fun t n => .ite _ (State.receive_idle_beside t n) (.refl t)) _ s

theorem State.idleFill_beside (s : State) : s.SameBeside s.idleFill := by
  unfold State.idleFill
  exact State.SameBeside.foldl (fun t k => State.loopIdle_beside k t) _ s

theorem State.tickReceiver_beside (s : State) (n : Fin 4) : s.SameBeside (s.tickReceiver n) := by
  unfold State.tickReceiver
  exact .ite _ ((s.updReceiver_beside n Receiver.tick).trans (State.afterReceiver_beside _ s n)) (.refl s)

theorem State.tickReceivers_beside (s : State) : s.SameBeside s.tickReceivers := by
  unfold State.tickReceivers
  exact State.SameBeside.foldl (fun t n => .ite _ (t.updReceiver_beside n _) (t.tickReceiver_beside n)) _ s

theorem State.runProgrammes_beside (outputs : Vector FeedOutput 8) (order : List (Fin 16)) (s : State) :
    s.SameBeside (s.runProgrammes outputs order) := by
  unfold State.runProgrammes
  exact State.SameBeside.foldl (State.runProgramme_beside outputs) _ s

theorem State.convertFeeds_beside (s : State) : s.SameBeside s.convertFeeds := by
  constructor <;> simp only [State.convertFeeds]
theorem State.assembleOutputs_beside (s : State) : s.SameBeside s.assembleOutputs := by
  constructor <;> simp only [State.assembleOutputs]
theorem State.setTime_beside (s : State) (t : Timebase) : s.SameBeside { s with time := t } := ⟨rfl, rfl, rfl, rfl, rfl, rfl, rfl⟩
theorem State.fireTakes_beside (s : State) : s.SameBeside s.fireTakes := by
  constructor <;> simp only [State.fireTakes]
theorem State.latchGains_beside (s : State) : s.SameBeside s.latchGains := by
  unfold State.latchGains
  exact .ite _ ⟨rfl, rfl, rfl, rfl, rfl, rfl, rfl⟩ (.refl s)

/-- A house frame leaves the tables, the alarm unit, the log, the command processor, the pending commands, the free values and the
free-page list as they were. -/
theorem State.frame_beside (s : State) (order : List (Fin 16)) : s.SameBeside (s.frame order) := by
  unfold State.frame
  exact ((((((((s.setTime_beside _).trans (State.fireTakes_beside _)).trans (State.latchGains_beside _)).trans
    (State.convertFeeds_beside _)).trans (State.runProgrammes_beside _ order _)).trans (State.assembleOutputs_beside _)).trans
    (State.idleFill_beside _)).trans (State.tickReceivers_beside _)).trans (State.setTime_beside _ _)

/-! ### Transfer steps (R146) -/

/-- A transfer step changes the log and the report queue alone (R146). -/
theorem State.transferStep_beside (s : State) :
    s.transferStep = { s with log := s.transferStep.log, processor := { s.processor with reports := s.transferStep.processor.reports } } := rfl

/-- What a run of transfer steps can do: it takes steps one after another, each while one can be taken, and ends where none can. -/
theorem State.transferSteps_chain (fuel : Nat) (s : State) (enough : 32 < fuel + s.processor.reports.length) :
    ∃ (n : Nat) (chain : Nat → State), chain 0 = s ∧ chain n = State.transferSteps fuel s ∧ (chain n).canStep = false ∧
      ∀ i < n, (chain i).canStep = true ∧ chain (i + 1) = (chain i).transferStep := by
  induction fuel generalizing s with
  | zero =>
    refine ⟨0, fun _ => s, rfl, rfl, ?_, fun i h => absurd h (Nat.not_lt_zero i)⟩
    have full : s.reportRoom = false := decide_eq_false (by omega)
    simp only [State.canStep, full, Bool.and_false, Bool.false_and]
  | succ fuel ih =>
    unfold State.transferSteps
    by_cases can : s.canStep = true
    · rw [if_pos can]
      have more : s.transferStep.processor.reports.length = s.processor.reports.length + 1 := List.length_append
      obtain ⟨n, chain, first, last, stops, steps⟩ := ih s.transferStep (by omega)
      refine ⟨n + 1, fun i => match i with | 0 => s | i + 1 => chain i, rfl, last, stops, fun i h => ?_⟩
      cases i with
      | zero => exact ⟨can, first⟩
      | succ i => exact steps i (Nat.lt_of_succ_lt_succ h)
    · rw [if_neg can]
      exact ⟨0, fun _ => s, rfl, rfl, Bool.eq_false_iff.mpr can, fun i h => absurd h (Nat.not_lt_zero i)⟩

end Sys2Proof.Machine
end

