-- ==== Sys2Proof/Laws/Kept.lean ====
section
/-! SUPPORT. The induction over a step, packaged once: a property of states that each elementary operation of the part keeps is kept by
every command and event, hence by every step. -/

namespace Sys2Proof.Machine

/-- `P` is kept by every elementary operation. -/
structure Kept (P : State → Prop) : Prop where
  pending    : ∀ s q, P s → P (s.withPending q)
  powerOn    : ∀ s straps, P s → P (s.powerOn straps)
  time       : ∀ s t, P s → P { s with time := t }
  /-- A command judged and carried out, before its REPLY. -/
  judge      : ∀ o c s, P s → P (judge o c s).state
  reply      : ∀ s r, s.reportRoom = true → P s → P (s.pushReport (.reply r))
  alarm      : ∀ s type r, P s → P (s.offerAlarm type r)
  aborted    : ∀ s, P s → P s.offerAborted
  transfer   : ∀ s, s.canStep = true → P s → P s.transferStep
  commands   : ∀ s bs, bs.length ≤ 8 ∨ bs.length ≤ s.processor.commands.length → P s → P (s.setCommands bs)
  overrun    : ∀ s, P s → P { s with alarms := { s.alarms with commandOverrun := true } }
  departs    : ∀ s r rest, s.processor.reports = r :: rest → P s → P { s with processor := { s.processor with reports := rest } }
  queues     : ∀ s, P s → P s.emptyQueues
  release    : ∀ s, P s → P s.releaseAll
  alarms     : ∀ s, P s → P s.clearAlarms
  endLog     : ∀ s, P s → P s.endLog
  ready      : ∀ s, P s → P s.ready
  receiver   : ∀ s n g, P s → P (s.updReceiver n g)
  unframed   : ∀ s n, P s → P (s.trunkUnframed n)
  deliver    : ∀ s n b, P s → P (s.deliverSample n b)
  forward    : ∀ s n b, P s → P (s.forwardBurst n b)
  /-- A change of an output trunk that puts nothing into its forward queue. -/
  output     : ∀ s k g, (∀ t : OutputTrunk, (g t).forward.length ≤ t.forward.length) → P s → P (s.updOutput k g)
  takes      : ∀ s p now, P s → P (s.updProgramme p (Programme.fireDue now))
  fireTakes  : ∀ s, P s → P s.fireTakes
  latch      : ∀ s, P s → P s.latchGains
  convert    : ∀ s, P s → P s.convertFeeds
  programme  : ∀ s outputs p, P s → P (State.runProgramme outputs s p)
  assemble   : ∀ s, P s → P s.assembleOutputs
  period     : ∀ s, P s → P s.closePeriod
  servo      : ∀ s, P s → P s.servo
  slices     : ∀ s, P s → P s.formSlices
  log        : ∀ s p, P s → P (s.logProgramme p)
  sweep      : ∀ s h, P s → P (s.sweep h)

namespace Kept

variable {P : State → Prop} (k : Kept P)

include k

omit k in
theorem foldl {α : Type} (g : State → α → State) (h : ∀ s a, P s → P (g s a)) (as : List α) (s : State) (hs : P s) : P (as.foldl g s) := by
  induction as generalizing s with
  | nil => exact hs
  | cons a as ih => exact ih _ (h s a hs)

theorem transferSteps (fuel : Nat) (s : State) (hs : P s) : P (State.transferSteps fuel s) := by
  induction fuel generalizing s with
  | zero => exact hs
  | succ n ih =>
    unfold State.transferSteps
    split
    · exact ih _ (k.transfer s ‹_› hs)
    · exact hs

theorem deferred (d : Deferred) (s : State) (hs : P s) : P (d.run s) := by
  cases d with
  | clears rs => exact foldl (fun s r => s.offerAlarm .clear r) (fun s r => k.alarm s .clear r) rs s hs
  | abortedLog => exact k.aborted s hs
  | transferSteps => exact k.transferSteps 33 s hs

theorem judgeBurst (b : ControlBurst) (s : State) (hs : P s) : P (judgeBurstCommand b s).state := by
  unfold judgeBurstCommand
  split
  · exact k.judge _ _ s hs
  · exact hs
  · exact hs

theorem takeCommand (b : ControlBurst) (s : State) (room : s.reportRoom = true) (hs : P s) : P (s.takeCommand b) := by
  apply foldl _ (fun s d => k.deferred d s)
  apply k.reply _ _ _ (k.judgeBurst b s hs)
  simpa [State.reportRoom, (judgeBurstCommand_same b s).reports] using room

theorem drainRounds (n : Nat) (s : State) (hs : P s) : P (State.drainRounds n s) := by
  induction n generalizing s with
  | zero => exact hs
  | succ n ih =>
    unfold State.drainRounds
    split
    · exact hs
    · rename_i b rest h
      split
      · rename_i ht
        refine ih _ (k.takeCommand b _ ?_ (k.commands s rest (.inr (by simp [h])) hs))
        simp only [State.takesNow, Bool.and_eq_true] at ht
        exact ht.2
      · exact hs

theorem drain (s : State) (hs : P s) : P s.drain := k.drainRounds _ s hs

theorem intake (b : ControlBurst) (s : State) (hs : P s) : P (s.intake b) := by
  apply k.drain
  unfold State.enqueue
  split
  · exact k.commands s _ (.inl (by simp; omega)) hs
  · exact k.overrun s hs

theorem submit (sender : Sender) (c : Command) (s : State) (hs : P s) : P (s.submit sender c) := k.intake _ s hs

theorem restartActs (s : State) (hs : P s) : P s.restartActs :=
  k.ready _ (k.endLog _ (k.alarms _ (k.release _ (k.queues s hs))))

theorem handOn (n : Fin 4) (b : Burst) (s : State) (hs : P s) : P (s.handOn n b) := by
  unfold State.handOn State.handControl
  repeat' split
  · exact k.deliver s n _ hs
  · exact k.intake _ s hs
  · exact k.intake _ _ (k.forward s n _ hs)
  · exact k.forward s n _ hs
  · exact k.forward s n _ hs

theorem goodBurst (n : Fin 4) (b : Burst) (s : State) (hs : P s) : P (s.goodBurst n b) := by
  have h := k.receiver s n Receiver.good hs
  unfold State.goodBurst
  dsimp only
  split
  · exact k.handOn n b _ h
  · exact h

theorem afterReceiver (s before : State) (n : Fin 4) (hs : P s) : P (s.afterReceiver before n) := by
  unfold State.afterReceiver
  split
  · exact k.unframed s n hs
  · exact hs

theorem badBurst (n : Fin 4) (s : State) (hs : P s) : P (s.badBurst n) := k.afterReceiver _ s n (k.receiver s n _ hs)

theorem setAssembly (n : Fin 4) (a : Option (List Byte)) (s : State) (hs : P s) : P (s.setAssembly n a) := k.receiver s n _ hs

theorem symbolInside (n : Fin 4) (octets : List Byte) (x : LineSymbol) (s : State) (hs : P s) : P (s.symbolInside n octets x) := by
  unfold State.symbolInside
  have h := k.setAssembly n none s hs
  repeat' split
  · exact k.badBurst n _ h
  · exact k.setAssembly n _ s hs
  · exact k.goodBurst n _ _ h
  · exact k.badBurst n _ h
  · exact h
  · exact k.setAssembly n _ _ (k.badBurst n _ h)
  · exact k.badBurst n _ h

theorem receive (n : Fin 4) (x : LineSymbol) (s : State) (hs : P s) : P (s.receive n x) := by
  have h := k.receiver s n Receiver.wake hs
  unfold State.receive
  dsimp only
  split
  · exact k.symbolInside n _ x _ h
  · split
    · exact k.setAssembly n _ _ h
    · exact h

theorem sendLooped (o : Fin 2) (xs : List LineSymbol) (s : State) (hs : P s) : P (s.sendLooped o xs) := by
  apply foldl _ _ xs s hs
  intro s x hs
  apply foldl _ _ _ s hs
  intro s n hs
  split
  · exact k.receive n x s hs
  · exact hs

theorem afterWholeBurst (n : Fin 4) (s : State) (hs : P s) : P (s.afterWholeBurst n) := k.receiver s n _ hs

theorem burstArrives (n : Fin 4) (b : Burst) (s : State) (hs : P s) : P (s.burstArrives n b) := by
  unfold State.burstArrives
  repeat' split
  · exact k.goodBurst n b _ (k.afterWholeBurst n s hs)
  · exact k.badBurst n _ (k.afterWholeBurst n s hs)
  · exact hs

theorem tickReceiver (n : Fin 4) (s : State) (hs : P s) : P (s.tickReceiver n) := by
  unfold State.tickReceiver
  split
  · exact k.afterReceiver _ s n (k.receiver s n _ hs)
  · exact hs

theorem tickReceivers (s : State) (hs : P s) : P s.tickReceivers := by
  apply foldl _ _ _ s hs
  intro s n hs
  split
  · exact k.receiver s n _ hs
  · exact k.tickReceiver n s hs

theorem depart (o : Fin 2) (first : Bool) (r : Report) (rest : List Report) (s : State) (h : s.processor.reports = r :: rest) (hs : P s) :
    P (s.depart o first r rest) := by
  have h1 := k.departs s r rest h hs
  have h2 := k.output _ o (fun t => { t with management := some (.report (s.formReport r)), lastServed := .report })
    (fun _ => Nat.le_refl _) h1
  have h3 : P (if s.restartActsAt r then
      ({ s with processor := { s.processor with reports := rest } }.updOutput o fun t =>
        { t with management := some (.report (s.formReport r)), lastServed := .report }).restartActs
      else { s with processor := { s.processor with reports := rest } }.updOutput o fun t =>
        { t with management := some (.report (s.formReport r)), lastServed := .report }) := by
    split
    · exact k.restartActs _ h2
    · exact h2
  unfold State.depart State.afterDeparture
  dsimp only
  split
  · exact k.drain _ (k.transferSteps 33 _ h3)
  · exact k.transferSteps 33 _ (k.drain _ h3)

theorem serve (o : Fin 2) (first : Bool) (s : State) (hs : P s) : P (s.serve o first) := by
  unfold State.serve
  split
  · exact k.output s o _ (fun t => by simp [OutputTrunk.serveForward]) hs
  · rename_i r rest _ h
    exact k.depart o first r rest s h hs
  · exact k.output s o _ (fun _ => Nat.le_refl _) hs

theorem openWindow (o : Fin 2) (s : State) (hs : P s) : P (s.openWindow o) := by
  have h := k.output s o (fun t => { t with windowDue := false }) (fun _ => Nat.le_refl _) hs
  unfold State.openWindow State.sendSample
  split
  · exact k.sendLooped o _ _ h
  · exact h

theorem window (o : Fin 2) (first : Bool) (s : State) (hs : P s) : P (s.window o first) := by
  have h := k.serve o first _ (k.openWindow o s hs)
  unfold State.window State.sendManagement
  split
  · exact k.sendLooped o _ _ h
  · exact h

theorem lateWindow (o : Fin 2) (s : State) (hs : P s) : P (s.lateWindow o) := by
  unfold State.lateWindow
  split
  · exact k.window o false s hs
  · exact hs

theorem boundary (s : State) (hs : P s) : P s.boundary := k.period _ (k.lateWindow 1 _ (k.lateWindow 0 s hs))

theorem logPass (h : SliceHandover) (s : State) (hs : P s) : P (s.logPass h) :=
  foldl State.logProgramme (fun s p => k.log s p) _ s hs

theorem slice (order : SliceOrder) (s : State) (hs : P s) : P (s.slice order) := by
  apply k.time
  have h := k.slices s hs
  unfold State.closeSlice
  cases order
  · exact k.sweep _ _ (k.transferSteps 33 _ (k.logPass _ _ h))
  · exact k.transferSteps 33 _ (k.sweep _ _ (k.logPass _ _ h))
  · exact k.transferSteps 33 _ (k.logPass _ _ (k.sweep _ _ h))

theorem boundaryIfDue (s : State) (hs : P s) : P s.boundaryIfDue := by
  unfold State.boundaryIfDue
  split
  · exact k.boundary s hs
  · exact hs

theorem servoIfDue (s : State) (hs : P s) : P s.servoIfDue := by
  unfold State.servoIfDue
  split
  · exact k.servo s hs
  · exact hs

theorem sliceIfDue (order : SliceOrder) (s : State) (hs : P s) : P (s.sliceIfDue order) := by
  unfold State.sliceIfDue
  split
  · exact k.slice order s hs
  · exact hs

theorem catchUp (s : State) (hs : P s) : P s.catchUp := k.sliceIfDue _ _ (k.servoIfDue _ (k.boundaryIfDue s hs))

theorem idleFill (s : State) (hs : P s) : P s.idleFill :=
  foldl (fun t o => t.sendLooped o [.idle]) (fun s o => k.sendLooped o _ s) _ s hs

theorem frame (order : List (Fin 16)) (s : State) (hs : P s) : P (s.frame order) := by
  have a := k.latch _ (k.fireTakes _ (k.time s s.time.frame hs))
  apply k.time
  apply k.tickReceivers
  apply k.idleFill
  apply k.assemble
  exact foldl (State.runProgramme _) (fun s p => k.programme s _ p) _ _ (k.convert _ a)

omit k in
theorem takeWhen (s t : State) (due brings : Bool) (hs : P s) (ht : P t) : P (s.takeWhen due t brings) := by
  unfold State.takeWhen
  split
  · exact ht
  · exact hs

/-- Every command and event keeps `P`. -/
theorem exec (i : Instr) (s t : State) (hs : P s) (h : exec i s = .next t) : P t := by
  have next : ∀ {u : State}, P u → (Host.Outcome.next u : Answer) = .next t → P t := by
    intro u hu e; cases e; exact hu
  have ite : ∀ (b : Bool) (u : State), P u → P (if b = true then u else s) := by
    intro b u hu; split
    · exact hu
    · exact hs
  cases i with
  | powerOnReset straps => exact next (k.powerOn s straps hs) h
  | houseFrame order =>
    simp only [Machine.exec, execHouseFrame] at h
    split at h
    · exact next (k.frame order _ (k.catchUp s hs)) h
    · cases h
  | burstBoundary => exact next (k.boundaryIfDue s hs) h
  | servoEvent => exact next (k.servoIfDue s hs) h
  | sliceEnd order => exact next (k.sliceIfDue order s hs) h
  | referenceEdge => exact next (k.time s _ hs) h
  | referencePresent => exact next (ite _ _ (k.time s _ hs)) h
  | referenceAbsent => exact next (ite _ _ (k.time s _ hs)) h
  | symbolReceived n x => exact next (ite _ _ (k.receive n x s hs)) h
  | badBurst n => exact next (ite _ _ (k.badBurst n _ (k.afterWholeBurst n s hs))) h
  | trunkUnframed n => exact next (ite _ _ (k.badBurst n _ (k.afterWholeBurst n s hs))) h
  | trunkFramed n => exact next (ite _ _ (k.receiver _ n _ (k.afterWholeBurst n s hs))) h
  | trunkSilenceDown n => exact next (ite _ _ (k.receiver _ n _ (k.tickReceiver n s hs))) h
  | sampleBurst n b => exact next (k.burstArrives n _ s hs) h
  | controlBurst n b => exact next (k.burstArrives n _ s hs) h
  | reportBurst n b => exact next (k.burstArrives n _ s hs) h
  | takeFires p => exact next (k.takes s p _ hs) h
  | feedHoldover f => exact next (takeWhen s _ _ _ hs (k.boundary s hs)) h
  | feedLost f => exact next (takeWhen s _ _ _ hs (k.boundary s hs)) h
  | feedLocked f => exact next (takeWhen s _ _ _ hs (k.servo s hs)) h
  | clearingComplete p => exact next (takeWhen s _ _ _ hs (k.boundary s hs)) h
  | realignmentTaken p => exact next (takeWhen s _ _ _ hs (k.boundary s hs)) h
  | managementWindow o first => exact next (ite _ _ (k.window o first s hs)) h
  | restartActs => exact next (ite _ _ (k.window _ false s hs)) h
  | rideStep p order => exact next (takeWhen s _ _ _ hs (k.slice order s hs)) h
  | logEntryDue p order => exact next (takeWhen s _ _ _ hs (k.slice order s hs)) h
  | alarmRaise r order => exact next (takeWhen s _ _ _ hs (k.slice order s hs)) h
  | alarmFallEnd r order => exact next (takeWhen s _ _ _ hs (k.slice order s hs)) h
  | repeatDue r order => exact next (takeWhen s _ _ _ hs (k.slice order s hs)) h
  | transferStep =>
    refine next (u := if s.canStep = true then s.transferStep else s) ?_ h
    by_cases hc : s.canStep = true
    · rw [if_pos hc]; exact k.transfer s hc hs
    · rw [if_neg hc]; exact hs
  | unknownCommand sender code form params => exact next (k.intake _ s hs) h
  | setFeedRecord sender ob f v => exact next (k.submit _ _ s hs) h
  | setProgrammeField sender ob f v => exact next (k.submit _ _ s hs) h
  | setOutputMap sender ob f v => exact next (k.submit _ _ s hs) h
  | setInputTrunk sender ob f v => exact next (k.submit _ _ s hs) h
  | setKindPolicy sender ob f v => exact next (k.submit _ _ s hs) h
  | setOriginatorRecord sender ob f v => exact next (k.submit _ _ s hs) h
  | setReplyTrunk sender ob f v => exact next (k.submit _ _ s hs) h
  | groupSet sender m f v => exact next (k.submit _ _ s hs) h
  | read sender g ob a n => exact next (k.submit _ _ s hs) h
  | load sender t a cs => exact next (k.submit _ _ s hs) h
  | take sender p i x r l => exact next (k.submit _ _ s hs) h
  | takeCancel sender c => exact next (k.submit _ _ s hs) h
  | allocate sender p f => exact next (k.submit _ _ s hs) h
  | release sender p => exact next (k.submit _ _ s hs) h
  | retire sender n => exact next (k.submit _ _ s hs) h
  | restore sender n => exact next (k.submit _ _ s hs) h
  | readFault sender => exact next (k.submit _ _ s hs) h
  | timeSet sender v => exact next (k.submit _ _ s hs) h
  | timeAdjust sender v => exact next (k.submit _ _ s hs) h
  | restartMeasurement sender c => exact next (k.submit _ _ s hs) h
  | acknowledge sender c => exact next (k.submit _ _ s hs) h
  | releaseHold sender p c => exact next (k.submit _ _ s hs) h
  | logRead sender m n f => exact next (k.submit _ _ s hs) h
  | logCancel sender => exact next (k.submit _ _ s hs) h
  | logStatus sender => exact next (k.submit _ _ s hs) h
  | status sender => exact next (k.submit _ _ s hs) h
  | restart sender => exact next (k.submit _ _ s hs) h

/-- Every step keeps `P`. -/
theorem step (s t : State) (hs : P s) (h : step s = .next t) : P t := by
  unfold Machine.step at h
  split at h
  · cases h; exact hs
  · exact k.exec _ _ t (k.pending s _ hs) h

end Kept

end Sys2Proof.Machine
end

