-- ==== Sys2Proof/Laws/Memory.lean ====
section
/-! SUPPORT. The memory of the delay store: what a run of octets written reads as, and that every write keeps the canonical form. -/

namespace Sys2Proof.Machine

/-! ### Runs -/

theorem runCells_mem {a : Nat} {bs : List Byte} {c : Host.Cell} (h : c ∈ runCells a bs) :
    a ≤ c.1 ∧ c.1 < a + bs.length ∧ c.2 ≠ blankOctet c.1 := by
  induction bs generalizing a with
  | nil => simp [runCells] at h
  | cons b bs ih =>
    simp only [runCells] at h
    split at h
    · have := ih h; simp only [List.length_cons]; exact ⟨by omega, by omega, this.2.2⟩
    · rename_i hb
      rcases List.mem_cons.mp h with rfl | h
      · simp_all
      · have := ih h; simp only [List.length_cons]; exact ⟨by omega, by omega, this.2.2⟩

theorem runCells_sorted (a : Nat) (bs : List Byte) : (runCells a bs).Pairwise fun c d => c.1 < d.1 := by
  induction bs generalizing a with
  | nil => simp [runCells]
  | cons b bs ih =>
    simp only [runCells]
    split
    · exact ih _
    · refine List.pairwise_cons.mpr ⟨fun d hd => ?_, ih _⟩
      have := runCells_mem hd
      simp only; omega

/-- Reading the cells of a run as a memory of its own. -/
theorem readOctet_runCells (a : Nat) (bs : List Byte) (i : Nat) (h : i < bs.length) :
    readOctet (runCells a bs) (a + i) = bs[i] := by
  induction bs generalizing a i with
  | nil => simp at h
  | cons b bs ih =>
    cases i with
    | zero =>
      simp only [runCells, Nat.add_zero]
      split
      · rename_i hb
        have : (runCells (a + 1) bs).find? (fun c => c.1 == a) = none := by
          apply List.find?_eq_none.mpr
          intro c hc
          have := runCells_mem hc
          simp only [beq_iff_eq]; omega
        simp [readOctet, this, hb]
      · simp [readOctet]
    | succ i =>
      have hi : i < bs.length := by simpa using h
      have := ih (a + 1) i hi
      simp only [runCells]
      have e : a + 1 + i = a + (i + 1) := by omega
      rw [e] at this
      split
      · simpa using this
      · have hne : ((a, b) : Host.Cell).1 ≠ a + (i + 1) := by simp
        simp only [readOctet, List.find?_cons] at this ⊢
        have hb : ((a, b).1 == a + (i + 1)) = false := by simp
        rw [hb]
        simpa using this

/-! ### Reading after a write -/

theorem find?_writeRun_outside (m : List Host.Cell) (a x : Nat) (bs : List Byte) (h : x < a ∨ a + bs.length ≤ x) :
    (writeRun m a bs).find? (fun c => c.1 == x) = m.find? fun c => c.1 == x := by
  have hr : (runCells a bs).find? (fun c => c.1 == x) = none := by
    apply List.find?_eq_none.mpr
    intro c hc
    have := runCells_mem hc
    simp only [beq_iff_eq]; omega
  have hkeep : ∀ (p : Host.Cell → Bool), (∀ c : Host.Cell, c.1 = x → p c = true) →
      (m.filter p).find? (fun c => c.1 == x) = m.find? fun c => c.1 == x := by
    intro p hp
    rw [List.find?_filter]
    congr 1
    funext c
    by_cases hc : c.1 = x <;> simp [hc, hp]
  have hdrop : ∀ (p : Host.Cell → Bool), (∀ c : Host.Cell, c.1 = x → p c = false) →
      (m.filter p).find? (fun c => c.1 == x) = none := by
    intro p hp
    apply List.find?_eq_none.mpr
    intro c hc hx
    have h1 := (List.mem_filter.mp hc).2
    simp only [beq_iff_eq] at hx
    simp [hp c hx] at h1
  simp only [writeRun, List.find?_append, hr]
  rcases h with h | h
  · rw [hkeep _ (by intro c hc; simp [hc, h]), hdrop _ (by intro c hc; simp [hc]; omega)]
    cases m.find? (fun c => c.1 == x) <;> rfl
  · rw [hdrop _ (by intro c hc; simp [hc]; omega), hkeep _ (by intro c hc; simp [hc, h])]
    rfl

/-- Outside the run a write leaves every octet as it was. -/
theorem readOctet_writeRun_outside (m : List Host.Cell) (a x : Nat) (bs : List Byte) (h : x < a ∨ a + bs.length ≤ x) :
    readOctet (writeRun m a bs) x = readOctet m x := by
  simp only [readOctet, find?_writeRun_outside m a x bs h]

/-- Inside the run a write reads back what was written. -/
theorem readOctet_writeRun_inside (m : List Host.Cell) (a i : Nat) (bs : List Byte) (h : i < bs.length) :
    readOctet (writeRun m a bs) (a + i) = bs[i] := by
  have h1 : (m.filter fun c => decide (c.1 < a)).find? (fun c => c.1 == a + i) = none := by
    apply List.find?_eq_none.mpr
    intro c hc hx
    have := (List.mem_filter.mp hc).2
    have hx := beq_iff_eq.mp hx
    have this := of_decide_eq_true this
    omega
  have h3 : (m.filter fun c => decide (a + bs.length ≤ c.1)).find? (fun c => c.1 == a + i) = none := by
    apply List.find?_eq_none.mpr
    intro c hc hx
    have := (List.mem_filter.mp hc).2
    simp only [beq_iff_eq] at hx
    simp [hx] at this
    omega
  have h2 := readOctet_runCells a bs i h
  simp only [readOctet] at h2
  simp only [readOctet, writeRun, List.find?_append, h1, h3]
  simpa using h2

/-- A run read is the octets at its addresses. -/
theorem readRun_getElem (m : List Host.Cell) (a n i : Nat) (h : i < (readRun m a n).length) : (readRun m a n)[i] = readOctet m (a + i) := by
  have hi : i < n := by simpa [readRun] using h
  have e : (m.filter fun c => decide (a ≤ c.1) && decide (c.1 < a + n)).find? (fun c => c.1 == a + i) =
      m.find? fun c => c.1 == a + i := by
    rw [List.find?_filter]
    congr 1
    funext c
    by_cases hc : c.1 = a + i
    · simp [hc, hi]
    · simp [hc]
  simp only [readRun, readOctet, List.getElem_map, List.getElem_range, e]

@[simp] theorem readRun_length (m : List Host.Cell) (a n : Nat) : (readRun m a n).length = n := by simp [readRun]

/-- A run written reads back whole. -/
theorem readRun_writeRun_same (m : List Host.Cell) (a : Nat) (bs : List Byte) : readRun (writeRun m a bs) a bs.length = bs := by
  apply List.ext_getElem (by simp)
  intro i h1 h2
  rw [readRun_getElem, readOctet_writeRun_inside _ _ _ _ h2]

/-- A run beside the one written reads as before. -/
theorem readRun_writeRun_apart (m : List Host.Cell) (a b n : Nat) (bs : List Byte) (h : b + n ≤ a ∨ a + bs.length ≤ b) :
    readRun (writeRun m a bs) b n = readRun m b n := by
  apply List.ext_getElem (by simp)
  intro i h1 h2
  have : i < n := by simpa using h1
  rw [readRun_getElem, readRun_getElem, readOctet_writeRun_outside _ _ _ _ (by omega)]

/-! ### The canonical form -/

theorem Memory.wf_nil : Memory.wf [] := by simp [Memory.wf]

/-- A write within the store keeps the canonical form. -/
theorem writeRun_wf {m : List Host.Cell} (a : Nat) (bs : List Byte) (hm : Memory.wf m) (h : a + bs.length ≤ storeOctets) :
    Memory.wf (writeRun m a bs) := by
  obtain ⟨hs, hc⟩ := hm
  constructor
  · simp only [writeRun, List.pairwise_append, List.mem_append, List.mem_filter, decide_eq_true_eq]
    refine ⟨⟨hs.filter _, runCells_sorted a bs, ?_⟩, hs.filter _, ?_⟩
    · rintro c ⟨_, h1⟩ d h2
      have := runCells_mem h2; omega
    · rintro c (⟨_, h1⟩ | h1) d ⟨_, h2⟩
      · omega
      · have := runCells_mem h1; omega
  · intro c hcm
    simp only [writeRun, List.mem_append, List.mem_filter] at hcm
    rcases hcm with (⟨h1, _⟩ | h1) | ⟨h1, _⟩
    · exact hc c h1
    · have := runCells_mem h1
      exact ⟨by omega, this.2.2⟩
    · exact hc c h1

theorem wordOctets_length (w : Word32) : (wordOctets w).length = 4 := rfl

theorem words_octets_length (ws : List Word32) : (ws.flatMap wordOctets).length = 4 * ws.length := by
  induction ws with
  | nil => rfl
  | cons w ws ih => simp only [List.flatMap_cons, List.length_append, wordOctets_length, ih, List.length_cons]; omega

/-- Writing eight words or fewer at a frame of a page stays within the store. -/
theorem writeFrame_wf {m : List Host.Cell} (page : Page) (k : Nat) (words : List DelayWord) (hm : Memory.wf m) (hk : k < 128)
    (hw : words.length ≤ 8) : Memory.wf (writeFrame m page k words) := by
  apply writeRun_wf _ _ hm
  have : (words.flatMap fun x => wordOctets (packWord x)) = (words.map packWord).flatMap wordOctets := by simp [List.flatMap_map]
  rw [this, words_octets_length]
  have := page.isLt
  simp only [frameAddress, storeOctets, List.length_map]
  omega

/-- Clearing a page stays within the store. -/
theorem clearPage_wf {m : List Host.Cell} (epoch : BitVec 2) (page : Page) (hm : Memory.wf m) : Memory.wf (clearPage m epoch page) := by
  apply writeRun_wf _ _ hm
  have e : ((List.range 1024).flatMap fun _ => wordOctets (packWord { sample := 0, epoch := epoch, substituted := true })).length = 4096 := by
    generalize packWord { sample := 0, epoch := epoch, substituted := true } = w
    have all (ns : List Nat) : (ns.flatMap fun _ => wordOctets w).length = 4 * ns.length := by
      induction ns with
      | nil => rfl
      | cons n ns ih => simp only [List.flatMap_cons, List.length_append, wordOctets_length, ih, List.length_cons]; omega
    rw [all, List.length_range]
  rw [e]
  have := page.isLt
  simp only [frameAddress, storeOctets]
  omega

/-- Everything a write of a ring slot does to the memory: nothing, or the slot's frame is written (R55). -/
theorem DelayStore.writeSlot_memory (d : DelayStore) (c : StoreContext) (slot : Nat) (words : List DelayWord) :
    (d.writeSlot c slot words).memory = d.memory ∧ c.place slot = none ∨
      ∃ page k, c.place slot = some (page, k) ∧ k < 128 ∧ (d.writeSlot c slot words).memory = writeFrame d.memory page k words := by
  unfold DelayStore.writeSlot
  cases h : c.place slot with
  | none => exact .inl ⟨rfl, rfl⟩
  | some pk =>
    obtain ⟨page, k⟩ := pk
    refine .inr ⟨page, k, rfl, ?_, rfl⟩
    simp only [StoreContext.place, Option.map_eq_some_iff] at h
    obtain ⟨_, _, h⟩ := h
    have : slot % 128 = k := by simpa using (Prod.mk.inj h).2
    omega

/-- A write of a ring slot keeps the canonical form. -/
theorem DelayStore.writeSlot_wf {d : DelayStore} (c : StoreContext) (slot : Nat) (words : List DelayWord) (hw : words.length ≤ 8)
    (hm : Memory.wf d.memory) : Memory.wf (d.writeSlot c slot words).memory := by
  obtain ⟨h, _⟩ | ⟨page, k, _, hk, h⟩ := d.writeSlot_memory c slot words
  · rwa [h]
  · rw [h]; exact writeFrame_wf page k words hm hk hw

theorem clearPages_wf (p : Programme) {m : List Host.Cell} (hm : Memory.wf m) : Memory.wf (clearPages p m) := by
  unfold clearPages
  split
  · generalize p.store.nextPages = pages
    induction pages generalizing m with
    | nil => exact hm
    | cons n ns ih => exact ih (clearPage_wf p.eIn n hm)
  · exact hm

/-- The clearing of a burst boundary keeps the canonical form (R49). -/
theorem State.clearedMemory_wf {s : State} (hm : Memory.wf s.store.memory) : Memory.wf s.clearedMemory := by
  unfold State.clearedMemory
  generalize List.finRange 16 = ps
  generalize s.store.memory = m at hm
  induction ps generalizing m with
  | nil => exact hm
  | cons p ps ih => exact ih _ (clearPages_wf _ hm)

/-- The memory at reset has the canonical form. -/
theorem reset_memory_wf : Memory.wf State.reset.store.memory := Memory.wf_nil

end Sys2Proof.Machine
end

