-- ==== Sys2Proof/Laws/Programmes.lean ====
section
/-! SUPPORT. The induction over a step for properties of one programme at a time: what every operation can do to a programme, said once. -/

namespace Sys2Proof.Machine

/-- `Q` is kept by everything that any operation does to a programme. -/
structure ProgrammeKept (Q : Programme → Prop) : Prop where
  initial    : Q Programme.initial
  holds      : ∀ p h, Q p → Q { p with holds := h }
  field      : ∀ p field v fv, judgeProgrammeField p field v = some fv → Q p → Q (p.writeField field fv.stored)
  take       : ∀ p t, p.takeFree = true → Q p → Q { p with take := some t }
  cancel     : ∀ p, Q p → Q { p with take := none }
  allocated  : ∀ p pages, p.store.state = .unallocated → pages ≠ [] → Q p → Q (p.allocated pages)
  released   : ∀ p, Q p → Q p.released
  measured   : ∀ p, Q p → Q p.restartMeasurement
  timeJump   : ∀ p, Q p → Q p.timeJump
  restarted  : ∀ p unity, Q p → Q (p.restarted unity)
  fireDue    : ∀ p now, Q p → Q (p.fireDue now)
  latch      : ∀ p, Q p → Q { p with rider := { p.rider with latched := p.rider.gain } }
  age        : ∀ p a, p.running = true → Q p → Q (p.ageSample a)
  pass       : ∀ p t threshold words, p.running = true → Q p → Q (p.passFrame t threshold words)
  boundary   : ∀ p, Q p → Q p.boundary
  slice      : ∀ p levels unity n, Q p → Q (p.slice levels unity n)
  written    : ∀ p, Q p → Q p.logWritten
  interval   : ∀ p n, Q p → Q { p with log := { p.log with interval := n } }

/-- The state's programmes all have a property. -/
def AllProgrammes (Q : Programme → Prop) (s : State) : Prop := ∀ p : Fin 16, Q s.programmes[p]

theorem AllProgrammes.same {Q : Programme → Prop} {s t : State} (h : t.programmes = s.programmes) (hs : AllProgrammes Q s) :
    AllProgrammes Q t := by
  intro p; rw [h]; exact hs p

theorem AllProgrammes.upd {Q : Programme → Prop} {s : State} (p : Fin 16) (g : Programme → Programme) (hs : AllProgrammes Q s)
    (h : Q (g s.programmes[p])) : AllProgrammes Q (s.updProgramme p g) := by
  intro q
  by_cases e : p = q
  · subst e; simpa [State.updProgramme, updAt_same] using h
  · have := hs q
    simp only [State.updProgramme]
    rwa [updAt_other _ _ _ _ e]

theorem AllProgrammes.map {Q : Programme → Prop} {s t : State} (g : Fin 16 → Programme → Programme)
    (ht : t.programmes = mapAll g s.programmes) (hs : AllProgrammes Q s) (h : ∀ i p, Q p → Q (g i p)) : AllProgrammes Q t := by
  intro p
  have := h p _ (hs p)
  simpa [ht] using this

namespace ProgrammeKept

variable {Q : Programme → Prop} (k : ProgrammeKept Q)

include k

theorem takeHold (o : Byte) (cls : RightClass) (p : Fin 16) (s : State) (hs : AllProgrammes Q s) :
    AllProgrammes Q (s.takeHold o cls p) := hs.upd p _ (k.holds _ _ (hs p))

theorem writeProgramme (o : Byte) (cls : RightClass) (field v : Nat) (s : State) (p : Fin 16) (hs : AllProgrammes Q s) :
    AllProgrammes Q (s.writeProgramme o cls field v p).state := by
  unfold State.writeProgramme
  split
  · exact hs
  · split
    · exact hs
    · rename_i fv h
      exact k.takeHold o cls p _ (hs.upd p _ (k.field _ _ _ fv h (hs p)))

theorem set (o target object field : Byte) (value : Word32) (s : State) (hs : AllProgrammes Q s) :
    AllProgrammes Q (judgeSet o target object field value s).state := by
  unfold judgeSet
  split
  · refine hs.same ?_
    unfold setFeed refuse
    repeat' split
    all_goals rfl
  · unfold setProgramme refuse
    repeat' split
    all_goals first
      | exact hs
      | (dsimp only; split; all_goals first | exact hs | exact k.writeProgramme _ _ _ _ _ _ hs)
  · refine hs.same ?_
    unfold setMap refuse
    repeat' split
    all_goals rfl
  · refine hs.same ?_
    unfold setTrunk refuse State.afterReceiver
    repeat' split
    all_goals first | rfl | (dsimp only; split; all_goals simp)
  · refine hs.same ?_
    unfold setPolicy refuse
    repeat' split
    all_goals simp
  · refine hs.same ?_
    unfold setOriginator refuse
    repeat' split
    all_goals rfl
  · refine hs.same ?_
    unfold setPart refuse accept
    repeat' split
    all_goals rfl
  · exact hs

omit k in
theorem each {one : State → Fin 16 → State × CommandResult} (h : ∀ s p, AllProgrammes Q s → AllProgrammes Q (one s p).1)
    (ps : List (Fin 16)) (s : State) (g : GroupTally) (hs : AllProgrammes Q s) : AllProgrammes Q (judgeEach one ps s g).1 := by
  induction ps generalizing s g with
  | nil => exact hs
  | cons p ps ih => exact ih _ _ (h s p hs)

omit k in
theorem reply (s : State) (g : GroupTally) (whole : Option CommandResult) (hs : AllProgrammes Q s) :
    AllProgrammes Q (groupReply s g whole).state := by
  refine hs.same ?_
  unfold groupReply
  cases g.first <;> rfl

omit k in
theorem group {one : State → Fin 16 → State × CommandResult} (h : ∀ s p, AllProgrammes Q s → AllProgrammes Q (one s p).1)
    (selection : BitVec 16) (s : State) (hs : AllProgrammes Q s) : AllProgrammes Q (judgeGroup selection one s).state :=
  reply _ _ _ (each h _ s _ hs)

omit k in
theorem choice {one : State → Fin 16 → State × CommandResult} (h : ∀ s p, AllProgrammes Q s → AllProgrammes Q (one s p).1)
    (o : Byte) (cls : RightClass) (c : ProgrammeChoice) (s : State) (hs : AllProgrammes Q s) :
    AllProgrammes Q (judgeChoice o cls c one s).state := by
  unfold judgeChoice refuse
  split
  · repeat' split
    all_goals first | exact hs | exact h _ _ hs
  · exact group h _ s hs

theorem cancelTake (o : Byte) (s : State) (p : Fin 16) (hs : AllProgrammes Q s) : AllProgrammes Q (Machine.cancelTake o s p).1 := by
  unfold Machine.cancelTake
  repeat' split
  · exact hs
  · exact k.takeHold o _ p _ (hs.upd p _ (k.cancel _ (hs p)))
  · exact hs

theorem restartMeter (o : Byte) (s : State) (p : Fin 16) (hs : AllProgrammes Q s) : AllProgrammes Q (Machine.restartMeter o s p).1 := by
  unfold Machine.restartMeter
  split
  · exact hs
  · exact k.takeHold o _ p _ (hs.upd p _ (k.measured _ (hs p)))

theorem timeJumpAll (s : State) (hs : AllProgrammes Q s) : AllProgrammes Q s.timeJump :=
  hs.map (fun _ p => p.timeJump) (by simp [State.timeJump]) fun _ p => k.timeJump p

omit k in
theorem acknowledgeAll (s : State) (rs : List (Fin 400)) (hs : AllProgrammes Q s) : AllProgrammes Q (s.acknowledgeAll rs) := by
  have h : ∀ (rs : List (Fin 400)) (s : State), AllProgrammes Q s →
      AllProgrammes Q (rs.foldl (fun t r => t.updRecord r AlarmRecord.acknowledge) s) := by
    intro rs
    induction rs with
    | nil => exact fun _ h => h
    | cons r rs ih => exact fun s h => ih _ (h.same (by simp))
  exact (h rs s hs).same (by simp [State.acknowledgeAll])

/-- What a command does to every programme. -/
theorem command (o : Byte) (c : Command) (s : State) (hs : AllProgrammes Q s) : AllProgrammes Q (judge o c s).state := by
  cases c with
  | set t ob f v => exact k.set o t ob f v s hs
  | groupSet m f v =>
    change AllProgrammes Q (judgeGroupSet o m f v s).state
    unfold judgeGroupSet
    split
    · exact reply _ _ _ hs
    · split
      · exact reply _ _ _ hs
      · exact group (fun t p => k.writeProgramme o _ _ _ t p) _ s hs
  | read g ob a n =>
    refine hs.same ?_
    change (judgeRead g.toNat ob.toNat a.toNat n.toNat s).state.programmes = _
    unfold judgeRead refuse accept
    cases readsImmediate s g.toNat ob.toNat
    all_goals
      dsimp only [Bool.false_eq_true, if_true, if_false]
      split <;> rfl
  | load t a cs =>
    refine hs.same ?_
    change (judgeLoad o t a cs s).state.programmes = _
    unfold judgeLoad refuse accept
    repeat' split
    all_goals first | rfl | (dsimp only; split <;> rfl)
  | take p i t r l =>
    change AllProgrammes Q (judgeTake o p i t r l s).state
    unfold judgeTake refuse accept
    repeat' split
    all_goals first
      | exact hs
      | exact k.takeHold o _ _ _ (hs.upd _ _ (k.take _ _ ‹_› (hs _)))
  | takeCancel c => exact choice (k.cancelTake o) o _ c s hs
  | allocate p f =>
    change AllProgrammes Q (judgeAllocate o p f s).state
    unfold judgeAllocate refuse
    split
    · exact hs
    · split
      · exact hs
      · dsimp only
        split
        · exact hs
        · split
          · exact hs
          · rename_i p' _ hfree hroom
            refine AllProgrammes.upd (s := { s with store := _ }) _ _ hs (k.allocated _ _ ?_ ?_ (hs _))
            · simpa using hfree
            · intro e
              have e2 := congrArg List.length e
              have hc : 1 ≤ clampNat 1 1048576 f.toNat := by unfold clampNat; repeat' split
                                                             all_goals omega
              simp only [List.length_take, List.length_nil] at e2
              omega
  | release p =>
    change AllProgrammes Q (judgeRelease o p s).state
    unfold judgeRelease refuse accept
    split
    · exact hs
    · split
      · exact hs
      · dsimp only
        split
        · exact hs
        · exact AllProgrammes.upd (s := { s with store := _ }) _ _ hs (k.released _ (hs _))
  | retire n =>
    refine hs.same ?_
    change (judgeRetire o n s).state.programmes = _
    unfold judgeRetire refuse accept
    repeat' split
    all_goals rfl
  | restore n =>
    refine hs.same ?_
    change (judgeRestore o n s).state.programmes = _
    unfold judgeRestore refuse accept
    repeat' split
    all_goals rfl
  | readFault =>
    refine hs.same ?_
    change (judgeReadFault o s).state.programmes = _
    unfold judgeReadFault refuse accept
    split <;> rfl
  | timeSet v =>
    change AllProgrammes Q (judgeTimeSet o v s).state
    unfold judgeTimeSet refuse accept
    split
    · exact hs
    · exact k.timeJumpAll _ (hs.same rfl)
  | timeAdjust v =>
    change AllProgrammes Q (judgeTimeAdjust o v s).state
    unfold judgeTimeAdjust refuse
    split
    · exact hs
    · exact k.timeJumpAll _ (hs.same rfl)
  | restartMeasurement c => exact choice (k.restartMeter o) o _ c s hs
  | acknowledge c =>
    change AllProgrammes Q (judgeAcknowledge o c s).state
    unfold judgeAcknowledge
    split
    · unfold acknowledgeOne refuse
      repeat' split
      all_goals first | exact hs | exact acknowledgeAll _ _ hs
    · unfold acknowledgeGroup
      split
      · exact group (fun _ _ h => h) _ s hs
      · split
        · exact reply _ _ _ hs
        · exact acknowledgeAll _ _ (group (fun _ _ h => h) _ s hs)
  | releaseHold p c =>
    change AllProgrammes Q (judgeReleaseHold o p c s).state
    unfold judgeReleaseHold refuse accept
    repeat' split
    all_goals first | exact hs | exact hs.upd _ _ (k.holds _ _ (hs _))
  | logRead m n f =>
    refine hs.same ?_
    change (judgeLogRead o m n f s).state.programmes = _
    unfold judgeLogRead refuse
    repeat' split
    all_goals rfl
  | logCancel =>
    refine hs.same ?_
    change (judgeLogCancel o s).state.programmes = _
    unfold judgeLogCancel refuse
    repeat' split
    all_goals rfl
  | logStatus => exact hs
  | status => exact hs
  | restart =>
    refine hs.same ?_
    change (judgeRestart o s).state.programmes = _
    unfold judgeRestart refuse accept
    split <;> rfl

omit k in
theorem offerAlarm (s : State) (type : AlarmReportType) (r : Fin 400) : (s.offerAlarm type r).programmes = s.programmes := by
  unfold State.offerAlarm
  split
  · simp
  · split <;> simp

omit k in
theorem offerClears (rs : List (Fin 400)) (s : State) : (s.offerClears rs).programmes = s.programmes := by
  induction rs generalizing s with
  | nil => rfl
  | cons r rs ih => exact (ih _).trans (offerAlarm s .clear r)

omit k in
theorem reoffer_programmes (rs : List (Fin 400)) (s : State) : (reoffer rs s).programmes = s.programmes := by
  induction rs generalizing s with
  | nil => rfl
  | cons r rs ih =>
    unfold reoffer
    repeat' split
    · exact (ih _).trans (offerAlarm s .state r)
    · rfl
    · exact ih s

omit k in
theorem sweep_programmes (h : SliceHandover) (s : State) : (s.sweep h).programmes = s.programmes := by
  have one : ∀ (s : State) (r : Fin 400), (sweepRecord h s r).programmes = s.programmes := by
    intro s r
    unfold sweepRecord
    split
    · dsimp only
      split
      · simp [offerAlarm]
      · simp
    · rfl
  have all : ∀ (rs : List (Fin 400)) (s : State), (rs.foldl (sweepRecord h) s).programmes = s.programmes := by
    intro rs
    induction rs with
    | nil => exact fun _ => rfl
    | cons r rs ih => exact fun s => (ih _).trans (one s r)
  unfold State.sweep
  rw [State.formLines_programmes, State.clearOverruns_programmes, all, reoffer_programmes]

/-- Everything that is kept for one programme is kept for all by every step. -/
theorem kept : Kept (AllProgrammes Q) where
  pending s q hs := hs
  powerOn s straps _ := by
    intro p
    simpa [State.powerOn, State.reset] using k.initial
  time s t hs := hs
  judge o c s hs := k.command o c s hs
  reply s r _ hs := hs
  alarm s type r hs := hs.same (offerAlarm s type r)
  aborted s hs := hs.same (by unfold State.offerAborted; split <;> rfl)
  transfer s _ hs := hs.same rfl
  commands s bs _ hs := hs
  overrun s hs := hs
  departs s r rest _ hs := hs
  queues s hs := hs.same (by simp)
  release s hs := hs.map (fun _ p => p.restarted s.tables.unity) (by simp [State.releaseAll]) fun _ p => k.restarted p _
  alarms s hs := hs.same (by simp [State.clearAlarms, offerClears])
  endLog s hs := hs.same (by unfold State.endLog State.offerAborted; repeat' split
                             all_goals rfl)
  ready s hs := hs
  receiver s n g hs := hs
  unframed s n hs := hs.same (by simp)
  deliver s n b hs := hs.same (by unfold State.deliverSample; split <;> rfl)
  forward s n b hs := hs.same (by unfold State.forwardBurst; split <;> rfl)
  output s o g _ hs := hs
  takes s p now hs := hs.upd p _ (k.fireDue _ now (hs p))
  fireTakes s hs := hs.map (fun _ p => p.fireDue s.time.houseTime) (by simp [State.fireTakes]) fun _ p => k.fireDue p _
  latch s hs := by
    unfold State.latchGains
    split
    · exact hs.map (fun _ p => { p with rider := { p.rider with latched := p.rider.gain } }) rfl fun _ p => k.latch p
    · exact hs
  convert s hs := by
    refine hs.map (fun _ p => (List.finRange 8).foldl (fun q f => q.takeAges f s.conversions[f].ages) p)
      (by simp [State.convertFeeds]) fun _ p hp => ?_
    have ages : ∀ (as : List Int) (p : Programme), p.running = true → Q p → Q (as.foldl Programme.ageSample p) := by
      intro as
      induction as with
      | nil => exact fun _ _ h => h
      | cons a as ih =>
        intro p hr h
        refine ih (p.ageSample a) ?_ (k.age p a hr h)
        exact hr
    have one : ∀ (f : Fin 8) (as : List Int) (p : Programme), Q p → Q (p.takeAges f as) := by
      intro f as p h
      unfold Programme.takeAges
      split
      · rename_i hr
        simp only [Programme.receivesAges, Bool.and_eq_true] at hr
        exact ages as p hr.1.1 h
      · exact h
    generalize List.finRange 8 = fs
    induction fs generalizing p with
    | nil => exact hp
    | cons f fs ih => exact ih _ (one f _ p hp)
  programme s outputs p hs := by
    unfold State.runProgramme
    dsimp only
    split
    · rename_i hr
      exact AllProgrammes.upd (s := { s with store := _ }) p _ hs (k.pass _ _ _ _ hr (hs p))
    · exact hs
  assemble s hs := hs.same (by simp)
  period s hs := hs.map (fun _ p => p.boundary) rfl fun _ p => k.boundary p
  servo s hs := hs.same (by simp)
  slices s hs := hs.map (fun _ p => p.slice s.tables.levels s.tables.unity s.time.sliceFrames) (by simp [State.formSlices])
    fun _ p => k.slice p _ _ _
  log s p hs := by
    unfold State.logProgramme
    split
    · refine AllProgrammes.upd p _ (hs.same ?_) (k.written _ ?_)
      · unfold State.logAppend
        dsimp only
        split <;> rfl
      · have e : (s.logAppend (s.logEntry p)).programmes = s.programmes := by
          unfold State.logAppend
          dsimp only
          split <;> rfl
        rw [e]; exact hs p
    · split
      · exact hs.upd p _ (k.interval _ _ (hs p))
      · exact hs
  sweep s h hs := hs.same (sweep_programmes h s)

end ProgrammeKept

end Sys2Proof.Machine
end

