-- ==== Sys2Proof/Laws/Sweep.lean ====
section
/-! SUPPORT. What the offers of alarm reports can do (R136): one at a time, at a re-offer (R137), at the moves of a sweep (R122) and at a
run of CLEAR reports (R132, R138). Each leaves a state that differs in the alarm records and the report queue alone. -/

namespace Sys2Proof.Machine

/-- The state with other alarm records and another report queue. -/
def State.withTold (b : State) (v : Vector AlarmRecord 400) (q : List Report) : State :=
  { b with alarms := { b.alarms with records := v }, processor := { b.processor with reports := q } }

theorem State.withTold_self (b : State) : b.withTold b.alarms.records b.processor.reports = b := rfl

@[simp] theorem State.withTold_withTold (b : State) (v w : Vector AlarmRecord 400) (q r : List Report) :
    (b.withTold v q).withTold w r = b.withTold w r := rfl
@[simp] theorem State.withTold_records (b : State) (v : Vector AlarmRecord 400) (q : List Report) : (b.withTold v q).alarms.records = v := rfl
@[simp] theorem State.withTold_reports (b : State) (v : Vector AlarmRecord 400) (q : List Report) : (b.withTold v q).processor.reports = q := rfl
@[simp] theorem State.withTold_time (b : State) (v : Vector AlarmRecord 400) (q : List Report) : (b.withTold v q).time = b.time := rfl
@[simp] theorem State.withTold_policyOf (b : State) (v : Vector AlarmRecord 400) (q : List Report) (r : Fin 400) :
    (b.withTold v q).alarms.policyOf r = b.alarms.policyOf r := rfl
@[simp] theorem State.withTold_updRecord (b : State) (v : Vector AlarmRecord 400) (q : List Report) (r : Fin 400) (g : AlarmRecord → AlarmRecord) :
    (b.withTold v q).updRecord r g = b.withTold (updAt v r g) q := rfl

/-- A condition does not read the alarm records or the report queue (R122). -/
@[simp] theorem condition_withTold (h : SliceHandover) (b : State) (v : Vector AlarmRecord 400) (q : List Report) (r : Fin 400) :
    condition h (b.withTold v q) r = condition h b r := rfl

/-- An alarm report that enters takes one place (R136). -/
theorem State.alarmSpace_alarm (b : State) (v w : Vector AlarmRecord 400) (q : List Report) (a : AlarmReport) :
    (b.withTold v (q ++ [.alarm a])).alarmSpace = (b.withTold w q).alarmSpace - 1 := by
  simp only [State.alarmSpace, Processor.alarmReports, State.withTold_reports, List.countP_append, List.length_append,
    List.countP_cons, List.countP_nil, List.length_cons, List.length_nil]
  simp
  omega

/-- An alarm report can enter exactly while there is a place for it (R136). -/
theorem State.alarmRoom_iff (s : State) : s.alarmRoom = true ↔ 0 < s.alarmSpace := by
  simp only [State.alarmRoom, State.reportRoom, State.alarmSpace, Bool.and_eq_true, decide_eq_true_eq]
  omega

/-- What the offer of an alarm report can do (R136). -/
theorem State.offerAlarm_withTold (b : State) (v : Vector AlarmRecord 400) (q : List Report) (type : AlarmReportType) (r : Fin 400) :
    (b.withTold v q).offerAlarm type r =
      if 0 < (b.withTold v q).alarmSpace then
        b.withTold (updAt v r fun x => { x with unreported := false }) (q ++ [.alarm ((b.withTold v q).formAlarm type r)])
      else if type = .raise ∨ type = .clear then b.withTold (updAt v r fun x => { x with unreported := true }) q
      else b.withTold v q := by
  unfold State.offerAlarm
  by_cases room : 0 < (b.withTold v q).alarmSpace
  · rw [if_pos ((State.alarmRoom_iff _).mpr room), if_pos room]; rfl
  · rw [if_neg (fun h => room ((State.alarmRoom_iff _).mp h)), if_neg room]
    cases type <;> rfl

/-! ### The re-offer (R137) -/

/-- The report formed of a record as `v` holds it (R135). -/
def State.reportOf (b : State) (v : Vector AlarmRecord 400) (m : Fin 400 × AlarmReportType) : Report :=
  .alarm ((b.withTold v []).formAlarm m.2 m.1)

theorem State.formAlarm_withTold (b : State) (v : Vector AlarmRecord 400) (q : List Report) (type : AlarmReportType) (r : Fin 400) :
    Report.alarm ((b.withTold v q).formAlarm type r) = b.reportOf v (r, type) := rfl

theorem State.reportOf_congr {b : State} {v w : Vector AlarmRecord 400} {m : Fin 400 × AlarmReportType} (h : v[m.1] = w[m.1]) :
    b.reportOf v m = b.reportOf w m := by
  simp only [State.reportOf, State.formAlarm, State.withTold_records, h, State.withTold_policyOf, State.withTold_time]

/-- A report does not carry the unreported flag (R135). -/
theorem State.reportOf_unreported {b : State} {v w : Vector AlarmRecord 400} {m : Fin 400 × AlarmReportType} {c : Bool}
    (h : v[m.1] = { w[m.1] with unreported := c }) : b.reportOf v m = b.reportOf w m := by
  simp only [State.reportOf, State.formAlarm, State.withTold_records, h, State.withTold_policyOf, State.withTold_time]

/-- The records that the re-offer tells are the first unreported ones that find a place; each loses its flag (R137). -/
theorem reoffer_withTold (b : State) (rs : List (Fin 400)) (once : rs.Nodup) (v : Vector AlarmRecord 400) (q : List Report) :
    ∃ w : Vector AlarmRecord 400,
      reoffer rs (b.withTold v q) =
        b.withTold w (q ++ ((rs.filter fun r => v[r].unreported).take (b.withTold v q).alarmSpace).map fun r => b.reportOf v (r, .state)) ∧
      ∀ r : Fin 400, w[r] =
        if r ∈ (rs.filter fun r => v[r].unreported).take (b.withTold v q).alarmSpace then { v[r] with unreported := false } else v[r] := by
  induction rs generalizing v q with
  | nil => exact ⟨v, by simp [reoffer], by simp⟩
  | cons r rs ih =>
    obtain ⟨fresh, once⟩ := List.nodup_cons.mp once
    unfold reoffer
    rw [State.withTold_records]
    by_cases flag : v[r].unreported = true
    · have first : (r :: rs).filter (fun x => v[x].unreported) = r :: rs.filter fun x => v[x].unreported := List.filter_cons_of_pos flag
      rw [if_pos flag, first]
      by_cases room : 0 < (b.withTold v q).alarmSpace
      · rw [if_pos ((State.alarmRoom_iff _).mpr room), State.offerAlarm_withTold, if_pos room, State.formAlarm_withTold]
        have other : ∀ x ∈ rs, (updAt v r fun x => { x with unreported := false })[x] = v[x] := fun x hx =>
          updAt_other v r x _ (fun e => fresh (e ▸ hx))
        obtain ⟨w, state, records⟩ := ih once (updAt v r fun x => { x with unreported := false }) (q ++ [b.reportOf v (r, .state)])
        have same : rs.filter (fun x => ((updAt v r fun x => { x with unreported := false })[x]).unreported) =
            rs.filter fun x => v[x].unreported := List.filter_congr fun x hx => by rw [other x hx]
        have space : (b.withTold (updAt v r fun x => { x with unreported := false }) (q ++ [b.reportOf v (r, .state)])).alarmSpace =
            (b.withTold v q).alarmSpace - 1 := State.alarmSpace_alarm b _ v q _
        rw [same, space] at state records
        obtain ⟨n, hn⟩ : ∃ n, (b.withTold v q).alarmSpace = n + 1 := ⟨_, (Nat.sub_add_cancel room).symm⟩
        rw [hn, Nat.add_sub_cancel] at state records
        rw [hn, List.take_succ_cons]
        refine ⟨w, ?_, fun x => ?_⟩
        · rw [state, List.map_cons, List.append_assoc, List.singleton_append]
          congr 3
          refine List.map_congr_left fun x hx => State.reportOf_congr (other x ?_)
          exact (List.mem_filter.mp (List.mem_of_mem_take hx)).1
        · rw [records x]
          by_cases e : r = x
          · subst e
            have out : r ∉ (rs.filter fun x => v[x].unreported).take n := fun h =>
              fresh (List.mem_filter.mp (List.mem_of_mem_take h)).1
            rw [if_neg out, if_pos List.mem_cons_self, updAt_same]
          · rw [updAt_other v r x _ e]
            simp only [List.mem_cons, Ne.symm (a := r) (b := x) e, false_or]
      · rw [if_neg (fun h => room ((State.alarmRoom_iff _).mp h))]
        have none : (b.withTold v q).alarmSpace = 0 := by omega
        exact ⟨v, by simp [none], by simp [none]⟩
    · have first : (r :: rs).filter (fun x => v[x].unreported) = rs.filter fun x => v[x].unreported := List.filter_cons_of_neg flag
      rw [if_neg flag, first]
      exact ih once v q

/-! ### The moves of records and their offers (R122, R130, R131, R138) -/

/-- One record moved as `g` directs, and the report of the move offered. -/
def State.moveRecord (g : Fin 400 → AlarmRecord → RecordMove) (s : State) (r : Fin 400) : State :=
  match (g r s.alarms.records[r]).offer with
  | some type => (s.updRecord r fun x => (g r x).record).offerAlarm type r
  | none => s.updRecord r fun x => (g r x).record

/-- The reports that the moves of some records offer, in order. -/
def offers (g : Fin 400 → AlarmRecord → RecordMove) (v : Vector AlarmRecord 400) (rs : List (Fin 400)) : List (Fin 400 × AlarmReportType) :=
  rs.filterMap fun r => (g r v[r]).offer.map (r, ·)

/-- The record that a move leaves, of whose offers those in `told` entered the report queue (R136). -/
def RecordMove.settled (m : RecordMove) (r : Fin 400) (told : List (Fin 400 × AlarmReportType)) : AlarmRecord :=
  match m.offer with
  | none => m.record
  | some type =>
    if (r, type) ∈ told then { m.record with unreported := false }
    else if type = .raise ∨ type = .clear then { m.record with unreported := true } else m.record

theorem offers_cons (g : Fin 400 → AlarmRecord → RecordMove) (v : Vector AlarmRecord 400) (r : Fin 400) (rs : List (Fin 400)) :
    offers g v (r :: rs) = ((g r v[r]).offer.map (r, ·)).toList ++ offers g v rs := by
  simp only [offers, List.filterMap_cons]
  cases (g r v[r]).offer <;> rfl

theorem offers_congr {g : Fin 400 → AlarmRecord → RecordMove} {v w : Vector AlarmRecord 400} {rs : List (Fin 400)}
    (h : ∀ r ∈ rs, (g r v[r]).offer = (g r w[r]).offer) : offers g v rs = offers g w rs := by
  induction rs with
  | nil => rfl
  | cons r rs ih =>
    rw [offers_cons, offers_cons, h r List.mem_cons_self, ih fun x hx => h x (List.mem_cons_of_mem r hx)]

theorem RecordMove.settled_none {m : RecordMove} (h : m.offer = none) (r : Fin 400) (told : List (Fin 400 × AlarmReportType)) :
    m.settled r told = m.record := by simp only [RecordMove.settled, h]

theorem RecordMove.settled_some {m : RecordMove} {type : AlarmReportType} (h : m.offer = some type) (r : Fin 400)
    (told : List (Fin 400 × AlarmReportType)) :
    m.settled r told =
      if (r, type) ∈ told then { m.record with unreported := false }
      else if type = .raise ∨ type = .clear then { m.record with unreported := true } else m.record := by
  simp only [RecordMove.settled, h]

theorem mem_offers {g : Fin 400 → AlarmRecord → RecordMove} {v : Vector AlarmRecord 400} {rs : List (Fin 400)} {r : Fin 400}
    {type : AlarmReportType} : (r, type) ∈ offers g v rs ↔ r ∈ rs ∧ (g r v[r]).offer = some type := by
  simp only [offers, List.mem_filterMap, Option.map_eq_some_iff, Prod.mk.injEq]
  constructor
  · rintro ⟨x, hx, y, hy, rfl, rfl⟩; exact ⟨hx, hy⟩
  · rintro ⟨hr, h⟩; exact ⟨r, hr, type, h, rfl, rfl⟩

/-- What a run of moves can do: of the reports offered as many enter as find a place, in order (R136). -/
theorem State.foldl_moveRecord (b : State) (g : Fin 400 → AlarmRecord → RecordMove) (rs : List (Fin 400)) (once : rs.Nodup)
    (v : Vector AlarmRecord 400) (q : List Report) :
    ∃ w u : Vector AlarmRecord 400, (∀ r ∈ rs, u[r] = (g r v[r]).record) ∧
      rs.foldl (State.moveRecord g) (b.withTold v q) =
        b.withTold w (q ++ ((offers g v rs).take (b.withTold v q).alarmSpace).map (b.reportOf u)) ∧
      ∀ r : Fin 400, w[r] =
        if r ∈ rs then (g r v[r]).settled r ((offers g v rs).take (b.withTold v q).alarmSpace) else v[r] := by
  induction rs generalizing v q with
  | nil => exact ⟨v, v, by simp, by simp [offers], by simp⟩
  | cons r rs ih =>
    obtain ⟨fresh, once⟩ := List.nodup_cons.mp once
    rw [List.foldl_cons]
    -- whatever the record of `r` becomes, the rest of the run sees its own records as they were
    have rest : ∀ (v' : Vector AlarmRecord 400), (∀ x : Fin 400, r ≠ x → v'[x] = v[x]) → offers g v' rs = offers g v rs :=
      fun v' h => offers_congr fun x hx => by rw [h x (fun e => fresh (e ▸ hx))]
    have absent : ∀ type (n : Nat), (r, type) ∉ (offers g v rs).take n := fun type n h =>
      fresh (mem_offers.mp (List.mem_of_mem_take h)).1
    unfold State.moveRecord
    rw [State.withTold_records]
    rcases move : (g r v[r]).offer with _ | type
    · -- the move offers nothing
      have same : offers g v (r :: rs) = offers g v rs := by rw [offers_cons, move]; rfl
      have other := fun x (h : r ≠ x) => updAt_other v r x (fun x => (g r x).record) h
      obtain ⟨w, u, reported, state, records⟩ := ih once (updAt v r fun x => (g r x).record) q
      have space : (b.withTold (updAt v r fun x => (g r x).record) q).alarmSpace = (b.withTold v q).alarmSpace := rfl
      rw [rest _ other, space] at state records
      refine ⟨w, updAt u r fun _ => (g r v[r]).record, fun x hx => ?_, ?_, fun x => ?_⟩
      · by_cases e : r = x
        · subst e; exact updAt_same _ _ _
        · rw [updAt_other u r x _ e, reported x ((List.mem_cons.mp hx).resolve_left (Ne.symm e)), other x e]
      · rw [same]
        refine state.trans ?_
        congr 2
        refine List.map_congr_left fun m hm => State.reportOf_congr (updAt_other u r m.1 _ fun e => ?_).symm
        exact absent m.2 _ (by rw [e]; exact hm)
      · rw [records x, same]
        by_cases e : r = x
        · subst e
          rw [if_neg fresh, if_pos List.mem_cons_self, updAt_same]
          exact (RecordMove.settled_none move r _).symm
        · rw [other x e]
          simp only [List.mem_cons, Ne.symm (a := r) (b := x) e, false_or]
    · have first : offers g v (r :: rs) = (r, type) :: offers g v rs := by rw [offers_cons, move]; rfl
      have space : (b.withTold (updAt v r fun x => (g r x).record) q).alarmSpace = (b.withTold v q).alarmSpace := rfl
      simp only [State.withTold_updRecord]
      rw [State.offerAlarm_withTold, space, first]
      by_cases room : 0 < (b.withTold v q).alarmSpace
      · -- its report enters
        rw [if_pos room, State.formAlarm_withTold, updAt_updAt]
        have other := fun x (h : r ≠ x) => updAt_other v r x (fun x => { (g r x).record with unreported := false }) h
        obtain ⟨w, u, reported, state, records⟩ := ih once (updAt v r fun x => { (g r x).record with unreported := false })
          (q ++ [b.reportOf (updAt v r fun x => (g r x).record) (r, type)])
        have left : (b.withTold (updAt v r fun x => { (g r x).record with unreported := false })
            (q ++ [b.reportOf (updAt v r fun x => (g r x).record) (r, type)])).alarmSpace = (b.withTold v q).alarmSpace - 1 :=
          State.alarmSpace_alarm b _ v q _
        obtain ⟨n, hn⟩ : ∃ n, (b.withTold v q).alarmSpace = n + 1 := ⟨_, (Nat.sub_add_cancel room).symm⟩
        rw [rest _ other, left, hn, Nat.add_sub_cancel] at state records
        rw [hn, List.take_succ_cons]
        refine ⟨w, updAt u r fun _ => (g r v[r]).record, fun x hx => ?_, ?_, fun x => ?_⟩
        · by_cases e : r = x
          · subst e; exact updAt_same _ _ _
          · rw [updAt_other u r x _ e, reported x ((List.mem_cons.mp hx).resolve_left (Ne.symm e)), other x e]
        · refine state.trans ?_
          rw [List.map_cons, List.append_assoc, List.singleton_append]
          congr 3
          · exact State.reportOf_congr (by rw [updAt_same, updAt_same])
          · refine List.map_congr_left fun m hm => State.reportOf_congr (updAt_other u r m.1 _ fun e => ?_).symm
            exact absent m.2 _ (by rw [e]; exact hm)
        · rw [records x]
          by_cases e : r = x
          · subst e
            rw [if_neg fresh, if_pos List.mem_cons_self, updAt_same]
            rw [RecordMove.settled_some move, if_pos List.mem_cons_self]
          · rw [other x e]
            simp only [List.mem_cons, Ne.symm (a := r) (b := x) e, false_or]
            congr 1
            simp only [RecordMove.settled, List.mem_cons, Prod.mk.injEq, Ne.symm (a := r) (b := x) e, false_and, false_or]
      · -- no place is left, for it or for any after it
        have none : (b.withTold v q).alarmSpace = 0 := by omega
        rw [if_neg room, none]
        have after : ∀ f : AlarmRecord → AlarmRecord,
            ∃ w, rs.foldl (State.moveRecord g) (b.withTold (updAt v r f) q) = b.withTold w q ∧
              ∀ x : Fin 400, w[x] = if x ∈ rs then (g x v[x]).settled x [] else (updAt v r f)[x] := by
          intro f
          have other := fun x (h : r ≠ x) => updAt_other v r x f h
          obtain ⟨w, u, -, state, records⟩ := ih once (updAt v r f) q
          have space : (b.withTold (updAt v r f) q).alarmSpace = 0 := none
          rw [space, List.take_zero] at state records
          refine ⟨w, by rw [state, List.map_nil, List.append_nil], fun x => ?_⟩
          rw [records x]
          by_cases hx : x ∈ rs
          · rw [if_pos hx, if_pos hx, other x (fun e => fresh (e ▸ hx))]
          · rw [if_neg hx, if_neg hx]
        have finish : ∀ f : AlarmRecord → AlarmRecord, f v[r] = (g r v[r]).settled r [] →
            ∃ w u : Vector AlarmRecord 400, (∀ x ∈ r :: rs, u[x] = (g x v[x]).record) ∧
              rs.foldl (State.moveRecord g) (b.withTold (updAt v r f) q) =
                b.withTold w (q ++ (((r, type) :: offers g v rs).take 0).map (b.reportOf u)) ∧
              ∀ x : Fin 400, w[x] =
                if x ∈ r :: rs then (g x v[x]).settled x (((r, type) :: offers g v rs).take 0) else v[x] := by
          intro f here
          obtain ⟨w, state, records⟩ := after f
          refine ⟨w, mapAll (fun x y => (g x y).record) v, fun x _ => by simp, ?_, fun x => ?_⟩
          · rw [state, List.take_zero, List.map_nil, List.append_nil]
          · rw [records x, List.take_zero]
            by_cases e : r = x
            · subst e; rw [if_neg fresh, if_pos List.mem_cons_self, updAt_same, here]
            · rw [updAt_other v r x f e]
              simp only [List.mem_cons, Ne.symm (a := r) (b := x) e, false_or]
        by_cases loud : type = .raise ∨ type = .clear
        · rw [if_pos loud, updAt_updAt]
          exact finish _ (by rw [RecordMove.settled_some move, if_neg List.not_mem_nil]; simp only [loud, if_true])
        · rw [if_neg loud]
          exact finish _ (by rw [RecordMove.settled_some move, if_neg List.not_mem_nil]; simp only [loud, if_false])

/-! ### The sweep (R122) -/

/-- What step 2 of the sweep does with a record: the move of R130 and R131 for an enabled kind, nothing otherwise. -/
def sweepMove (h : SliceHandover) (b : State) (r : Fin 400) (x : AlarmRecord) : RecordMove :=
  if (b.alarms.policyOf r).enabled then x.move (b.alarms.policyOf r) b.time.houseTime (condition h b r) else { record := x, offer := none }

theorem updAt_id {α : Type} {n : Nat} (v : Vector α n) (i : Fin n) : updAt v i (fun x => x) = v := Vector.set_getElem_self i.isLt

theorem State.moveRecord_told (g : Fin 400 → AlarmRecord → RecordMove) (b : State) (v : Vector AlarmRecord 400) (q : List Report) (r : Fin 400) :
    ∃ (w : Vector AlarmRecord 400) (p : List Report), State.moveRecord g (b.withTold v q) r = b.withTold w p := by
  obtain ⟨w, _, -, state, -⟩ := State.foldl_moveRecord b g [r] (List.nodup_cons.mpr ⟨List.not_mem_nil, List.nodup_nil⟩) v q
  exact ⟨w, _, state⟩

theorem sweepRecord_eq (h : SliceHandover) (b : State) (v : Vector AlarmRecord 400) (q : List Report) (r : Fin 400) :
    sweepRecord h (b.withTold v q) r = State.moveRecord (sweepMove h b) (b.withTold v q) r := by
  unfold sweepRecord State.moveRecord
  rw [State.withTold_policyOf, condition_withTold, State.withTold_records, State.withTold_time]
  by_cases on : (b.alarms.policyOf r).enabled = true
  · rw [if_pos on]
    simp only [sweepMove, on, if_true]
    rfl
  · rw [if_neg on]
    simp only [sweepMove, on]
    exact congrArg (b.withTold · q) (updAt_id v r).symm

theorem foldl_sweepRecord_eq (h : SliceHandover) (b : State) (rs : List (Fin 400)) (v : Vector AlarmRecord 400) (q : List Report) :
    rs.foldl (sweepRecord h) (b.withTold v q) = rs.foldl (State.moveRecord (sweepMove h b)) (b.withTold v q) := by
  induction rs generalizing v q with
  | nil => rfl
  | cons r rs ih =>
    rw [List.foldl_cons, List.foldl_cons, sweepRecord_eq]
    obtain ⟨w, p, e⟩ := State.moveRecord_told (sweepMove h b) b v q r
    rw [e, ih]

/-- A move neither reads nor writes the unreported flag (R130, R131). -/
theorem AlarmRecord.move_unreported (x : AlarmRecord) (k : KindPolicy) (now : Word32) (holds c : Bool) :
    ({ x with unreported := c } : AlarmRecord).move k now holds =
      { x.move k now holds with record := { (x.move k now holds).record with unreported := c } } := by
  obtain ⟨state, count, repeatCount, repeatsDue, acknowledged, unreported, timeOfRaise⟩ := x
  cases state <;> cases holds <;>
    simp only [AlarmRecord.move, AlarmRecord.stayActive, AlarmRecord.endFall, AlarmRecord.raised, KindPolicy.repeatAt] <;>
    (repeat' split) <;> rfl

theorem sweepMove_unreported (h : SliceHandover) (b : State) (r : Fin 400) (x : AlarmRecord) (c : Bool) :
    sweepMove h b r { x with unreported := c } =
      { sweepMove h b r x with record := { (sweepMove h b r x).record with unreported := c } } := by
  unfold sweepMove
  split
  · exact AlarmRecord.move_unreported x _ _ _ c
  · rfl

theorem State.alarmSpace_reports (b : State) (v w : Vector AlarmRecord 400) (q : List Report) (as : List AlarmReport) :
    (b.withTold v (q ++ as.map .alarm)).alarmSpace = (b.withTold w q).alarmSpace - as.length := by
  induction as generalizing q with
  | nil => rw [List.map_nil, List.append_nil]; rfl
  | cons a as ih =>
    rw [List.map_cons, List.append_cons, ih, State.alarmSpace_alarm b w w, List.length_cons]
    omega

/-- What the first two steps of a sweep can do (R122, R136, R137): the STATE reports of the unreported records and then the reports of the
moves are offered, each in index order, and as many enter as find a place. -/
theorem State.sweep_told (h : SliceHandover) (s : State) :
    let v := s.alarms.records
    let again := (List.finRange 400).filter fun r => v[r].unreported
    let moves := offers (sweepMove h s) v (List.finRange 400)
    let told := again.take s.alarmSpace
    let moved := moves.take (s.alarmSpace - again.length)
    ∃ w : Vector AlarmRecord 400,
      s.sweep h =
        (s.withTold w (s.processor.reports ++ told.map (fun r => s.reportOf v (r, .state)) ++
          moved.map (s.reportOf (mapAll (fun r x => (sweepMove h s r x).record) v)))).clearOverruns.formLines ∧
      ∀ r : Fin 400, w[r] =
        (sweepMove h s r (if r ∈ told then { v[r] with unreported := false } else v[r])).settled r moved := by
  intro v again moves told moved
  obtain ⟨v', state', records'⟩ := reoffer_withTold s (List.finRange 400) (List.nodup_finRange 400) v s.processor.reports
  obtain ⟨w, u, reported, state, records⟩ := State.foldl_moveRecord s (sweepMove h s) (List.finRange 400) (List.nodup_finRange 400) v'
    (s.processor.reports ++ told.map fun r => s.reportOf v (r, .state))
  have same : ∀ r : Fin 400, ∃ c, v'[r] = { v[r] with unreported := c } := fun r => by
    rw [records' r]; split
    · exact ⟨false, rfl⟩
    · exact ⟨v[r].unreported, rfl⟩
  have offered : offers (sweepMove h s) v' (List.finRange 400) = moves := by
    refine offers_congr fun r _ => ?_
    obtain ⟨c, e⟩ := same r
    rw [e, sweepMove_unreported]
  have left : (s.withTold v' (s.processor.reports ++ told.map fun r => s.reportOf v (r, .state))).alarmSpace =
      s.alarmSpace - again.length := by
    have e : told.map (fun r => s.reportOf v (r, .state)) = (told.map fun r => (s.withTold v []).formAlarm .state r).map .alarm := by
      rw [List.map_map]; rfl
    rw [e, State.alarmSpace_reports s v' v, List.length_map, List.length_take]
    change s.alarmSpace - _ = _
    omega
  rw [offered, left] at state records
  refine ⟨w, ?_, fun r => ?_⟩
  · have first : reoffer (List.finRange 400) s = s.withTold v' (s.processor.reports ++ told.map fun r => s.reportOf v (r, .state)) :=
      state'
    rw [← foldl_sweepRecord_eq, ← first] at state
    rw [State.sweep, state]
    refine congrArg (fun q => (s.withTold w (s.processor.reports ++ told.map (fun r => s.reportOf v (r, .state)) ++ q)).clearOverruns.formLines)
      (List.map_congr_left fun m _ => ?_)
    obtain ⟨c, e⟩ := same m.1
    refine State.reportOf_unreported (c := c) ?_
    rw [reported m.1 (List.mem_finRange m.1), e, sweepMove_unreported]
    simp only [Fin.getElem_fin, mapAll_getElem]
  · rw [records r, if_pos (List.mem_finRange r), records' r]
    rfl

/-! ### A run of CLEAR reports (R132, R138) -/

theorem foldl_offerClear_eq (b : State) (rs : List (Fin 400)) (v : Vector AlarmRecord 400) (q : List Report) :
    rs.foldl (fun s r => s.offerAlarm .clear r) (b.withTold v q) =
      rs.foldl (State.moveRecord fun _ x => { record := x, offer := some .clear }) (b.withTold v q) := by
  induction rs generalizing v q with
  | nil => rfl
  | cons r rs ih =>
    have one : (b.withTold v q).offerAlarm .clear r =
        State.moveRecord (fun _ x => { record := x, offer := some .clear }) (b.withTold v q) r :=
      congrArg (fun v => (b.withTold v q).offerAlarm .clear r) (updAt_id v r).symm
    rw [List.foldl_cons, List.foldl_cons, one]
    obtain ⟨w, p, e⟩ := State.moveRecord_told (fun _ x => { record := x, offer := some .clear }) b v q r
    rw [e, ih]

/-- What an offer of CLEAR reports can do (R136): the first that find a place enter, and the other records become unreported. -/
theorem State.offerClears_told (s : State) (rs : List (Fin 400)) (once : rs.Nodup) :
    ∃ w : Vector AlarmRecord 400,
      s.offerClears rs =
        s.withTold w (s.processor.reports ++ (rs.take s.alarmSpace).map fun r => s.reportOf s.alarms.records (r, .clear)) ∧
      ∀ r : Fin 400, w[r] =
        if r ∈ rs then { s.alarms.records[r] with unreported := decide (r ∉ rs.take s.alarmSpace) } else s.alarms.records[r] := by
  obtain ⟨w, u, reported, state, records⟩ := State.foldl_moveRecord s (fun _ x => { record := x, offer := some .clear }) rs once
    s.alarms.records s.processor.reports
  have all : offers (fun _ x => { record := x, offer := some .clear }) s.alarms.records rs = rs.map fun r => (r, AlarmReportType.clear) := by
    simp only [offers, Option.map_some, List.filterMap_eq_map']
  have place : (s.withTold s.alarms.records s.processor.reports).alarmSpace = s.alarmSpace := rfl
  rw [all, place, ← List.map_take] at state records
  refine ⟨w, ?_, fun r => ?_⟩
  · refine (foldl_offerClear_eq s rs s.alarms.records s.processor.reports).trans (state.trans ?_)
    rw [List.map_map]
    refine congrArg (fun q => s.withTold w (s.processor.reports ++ q)) (List.map_congr_left fun r hr => State.reportOf_congr ?_)
    exact reported r (List.mem_of_mem_take hr)
  · rw [records r]
    have inside : (r, AlarmReportType.clear) ∈ (rs.take s.alarmSpace).map (fun r => (r, AlarmReportType.clear)) ↔ r ∈ rs.take s.alarmSpace :=
      List.mem_map.trans ⟨fun ⟨_, hx, e⟩ => (Prod.mk.inj e).1 ▸ hx, fun h => ⟨r, h, rfl⟩⟩
    by_cases member : r ∈ rs
    · rw [if_pos member, if_pos member, RecordMove.settled_some rfl]
      by_cases h : r ∈ rs.take s.alarmSpace
      · rw [if_pos (inside.mpr h)]; simp [h]
      · rw [if_neg fun e => h (inside.mp e)]; simp [h]
    · rw [if_neg member, if_neg member]

end Sys2Proof.Machine
end

