-- ==== Sys2Proof/Laws/Words.lean ====
section
/-! SUPPORT. Words and numbers as octets: what is written reads back (R183, R185). -/

namespace Sys2Proof.Machine

theorem field4_extract (w : Word32) :
    field4 (w.extractLsb' 24 8) (w.extractLsb' 16 8) (w.extractLsb' 8 8) (w.extractLsb' 0 8) = w := by
  apply BitVec.eq_of_getLsbD_eq
  intro i hi
  simp only [field4, BitVec.getLsbD_append, BitVec.getLsbD_extractLsb']
  rcases Nat.lt_or_ge i 8 with h | h
  · simp [h]
  rcases Nat.lt_or_ge i 16 with h2 | h2
  · simp [show ¬ i < 8 by omega, show i - 8 < 8 by omega, show 8 + (i - 8) = i by omega]
  rcases Nat.lt_or_ge i 24 with h3 | h3
  · simp [show ¬ i < 8 by omega, show ¬ i - 8 < 8 by omega, show i - 8 - 8 < 8 by omega, show 16 + (i - 8 - 8) = i by omega]
  · simp [show ¬ i < 8 by omega, show ¬ i - 8 < 8 by omega, show ¬ i - 8 - 8 < 8 by omega, show i - 8 - 8 - 8 < 8 by omega,
      show 24 + (i - 8 - 8 - 8) = i by omega]

theorem field2_extract (x : BitVec 16) : field2 (x.extractLsb' 8 8) (x.extractLsb' 0 8) = x := by
  apply BitVec.eq_of_getLsbD_eq
  intro i hi
  simp only [field2, BitVec.getLsbD_append, BitVec.getLsbD_extractLsb']
  rcases Nat.lt_or_ge i 8 with h | h
  · simp [h]
  · simp [show ¬ i < 8 by omega, show i - 8 < 8 by omega, show 8 + (i - 8) = i by omega]

/-- A list of words written as octets reads back. -/
theorem octetWords_flatMap (ws : List Word32) : octetWords (ws.flatMap wordOctets) = ws := by
  induction ws with
  | nil => rfl
  | cons w ws ih =>
    have h := field4_extract w
    simp only [field4] at h
    simp only [List.flatMap_cons, wordOctets, List.cons_append, List.nil_append, octetWords, ih, h]

theorem octetsOf_length (n x : Nat) : (octetsOf n x).length = n := by
  induction n with
  | zero => rfl
  | succ n ih => simp [octetsOf, ih]

theorem numberOf_foldl (bs : List Byte) (a : Nat) :
    bs.foldl (fun acc b => 256 * acc + b.toNat) a = 256 ^ bs.length * a + numberOf bs := by
  induction bs generalizing a with
  | nil => simp [numberOf]
  | cons b bs ih =>
    have h0 := ih b.toNat
    simp only [numberOf, List.foldl_cons, List.length_cons, Nat.mul_zero, Nat.zero_add] at h0 ⊢
    rw [ih, h0, Nat.pow_succ, Nat.mul_add]
    simp only [numberOf, Nat.mul_assoc, Nat.add_assoc]

/-- A number that fits its octets reads back (R183). -/
theorem numberOf_octetsOf (n x : Nat) (h : x < 256 ^ n) : numberOf (octetsOf n x) = x := by
  suffices ∀ n x, numberOf (octetsOf n x) = x % 256 ^ n by rw [this, Nat.mod_eq_of_lt h]
  intro n
  induction n with
  | zero => intro x; simp [octetsOf, numberOf, Nat.mod_one]
  | succ n ih =>
    intro x
    have e : numberOf (octetsOf (n + 1) x) = 256 ^ n * (x / 256 ^ n % 256) + numberOf (octetsOf n x) := by
      have := numberOf_foldl (octetsOf n x) (x / 256 ^ n % 256)
      rw [octetsOf_length] at this
      rw [← this]
      simp [octetsOf, numberOf]
    rw [e, ih, Nat.pow_succ]
    have := Nat.mod_mul (x := x) (a := 256 ^ n) (b := 256)
    omega

theorem sampleOctets_samples (xs : List Sample) : samplesOf (xs.flatMap sampleOctets) = xs := by
  induction xs with
  | nil => rfl
  | cons x xs ih =>
    have h : x.extractLsb' 16 8 ++ x.extractLsb' 8 8 ++ x.extractLsb' 0 8 = x := by
      apply BitVec.eq_of_getLsbD_eq
      intro i hi
      simp only [BitVec.getLsbD_append, BitVec.getLsbD_extractLsb']
      rcases Nat.lt_or_ge i 8 with h | h
      · simp [h]
      rcases Nat.lt_or_ge i 16 with h2 | h2
      · simp [show ¬ i < 8 by omega, show i - 8 < 8 by omega, show 8 + (i - 8) = i by omega]
      · simp [show ¬ i < 8 by omega, show ¬ i - 8 < 8 by omega, show i - 8 - 8 < 8 by omega, show 16 + (i - 8 - 8) = i by omega]
    simp only [List.flatMap_cons, sampleOctets, List.cons_append, List.nil_append, samplesOf, ih, h]

/-- Frames of one width laid end to end are told apart again. -/
theorem framesOf_flatten (width : Nat) (frames : List (List Sample)) (h : ∀ f ∈ frames, f.length = width) :
    framesOf frames.length width frames.flatten = frames := by
  induction frames with
  | nil => rfl
  | cons f fs ih =>
    have hf : f.length = width := h f (List.mem_cons_self ..)
    simp only [List.length_cons, framesOf, List.flatten_cons]
    rw [List.take_left' hf, List.drop_left' hf, ih fun g hg => h g (List.mem_cons_of_mem _ hg)]

end Sys2Proof.Machine
end

