-- ==== Sys2Proof/Laws/Taking.lean ====
section
/-! SUPPORT. A command that finds the command processor idle is taken at once (R167): what the REPLY statements rest on. -/

namespace Sys2Proof.Machine

@[simp] theorem State.setCommands_setCommands (s : State) (a b : List ControlBurst) : (s.setCommands a).setCommands b = s.setCommands b := rfl

theorem State.setCommands_self (s : State) (h : s.processor.commands = []) : s.setCommands [] = s := by
  cases s with
  | mk _ _ _ _ _ _ _ _ _ _ processor _ =>
    cases processor
    simp_all [State.setCommands]

/-- A CONTROL burst that reaches an idle command processor is taken at once. -/
theorem State.intake_idle {s : State} (h : s.Idle) (b : ControlBurst) : s.intake b = s.takeCommand b := by
  obtain ⟨takes, none⟩ := h
  have entered : s.enqueue b = s.setCommands [b] := by simp [State.enqueue, none]
  have ready : (s.setCommands [b]).takesNow = true := takes
  rw [State.intake, entered, State.drain]
  change (if (s.setCommands [b]).takesNow = true then (s.setCommands []).takeCommand b else s.setCommands [b]) = s.takeCommand b
  rw [if_pos ready, s.setCommands_self none]

/-- An idle processor has room for a REPLY. -/
theorem State.Idle.room {s : State} (h : s.Idle) : s.reportRoom = true := by
  have := h.1
  simp only [State.takesNow, Bool.and_eq_true] at this
  exact this.2

/-- A judgement without reports of its own leaves its state with the REPLY at the tail of the report queue. -/
theorem Judged.answer_plain (j : Judged) (b : ControlBurst) (h : j.after = []) :
    j.answer b = j.state.pushReport (.reply (replyOf b j)) := by simp [Judged.answer, h]

end Sys2Proof.Machine
end

