-- ==== Sys2Proof/Tests/Slice0.lean ====
section
/-! SUPPORT. Tests: well-formedness refuses ill-formed terms, worked examples of the spec, and for each statement with hypotheses a
concrete state and operands that meet them. -/

namespace Sys2Proof.Tests

set_option Elab.async false

open Sys2Proof.Machine

/-! ### Helpers -/

def boss : Sender := { originator := 0, tag := 7 }

def stranger : Sender := { originator := 9, tag := 7 }

/-- The state that a command leaves. -/
def after (i : Instr) (s : State) : State :=
  match exec i s with
  | .next t => t
  | _ => s

/-- The result and the items of the REPLY that a command adds. -/
def answered (i : Instr) (s : State) : Option (CommandResult × List Byte) :=
  match (after i s).processor.reports.getLast? with
  | some (.reply r) => some (r.result, r.items)
  | _ => none

def withTime (g : Timebase → Timebase) : State := { State.reset with time := g State.reset.time }

def withProgramme (g : Programme → Programme) : State := State.reset.updProgramme 0 g

def withFeed (g : Feed → Feed) : State := State.reset.updFeed 0 g

def withReceiver (g : Receiver → Receiver) : State := State.reset.updReceiver 0 g

/-- The free-page list without page 0. -/
def restOfPages : List Page := (List.finRange 16383).map Fin.succ

/-- Programme 0 in a store state, owning page 0. -/
def owning (state : StoreState) : State :=
  ({ State.reset with store := { DelayStore.initial with freeList := restOfPages } }).updProgramme 0 fun p =>
    { p with store := { p.store with state := state, pages := [0] } }

def live : State := owning .running

/-! ### Well-formedness -/

def sampleBurst : SampleBurst := { stream := 0, channels := 2, frames := [[1, 2]], capture := none }

def controlBurst : ControlBurst :=
  { destination := 0, originator := 0, tag := 1, code := 20, form := 0, spare := [0, 0, 0, 0], params := [] }

def reportBurst : ReportBurst := { station := 1, reportType := 1, digest := 0, spare := [0, 0, 0, 0, 0, 0], body := [1] }

theorem test_wf_houseFrame : (Instr.houseFrame [0, 0]).wellFormed = false ∧ (Instr.houseFrame [1, 0]).wellFormed = true := by decide +kernel

theorem test_wf_sampleBurst : (Instr.sampleBurst 0 { sampleBurst with stream := 8 }).wellFormed = false ∧
    (Instr.sampleBurst 0 { sampleBurst with frames := [[1]] }).wellFormed = false ∧
    (Instr.sampleBurst 0 { sampleBurst with frames := [] }).wellFormed = false ∧
    (Instr.sampleBurst 0 { sampleBurst with channels := 33 }).wellFormed = false ∧
    (Instr.sampleBurst 0 sampleBurst).wellFormed = true := by decide +kernel

theorem test_wf_controlBurst : (Instr.controlBurst 0 { controlBurst with params := List.replicate 257 0 }).wellFormed = false ∧
    (Instr.controlBurst 0 { controlBurst with spare := [0] }).wellFormed = false ∧
    (Instr.controlBurst 0 controlBurst).wellFormed = true := by decide +kernel

theorem test_wf_reportBurst : (Instr.reportBurst 0 { reportBurst with body := List.replicate 4609 0 }).wellFormed = false ∧
    (Instr.reportBurst 0 { reportBurst with spare := [0] }).wellFormed = false ∧
    (Instr.reportBurst 0 reportBurst).wellFormed = true := by
  decide +kernel

theorem test_wf_unknownCommand : (Instr.unknownCommand boss 20 0 []).wellFormed = false ∧
    (Instr.unknownCommand boss 22 0 (List.replicate 257 0)).wellFormed = false ∧
    (Instr.unknownCommand boss 20 1 []).wellFormed = true ∧ (Instr.unknownCommand boss 22 0 [3]).wellFormed = true := by decide +kernel

theorem test_wf_load : (Instr.load boss 4 0 (List.replicate 254 0)).wellFormed = false ∧
    (Instr.load boss 4 0 [9]).wellFormed = true := by decide +kernel

theorem test_wf_take : (Instr.take boss 0 1 0 0 (List.replicate 63 ⟨0, 0, 0, 0⟩)).wellFormed = false ∧
    (Instr.take boss 0 1 0 0 [⟨0, 0, 0, 0⟩]).wellFormed = true := by decide +kernel

/-! ### Worked examples of the spec -/

/-- 3.10: ALLOCATE P1 with 1,000 frames takes 8 pages and gives L = 1,024. -/
theorem test_allocate_1000 : answered (.allocate boss 1 1000) State.reset = some (.done, [0, 0, 0, 8, 0, 0, 4, 0]) := by decide +kernel

/-- 3.10: RETIRE of an owned page names its owner, and RETIRE of a free page parks it. -/
theorem test_retire : answered (.retire boss 0) live = some (.done, [0, 0, 0, 2, 0, 0, 0, 0]) ∧
    (after (.retire boss 3) live).store.retired = [3] ∧ (after (.retire boss 3) live).store.freeList.length = 16382 := by decide +kernel

/-- Originator 2, the LEVEL holds and the group write of 10.6. -/
def contested : State :=
  let s := { State.reset with processor := { State.reset.processor with
    originators := updAt State.reset.processor.originators 2 fun _ =>
      { enabled := true, rights := (Vector.replicate 7 false).set 2 true, priority := 4 } } }
  let hold := fun (v : Fin 8) (p : Programme) => { p with holds := { p.holds with level := v } }
  ((s.updProgramme 1 (hold 5)).updProgramme 2 (hold 4)).updProgramme 3 (hold 2)

/-- 10.6: GROUP SET of the target bin to 300 for P0 to P3 is OUTRANKED for P1 and stores 255 for the others. -/
theorem test_group_write :
    answered (.groupSet { originator := 2, tag := 1 } 15 6 300) contested = some (.outranked, [0, 13, 1, 3]) ∧
    ((List.finRange 4).map fun p : Fin 4 =>
      ((after (.groupSet { originator := 2, tag := 1 } 15 6 300) contested).programmes[p.val].level.target,
        (after (.groupSet { originator := 2, tag := 1 } 15 6 300) contested).programmes[p.val].holds.level.val)) =
      [(255, 4), (150, 5), (255, 4), (255, 4)] := by decide +kernel

/-- 10.6: originator 0 releases the hold of P1 and is told that it was 5. -/
theorem test_release_hold : answered (.releaseHold boss 1 2) contested = some (.done, [0, 0, 0, 5]) := by decide +kernel

/-- R22: the power-on kernel is linear interpolation, and the code of the tap of branch 0 stands for 131,072. -/
theorem test_linear_taps : (initialBranch 0).map tapValue = [0, 0, 0, 0, 0, 0, 0, 131072, 0, 0, 0, 0, 0, 0, 0, 0] ∧
    tapValue (BitVec.ofNat 18 (131072 - 1024 * 127)) = 1024 := by decide +kernel

/-- 11.3, R47: a word of sample 1 under epoch 2 has an even number of ones. -/
theorem test_delay_word : packWord { sample := 1, epoch := 2, substituted := false } = 0x02000001 ∧
    packWord { sample := 0, epoch := 0, substituted := true } = 0x84000000 := by decide +kernel

/-- R62: house time 2 is at or after house time 4,294,967,295, and not the other way about. -/
theorem test_house_time_wraps : atOrAfter 2 0xFFFFFFFF = true ∧ atOrAfter 0xFFFFFFFF 2 = false := by decide +kernel

/-- R184: a GROUP SET in the group form is UNKNOWN, and a STATUS with a parameter octet is BAD VALUE. -/
theorem test_unknown_and_length : answered (.unknownCommand boss 2 1 []) State.reset = some (.unknown, []) ∧
    answered (.unknownCommand boss 20 0 [0]) State.reset = some (.badValue, []) := by decide +kernel

/-! ### Witnesses: states and operands that meet the hypotheses of the statements -/

/-- StepTakesTheFrontCommand: both clauses. -/
theorem witness_step : (State.reset.withPending [.referenceEdge]).pending = .referenceEdge :: [] ∧ State.reset.pending = [] := by
  decide +kernel

/-- CommandsDecodeAsEncoded: the longest TAKE and LOAD, and a command without parameters. -/
theorem witness_fits : (Command.take 0 1 0 0 (List.replicate 62 ⟨0, 0, 0, 0⟩)).fits = true ∧
    (Command.load 3 0 (List.replicate 252 1)).fits = true ∧ (Command.load 6 39 [0, 0, 1]).fits = true ∧
    Command.readFault.fits = true := by decide +kernel

/-- GoodBurstsAreJudgedGood: each kind, at the ends of its lengths. -/
theorem witness_good_bursts : burstGood (.sample sampleBurst) = true ∧
    burstGood (.sample { stream := 7, channels := 32, frames := List.replicate 48 (List.replicate 32 5), capture := some 3 }) = true ∧
    burstGood (.control { controlBurst with params := List.replicate 256 1 }) = true ∧
    burstGood (.report { reportBurst with body := List.replicate 4608 1 }) = true ∧
    burstGood (.report { reportBurst with body := [] }) = true := by decide +kernel

/-- GoodBurstsAreJudgedGood: octets judged good of each kind, and octets that a wrong check word, length, kind or stream makes bad. -/
theorem witness_judged_octets :
    let octets := burstOctets (.control controlBurst)
    let sealed := fun content : List Byte => content ++ octets16 (checkWord content)
    judgeBurst octets = some (.control controlBurst) ∧ judgeBurst (burstOctets (.sample sampleBurst)) = some (.sample sampleBurst) ∧
    judgeBurst (burstOctets (.report reportBurst)) = some (.report reportBurst) ∧ judgeBurst (octets.set 12 0) = none ∧
    judgeBurst (sealed [2, 0, 1, 0, 0, 0, 0, 0, 0, 0, 0, 0]) = none ∧ judgeBurst (sealed [4, 0, 0, 0, 0, 0, 0, 0, 0, 0, 0, 0]) = none ∧
    judgeBurst (sealed [1, 0, 3, 8, 1, 1, 0, 0, 0, 0, 0, 0, 1, 2, 3]) = none := by decide +kernel

/-- DelayWordsHoldTheirFields: even and odd words, and the last bit. -/
theorem witness_words : ones (0 : Word32) % 2 = 0 ∧ ones (1 : Word32) % 2 = 1 ∧ 31 < 32 := by decide +kernel

theorem witness_nothing_due : State.reset.NothingDue ∧ State.reset.slotsHold = true ∧ State.reset.NoLoop ∧
    State.reset.WindowsOpened ∧ ∀ n, State.reset.silenceEnds n = false := by
  unfold State.NothingDue State.NoLoop State.WindowsOpened; decide +kernel

/-- The house frame statements with a RUNNING programme, its write and fetch slots in its page. -/
theorem witness_live : live.NothingDue ∧ live.slotsHold = true ∧ live.programmes[(0 : Fin 16)].running = true ∧
    live.programmes[(0 : Fin 16)].store.place 0 = some (0, 0) ∧
    live.programmes[(0 : Fin 16)].store.place live.programmes[(0 : Fin 16)].fetchSlot = some (0, 127) := by
  unfold State.NothingDue; decide +kernel

/-- A programme that is RUNNING without pages: its write index names no slot. -/
theorem witness_no_slot : (withProgramme fun p => { p with store := { p.store with state := .running } }).NothingDue ∧
    (withProgramme fun p => { p with store := { p.store with state := .running } }).slotsHold = false := by
  unfold State.NothingDue; decide +kernel

theorem restOfPages_spec : restOfPages.Nodup ∧ (∀ n : Page, n ∈ restOfPages ↔ n ≠ 0) ∧ restOfPages.length = 16383 := by
  refine ⟨(List.nodup_finRange _).map (Fin.succ_injective _), fun n => ?_, by simp [restOfPages]⟩
  simp only [restOfPages, List.mem_map, List.mem_finRange, true_and]
  exact ⟨fun ⟨a, h⟩ => h ▸ Fin.succ_ne_zero a, fun h => Fin.exists_succ_eq.mpr h⟩

theorem owning_pages (state : StoreState) : (owning state).ownedPages = [0] := by
  cases state <;> decide +kernel

/-- The page law holds of a state in which a programme owns a page. -/
theorem witness_page_law (state : StoreState) (h : state ≠ .unallocated) : (owning state).PageLaw := by
  obtain ⟨nodup, mem, length⟩ := restOfPages_spec
  have free : (owning state).store.freeList = restOfPages := by simp only [owning, State.updProgramme]
  have retired : (owning state).store.retired = [] := by simp only [owning, State.updProgramme, DelayStore.initial]
  refine ⟨?_, ?_, ?_, ?_, ?_, ?_⟩
  · rw [owning_pages, free]
    exact List.nodup_append.mpr ⟨nodup, by simp, fun a ha b hb => by simp at hb; subst hb; exact (mem a).mp ha⟩
  · intro n _; rw [retired]; simp
  · intro n hf ho
    rw [owning_pages] at ho
    rw [free] at hf
    exact absurd ((mem n).mpr (by simpa using ho)) hf
  · rw [retired]; exact List.nodup_nil
  · have : ∀ p : Fin 16, (owning .running).programmes[p].store.state = .unallocated →
        (owning .running).programmes[p].store.pages = [] := by decide +kernel
    have clearing : ∀ p : Fin 16, (owning .clearing).programmes[p].store.state = .unallocated →
        (owning .clearing).programmes[p].store.pages = [] := by decide +kernel
    cases state with
    | unallocated => exact absurd rfl h
    | clearing => exact clearing
    | running => exact this
  · rw [owning_pages, free, length, State.parkedCount, retired]; simp

/-- A step of a state in which a programme owns a page. -/
theorem witness_page_step (state : StoreState) : step (owning state) = .next (owning state) := rfl

/-- HouseFrameRecordsParityFaults: a word with an odd number of ones in the slot fetched, and a valid record with the largest count. -/
def faulty : State := { live with store := { live.store with memory := [(4067, 1)] } }

theorem witness_parity :
    faulty.store.readSlot faulty.programmes[(0 : Fin 16)].store 127 = 0x84000001 :: List.replicate 7 0x84000000 := by decide +kernel

theorem witness_parity_words : ones (0x84000001 : Word32) % 2 = 1 ∧ ones (0x84000000 : Word32) % 2 = 0 ∧
    faulty.programmes[(0 : Fin 16)].fetchSlot = 127 ∧ faulty.store.fault.valid = false ∧
    (∀ q : Fin 16, q ≠ 0 → faulty.programmes[q].running = false) := by decide +kernel

/-- A store whose fetched words all pass parity. -/
theorem witness_no_fault :
    live.store.readSlot live.programmes[(0 : Fin 16)].store 127 = List.replicate 8 0x84000000 := by decide +kernel

theorem witness_full_record :
    ({ State.reset with store := { State.reset.store with fault := { State.reset.store.fault with valid := true, further := 255 } } } :
      State).store.fault.further ≤ 255 := by decide +kernel

/-! Boundaries, servo events and slice ends. -/

theorem witness_boundary : (withTime fun t => { t with boundaryDue := true }).time.boundaryDue = true ∧
    (withTime fun t => { t with boundaryDue := true }).WindowsOpened ∧ State.reset.time.boundaryDue = false := by
  unfold State.WindowsOpened; decide +kernel

theorem witness_clearing : (owning .clearing).programmes[(0 : Fin 16)].store.state = .clearing ∧
    ((owning .clearing).programmes[(0 : Fin 16)].store.pages.drop (owning .clearing).programmes[(0 : Fin 16)].store.cleared).take 32 =
      [0] ∧ ({ owning .clearing with time := { State.reset.time with boundaryDue := true } } : State).WindowsOpened := by
  unfold State.WindowsOpened; decide +kernel

theorem witness_servo : (withTime fun t => { t with servoDue := true }).time.servoDue = true ∧ State.reset.time.servoDue = false ∧
    State.reset.feeds[(0 : Fin 8)].record.rmin ≤ State.reset.feeds[(0 : Fin 8)].record.rmax ∧
    (withFeed fun x => { x with context := { x.context with state := .acquiring } }).feeds[(0 : Fin 8)].context.state = .acquiring := by
  decide +kernel

theorem witness_slice : (withTime fun t => { t with sliceDue := true, sliceFrames := 4800 }).time.sliceDue = true ∧
    State.reset.time.sliceDue = false ∧ live.programmes[(0 : Fin 16)].running = true ∧
    live.programmes[(0 : Fin 16)].level.gainMode = .fixed := by decide +kernel

/-- A meter whose next slice makes four unvoided slices above the gate: the histogram and the integrated level form. -/
def sounding : MeterContext :=
  { MeterContext.initial with ring := List.replicate 3 { power := 6553600, void := false }, powerSum := 4800 * 6553600, measured := 4800 }

theorem witness_measured : (sounding.slice Tables.initial.levels 40 40 4800).momentary = some 100 ∧
    (sounding.slice Tables.initial.levels 40 40 4800).nAbs = 1 ∧ (sounding.slice Tables.initial.levels 40 40 4800).integrated = some 100 ∧
    (sounding.slice Tables.initial.levels 101 40 4800).nAbs = 0 ∧
    (MeterContext.initial.slice Tables.initial.levels 40 40 4800).momentary = none := by decide +kernel

theorem witness_ride :
    (withProgramme fun p => { p with level := { p.level with gainMode := .ride, logInterval := 1 } }).programmes[(0 : Fin 16)].level.gainMode
      = .ride ∧
    (withProgramme fun p => { p with level := { p.level with logInterval := 600 } }).programmes[(0 : Fin 16)].level.logInterval = 600 := by
  decide +kernel

/-- The REFERENCE record, 396, with its condition true after reset. -/
def alarmed (g : AlarmRecord → AlarmRecord) (k : KindPolicy → KindPolicy) (reference : ReferenceState) : State :=
  { State.reset with
    time := { State.reset.time with sliceDue := true, reference := reference }
    alarms := { AlarmUnit.initial with
      records := updAt AlarmUnit.initial.records 396 g
      policies := updAt AlarmUnit.initial.policies 14 k } }

theorem witness_raise :
    let s := alarmed id (fun k => { k with raiseCount := 1 }) .absent
    s.time.sliceDue = true ∧ condition s.handover (s.atSweep .sweepWriteStep) 396 = true ∧ (s.alarms.policyOf 396).enabled = true ∧
      s.alarms.records[(396 : Fin 400)].state = .clear ∧ (s.alarms.policyOf 396).raiseCount ≤ 1 := by decide +kernel

theorem witness_fall :
    let s := alarmed (fun x => { x with state := .falling, count := 2 }) id .present
    condition s.handover (s.atSweep .sweepWriteStep) 396 = false ∧ (s.alarms.policyOf 396).enabled = true ∧
      s.alarms.records[(396 : Fin 400)].state = .falling ∧ (s.alarms.policyOf 396).clearCount ≤ 3 := by decide +kernel

theorem witness_repeat :
    let s := alarmed (fun x => { x with state := .active, repeatCount := 4 }) (fun k => { k with repeatInterval := 5 }) .absent
    condition s.handover (s.atSweep .sweepWriteStep) 396 = true ∧ s.alarms.records[(396 : Fin 400)].state = .active ∧
      s.alarms.records[(396 : Fin 400)].acknowledged = false ∧ (s.alarms.policyOf 396).repeatInterval = 5 := by decide +kernel

theorem witness_disabled : ((alarmed id (fun k => { k with enabled := false }) .absent).alarms.policyOf 396).enabled = false := by
  decide +kernel

/-- A void slice marks a programme that writes no entries (R95). -/
theorem test_void_mark :
    ({ live with time := { live.time with sliceFrames := 4800 } } : State).formSlices.programmes[(0 : Fin 16)].meter.voidMark = true ∧
    live.programmes[(0 : Fin 16)].level.logInterval = 0 := by decide +kernel

/-- One place left in the report queue, for three unreported records and a raise. -/
def untold : State :=
  let s := alarmed id (fun k => { k with raiseCount := 1 }) .absent
  { s with
    alarms := { s.alarms with records := mapAll (fun r x => { x with unreported := decide (397 ≤ r.val) }) s.alarms.records }
    processor := { s.processor with
      reports := List.replicate 31 (.reply { tag := 7, originator := 0, code := 20, form := 0, result := .done, items := [] }) } }

/-- The first STATE report takes the place; the raise after it leaves its record unreported (R136, R137). -/
theorem test_reoffer : untold.alarmSpace = 1 ∧
    let t := [396, 397].foldl (sweepRecord untold.handover) (reoffer [396, 397, 398] untold)
    t.processor.reports.length = 32 ∧ t.alarms.records[(397 : Fin 400)].unreported = false ∧
    t.alarms.records[(398 : Fin 400)].unreported = true ∧ t.alarms.records[(396 : Fin 400)].unreported = true := by decide +kernel

/-! The reference and the receivers. -/

theorem witness_reference : State.reset.time.reference = .absent ∧ (withTime fun t => { t with edgeCount := 46 }).time.edgeCount < 47 ∧
    47 ≤ (withTime fun t => { t with edgeCount := 47 }).time.edgeCount ∧
    (withTime fun t => { t with reference := .present, gapCount := 95 }).time.gapCount = 95 ∧
    (withTime fun t => { t with reference := .present, gapCount := 95 }).time.gapTaken = false := by decide +kernel

theorem witness_receiver :
    (∀ n : Fin 4, State.reset.inputs[n].enabled = true ∧ State.reset.inputs[n].loopback = false ∧
      State.reset.inputs[n].receiver.state = .down) ∧
    (withReceiver fun r => { r with state := .hunt, goodRun := 1, assembly := some (List.replicate 4671 0) }).inputs[(0 : Fin 4)].enabled
      = true ∧
    (withReceiver fun r => { r with state := .framed, badRun := 3, silence := 95 }).inputs[(0 : Fin 4)].receiver.badRun = 3 := by
  decide +kernel

/-- The octets of a good burst of each kind, and octets that are no good burst. -/
theorem witness_judged : judgeBurst (burstOctets (.sample sampleBurst)) = some (.sample sampleBurst) ∧
    judgeBurst (burstOctets (.control controlBurst)) = some (.control controlBurst) ∧
    judgeBurst (burstOctets (.report reportBurst)) = some (.report reportBurst) ∧ judgeBurst [] = none := by decide +kernel

/-- SampleBurstsReachTheirFeed: feed 0 in PRIMING, one frame short of the setpoint plus 8, under a FRAMED receiver. -/
def priming : State :=
  (withReceiver fun r => { r with state := .framed }).updFeed 0 fun x =>
    { record := { x.record with enabled := true }
      context := { x.context with state := .priming, frames := List.replicate 55 [0, 0] } }

theorem witness_sample : priming.inputs[(0 : Fin 4)].receiver.state = .framed ∧ sampleGood sampleBurst = true ∧
    sampleBurst.stream.toNat = (0 : Fin 8).val ∧ sampleBurst.channels = priming.feeds[(0 : Fin 8)].record.channels ∧
    (after (.sampleBurst 0 sampleBurst) priming).feeds[(0 : Fin 8)].context.state = .acquiring ∧
    (after (.sampleBurst 1 sampleBurst) (priming.updReceiver 1 fun r => { r with state := .framed })).feeds[(0 : Fin 8)].context.format =
      true := by decide +kernel

theorem witness_queued :
    ({ priming with processor := { priming.processor with state := .restartPending } } : State).takesNow = false ∧
    controlGood controlBurst = true ∧ controlGood { controlBurst with destination := 255 } = true ∧
    controlGood { controlBurst with destination := 9 } = true ∧ reportGood reportBurst = true := by decide +kernel

/-- TakesFireAtTheirTime: an immediate take, and one whose time is one frame away. -/
def taking (time : Option Word32) (s : State) : State :=
  s.updProgramme 0 fun p => { p with take := some { layout := [⟨.l, 0, 0, 0⟩], time := time, restart := true } }

theorem witness_take : (after (.takeFires 0) (taking none live)).programmes[(0 : Fin 16)].eIn = 1 ∧
    (after (.takeFires 0) (taking none State.reset)).programmes[(0 : Fin 16)].slots[(0 : Fin 2)] = [⟨.l, 0, 0, 0⟩] ∧
    ¬ 0 ≤ timeDiff live.time.nextTime 1 ∧ 0 ≤ timeDiff live.time.nextTime 0 ∧ (taking (some 1) live).NothingDue ∧
    (taking (some 1) live).slotsHold = true := by
  unfold State.NothingDue; decide +kernel

/-- The window with both candidates, and the RESTART whose REPLY stands at the head of the report queue. -/
def departing : State :=
  let o := State.reset.updOutput 0 fun t => { t with windowDue := true, forward := [.report reportBurst] }
  { o with processor := { o.processor with
      state := .restartPending
      reports := [.reply { tag := 7, originator := 0, code := 21, form := 0, result := .done, items := [] }] } }

theorem witness_window : departing.NoLoop ∧ departing.outputs[(0 : Fin 2)].windowDue = true ∧ departing.processor.replyTrunk = 0 ∧
    departing.outputs[(0 : Fin 2)].lastServed = .forward ∧ departing.outputs[(0 : Fin 2)].forward ≠ [] ∧
    departing.processor.reports ≠ [] ∧ departing.processor.commands = [] ∧ departing.log.transfer.state ≠ .active := by
  unfold State.NoLoop; decide +kernel

/-- A RESTART under traffic: more records stand than the report queue takes, and a transfer is ACTIVE. -/
def standing : State :=
  { departing with
    log := { departing.log with transfer := { departing.log.transfer with state := .active } }
    alarms := { departing.alarms with
      records := mapAll (fun r x => if r.val < 26 then { x with state := .active } else x) departing.alarms.records } }

theorem witness_standing : ((List.finRange 400).filter fun i => standing.alarms.records[i].standing).length = 26 ∧
    standing.log.transfer.state = .active ∧ standing.emptyQueues.alarmSpace = 24 := by decide +kernel

/-- A transfer with entries to take, and one with none. -/
def entry : LogEntry :=
  { time := 1, programme := 0, momentary := none, shortTerm := none, integrated := none, gain := 128, void := false, gate := false,
    realigned := false, epoch := false, alarm := true }

def transferring (ring : List LogEntry) : State :=
  { State.reset with log := { LoudnessLog.initial with
      ring := ring, transfer := { LoudnessLog.initial.transfer with state := .active, count := 2 } } }

theorem witness_transfer : (transferring [entry, entry, entry]).log.transfer.state = .active ∧
    (transferring [entry]).processor.reports.length < 32 ∧ (transferring []).log.transfer.mode = .single ∧
    (after .transferStep (transferring [entry, entry, entry])).log.ring = [entry] ∧
    (after .transferStep (transferring [])).log.transfer.cause = some .empty := by decide +kernel

/-! What a house frame does to feeds, alignment contexts, epochs and faults. -/

/-- A LOCKED feed at the worked interpolation of 1.6, one frame before an anchor mark, and a TRACKED programme of it. -/
def converting (offset : Nat) : State :=
  (live.updFeed 0 fun x =>
    { record := { x.record with enabled := true }
      context := { x.context with
        state := .locked, started := true, phase := 7, fraction := 134217728, ratio := 268435456
        frames := List.replicate 7 [0, 0] ++ [[1000000, 0], [2000001, 0]] ++ List.replicate 20 [0, 0]
        anchors := [{ index := 8, capture := 0 }] } }).updProgramme 0
    fun p => { p with timing := { p.timing with mode := .tracked, offset := offset } }

/-- R19, 1.6: the worked interpolation gives 1,500,001. -/
theorem test_interpolation : (converting 50).feeds[(0 : Fin 8)].yields = true ∧
    (converting 50).feeds[(0 : Fin 8)].interpolated Tables.initial 0 = 1500001 := by decide +kernel

/-- HouseFrameMovesConvertingFeeds: an age sample within the ring and one past it (L = 128). -/
theorem witness_age : (converting 50).feeds[(0 : Fin 8)].ages Tables.initial 0 = [0] ∧
    (after (.houseFrame []) (converting 50)).programmes[(0 : Fin 16)].align.pending = some 50 ∧
    (after (.houseFrame []) (converting 128)).programmes[(0 : Fin 16)].align.pending = some 127 ∧
    (after (.houseFrame []) (converting 128)).programmes[(0 : Fin 16)].align.delayShort = true := by decide +kernel

/-- HouseFrameReadsTheRing: an output epoch switch, the fetched words carrying epoch 0, and a mute. -/
theorem witness_switch :
    let s := live.updProgramme 0 fun p => { p with eOut := 3, marks := Vector.replicate 2 true }
    let m := live.updProgramme 0 fun p => { p with align := { p.align with muted := true } }
    s.programmes[(0 : Fin 16)].eIn = 0 ∧ (after (.houseFrame []) s).programmes[(0 : Fin 16)].eOut = 0 ∧
      (after (.houseFrame []) s).programmes[(0 : Fin 16)].marks[(0 : Fin 2)] = false ∧ m.programmes[(0 : Fin 16)].align.muted = true := by
  decide +kernel

/-- A switch whose restart mark is clear keeps the ring and the histogram; one whose mark is set empties them (R96, R97). -/
theorem test_switch_keeps_measurement :
    let kept := fun mark : Bool =>
      (after (.houseFrame []) (live.updProgramme 0 fun p =>
        { p with eOut := 3, marks := Vector.replicate 2 mark, meter := sounding })).programmes[(0 : Fin 16)].meter.ring.length
    kept false = 3 ∧ kept true = 0 := by decide +kernel

/-- HouseFrameRecordsParityFaults: the failing word's page is retired, and a full table takes no more. -/
theorem witness_retirement : (after (.houseFrame []) faulty).store.retired = [0] ∧
    (after (.houseFrame []) faulty).store.fault.valid = true ∧
    let full := { faulty with store := { faulty.store with
      retired := (List.finRange 32).map fun i => ⟨100 + i.val, by omega⟩, fault := { faulty.store.fault with valid := true } } }
    (after (.houseFrame []) full).store.retired.length = 32 ∧ (after (.houseFrame []) full).store.fault.further = 1 := by decide +kernel

/-- SilenceTakesTheReceiverDown: the house frame's own count, in a FRAMED receiver and in a looped one. -/
theorem witness_silence :
    (after (.houseFrame []) (withReceiver fun r => { r with state := .framed, silence := 95 })).inputs[(0 : Fin 4)].receiver.state =
      .down ∧
    (after (.houseFrame []) (State.reset.updInput 0 fun x => { x with loopback := true })).inputs[(0 : Fin 4)].receiver.silence = 1 := by
  decide +kernel

/-- ServoSteersAndLocksFeeds: a servo event that locks an ACQUIRING feed. -/
theorem witness_servo_lock :
    let s := (withTime fun t => { t with servoDue := true }).updFeed 0 fun x =>
      { x with context := { x.context with state := .acquiring, frames := List.replicate 56 [0, 0], phase := 7, lockCount := 7 } }
    s.time.servoDue = true ∧ s.feeds[(0 : Fin 8)].context.state = .acquiring ∧
      (after (.feedLocked 0) s).feeds[(0 : Fin 8)].context.state = .locked := by decide +kernel

/-- SampleBurstsReachTheirFeed: a slip removes the mark before the phase, and a full list its oldest. -/
theorem witness_slip :
    let s := priming.updFeed 0 fun x =>
      { x with context := { x.context with
          state := .locked, started := true, phase := 7, frames := List.replicate 256 [0, 0]
          anchors := (List.range 8).map fun i => { index := BitVec.ofNat 32 (7 + i), capture := 0 } } }
    (after (.sampleBurst 0 { sampleBurst with capture := some 3 }) s).feeds[(0 : Fin 8)].context.anchors =
        ((List.range 7).map fun i => { index := BitVec.ofNat 32 (8 + i), capture := 0 }) ++ [{ index := 256, capture := 3 }] ∧
      (after (.sampleBurst 0 { sampleBurst with capture := some 3 })
        (s.updFeed 0 fun x => { x with context := { x.context with frames := List.replicate 200 [0, 0] } })).feeds[(0 : Fin 8)].context.anchors.length
        = 8 := by decide +kernel

/-- ControlAndReportBurstsAreQueued: an idle processor takes a burst for this station at once. -/
theorem witness_taken : priming.Idle ∧ (after (.controlBurst 0 controlBurst) priming).processor.reports.length = 1 ∧
    (Instr.status { originator := 0, tag := 1 }).management = some ({ originator := 0, tag := 1 }, .status) ∧
    encodeCommand .status = { code := controlBurst.code, form := controlBurst.form, params := controlBurst.params } := by
  unfold State.Idle; decide +kernel

/-- ManagementWindowServesOneBurst: a full report queue, with a command that waits for its room or a transfer that does. -/
def crowded (commands : List ControlBurst) (ring : List LogEntry) : State :=
  let o := (transferring ring).updOutput 0 fun t => { t with windowDue := true }
  { o with processor := { o.processor with
      commands := commands
      reports := List.replicate 32 (.reply { tag := 7, originator := 0, code := 20, form := 0, result := .done, items := [] }) } }

theorem witness_crowded : (crowded [] []).NoLoop ∧ (crowded [] []).processor.state = .ready ∧
    (after (.managementWindow 0 false) (crowded [controlBurst, controlBurst] [entry])).processor.commands = [controlBurst] ∧
    (after (.managementWindow 0 true) (crowded [controlBurst] [entry])).processor.commands = [controlBurst] ∧
    (after (.managementWindow 0 true) (crowded [controlBurst] [entry])).log.ring = [] ∧
    (after (.managementWindow 0 false) (crowded [] [entry])).log.ring = [] := by
  unfold State.NoLoop; decide +kernel

/-- ManagementWindowServesOneBurst: IN1 and IN2 looped, and a SAMPLE burst and a forwarded one on their way out on OUT0. -/
def looping : State :=
  let listening := fun (forward : Option (Fin 2)) (x : InputTrunk) =>
    { x with loopback := true, forward := forward, receiver := { x.receiver with state := .framed } }
  ((((State.reset.updInput 1 (listening none)).updInput 2 (listening (some 1))).updOutput 0 fun o =>
      { o with windowDue := true, sample := some sampleBurst, forward := [.report reportBurst] }).updFeed 0 fun x =>
        { record := { x.record with enabled := true, trunk := 2 }, context := { x.context with state := .waiting } })

/-- IN2 takes what OUT0 sends, as from its line, and IN1 does not (R157). -/
theorem witness_loop :
    let t := after (.managementWindow 0 false) looping
    let u := after (.sampleBurst 2 sampleBurst) looping.unlooped
    looping.processor.commands = [] ∧ sampleGood sampleBurst = true ∧ burstGood (.report reportBurst) = true ∧
    (∀ n : Fin 4, looping.inputs[n].loopback = true →
      looping.inputs[n].receiver.state ≠ .down ∧ looping.inputs[n].receiver.assembly = none) ∧
    t.feeds[(0 : Fin 8)] = u.feeds[(0 : Fin 8)] ∧ t.feeds[(0 : Fin 8)].context.state = .priming ∧
    t.outputs[(0 : Fin 2)].forward = [] ∧ t.outputs[(1 : Fin 2)].forward = [.report reportBurst] ∧
    t.inputs[(1 : Fin 4)] = looping.inputs[(1 : Fin 4)] ∧ t.inputs[(2 : Fin 4)].receiver = u.inputs[(2 : Fin 4)].receiver := by
  decide +kernel

/-- SampleBurstsReachTheirFeed, ControlAndReportBurstsAreQueued: the second good burst in HUNT frames the receiver and is not handed on. -/
theorem witness_hunt :
    let hunting := priming.updReceiver 0 fun r => { r with state := .hunt, goodRun := 1 }
    (after (.sampleBurst 0 sampleBurst) hunting).inputs[(0 : Fin 4)].receiver.state = .framed ∧
    (after (.sampleBurst 0 sampleBurst) hunting).feeds[(0 : Fin 8)] = hunting.feeds[(0 : Fin 8)] ∧
    (after (.controlBurst 0 controlBurst) hunting).inputs[(0 : Fin 4)].receiver.state = .framed ∧
    (after (.controlBurst 0 controlBurst) hunting).processor.reports = [] ∧
    (after (.reportBurst 0 reportBurst) hunting).inputs[(0 : Fin 4)].receiver.state = .framed := by decide +kernel

/-- SliceEndWritesDueLogEntries: a due programme and a full ring. -/
theorem witness_due :
    let s := (live.updProgramme 0 fun p => { p with level := { p.level with logInterval := 1 } })
    s.entriesDue = [0] ∧ s.passDiscards = false ∧
      ({ s with log := { s.log with ring := List.replicate 512 entry } } : State).passDiscards = true := by decide +kernel

/-! Management commands. -/

/-- The commands find the processor idle right after reset, and originator 0 holds every right with no hold above it. -/
theorem witness_idle : State.reset.Idle ∧ (∀ p : Fin 16, State.reset.MayWrite 0 .route p ∧ State.reset.MayWrite 0 .timing p ∧
    State.reset.MayWrite 0 .level p) ∧ State.reset.holdsRight 0 .alarm = true ∧ State.reset.holdsRight 0 .store = true ∧
    State.reset.holdsRight 0 .tables = true ∧ State.reset.holdsRight 0 .log = true := by
  unfold State.Idle State.MayWrite; decide +kernel

/-- A sender without rights, and an originator that a hold outranks. -/
theorem witness_refused : (State.reset.holdsRight stranger.originator .route = false ∧
      State.reset.holdsRight stranger.originator .timing = false ∧ State.reset.holdsRight stranger.originator .level = false ∧
      State.reset.holdsRight stranger.originator .alarm = false ∧ State.reset.holdsRight stranger.originator .store = false ∧
      State.reset.holdsRight stranger.originator .tables = false ∧ State.reset.holdsRight stranger.originator .log = false) ∧
    stranger.originator ≠ 0 ∧ contested.holdsRight 2 .level = true ∧ contested.outranks 2 .level 1 = true ∧
    (Instr.release stranger 0).management = some (stranger, .release 0) ∧ (Command.release 0).fits = true ∧
    (Command.release 0).isGroup = false ∧ (Command.release 0).needsNoRight = false := by decide +kernel

/-- Every record is CLEAR and both lines are deasserted right after reset. -/
theorem witness_line_law : State.reset.LineLaw := by
  have none : ∀ r : Fin 400, State.reset.alarms.records[r.val].standing = false := by
    intro r
    simp only [State.reset, AlarmUnit.initial, Vector.getElem_replicate]
    rfl
  have lines : State.reset.alarms.major = false ∧ State.reset.alarms.minor = false := by decide +kernel
  constructor <;> simp only [lines, Fin.getElem_fin] <;> simp [none]

/-- A command that is refused: the premise of the clause of RefusedCommandsChangeNothing. -/
theorem witness_refusal : (answered (.release boss 0) State.reset).map Prod.fst = some .busy ∧
    (answered (.setFeedRecord boss 8 0 0) State.reset).map Prod.fst = some .badValue := by decide +kernel

/-- GroupFormsJudgeEachProgrammeAlone: the single forms answer a next state with one REPLY, and values refused as a whole. -/
theorem witness_group :
    (∀ p : Fin 16, ((after (.setProgrammeField boss (BitVec.ofNat 8 p.val) 6 300) State.reset).processor.reports.length = 1)) ∧
    (∀ p : Fin 16, ((after (.takeCancel boss (.single (BitVec.ofNat 8 p.val))) State.reset).processor.reports.length = 1)) ∧
    (∀ p : Fin 16, ((after (.restartMeasurement boss (.single (BitVec.ofNat 8 p.val))) State.reset).processor.reports.length = 1)) ∧
    (answered (.groupSet boss 3 19 0) State.reset).map Prod.fst = some .badValue ∧
    (answered (.groupSet boss 3 0 8) State.reset).map Prod.fst = some .badValue ∧
    (answered (.groupSet boss 3 16 2) State.reset).map Prod.fst = some .badValue := by decide +kernel

/-- A row of a table of SETs: field, value, result and the value stored. -/
abbrev Row := Byte × Word32 × CommandResult × Nat

def refusedRow (r : Row) : Bool := r.2.2.1 ≠ .done ∧ r.2.2.1 ≠ .clamped

/-- Every row is answered as it says. -/
def holds (make : Byte → Word32 → Instr) (s : State) (rows : List Row) : Bool :=
  rows.all fun r => answered (make r.1 r.2.1) s = some (r.2.2.1, if refusedRow r then [] else item r.2.2.2)

theorem witness_set_feed : holds (.setFeedRecord boss 7) State.reset
    [(0, 0, .done, 0), (0, 1, .done, 1), (0, 2, .badValue, 0), (1, 3, .done, 3), (1, 4, .badValue, 0), (2, 0, .clamped, 1),
     (2, 16, .done, 16), (2, 17, .clamped, 16), (3, 3, .done, 3), (3, 4, .badValue, 0), (4, 134217727, .clamped, 134217728),
     (4, 603979777, .clamped, 603979776), (5, 268697600, .done, 268697600), (5, 268697601, .badValue, 0), (6, 268173312, .done, 268173312),
     (6, 268173311, .badValue, 0), (7, 15, .clamped, 16), (7, 201, .clamped, 200), (8, 0, .clamped, 1), (8, 33, .clamped, 32),
     (9, 7, .clamped, 8), (9, 256, .clamped, 255), (10, 0, .badValue, 0)] = true ∧
    (answered (.setFeedRecord boss 8 0 0) State.reset).map Prod.fst = some .badValue := by decide +kernel

theorem witness_set_timing : holds (.setProgrammeField boss 15) State.reset
    [(0, 7, .done, 7), (0, 8, .badValue, 0), (1, 0, .done, 0), (1, 1, .done, 1), (1, 2, .badValue, 0), (2, 1048575, .done, 1048575),
     (2, 1048576, .clamped, 1048575), (3, 1048576, .clamped, 1048575), (4, 4800, .done, 4800), (4, 4801, .clamped, 4800)] = true := by
  decide +kernel

theorem witness_set_level : holds (.setProgrammeField boss 15) State.reset
    [(5, 3, .done, 3), (5, 4, .badValue, 0), (6, 255, .done, 255), (6, 256, .clamped, 255), (7, 256, .clamped, 255),
     (8, 256, .clamped, 255), (9, 0, .done, 0), (9, 1, .done, 1), (9, 2, .badValue, 0), (10, 0, .done, 0), (10, 1, .done, 1),
     (10, 2, .badValue, 0), (11, 256, .clamped, 255), (12, 160, .done, 160), (12, 161, .badValue, 0), (13, 96, .done, 96),
     (13, 95, .badValue, 0), (14, 0, .clamped, 1), (14, 256, .clamped, 255), (15, 0, .clamped, 1), (16, 0, .done, 0), (16, 1, .done, 1),
     (16, 2, .badValue, 0), (17, 0, .clamped, 1), (17, 8388608, .clamped, 8388607), (18, 600, .done, 600), (18, 601, .clamped, 600),
     (19, 0, .badValue, 0)] = true ∧
    (answered (.setProgrammeField boss 16 0 0) State.reset).map Prod.fst = some .badValue := by decide +kernel

theorem witness_set_map : holds (.setOutputMap boss 1) State.reset
    [(0, 7, .done, 7), (0, 8, .badValue, 0), (1, 0, .clamped, 1), (1, 33, .clamped, 32), (2, 1, .done, 1), (2, 2, .badValue, 0),
     (3, 4294967295, .done, 4294967295), (34, 983047, .done, 983047), (34, 983048, .badValue, 0), (34, 1048576, .badValue, 0),
     (35, 0, .badValue, 0)] = true ∧
    (answered (.setOutputMap boss 2 0 0) State.reset).map Prod.fst = some .badValue := by decide +kernel

theorem witness_set_originator : holds (.setOriginatorRecord boss 7) State.reset
    [(0, 1, .done, 1), (0, 2, .badValue, 0), (1, 1, .done, 1), (7, 1, .done, 1), (7, 2, .badValue, 0), (8, 7, .done, 7),
     (8, 8, .clamped, 7), (9, 0, .badValue, 0)] = true ∧
    (answered (.setOriginatorRecord boss 0 0 1) State.reset).map Prod.fst = some .badValue ∧
    (answered (.setOriginatorRecord boss 8 0 1) State.reset).map Prod.fst = some .badValue ∧
    (answered (.setOriginatorRecord stranger 1 0 1) State.reset).map Prod.fst = some .noRight ∧
    holds (.setReplyTrunk boss 0) State.reset [(0, 0, .done, 0), (0, 1, .done, 1), (0, 2, .badValue, 0), (1, 0, .badValue, 0)] = true ∧
    (answered (.setReplyTrunk boss 1 0 0) State.reset).map Prod.fst = some .badValue := by decide +kernel

theorem witness_set_trunk : holds (.setInputTrunk boss 3) State.reset
    [(0, 0, .done, 0), (0, 1, .done, 1), (0, 2, .badValue, 0), (1, 0, .done, 0), (1, 2, .done, 2), (1, 3, .badValue, 0), (2, 0, .done, 0),
     (2, 1, .done, 1), (2, 2, .badValue, 0), (3, 0, .badValue, 0)] = true ∧
    (answered (.setInputTrunk boss 4 0 0) State.reset).map Prod.fst = some .badValue := by decide +kernel

/-- SET of a policy field that is no disable: the results are read from the judgement alone. -/
theorem witness_set_policy :
    ([(0, 1, .done), (0, 2, .badValue), (1, 2, .done), (1, 3, .badValue), (2, 255, .done), (2, 256, .clamped), (3, 256, .clamped),
      (4, 1, .done), (4, 2, .badValue), (5, 256, .clamped), (6, 256, .clamped), (7, 256, .done), (7, 257, .clamped), (8, 8388607, .done),
      (8, 8388608, .clamped), (9, 0, .badValue)] : List (Byte × Word32 × CommandResult)).all
      (fun r => (setPolicy 0 4 r.1 r.2.1 State.reset).result = r.2.2) = true ∧
    (setPolicy 0 18 0 0 State.reset).result = .badValue ∧ (setPolicy 0 14 0 0 State.reset).result = .done ∧
    State.reset.alarms.policies[(14 : Fin 18)].enabled = true := by decide +kernel

/-- READ: an object at the end of each range, and a start at the end of each run. -/
theorem witness_read :
    ([(2, 8, 0), (3, 16, 0), (8, 0, 256), (8, 15, 300), (10, 4, 0), (11, 2, 0), (12, 0, 400), (13, 18, 0), (14, 1, 0), (16, 8, 0),
      (17, 7, 0), (18, 0, 0)] : List (Byte × Byte × BitVec 16)).all
      (fun r => answered (.read boss r.1 r.2.1 r.2.2 1) State.reset = some (.badValue, [])) = true ∧
    answered (.read boss 8 15 255 9) State.reset = some (.done, [0, 0, 0, 1, 0, 0, 0, 0]) ∧
    answered (.read stranger 14 0 0 0) State.reset = some (.done, List.replicate 16 0) := by decide +kernel

/-- LOAD: the last entry of a table, one past it, and a table outside the list. -/
theorem witness_load : answered (.load boss 1 3 [0, 5]) State.reset = some (.done, [0, 0, 0, 3, 0, 0, 0, 1]) ∧
    (after (.load boss 1 3 [0, 5]) State.reset).tables.latencies = [0, 0, 0, 5] ∧
    answered (.load boss 1 3 [0, 5, 0, 6]) State.reset = some (.badValue, []) ∧
    answered (.load boss 4 1 [5]) State.reset = some (.badValue, []) ∧ answered (.load boss 7 0 [5]) State.reset = some (.badValue, []) ∧
    (Command.load 4 0 [5]).fits = true := by decide +kernel

theorem witness_capacities : State.reset.CapacityLaw := by
  constructor
  all_goals decide +kernel

/-- TAKE: the longest layout, a layout too long, a field out of range, a flag that is no flag, and a take already pending. -/
theorem witness_take_command :
    answered (.take boss 15 1 0 1 (List.replicate 8 ⟨9, 7, 15, 15⟩)) State.reset = some (.done, []) ∧
    answered (.take boss 15 1 0 1 (List.replicate 9 ⟨9, 7, 15, 15⟩)) State.reset = some (.badValue, []) ∧
    answered (.take boss 15 1 0 1 [⟨10, 0, 0, 0⟩]) State.reset = some (.badValue, []) ∧
    answered (.take boss 15 2 0 1 [⟨0, 0, 0, 0⟩]) State.reset = some (.badValue, []) ∧
    answered (.take boss 16 1 0 1 [⟨0, 0, 0, 0⟩]) State.reset = some (.badValue, []) ∧
    answered (.take boss 0 1 0 1 [⟨0, 0, 0, 0⟩]) (taking none State.reset) = some (.busy, []) ∧
    answered (.takeCancel boss (.single 0)) (taking none State.reset) = some (.done, []) ∧
    answered (.takeCancel boss (.single 0)) State.reset = some (.busy, []) := by decide +kernel

/-- ALLOCATE and RELEASE: enough pages, too few, a programme that is not UNALLOCATED. -/
theorem witness_allocate : answered (.allocate boss 0 128) State.reset = some (.done, [0, 0, 0, 1, 0, 0, 0, 128]) ∧
    answered (.allocate boss 1 129) { live with store := { live.store with freeList := [5] } } = some (.noRoom, []) ∧
    answered (.allocate boss 1 0) { live with store := { live.store with freeList := [5] } } =
      some (.clamped, [0, 0, 0, 1, 0, 0, 0, 128]) ∧
    answered (.allocate boss 0 128) live = some (.busy, []) ∧ answered (.allocate boss 16 128) live = some (.badValue, []) ∧
    answered (.release boss 0) live = some (.done, [0, 0, 0, 1, 0, 0, 0, 0]) ∧
    answered (.release boss 1) live = some (.busy, []) := by decide +kernel

/-- RETIRE and RESTORE: retired, free, owned, a full table, and a page number out of range. -/
def worn (retired : List Page) : State := { live with store := { live.store with freeList := [5], retired := retired } }

theorem witness_retire : answered (.retire boss 7) (worn [7]) = some (.done, [0, 0, 0, 0, 255, 255, 255, 255]) ∧
    answered (.retire boss 5) (worn [7]) = some (.done, [0, 0, 0, 1, 255, 255, 255, 255]) ∧
    answered (.retire boss 0) (worn [7]) = some (.done, [0, 0, 0, 2, 0, 0, 0, 0]) ∧
    answered (.retire boss 5) (worn ((List.finRange 32).map fun i => ⟨100 + i.val, by omega⟩)) =
      some (.noRoom, [0, 0, 0, 3, 255, 255, 255, 255]) ∧
    answered (.retire boss 16384) live = some (.badValue, []) ∧ answered (.restore boss 7) (worn [7]) = some (.done, [0, 0, 0, 0]) ∧
    answered (.restore boss 0) (worn [0]) = some (.done, [0, 0, 0, 1]) ∧
    answered (.restore boss 5) (worn [7]) = some (.done, [0, 0, 0, 2]) := by decide +kernel

theorem witness_read_fault : answered (.readFault boss) State.reset = some (.done, List.replicate 24 0) ∧
    answered (.readFault stranger) State.reset = some (.noRight, []) := by decide +kernel

/-- TIME SET and TIME ADJUST, with the house frame that follows: what is due and the slots stay as they were. -/
theorem witness_time : (0x80000000 : Word32).toInt = -2147483648 ∧ (0x80000001 : Word32).toInt ≠ -2147483648 ∧
    (after (.timeSet boss 5) State.reset).NothingDue ∧ (after (.timeSet boss 5) State.reset).slotsHold = true ∧
    answered (.timeAdjust boss 0x80000000) State.reset = some (.clamped, []) ∧
    (after (.timeAdjust boss 0xFFFFFFFF) State.reset).time.nextTime = 0xFFFFFFFF := by
  unfold State.NothingDue; decide +kernel

theorem witness_restart_measurement : answered (.restartMeasurement boss (.single 0)) live = some (.done, []) ∧
    answered (.restartMeasurement boss (.single 16)) live = some (.badValue, []) := by decide +kernel

/-- ACKNOWLEDGE: the states of its single form, and the kinds at the ends of its group form. -/
theorem witness_acknowledge :
    (alarmed (fun x => { x with state := .latched }) id .absent).alarms.records[(396 : Fin 400)].state ∈ [.active, .latched] ∧
    State.reset.alarms.records[(399 : Fin 400)].state ∈ [.clear, .rising, .falling] ∧
    answered (.acknowledge boss (.single 399)) State.reset = some (.busy, []) ∧
    answered (.acknowledge boss (.single 400)) State.reset = some (.badValue, []) ∧
    (7 : Byte).toNat < 8 ∧ 8 ≤ (8 : Byte).toNat ∧
    answered (.acknowledge stranger (.group 7 6)) State.reset = some (.noRight, [0, 0, 1, 2]) := by decide +kernel

theorem witness_release_hold : answered (.releaseHold boss 0 3) State.reset = some (.badValue, []) ∧
    answered (.releaseHold boss 16 2) State.reset = some (.badValue, []) ∧
    answered (.releaseHold boss 15 0) State.reset = some (.done, [0, 0, 0, 0]) ∧
    answered (.releaseHold { originator := 2, tag := 1 } 1 2) contested = some (.outranked, []) ∧
    contested.priorityOf 2 < contested.programmes[(1 : Fin 16)].holds.of .level := by decide +kernel

/-- The log commands: no transfer, a transfer that is ACTIVE, and operands at the ends of their ranges. -/
theorem witness_log : answered (.logRead boss 1 65535 1) State.reset = some (.done, []) ∧
    answered (.logRead boss 2 0 0) State.reset = some (.badValue, []) ∧
    answered (.logRead boss 0 0 2) State.reset = some (.badValue, []) ∧
    answered (.logRead boss 0 0 0) (transferring []) = some (.busy, []) ∧
    answered (.logCancel boss) State.reset = some (.busy, []) ∧ (transferring []).Idle ∧
    (after (.logCancel boss) (transferring [])).processor.reports.length = 2 := by
  unfold State.Idle; decide +kernel

/-- An accepted LOG READ with entries in the ring: two steps up to a count of 5, and one step that an ALARM entry ends. -/
theorem witness_log_steps :
    let s : State := { State.reset with log := { LoudnessLog.initial with ring := List.replicate 6 { entry with alarm := false } } }
    let t := after (.logRead boss 0 5 1) s
    let u := after (.logRead boss 1 0 1) { s with log := { s.log with ring := [entry, entry] } }
    s.Idle ∧ t.processor.reports.length = 3 ∧ t.log.ring.length = 1 ∧ t.log.transfer.cause = some .count ∧
      u.processor.reports.length = 2 ∧ u.log.ring.length = 1 ∧ u.log.transfer.cause = some .matched := by
  unfold State.Idle; decide +kernel

theorem witness_restart : answered (.restart boss) State.reset = some (.done, []) ∧
    answered (.restart stranger) State.reset = some (.noRight, []) ∧ answered (.unknownCommand boss 0 0 []) State.reset = some (.unknown, []) ∧
    answered (.unknownCommand boss 22 0 []) State.reset = some (.unknown, []) ∧
    answered (.unknownCommand boss 6 2 []) State.reset = some (.unknown, []) ∧
    (after (.restart boss) State.reset).takesNow = false := by decide +kernel

/-- GroupFormsJudgeEachProgrammeAlone: a GROUP SET that every selected programme takes, a limit at its relation among them. -/
theorem witness_group_set : (answered (.groupSet boss 3 6 300) State.reset).map Prod.fst = some .clamped ∧
    (answered (.groupSet boss 3 12 160) State.reset).map Prod.fst = some .done ∧
    (answered (.groupSet boss 0 13 96) State.reset).map Prod.fst = some .done ∧
    (after (.groupSet boss 3 6 300) State.reset).programmes[(1 : Fin 16)].level.target = 255 := by decide +kernel

/-- R134, R177: without the ALARM right an empty selection is DONE, and NO RIGHT for a kind above 7 (log entry 25). -/
theorem witness_acknowledge_none : (answered (.acknowledge stranger (.group 7 0)) State.reset).map Prod.fst = some .done ∧
    (answered (.acknowledge stranger (.group 8 0)) State.reset).map Prod.fst = some .noRight ∧
    (answered (.acknowledge boss (.group 8 0)) State.reset).map Prod.fst = some .badValue := by decide +kernel

/-- R184: a READ of all alarm records gives 145 whole ones and six items of the next, 4,093 octets with the five of every REPLY. -/
theorem test_read_cut : (answered (.read boss 12 0 0 400) State.reset).map (fun r => (r.2.length, r.2.take 4)) =
    some (4088, [0, 0, 0, 145]) := by decide +kernel

/-- RestartAndUnknownAreAnswered: lengths that are wrong, without a right too. -/
theorem witness_lengths : answered (.unknownCommand stranger 2 0 [0, 1, 6, 0, 0, 0]) State.reset = some (.badValue, []) ∧
    answered (.unknownCommand stranger 5 0 [0, 1, 0, 0, 0, 0, 0, 1]) State.reset = some (.badValue, []) ∧
    answered (.unknownCommand stranger 15 1 [0, 0]) State.reset = some (.badValue, []) ∧
    answered (.load stranger 2 0 (List.replicate 9 0)) State.reset = some (.badValue, []) ∧
    answered (.load stranger 4 0 []) State.reset = some (.badValue, []) ∧
    answered (.load stranger 7 0 []) State.reset = some (.noRight, []) := by decide +kernel

/-! The invariants: a state that meets each law, and a step from it. -/

theorem witness_small_laws : State.reset.MemoryLaw ∧ State.reset.RingLaw ∧ State.reset.EpochLaw ∧ State.reset.GainLaw := by
  refine ⟨by unfold State.MemoryLaw; decide +kernel, fun p => ?_, fun p => ?_, fun p => ?_⟩
  all_goals
    simp only [State.reset, Fin.getElem_fin, Vector.getElem_replicate]
    constructor <;> decide +kernel

theorem witness_feed_law : State.reset.FeedLaw := by
  intro f
  simp only [State.reset, Fin.getElem_fin, Vector.getElem_replicate]
  constructor <;> decide +kernel

theorem witness_some_step : (step (State.reset.withPending [.referenceEdge])) =
    .next { State.reset with time := { State.reset.time with edgeCount := 1 } } := by
  simp only [step, State.withPending]
  rfl

end Sys2Proof.Tests
end

