-- ==== Sys2Proof/Proofs/PageBook.lean ====
section
/-! SUPPORT. The book of pages (R43): what the law of pages says of a state reads the free-page list, the retire table and each programme's
share alone. The law is kept by each way in which pages move (R44, R48, R52 to R54, R58), whatever else the state holds. -/

namespace Sys2Proof.Machine

/-- What a programme has of the delay store: whether it is UNALLOCATED, and its page list. -/
structure PageShare where
  vacant : Bool
  pages  : List Page

def Programme.share (p : Programme) : PageShare := { vacant := decide (p.store.state = .unallocated), pages := p.store.pages }

/-- The book of pages: the free-page list, the retire table, and the share of each programme. -/
structure PageBook where
  free    : List Page
  retired : List Page
  share   : Fin 16 → PageShare

def State.book (s : State) : PageBook :=
  { free := s.store.freeList, retired := s.store.retired, share := fun p => s.programmes[p].share }

/-- A programme of the book owns the page. -/
def PageBook.Owned (b : PageBook) (n : Page) : Prop := ∃ p, n ∈ (b.share p).pages

/-- The three conditions of a page (R43), page by page: free, owned by exactly one programme, or parked. The count of R43 follows. -/
structure PageBook.Law (b : PageBook) : Prop where
  freeOnce    : b.free.Nodup
  ownedOnce   : ∀ p, (b.share p).pages.Nodup
  oneOwner    : ∀ p q n, n ∈ (b.share p).pages → n ∈ (b.share q).pages → p = q
  notFree     : ∀ n, b.Owned n → n ∉ b.free
  freeUnhurt  : ∀ n ∈ b.free, n ∉ b.retired
  parked      : ∀ n, n ∉ b.free → ¬ b.Owned n → n ∈ b.retired
  retiredOnce : b.retired.Nodup
  vacant      : ∀ p, (b.share p).vacant = true → (b.share p).pages = []

/-! ### The book and the law of pages -/

theorem State.mem_ownedPages (s : State) (n : Page) : n ∈ s.ownedPages ↔ s.book.Owned n := by
  simp only [State.ownedPages, List.mem_flatMap, List.mem_finRange, true_and]
  rfl

theorem State.ownedPages_nodup (s : State) : s.ownedPages.Nodup ↔
    (∀ p, (s.book.share p).pages.Nodup) ∧ ∀ p q n, n ∈ (s.book.share p).pages → n ∈ (s.book.share q).pages → p = q := by
  have apart : (List.finRange 16).Pairwise (fun p q => (s.book.share p).pages.Disjoint (s.book.share q).pages) ↔
      ∀ p q n, n ∈ (s.book.share p).pages → n ∈ (s.book.share q).pages → p = q := by
    constructor
    · intro h p q n hp hq
      have symm : Std.Symm fun p q => (s.book.share p).pages.Disjoint (s.book.share q).pages := ⟨fun _ _ => List.Disjoint.symm⟩
      by_contra ne
      exact h.forall (List.mem_finRange p) (List.mem_finRange q) ne hp hq
    · intro h
      exact (List.nodup_finRange 16).pairwise_of_forall_ne fun p _ q _ ne n hp hq => ne (h p q n hp hq)
  rw [← apart, State.ownedPages, List.nodup_flatMap]
  simp only [List.mem_finRange, true_implies]
  rfl

theorem State.ownerOf_none_iff (s : State) (n : Page) : s.ownerOf n = none ↔ ¬ s.book.Owned n := by
  simp only [State.ownerOf, List.find?_eq_none, List.mem_finRange, true_implies, List.contains_iff_mem, PageBook.Owned, not_exists]
  rfl

theorem State.owned_of_ownerOf {s : State} {n : Page} {p : Fin 16} (h : s.ownerOf n = some p) : s.book.Owned n := by
  by_contra no
  rw [(s.ownerOf_none_iff n).mpr no] at h
  cases h

/-- The parked pages (R43), in the order of the retire table. -/
def State.parkedPages (s : State) : List Page := s.store.retired.filter fun n => (s.ownerOf n).isNone

theorem State.parkedPages_length (s : State) : s.parkedPages.length = s.parkedCount := List.countP_eq_length_filter.symm

theorem State.mem_parkedPages (s : State) (n : Page) : n ∈ s.parkedPages ↔ n ∈ s.store.retired ∧ n ∉ s.ownedPages := by
  simp only [State.parkedPages, List.mem_filter, Option.isNone_iff_eq_none, State.ownerOf_none_iff, State.mem_ownedPages]

/-- Free, owned and parked pages are all the pages, each once, so their counts add up (R43). -/
theorem State.pageCount {s : State} (once : (s.store.freeList ++ s.ownedPages).Nodup)
    (freeUnhurt : ∀ n ∈ s.store.freeList, n ∉ s.store.retired)
    (parked : ∀ n : Page, n ∉ s.store.freeList → n ∉ s.ownedPages → n ∈ s.store.retired) (retired : s.store.retired.Nodup) :
    s.store.freeList.length + s.ownedPages.length + s.parkedCount = 16384 := by
  have nodup : (s.store.freeList ++ s.ownedPages ++ s.parkedPages).Nodup := by
    refine List.nodup_append'.mpr ⟨once, retired.filter _, fun n listed hp => ?_⟩
    obtain ⟨hr, ho⟩ := (s.mem_parkedPages n).mp hp
    exact (List.mem_append.mp listed).elim (fun hf => freeUnhurt n hf hr) ho
  have all (n : Page) : n ∈ s.store.freeList ++ s.ownedPages ++ s.parkedPages := by
    by_cases listed : n ∈ s.store.freeList ++ s.ownedPages
    · exact List.mem_append_left _ listed
    · obtain ⟨hf, ho⟩ := not_or.mp (List.mem_append.not.mp listed)
      exact List.mem_append_right _ ((s.mem_parkedPages n).mpr ⟨parked n hf ho, ho⟩)
  calc s.store.freeList.length + s.ownedPages.length + s.parkedCount
      = (s.store.freeList ++ s.ownedPages ++ s.parkedPages).length := by
        rw [List.length_append, List.length_append, State.parkedPages_length]
    _ = (s.store.freeList ++ s.ownedPages ++ s.parkedPages).toFinset.card := (List.toFinset_card_of_nodup nodup).symm
    _ = (Finset.univ : Finset Page).card := by rw [Finset.eq_univ_of_forall fun n => List.mem_toFinset.mpr (all n)]
    _ = 16384 := Finset.card_fin 16384

/-- The law of pages is a law of the book. -/
theorem State.pageLaw_iff (s : State) : s.PageLaw ↔ s.book.Law := by
  constructor
  · intro h
    obtain ⟨free, owned, apart⟩ := List.nodup_append'.mp h.once
    obtain ⟨each, one⟩ := s.ownedPages_nodup.mp owned
    exact
      { freeOnce := free, ownedOnce := each, oneOwner := one
        notFree := fun n ho hf => apart hf ((s.mem_ownedPages n).mpr ho)
        freeUnhurt := h.freeUnhurt
        parked := fun n hf ho => h.parked n hf fun m => ho ((s.mem_ownedPages n).mp m)
        retiredOnce := h.retired
        vacant := fun p v => h.unallocated p (of_decide_eq_true v) }
  · intro h
    have once : (s.store.freeList ++ s.ownedPages).Nodup :=
      List.nodup_append'.mpr ⟨h.freeOnce, s.ownedPages_nodup.mpr ⟨h.ownedOnce, h.oneOwner⟩,
        fun n hf ho => h.notFree n ((s.mem_ownedPages n).mp ho) hf⟩
    have parked : ∀ n : Page, n ∉ s.store.freeList → n ∉ s.ownedPages → n ∈ s.store.retired :=
      fun n hf ho => h.parked n hf fun m => ho ((s.mem_ownedPages n).mpr m)
    exact
      { once := once, freeUnhurt := h.freeUnhurt, parked := parked, retired := h.retiredOnce
        unallocated := fun p e => h.vacant p (decide_eq_true e)
        count := State.pageCount once h.freeUnhurt parked h.retiredOnce }

theorem State.PageLaw.of_book {s t : State} (hs : s.PageLaw) (h : t.book = s.book) : t.PageLaw :=
  t.pageLaw_iff.mpr (h ▸ s.pageLaw_iff.mp hs)

/-! ### The ways in which pages move -/

namespace PageBook

/-- The book with another share of programme `p`. -/
def give (b : PageBook) (p : Fin 16) (x : PageShare) : PageBook := { b with share := Function.update b.share p x }

theorem give_share_same (b : PageBook) (p : Fin 16) (x : PageShare) : (b.give p x).share p = x := Function.update_self ..

theorem give_share_other (b : PageBook) {p q : Fin 16} (x : PageShare) (h : q ≠ p) : (b.give p x).share q = b.share q :=
  Function.update_of_ne h ..

/-- The first `k` free pages go to a programme that owns none (R48). -/
def allot (b : PageBook) (p : Fin 16) (k : Nat) : PageBook :=
  { b with free := b.free.drop k }.give p { vacant := false, pages := b.free.take k }

/-- A programme's pages that are not retired go to the end of the free-page list, and the others become parked (R52). -/
def release (b : PageBook) (p : Fin 16) : PageBook :=
  { b with free := b.free ++ (b.share p).pages.filter fun n => !b.retired.contains n }.give p { vacant := true, pages := [] }

/-- A page enters the retire table, and leaves the free-page list if it stands there (R53). -/
def retire (b : PageBook) (n : Page) : PageBook := { b with free := b.free.filter (· ≠ n), retired := b.retired ++ [n] }

/-- A page leaves the retire table and enters the free-page list (R54). -/
def unpark (b : PageBook) (n : Page) : PageBook := { b with free := b.free ++ [n], retired := b.retired.filter (· ≠ n) }

/-- Every programme released, and the free-page list rebuilt (R44). -/
def rebuilt (retired : List Page) : PageBook :=
  { free := freshPages retired, retired := retired, share := fun _ => { vacant := true, pages := [] } }

namespace Law

variable {b : PageBook}

theorem allot (h : b.Law) {p : Fin 16} (k : Nat) (none : (b.share p).pages = []) : (b.allot p k).Law := by
  have mine : ((b.allot p k).share p).pages = b.free.take k := congrArg PageShare.pages (give_share_same ..)
  have others : ∀ q ≠ p, (b.allot p k).share q = b.share q := fun q ne => give_share_other _ _ ne
  have owned (n : Page) : (b.allot p k).Owned n ↔ n ∈ b.free.take k ∨ b.Owned n := by
    constructor
    · rintro ⟨q, hq⟩
      by_cases e : q = p
      · subst e; exact .inl (mine ▸ hq)
      · exact .inr ⟨q, others q e ▸ hq⟩
    · rintro (hn | ⟨q, hq⟩)
      · exact ⟨p, mine.symm ▸ hn⟩
      · refine ⟨q, (others q ?_).symm ▸ hq⟩
        rintro rfl
        rw [none] at hq
        cases hq
  have split (n : Page) : n ∈ b.free ↔ n ∈ b.free.take k ∨ n ∈ b.free.drop k := by
    rw [← List.mem_append, List.take_append_drop]
  have fresh {q : Fin 16} {n : Page} (hn : n ∈ b.free.take k) : n ∉ (b.share q).pages :=
    fun hq => h.notFree n ⟨q, hq⟩ (List.mem_of_mem_take hn)
  refine
    { freeOnce := h.freeOnce.sublist (List.drop_sublist ..), ownedOnce := fun q => ?_, oneOwner := fun q r n hq hr => ?_
      notFree := fun n ho hf => ?_, freeUnhurt := fun n hf => h.freeUnhurt n (List.mem_of_mem_drop hf)
      parked := fun n hf ho => ?_, retiredOnce := h.retiredOnce, vacant := fun q hv => ?_ }
  · by_cases e : q = p
    · subst e; rw [mine]; exact h.freeOnce.sublist (List.take_sublist ..)
    · rw [others q e]; exact h.ownedOnce q
  · by_cases eq : q = p <;> by_cases er : r = p
    · rw [eq, er]
    · rw [eq, mine] at hq; rw [others r er] at hr; exact absurd hr (fresh hq)
    · rw [er, mine] at hr; rw [others q eq] at hq; exact absurd hq (fresh hr)
    · rw [others q eq] at hq; rw [others r er] at hr; exact h.oneOwner q r n hq hr
  · rcases (owned n).mp ho with hn | hn
    · exact List.disjoint_take_drop h.freeOnce le_rfl hn hf
    · exact h.notFree n hn (List.mem_of_mem_drop hf)
  · have apart : n ∉ b.free.take k ∧ ¬ b.Owned n := not_or.mp ((owned n).not.mp ho)
    exact h.parked n (fun free => ((split n).mp free).elim apart.1 hf) apart.2
  · by_cases e : q = p
    · subst e; rw [show ((b.allot q k).share q).vacant = false from congrArg PageShare.vacant (give_share_same ..)] at hv; cases hv
    · rw [others q e] at hv ⊢; exact h.vacant q hv

theorem release (h : b.Law) (p : Fin 16) : (b.release p).Law := by
  have mine : ((b.release p).share p).pages = [] := congrArg PageShare.pages (give_share_same ..)
  have others : ∀ q ≠ p, (b.release p).share q = b.share q := fun q ne => give_share_other _ _ ne
  have still {q : Fin 16} {n : Page} (hq : n ∈ ((b.release p).share q).pages) : q ≠ p ∧ n ∈ (b.share q).pages := by
    by_cases e : q = p
    · subst e; rw [mine] at hq; cases hq
    · exact ⟨e, others q e ▸ hq⟩
  have free (n : Page) : n ∈ (b.release p).free ↔ n ∈ b.free ∨ n ∈ (b.share p).pages ∧ n ∉ b.retired := by
    simp only [PageBook.release, give, List.mem_append, List.mem_filter, Bool.not_eq_true', List.contains_eq_mem, decide_eq_false_iff_not]
  refine
    { freeOnce := ?_, ownedOnce := fun q => ?_, oneOwner := fun q r n hq hr => h.oneOwner q r n (still hq).2 (still hr).2
      notFree := fun n ho hf => ?_, freeUnhurt := fun n hf => ?_, parked := fun n hf ho => ?_
      retiredOnce := h.retiredOnce, vacant := fun q hv => ?_ }
  · exact List.nodup_append'.mpr ⟨h.freeOnce, (h.ownedOnce p).filter _,
      fun n hf hp => h.notFree n ⟨p, List.mem_of_mem_filter hp⟩ hf⟩
  · by_cases e : q = p
    · subst e; rw [mine]; exact List.nodup_nil
    · rw [others q e]; exact h.ownedOnce q
  · obtain ⟨q, hq⟩ := ho
    obtain ⟨ne, hq⟩ := still hq
    rcases (free n).mp hf with hf | ⟨hp, _⟩
    · exact h.notFree n ⟨q, hq⟩ hf
    · exact ne (h.oneOwner q p n hq hp)
  · rcases (free n).mp hf with hf | ⟨_, hr⟩
    · exact h.freeUnhurt n hf
    · exact hr
  · by_contra hr
    have out := not_or.mp ((free n).not.mp hf)
    refine hr (h.parked n out.1 ?_)
    rintro ⟨q, hq⟩
    by_cases e : q = p
    · subst e; exact out.2 ⟨hq, hr⟩
    · exact ho ⟨q, (others q e).symm ▸ hq⟩
  · by_cases e : q = p
    · subst e; exact mine
    · rw [others q e] at hv ⊢; exact h.vacant q hv

theorem retire (h : b.Law) {n : Page} (hn : n ∉ b.retired) : (b.retire n).Law := by
  have free (m : Page) : m ∈ (b.retire n).free ↔ m ∈ b.free ∧ m ≠ n := by simp only [PageBook.retire, List.mem_filter, decide_eq_true_eq]
  have retired (m : Page) : m ∈ (b.retire n).retired ↔ m ∈ b.retired ∨ m = n := by
    simp only [PageBook.retire, List.mem_append, List.mem_singleton]
  exact
    { h with
      freeOnce := h.freeOnce.filter _
      notFree := fun m hm hf => h.notFree m hm ((free m).mp hf).1
      freeUnhurt := fun m hf hr => ((retired m).mp hr).elim (h.freeUnhurt m ((free m).mp hf).1) ((free m).mp hf).2
      parked := fun m hf hm => (retired m).mpr <| by
        by_cases e : m = n
        · exact .inr e
        · exact .inl (h.parked m (fun hb => hf ((free m).mpr ⟨hb, e⟩)) hm)
      retiredOnce := List.nodup_append'.mpr ⟨h.retiredOnce, List.nodup_singleton n, List.disjoint_singleton.mpr hn⟩ }

/-- An owned page enters the retire table and stays on its owner's list (R53). -/
theorem retireOwned (h : b.Law) {n : Page} (ho : b.Owned n) (hn : n ∉ b.retired) : PageBook.Law { b with retired := b.retired ++ [n] } := by
  have same : b.free.filter (· ≠ n) = b.free :=
    List.filter_eq_self.mpr fun m hm => decide_eq_true fun e => h.notFree n ho (e ▸ hm)
  have law := h.retire hn
  rwa [PageBook.retire, same] at law

/-- Automatic retirement of an owned page, room permitting (R58). -/
theorem retireEntry (h : b.Law) {n : Page} (ho : b.Owned n) : PageBook.Law { b with retired := Machine.retireEntry b.retired n } := by
  unfold Machine.retireEntry
  by_cases listed : b.retired.contains n = true
  · rw [if_pos listed]; exact h
  · rw [if_neg listed]
    split
    · exact h.retireOwned ho fun m => listed (List.contains_iff_mem.mpr m)
    · exact h

/-- Automatic retirement of one page after another, all of them owned (R57, R58). -/
theorem retireEntries (h : b.Law) (ns : List Page) (owned : ∀ n ∈ ns, b.Owned n) :
    PageBook.Law { b with retired := ns.foldl Machine.retireEntry b.retired } := by
  induction ns generalizing b with
  | nil => exact h
  | cons n ns ih => exact ih (h.retireEntry (owned n List.mem_cons_self)) fun m hm => owned m (List.mem_cons_of_mem _ hm)

/-- An owned page leaves the retire table and stays on its owner's list (R54). -/
theorem restoreOwned (h : b.Law) {n : Page} (ho : b.Owned n) : PageBook.Law { b with retired := b.retired.filter (· ≠ n) } :=
  { h with
    freeUnhurt := fun m hf hr => h.freeUnhurt m hf (List.mem_of_mem_filter hr)
    parked := fun m hf hm => List.mem_filter.mpr ⟨h.parked m hf hm, decide_eq_true fun e => hm (e ▸ ho)⟩
    retiredOnce := h.retiredOnce.filter _ }

theorem unpark (h : b.Law) {n : Page} (ho : ¬ b.Owned n) (hn : n ∈ b.retired) : (b.unpark n).Law := by
  have free (m : Page) : m ∈ (b.unpark n).free ↔ m ∈ b.free ∨ m = n := by
    simp only [PageBook.unpark, List.mem_append, List.mem_singleton]
  have retired (m : Page) : m ∈ (b.unpark n).retired ↔ m ∈ b.retired ∧ m ≠ n := by
    simp only [PageBook.unpark, List.mem_filter, decide_eq_true_eq]
  exact
    { h with
      freeOnce := List.nodup_append'.mpr
        ⟨h.freeOnce, List.nodup_singleton n, List.disjoint_singleton.mpr fun hf => h.freeUnhurt n hf hn⟩
      notFree := fun m hm hf => ((free m).mp hf).elim (h.notFree m hm) fun e => ho (e ▸ hm)
      freeUnhurt := fun m hf hr => ((free m).mp hf).elim (fun hb => h.freeUnhurt m hb ((retired m).mp hr).1) ((retired m).mp hr).2
      parked := fun m hf hm =>
        have out := not_or.mp ((free m).not.mp hf)
        (retired m).mpr ⟨h.parked m out.1 hm, out.2⟩
      retiredOnce := h.retiredOnce.filter _ }

end Law

theorem freshPages_nodup (retired : List Page) : (freshPages retired).Nodup := by
  rw [freshPages]
  exact List.Nodup.filter _ (List.nodup_finRange _)

theorem law_rebuilt {retired : List Page} (once : retired.Nodup) : (rebuilt retired).Law := by
  have free (n : Page) : n ∈ (rebuilt retired).free ↔ n ∉ retired := by
    simp only [rebuilt, freshPages, List.mem_filter, List.mem_finRange, true_and, Bool.not_eq_true', List.contains_eq_mem,
      decide_eq_false_iff_not]
  have unowned (n : Page) : ¬ (rebuilt retired).Owned n := fun ⟨_, h⟩ => nomatch h
  exact
    { freeOnce := by simp only [rebuilt, freshPages_nodup]
      ownedOnce := fun _ => List.nodup_nil
      oneOwner := fun _ _ _ h => nomatch h
      notFree := fun n ho => absurd ho (unowned n)
      freeUnhurt := fun n => (free n).mp
      parked := fun n hf _ => not_not.mp ((free n).not.mp hf)
      retiredOnce := once
      vacant := fun _ _ => rfl }

end PageBook

end Sys2Proof.Machine
end

