-- ==== Sys2Proof/Proofs/PageMoves.lean ====
section
/-! SUPPORT. What the operations of the part do to the book of pages: most leave it as it was, and each of the others moves pages in one of
the ways of R44, R48, R52 to R54 and R58. -/

namespace Sys2Proof.Machine

/-! ### A programme's share of the delay store -/

theorem Programme.writeTiming_share (p : Programme) (t : TimingFields) : (p.writeTiming t).share = p.share := by
  unfold Programme.writeTiming
  split <;> rfl

theorem Programme.writeMode_share (p : Programme) (mode : TimingMode) : (p.writeMode mode).share = p.share := by
  unfold Programme.writeMode
  dsimp only
  repeat' split
  all_goals rfl

theorem Programme.writeFixedDelay_share (p : Programme) (d : Nat) : (p.writeFixedDelay d).share = p.share := by
  unfold Programme.writeFixedDelay
  dsimp only
  split <;> rfl

theorem Programme.writeGainMode_share (p : Programme) (mode : GainMode) : (p.writeGainMode mode).share = p.share := by
  unfold Programme.writeGainMode
  dsimp only
  split
  · rfl
  · cases mode <;> rfl

theorem Programme.writeField_share (p : Programme) (field v : Nat) : (p.writeField field v).share = p.share := by
  unfold Programme.writeField
  split
  case h_1 => exact p.writeTiming_share _
  case h_2 => exact p.writeMode_share _
  case h_3 => exact p.writeTiming_share _
  case h_4 => exact p.writeFixedDelay_share v
  case h_11 => exact p.writeGainMode_share _
  all_goals rfl

theorem Programme.restartMeasurement_share (p : Programme) : p.restartMeasurement.share = p.share := by
  unfold Programme.restartMeasurement
  split <;> rfl

theorem Programme.timeJump_share (p : Programme) : p.timeJump.share = p.share := by
  unfold Programme.timeJump
  split <;> rfl

theorem Programme.fireDue_share (p : Programme) (now : Word32) : (p.fireDue now).share = p.share := by
  unfold Programme.fireDue Programme.fire
  repeat' split
  all_goals rfl

theorem Programme.foldl_share {α : Type} {g : Programme → α → Programme} (h : ∀ p a, (g p a).share = p.share) (as : List α)
    (p : Programme) : (as.foldl g p).share = p.share := by
  induction as generalizing p with
  | nil => rfl
  | cons a as ih => exact (ih _).trans (h p a)

theorem Programme.takeAges_share (p : Programme) (f : Fin 8) (ages : List Int) : (p.takeAges f ages).share = p.share := by
  unfold Programme.takeAges
  split
  · exact Programme.foldl_share (g := Programme.ageSample) (fun _ _ => rfl) ages p
  · rfl

theorem Programme.passFrame_share (p : Programme) (t : Tables) (threshold : Nat) (words : List Word32) :
    (p.passFrame t threshold words).share = p.share := by
  have judged : (p.judgeEpoch words).share = p.share := by
    unfold Programme.judgeEpoch
    split <;> rfl
  exact judged

/-- A burst boundary ends clearing with the programme RUNNING, and moves no page (R49, R50). -/
theorem Programme.boundary_share (p : Programme) : p.boundary.share = p.share := by
  unfold Programme.boundary Programme.clearStep
  split
  · rfl
  · rename_i clearing
    split
    · simp only [Programme.share, Programme.complete, clearing, reduceCtorEq]
    · rfl
  · rfl

theorem Programme.slice_share (p : Programme) (levels : List LevelEntry) (unity : Byte) (n : Nat) :
    (p.slice levels unity n).share = p.share := by
  unfold Programme.slice
  dsimp only
  split <;> rfl

theorem Programme.allocated_share (p : Programme) (pages : List Page) : (p.allocated pages).share = { vacant := false, pages := pages } := rfl

theorem Programme.released_share (p : Programme) : p.released.share = { vacant := true, pages := [] } := rfl

theorem Programme.restarted_share (p : Programme) (unity : Byte) : (p.restarted unity).share = { vacant := true, pages := [] } := rfl

/-! ### The book after an operation -/

theorem State.book_of_same {s t : State} (programmes : t.programmes = s.programmes) (store : t.store = s.store) : t.book = s.book := by
  simp only [State.book, programmes, store]

theorem State.updProgramme_book (s : State) (p : Fin 16) (g : Programme → Programme) :
    (s.updProgramme p g).book = s.book.give p (g s.programmes[p]).share := by
  have shares : (s.updProgramme p g).book.share = (s.book.give p (g s.programmes[p]).share).share := by
    funext q
    by_cases e : q = p
    · subst e
      rw [PageBook.give_share_same]
      exact congrArg Programme.share (updAt_same ..)
    · rw [PageBook.give_share_other _ _ e]
      exact congrArg Programme.share (updAt_other _ _ _ _ (Ne.symm e))
  rw [State.book, PageBook.mk.injEq]
  exact ⟨rfl, rfl, shares⟩

theorem State.updProgramme_book_same (s : State) (p : Fin 16) {g : Programme → Programme}
    (h : (g s.programmes[p]).share = s.programmes[p].share) : (s.updProgramme p g).book = s.book := by
  rw [s.updProgramme_book, h]
  exact congrArg (PageBook.mk _ _) (Function.update_eq_self p s.book.share)

theorem State.book_of_map {s t : State} (g : Fin 16 → Programme → Programme) (programmes : t.programmes = mapAll g s.programmes)
    (store : t.store = s.store) (h : ∀ p x, (g p x).share = x.share) : t.book = s.book := by
  simp only [State.book, programmes, store, Fin.getElem_fin, mapAll_getElem, h]

theorem State.foldl_book {α : Type} {g : State → α → State} (h : ∀ s a, (g s a).book = s.book) (as : List α) (s : State) :
    (as.foldl g s).book = s.book := by
  induction as generalizing s with
  | nil => rfl
  | cons a as ih => exact (ih _).trans (h s a)

theorem State.offerAlarm_book (s : State) (type : AlarmReportType) (r : Fin 400) : (s.offerAlarm type r).book = s.book := by
  unfold State.offerAlarm
  repeat' split
  all_goals rfl

theorem State.sweep_book (s : State) (h : SliceHandover) : (s.sweep h).book = s.book := by
  obtain ⟨w, e, -⟩ := s.sweep_told h
  rw [e]
  rfl

theorem State.clearAlarms_book (s : State) : s.clearAlarms.book = s.book := by
  have forced : s.forceAll.book = s.book := State.book_of_same (by simp only [State.forceAll]) s.forceAll_store
  exact (State.foldl_book (fun t r => t.offerAlarm_book .clear r) _ _).trans forced

theorem State.offerAborted_book (s : State) : s.offerAborted.book = s.book := by
  unfold State.offerAborted
  split <;> rfl

theorem State.endLog_book (s : State) : s.endLog.book = s.book := by
  unfold State.endLog
  dsimp only
  split
  · exact State.offerAborted_book _
  · rfl

theorem State.logProgramme_book (s : State) (p : Fin 16) : (s.logProgramme p).book = s.book := by
  have appended : (s.logAppend (s.logEntry p)).book = s.book := by
    unfold State.logAppend
    dsimp only
    split <;> rfl
  unfold State.logProgramme
  repeat' split
  · exact (State.updProgramme_book_same _ p rfl).trans appended
  · exact s.updProgramme_book_same p rfl
  · rfl

/-- A burst boundary writes the pages that it clears, and moves none (R49). -/
theorem State.closePeriod_book (s : State) : s.closePeriod.book = s.book := by
  have programmes : s.closePeriod.programmes = mapAll (fun _ p => p.boundary) s.programmes := rfl
  simp only [State.book, programmes, Fin.getElem_fin, mapAll_getElem, Programme.boundary_share]
  rfl

theorem State.latchGains_book (s : State) : s.latchGains.book = s.book := by
  unfold State.latchGains
  split
  · exact State.book_of_map (fun _ p => { p with rider := { p.rider with latched := p.rider.gain } }) rfl rfl fun _ _ => rfl
  · rfl

/-! ### Commands that move no page -/

theorem State.takeHold_book (s : State) (o : Byte) (cls : RightClass) (p : Fin 16) : (s.takeHold o cls p).book = s.book :=
  s.updProgramme_book_same p rfl

theorem State.timeJump_book (s : State) : s.timeJump.book = s.book :=
  State.book_of_map (fun _ p => p.timeJump) (by simp only [State.timeJump]) s.timeJump_store fun _ p => p.timeJump_share

theorem State.acknowledgeAll_book (s : State) (rs : List (Fin 400)) : (s.acknowledgeAll rs).book = s.book :=
  State.foldl_book (g := fun t r => t.updRecord r AlarmRecord.acknowledge) (fun _ _ => rfl) rs s

theorem State.writeProgramme_book (s : State) (o : Byte) (cls : RightClass) (field v : Nat) (p : Fin 16) :
    (s.writeProgramme o cls field v p).state.book = s.book := by
  unfold State.writeProgramme
  repeat' split
  · rfl
  · rfl
  · exact (State.takeHold_book ..).trans (s.updProgramme_book_same p (Programme.writeField_share ..))

theorem cancelTake_book (o : Byte) (s : State) (p : Fin 16) : (cancelTake o s p).1.book = s.book := by
  unfold cancelTake
  repeat' split
  · rfl
  · exact (State.takeHold_book ..).trans (s.updProgramme_book_same p rfl)
  · rfl

theorem restartMeter_book (o : Byte) (s : State) (p : Fin 16) : (restartMeter o s p).1.book = s.book := by
  unfold restartMeter
  split
  · rfl
  · exact (State.takeHold_book ..).trans (s.updProgramme_book_same p (Programme.restartMeasurement_share _))

section Group

variable {one : State → Fin 16 → State × CommandResult} (alone : ∀ s p, (one s p).1.book = s.book)

include alone

theorem judgeEach_book (ps : List (Fin 16)) (s : State) (g : GroupTally) : (judgeEach one ps s g).1.book = s.book := by
  induction ps generalizing s g with
  | nil => rfl
  | cons p ps ih => exact (ih _ _).trans (alone s p)

omit alone in
theorem groupReply_book (s : State) (g : GroupTally) (whole : Option CommandResult) : (groupReply s g whole).state.book = s.book := by
  unfold groupReply
  cases g.first <;> rfl

theorem judgeGroup_book (selection : BitVec 16) (s : State) : (judgeGroup selection one s).state.book = s.book :=
  (groupReply_book ..).trans (judgeEach_book alone ..)

theorem judgeChoice_book (o : Byte) (cls : RightClass) (choice : ProgrammeChoice) (s : State) :
    (judgeChoice o cls choice one s).state.book = s.book := by
  unfold judgeChoice refuse
  split
  · repeat' split
    · rfl
    · rfl
    · exact alone s _
  · exact judgeGroup_book alone _ s

end Group

theorem setPolicy_book (o object field : Byte) (value : Word32) (s : State) : (setPolicy o object field value s).state.book = s.book := by
  unfold setPolicy refuse
  split
  · rfl
  · split
    · rfl
    · split
      · rfl
      · split
        · rfl
        · rename_i kind _ _ fv _
          dsimp only
          split
          · exact State.book_of_same ((s.writePolicy kind field.toNat fv.stored).forceKind_programmes kind)
              ((s.writePolicy kind field.toNat fv.stored).forceKind_store kind)
          · rfl

theorem judgeSet_book (o target object field : Byte) (value : Word32) (s : State) :
    (judgeSet o target object field value s).state.book = s.book := by
  unfold judgeSet
  split
  · unfold setFeed refuse
    repeat' split
    all_goals rfl
  · unfold setProgramme refuse
    repeat' split
    · rfl
    · rfl
    · rfl
    · dsimp only
      split
      · exact s.writeProgramme_book ..
      · rfl
  · unfold setMap refuse
    repeat' split
    all_goals rfl
  · unfold setTrunk refuse State.afterReceiver
    repeat' split
    all_goals rfl
  · exact setPolicy_book ..
  · unfold setOriginator refuse
    repeat' split
    all_goals rfl
  · unfold setPart refuse accept
    repeat' split
    all_goals rfl
  · rfl

theorem judgeGroupSet_book (o : Byte) (selection : BitVec 16) (field : Byte) (value : Word32) (s : State) :
    (judgeGroupSet o selection field value s).state.book = s.book := by
  unfold judgeGroupSet
  repeat' split
  · exact groupReply_book ..
  · exact groupReply_book ..
  · exact judgeGroup_book (fun t p => t.writeProgramme_book ..) _ s

theorem judgeRead_book (group object start count : Nat) (s : State) : (judgeRead group object start count s).state.book = s.book := by
  unfold judgeRead refuse accept
  cases readsImmediate s group object
  all_goals
    dsimp only [Bool.false_eq_true, if_true, if_false]
    split <;> rfl

theorem judgeLoad_book (o table : Byte) (start : BitVec 16) (codes : List Byte) (s : State) :
    (judgeLoad o table start codes s).state.book = s.book := by
  unfold judgeLoad refuse accept
  repeat' split
  · rfl
  · rfl
  · dsimp only
    split <;> rfl

theorem judgeTake_book (o programme immediate : Byte) (time : Word32) (again : Byte) (layout : List PositionCode) (s : State) :
    (judgeTake o programme immediate time again layout s).state.book = s.book := by
  unfold judgeTake refuse accept
  split
  · rfl
  · split
    · rfl
    · split
      · rfl
      · split
        · split
          · exact (State.takeHold_book ..).trans (s.updProgramme_book_same _ rfl)
          · rfl
        · rfl

theorem judgeReadFault_book (o : Byte) (s : State) : (judgeReadFault o s).state.book = s.book := by
  unfold judgeReadFault refuse accept
  split <;> rfl

theorem judgeTimeSet_book (o : Byte) (value : Word32) (s : State) : (judgeTimeSet o value s).state.book = s.book := by
  unfold judgeTimeSet refuse accept
  split
  · rfl
  · exact State.timeJump_book _

theorem judgeTimeAdjust_book (o : Byte) (shift : Word32) (s : State) : (judgeTimeAdjust o shift s).state.book = s.book := by
  unfold judgeTimeAdjust refuse
  split
  · rfl
  · exact State.timeJump_book _

theorem judgeAcknowledge_book (o : Byte) (choice : AcknowledgeChoice) (s : State) : (judgeAcknowledge o choice s).state.book = s.book := by
  unfold judgeAcknowledge
  split
  · unfold acknowledgeOne refuse
    repeat' split
    all_goals rfl
  · unfold acknowledgeGroup
    split
    · exact judgeGroup_book (one := fun t _ => (t, .noRight)) (fun _ _ => rfl) _ s
    · split
      · exact groupReply_book ..
      · exact (State.acknowledgeAll_book ..).trans (judgeGroup_book (one := fun t _ => (t, .done)) (fun _ _ => rfl) _ s)

theorem judgeReleaseHold_book (o programme cls : Byte) (s : State) : (judgeReleaseHold o programme cls s).state.book = s.book := by
  unfold judgeReleaseHold refuse accept
  repeat' split
  case h_2.isFalse => exact s.updProgramme_book_same _ rfl
  all_goals rfl

theorem judgeLogRead_book (o mode : Byte) (count : BitVec 16) (stop : Byte) (s : State) :
    (judgeLogRead o mode count stop s).state.book = s.book := by
  unfold judgeLogRead refuse
  repeat' split
  all_goals rfl

theorem judgeLogCancel_book (o : Byte) (s : State) : (judgeLogCancel o s).state.book = s.book := by
  unfold judgeLogCancel refuse
  repeat' split
  all_goals rfl

theorem judgeRestart_book (o : Byte) (s : State) : (judgeRestart o s).state.book = s.book := by
  unfold judgeRestart refuse accept
  split <;> rfl

/-! ### Commands that move pages -/

/-- An ALLOCATE that is not refused is an allotment to an UNALLOCATED programme (R48). -/
theorem judgeAllocate_book (o programme : Byte) (frames : Word32) (s : State) :
    (judgeAllocate o programme frames s).state.book = s.book ∨
      ∃ p k, (s.book.share p).vacant = true ∧ (judgeAllocate o programme frames s).state.book = s.book.allot p k := by
  unfold judgeAllocate refuse
  split
  · exact .inl rfl
  · split
    · exact .inl rfl
    · rename_i p _
      dsimp only
      split
      · exact .inl rfl
      · rename_i free
        split
        · exact .inl rfl
        · refine .inr ⟨p, (clampNat 1 1048576 frames.toNat + 127) / 128, decide_eq_true (not_not.mp free), ?_⟩
          rw [State.updProgramme_book, Programme.allocated_share]
          rfl

/-- A RELEASE that is not refused (R52). -/
theorem judgeRelease_book (o programme : Byte) (s : State) :
    (judgeRelease o programme s).state.book = s.book ∨ ∃ p, (judgeRelease o programme s).state.book = s.book.release p := by
  unfold judgeRelease refuse accept
  split
  · exact .inl rfl
  · split
    · exact .inl rfl
    · rename_i p _
      dsimp only
      split
      · exact .inl rfl
      · refine .inr ⟨p, ?_⟩
        rw [State.updProgramme_book, Programme.released_share]
        rfl

/-- A RETIRE enters a page that is not yet retired, and takes it from the free-page list if no programme owns it (R53). -/
theorem judgeRetire_book (o : Byte) (page : BitVec 16) (s : State) :
    (judgeRetire o page s).state.book = s.book ∨ ∃ n ∉ s.book.retired,
      s.book.Owned n ∧ (judgeRetire o page s).state.book = { s.book with retired := s.book.retired ++ [n] } ∨
      (judgeRetire o page s).state.book = s.book.retire n := by
  unfold judgeRetire refuse accept
  split
  · exact .inl rfl
  · split
    · exact .inl rfl
    · rename_i n _
      split
      · exact .inl rfl
      · rename_i listed
        have new : n ∉ s.book.retired := fun h => listed (List.contains_iff_mem.mpr h)
        split
        · exact .inl rfl
        · split
          · exact .inr ⟨n, new, .inl ⟨State.owned_of_ownerOf ‹_›, rfl⟩⟩
          · exact .inr ⟨n, new, .inr rfl⟩

/-- A RESTORE takes a page from the retire table, and frees it if no programme owns it (R54). -/
theorem judgeRestore_book (o : Byte) (page : BitVec 16) (s : State) :
    (judgeRestore o page s).state.book = s.book ∨ ∃ n ∈ s.book.retired,
      s.book.Owned n ∧ (judgeRestore o page s).state.book = { s.book with retired := s.book.retired.filter (· ≠ n) } ∨
      ¬ s.book.Owned n ∧ (judgeRestore o page s).state.book = s.book.unpark n := by
  unfold judgeRestore refuse accept
  split
  · exact .inl rfl
  · split
    · exact .inl rfl
    · rename_i n _
      split
      · rename_i listed
        have old : n ∈ s.book.retired := List.contains_iff_mem.mp listed
        split
        · rename_i owner
          obtain ⟨p, owns⟩ := Option.isSome_iff_exists.mp owner
          exact .inr ⟨n, old, .inl ⟨State.owned_of_ownerOf owns, rfl⟩⟩
        · rename_i owner
          exact .inr ⟨n, old, .inr ⟨(s.ownerOf_none_iff n).mp (Option.not_isSome_iff_eq_none.mp owner), rfl⟩⟩
      · exact .inl rfl

/-! ### Reset, restart and house frames -/

theorem State.powerOn_book (s : State) (straps : BitVec 6) : (s.powerOn straps).book = PageBook.rebuilt [] := by
  have all : freshPages [] = List.finRange 16384 := List.filter_eq_self.mpr fun _ _ => rfl
  have initial (p : Fin 16) : (Vector.replicate 16 Programme.initial)[p] = Programme.initial := Vector.getElem_replicate p.isLt
  simp only [State.book, State.powerOn, State.reset, DelayStore.initial, PageBook.rebuilt, all, initial]
  rfl

theorem State.releaseAll_book (s : State) : s.releaseAll.book = PageBook.rebuilt s.store.retired := by
  simp only [State.book, State.releaseAll, PageBook.rebuilt, Fin.getElem_fin, mapAll_getElem, Programme.restarted_share]

theorem DelayStore.foldl_fault1_retired (d : DelayStore) (fs : List ParityFault) :
    (fs.foldl DelayStore.fault1 d).retired = (fs.map ParityFault.page).foldl retireEntry d.retired := by
  induction fs generalizing d with
  | nil => rfl
  | cons f fs ih => exact ih _

theorem DelayStore.writeSlot_retired (d : DelayStore) (c : StoreContext) (slot : Nat) (words : List DelayWord) :
    (d.writeSlot c slot words).retired = d.retired := by
  unfold DelayStore.writeSlot
  split <;> rfl

/-- A fault is on a page of the ring that was fetched from (R55, R57). -/
theorem frameFaults_page {p : Fin 16} {now : Word32} {c : StoreContext} {slot : Nat} {words : List Word32} {n : Page}
    (h : n ∈ (frameFaults p now (c.place slot) words).map ParityFault.page) : n ∈ c.pages := by
  cases found : c.pages[slot / 128]? with
  | none =>
    rw [StoreContext.place, found] at h
    cases h
  | some page =>
    rw [StoreContext.place, found] at h
    obtain ⟨f, hf, rfl⟩ := List.mem_map.mp h
    obtain ⟨w, -, rfl⟩ := List.mem_map.mp hf
    exact List.mem_of_getElem? found

/-- A programme's fetch and write enter in the retire table pages of its own ring alone (R55, R57, R58). -/
theorem DelayStore.serve_retired (d : DelayStore) (p : Fin 16) (now : Word32) (outputs : Vector FeedOutput 8) (x : Programme) :
    ∃ ns : List Page, (∀ n ∈ ns, n ∈ x.store.pages) ∧ (d.serve p now outputs x).retired = ns.foldl retireEntry d.retired :=
  ⟨_, fun _ => frameFaults_page, (DelayStore.writeSlot_retired ..).trans (DelayStore.foldl_fault1_retired ..)⟩

/-- A programme at a house frame can only enter pages of its own in the retire table (R57, R58). -/
theorem State.runProgramme_book (outputs : Vector FeedOutput 8) (s : State) (p : Fin 16) :
    ∃ ns : List Page, (∀ n ∈ ns, s.book.Owned n) ∧
      (s.runProgramme outputs p).book = { s.book with retired := ns.foldl retireEntry s.book.retired } := by
  unfold State.runProgramme
  dsimp only
  split
  · obtain ⟨ns, owned, retired⟩ := s.store.serve_retired p s.time.houseTime outputs s.programmes[p]
    refine ⟨ns, fun n hn => ⟨p, owned n hn⟩, (State.updProgramme_book_same _ p (Programme.passFrame_share ..)).trans ?_⟩
    rw [State.book, PageBook.mk.injEq]
    exact ⟨DelayStore.serve_freeList .., retired, rfl⟩
  · exact ⟨[], fun _ h => (List.not_mem_nil h).elim, rfl⟩

end Sys2Proof.Machine
end

