-- ==== Sys2Proof/Proofs/PageLaw.lean ====
section
/-! SUPPORT. The law of pages is kept by every step (R43). -/

namespace Sys2Proof.Machine

/-- Every command keeps the law of pages: four of them move pages, and the others leave the book of pages as it was. -/
theorem State.PageLaw.judge {s : State} (hs : s.PageLaw) (o : Byte) (c : Command) : (judge o c s).state.PageLaw := by
  have law := s.pageLaw_iff.mp hs
  cases c with
  | set t ob f v => exact hs.of_book (judgeSet_book ..)
  | groupSet m f v => exact hs.of_book (judgeGroupSet_book ..)
  | read g ob a n => exact hs.of_book (judgeRead_book ..)
  | load t a cs => exact hs.of_book (judgeLoad_book ..)
  | take p i t r l => exact hs.of_book (judgeTake_book ..)
  | takeCancel c => exact hs.of_book (judgeChoice_book (cancelTake_book o) ..)
  | allocate p f =>
    refine (State.pageLaw_iff _).mpr ?_
    change (judgeAllocate o p f s).state.book.Law
    obtain same | ⟨q, k, vacant, moved⟩ := judgeAllocate_book o p f s
    · exact same ▸ law
    · exact moved ▸ law.allot k (law.vacant q vacant)
  | release p =>
    refine (State.pageLaw_iff _).mpr ?_
    change (judgeRelease o p s).state.book.Law
    obtain same | ⟨q, moved⟩ := judgeRelease_book o p s
    · exact same ▸ law
    · exact moved ▸ law.release q
  | retire n =>
    refine (State.pageLaw_iff _).mpr ?_
    change (judgeRetire o n s).state.book.Law
    obtain same | ⟨m, new, ⟨owned, moved⟩ | moved⟩ := judgeRetire_book o n s
    · exact same ▸ law
    · exact moved ▸ law.retireOwned owned new
    · exact moved ▸ law.retire new
  | restore n =>
    refine (State.pageLaw_iff _).mpr ?_
    change (judgeRestore o n s).state.book.Law
    obtain same | ⟨m, old, ⟨owned, moved⟩ | ⟨unowned, moved⟩⟩ := judgeRestore_book o n s
    · exact same ▸ law
    · exact moved ▸ law.restoreOwned owned
    · exact moved ▸ law.unpark unowned old
  | readFault => exact hs.of_book (judgeReadFault_book ..)
  | timeSet v => exact hs.of_book (judgeTimeSet_book ..)
  | timeAdjust v => exact hs.of_book (judgeTimeAdjust_book ..)
  | restartMeasurement c => exact hs.of_book (judgeChoice_book (restartMeter_book o) ..)
  | acknowledge c => exact hs.of_book (judgeAcknowledge_book ..)
  | releaseHold p c => exact hs.of_book (judgeReleaseHold_book ..)
  | logRead m n f => exact hs.of_book (judgeLogRead_book ..)
  | logCancel => exact hs.of_book (judgeLogCancel_book ..)
  | logStatus => exact hs.of_book rfl
  | status => exact hs
  | restart => exact hs.of_book (judgeRestart_book ..)

/-- Every elementary operation keeps the law of pages. -/
theorem pageLaw_kept : Kept State.PageLaw where
  pending _ _ hs := hs.of_book rfl
  powerOn s straps _ := (State.pageLaw_iff _).mpr (s.powerOn_book straps ▸ PageBook.law_rebuilt List.nodup_nil)
  time _ _ hs := hs.of_book rfl
  judge o c _ hs := hs.judge o c
  reply _ _ _ hs := hs.of_book rfl
  alarm s type r hs := hs.of_book (s.offerAlarm_book type r)
  aborted s hs := hs.of_book s.offerAborted_book
  transfer _ _ hs := hs.of_book rfl
  commands _ _ _ hs := hs.of_book rfl
  overrun _ hs := hs.of_book rfl
  departs _ _ _ _ hs := hs.of_book rfl
  queues s hs := hs.of_book (State.book_of_same s.emptyQueues_programmes s.emptyQueues_store)
  release s hs := (State.pageLaw_iff _).mpr (s.releaseAll_book ▸ PageBook.law_rebuilt hs.retired)
  alarms s hs := hs.of_book s.clearAlarms_book
  endLog s hs := hs.of_book s.endLog_book
  ready _ hs := hs.of_book rfl
  receiver _ _ _ hs := hs.of_book rfl
  unframed _ _ hs := hs.of_book rfl
  deliver s n b hs := hs.of_book (by unfold State.deliverSample; split <;> rfl)
  forward s n b hs := hs.of_book (by unfold State.forwardBurst; split <;> rfl)
  output _ _ _ _ hs := hs.of_book rfl
  takes s p now hs := hs.of_book (s.updProgramme_book_same p (Programme.fireDue_share ..))
  fireTakes s hs := hs.of_book <|
    State.book_of_map (fun _ p => p.fireDue s.time.houseTime) (by simp only [State.fireTakes]) s.fireTakes_store
      fun _ p => p.fireDue_share _
  latch s hs := hs.of_book s.latchGains_book
  convert s hs := hs.of_book <|
    State.book_of_map (fun _ p => (List.finRange 8).foldl (fun q f => q.takeAges f s.conversions[f].ages) p)
      (by simp only [State.convertFeeds]) s.convertFeeds_store
      fun _ p => Programme.foldl_share (fun q f => q.takeAges_share f _) _ p
  programme s outputs p hs := by
    obtain ⟨ns, owned, e⟩ := s.runProgramme_book outputs p
    exact (State.pageLaw_iff _).mpr (e ▸ (s.pageLaw_iff.mp hs).retireEntries ns owned)
  assemble s hs := hs.of_book (State.book_of_same s.assembleOutputs_programmes s.assembleOutputs_store)
  period s hs := hs.of_book s.closePeriod_book
  servo s hs := hs.of_book (State.book_of_same s.servo_programmes s.servo_store)
  slices s hs := hs.of_book <|
    State.book_of_map (fun _ p => p.slice s.tables.levels s.tables.unity s.time.sliceFrames) (by simp only [State.formSlices])
      s.formSlices_store fun _ p => p.slice_share ..
  log s p hs := hs.of_book (s.logProgramme_book p)
  sweep s h hs := hs.of_book (s.sweep_book h)

/-- Settles O57: each way in which pages move keeps the book of pages lawful, every operation moves pages in one of those ways or not at all,
and the counts of R43 follow from the three conditions of a page. -/
theorem stepKeepsThePageLaw : Obligations.StepKeepsThePageLaw := by
  unfold Obligations.StepKeepsThePageLaw
  exact pageLaw_kept.step

end Sys2Proof.Machine
end

