-- ==== Sys2Proof/Proofs/AlarmUnit.lean ====
section
/-! SUPPORT. What the operations of the part do to the alarm unit: a command leaves it as it was or ends with the lines formed anew (R121, R132
to R134), and the events here leave it as it was. -/

namespace Sys2Proof.Machine

/-! ### SET -/

theorem setFeed_alarms (o object field : Byte) (value : Word32) (s : State) : (setFeed o object field value s).state.alarms = s.alarms := by
  unfold setFeed refuse
  repeat' split
  all_goals rfl

theorem State.writeProgramme_alarms (s : State) (o : Byte) (cls : RightClass) (field v : Nat) (p : Fin 16) :
    (s.writeProgramme o cls field v p).state.alarms = s.alarms := by
  unfold State.writeProgramme
  repeat' split
  all_goals rfl

theorem setProgramme_alarms (o object field : Byte) (value : Word32) (s : State) :
    (setProgramme o object field value s).state.alarms = s.alarms := by
  unfold setProgramme refuse
  repeat' split
  · rfl
  · rfl
  · rfl
  · dsimp only
    split
    · exact s.writeProgramme_alarms ..
    · rfl

theorem setMap_alarms (o object field : Byte) (value : Word32) (s : State) : (setMap o object field value s).state.alarms = s.alarms := by
  unfold setMap refuse
  repeat' split
  all_goals rfl

theorem setTrunk_alarms (o object field : Byte) (value : Word32) (s : State) :
    (setTrunk o object field value s).state.alarms = s.alarms := by
  unfold setTrunk refuse State.afterReceiver
  repeat' split
  all_goals rfl

theorem setOriginator_alarms (o object field : Byte) (value : Word32) (s : State) :
    (setOriginator o object field value s).state.alarms = s.alarms := by
  unfold setOriginator refuse
  repeat' split
  all_goals rfl

theorem setPart_alarms (o object field : Byte) (value : Word32) (s : State) : (setPart o object field value s).state.alarms = s.alarms := by
  unfold setPart refuse accept
  repeat' split
  all_goals rfl

/-- An accepted write of a kind policy ends with the lines formed anew, whether or not it forces the kind's records to CLEAR (R121, R132). -/
theorem setPolicy_alarms (o object field : Byte) (value : Word32) (s : State) :
    (setPolicy o object field value s).state.alarms = s.alarms ∨ ∃ t : State, (setPolicy o object field value s).state = t.formLines := by
  unfold setPolicy refuse
  split
  · exact .inl rfl
  · split
    · exact .inl rfl
    · split
      · exact .inl rfl
      · split
        · exact .inl rfl
        · dsimp only
          split
          · exact .inr ⟨_, rfl⟩
          · exact .inr ⟨_, rfl⟩

theorem judgeSet_alarms (o target object field : Byte) (value : Word32) (s : State) :
    (judgeSet o target object field value s).state.alarms = s.alarms ∨
      ∃ t : State, (judgeSet o target object field value s).state = t.formLines := by
  unfold judgeSet
  split
  · exact .inl (setFeed_alarms ..)
  · exact .inl (setProgramme_alarms ..)
  · exact .inl (setMap_alarms ..)
  · exact .inl (setTrunk_alarms ..)
  · exact setPolicy_alarms ..
  · exact .inl (setOriginator_alarms ..)
  · exact .inl (setPart_alarms ..)
  · exact .inl rfl

/-! ### Group forms -/

section Group

variable {one : State → Fin 16 → State × CommandResult} (alone : ∀ s p, (one s p).1.alarms = s.alarms)

include alone

theorem judgeEach_alarms (ps : List (Fin 16)) (s : State) (g : GroupTally) : (judgeEach one ps s g).1.alarms = s.alarms := by
  induction ps generalizing s g with
  | nil => rfl
  | cons p ps ih => exact (ih _ _).trans (alone s p)

omit alone in
theorem groupReply_alarms (s : State) (g : GroupTally) (whole : Option CommandResult) : (groupReply s g whole).state.alarms = s.alarms := by
  unfold groupReply
  cases g.first <;> rfl

theorem judgeGroup_alarms (selection : BitVec 16) (s : State) : (judgeGroup selection one s).state.alarms = s.alarms :=
  (groupReply_alarms ..).trans (judgeEach_alarms alone ..)

theorem judgeChoice_alarms (o : Byte) (cls : RightClass) (choice : ProgrammeChoice) (s : State) :
    (judgeChoice o cls choice one s).state.alarms = s.alarms := by
  unfold judgeChoice refuse
  split
  · repeat' split
    · rfl
    · rfl
    · exact alone s _
  · exact judgeGroup_alarms alone _ s

end Group

theorem judgeGroupSet_alarms (o : Byte) (selection : BitVec 16) (field : Byte) (value : Word32) (s : State) :
    (judgeGroupSet o selection field value s).state.alarms = s.alarms := by
  unfold judgeGroupSet
  repeat' split
  · exact groupReply_alarms ..
  · exact groupReply_alarms ..
  · exact judgeGroup_alarms (fun t p => t.writeProgramme_alarms ..) _ s

theorem cancelTake_alarms (o : Byte) (s : State) (p : Fin 16) : (cancelTake o s p).1.alarms = s.alarms := by
  unfold cancelTake
  repeat' split
  all_goals rfl

theorem restartMeter_alarms (o : Byte) (s : State) (p : Fin 16) : (restartMeter o s p).1.alarms = s.alarms := by
  unfold restartMeter
  split <;> rfl

/-- An ACKNOWLEDGE that reaches records ends with the lines formed anew (R134). -/
theorem judgeAcknowledge_alarms (o : Byte) (choice : AcknowledgeChoice) (s : State) :
    (judgeAcknowledge o choice s).state.alarms = s.alarms ∨ ∃ t : State, (judgeAcknowledge o choice s).state = t.formLines := by
  unfold judgeAcknowledge
  split
  · unfold acknowledgeOne refuse
    repeat' split
    · exact .inl rfl
    · exact .inl rfl
    · exact .inr ⟨_, rfl⟩
    · exact .inl rfl
  · unfold acknowledgeGroup
    split
    · exact .inl (judgeGroup_alarms (one := fun t _ => (t, .noRight)) (fun _ _ => rfl) _ s)
    · split
      · exact .inl (groupReply_alarms ..)
      · exact .inr ⟨_, rfl⟩

/-! ### The other commands -/

theorem judgeRead_alarms (group object start count : Nat) (s : State) :
    (judgeRead group object start count s).state.alarms = s.alarms := by
  unfold judgeRead refuse accept
  cases readsImmediate s group object
  all_goals
    dsimp only [Bool.false_eq_true, if_true, if_false]
    split <;> rfl

theorem judgeLoad_alarms (o table : Byte) (start : BitVec 16) (codes : List Byte) (s : State) :
    (judgeLoad o table start codes s).state.alarms = s.alarms := by
  unfold judgeLoad refuse accept
  repeat' split
  · rfl
  · rfl
  · dsimp only
    split <;> rfl

theorem judgeTake_alarms (o programme immediate : Byte) (time : Word32) (again : Byte) (layout : List PositionCode) (s : State) :
    (judgeTake o programme immediate time again layout s).state.alarms = s.alarms := by
  unfold judgeTake refuse accept
  repeat' split
  all_goals rfl

theorem judgeAllocate_alarms (o programme : Byte) (frames : Word32) (s : State) :
    (judgeAllocate o programme frames s).state.alarms = s.alarms := by
  unfold judgeAllocate refuse
  repeat' split
  · rfl
  · rfl
  · rfl
  · dsimp only
    split <;> rfl

theorem judgeRelease_alarms (o programme : Byte) (s : State) : (judgeRelease o programme s).state.alarms = s.alarms := by
  unfold judgeRelease refuse accept
  repeat' split
  all_goals rfl

theorem judgeRetire_alarms (o : Byte) (page : BitVec 16) (s : State) : (judgeRetire o page s).state.alarms = s.alarms := by
  unfold judgeRetire refuse accept
  repeat' split
  all_goals rfl

theorem judgeRestore_alarms (o : Byte) (page : BitVec 16) (s : State) : (judgeRestore o page s).state.alarms = s.alarms := by
  unfold judgeRestore refuse accept
  repeat' split
  all_goals rfl

theorem judgeReadFault_alarms (o : Byte) (s : State) : (judgeReadFault o s).state.alarms = s.alarms := by
  unfold judgeReadFault refuse accept
  split <;> rfl

theorem judgeTimeSet_alarms (o : Byte) (value : Word32) (s : State) : (judgeTimeSet o value s).state.alarms = s.alarms := by
  unfold judgeTimeSet refuse accept
  split
  · rfl
  · exact State.timeJump_alarms _

theorem judgeTimeAdjust_alarms (o : Byte) (shift : Word32) (s : State) : (judgeTimeAdjust o shift s).state.alarms = s.alarms := by
  unfold judgeTimeAdjust refuse
  split
  · rfl
  · exact State.timeJump_alarms _

theorem judgeReleaseHold_alarms (o programme cls : Byte) (s : State) : (judgeReleaseHold o programme cls s).state.alarms = s.alarms := by
  unfold judgeReleaseHold refuse accept
  repeat' split
  all_goals rfl

theorem judgeLogRead_alarms (o mode : Byte) (count : BitVec 16) (stop : Byte) (s : State) :
    (judgeLogRead o mode count stop s).state.alarms = s.alarms := by
  unfold judgeLogRead refuse
  repeat' split
  all_goals rfl

theorem judgeLogCancel_alarms (o : Byte) (s : State) : (judgeLogCancel o s).state.alarms = s.alarms := by
  unfold judgeLogCancel refuse
  repeat' split
  all_goals rfl

theorem judgeRestart_alarms (o : Byte) (s : State) : (judgeRestart o s).state.alarms = s.alarms := by
  unfold judgeRestart refuse accept
  split <;> rfl

/-- What a command can do to the alarm unit before its REPLY enters: nothing, or a change that ends with the lines formed anew (R133). -/
theorem judge_alarms (o : Byte) (c : Command) (s : State) :
    (judge o c s).state.alarms = s.alarms ∨ ∃ t : State, (judge o c s).state = t.formLines := by
  cases c with
  | set t ob f v => exact judgeSet_alarms ..
  | groupSet m f v => exact .inl (judgeGroupSet_alarms ..)
  | read g ob a n => exact .inl (judgeRead_alarms ..)
  | load t a cs => exact .inl (judgeLoad_alarms ..)
  | take p i t r l => exact .inl (judgeTake_alarms ..)
  | takeCancel c => exact .inl (judgeChoice_alarms (cancelTake_alarms o) ..)
  | allocate p f => exact .inl (judgeAllocate_alarms ..)
  | release p => exact .inl (judgeRelease_alarms ..)
  | retire n => exact .inl (judgeRetire_alarms ..)
  | restore n => exact .inl (judgeRestore_alarms ..)
  | readFault => exact .inl (judgeReadFault_alarms ..)
  | timeSet v => exact .inl (judgeTimeSet_alarms ..)
  | timeAdjust v => exact .inl (judgeTimeAdjust_alarms ..)
  | restartMeasurement c => exact .inl (judgeChoice_alarms (restartMeter_alarms o) ..)
  | acknowledge c => exact judgeAcknowledge_alarms ..
  | releaseHold p c => exact .inl (judgeReleaseHold_alarms ..)
  | logRead m n f => exact .inl (judgeLogRead_alarms ..)
  | logCancel => exact .inl (judgeLogCancel_alarms ..)
  | logStatus => exact .inl rfl
  | status => exact .inl rfl
  | restart => exact .inl (judgeRestart_alarms ..)

/-! ### Events -/

theorem State.offerAborted_alarms (s : State) : s.offerAborted.alarms = s.alarms := by
  unfold State.offerAborted
  split <;> rfl

theorem State.endLog_alarms (s : State) : s.endLog.alarms = s.alarms := by
  unfold State.endLog
  dsimp only
  split
  · exact State.offerAborted_alarms _
  · rfl

theorem State.deliverSample_alarms (s : State) (n : Fin 4) (b : SampleBurst) : (s.deliverSample n b).alarms = s.alarms := by
  unfold State.deliverSample
  split <;> rfl

theorem State.forwardBurst_alarms (s : State) (n : Fin 4) (b : Burst) : (s.forwardBurst n b).alarms = s.alarms := by
  unfold State.forwardBurst
  split <;> rfl

end Sys2Proof.Machine
end

