-- ==== Sys2Proof/Proofs/AlarmLines.lean ====
section
/-! SUPPORT. The alarm lines stand as the records and policies say after every step (R133), and the digest and READ carry them (R175, R178). -/

namespace Sys2Proof.Machine

/-! ### The law of the alarm lines (R133) -/

theorem AlarmUnit.lineOf_iff (a : AlarmUnit) (v : Severity) :
    a.lineOf v = true ↔ ∃ r : Fin 400, (a.policyOf r).enabled = true ∧ (a.policyOf r).severity = v ∧ a.records[r].standing = true := by
  simp only [AlarmUnit.lineOf, List.any_eq_true, List.mem_finRange, true_and, Bool.and_eq_true, beq_iff_eq, and_assoc]

/-- Whatever the records and policies are, the lines just formed agree with them. -/
theorem State.formLines_lineLaw (s : State) : s.formLines.LineLaw := ⟨s.alarms.lineOf_iff .major, s.alarms.lineOf_iff .minor⟩

/-- The law reads the lines, the policies and which records stand, and nothing else. -/
theorem State.LineLaw.of_standing {s t : State} (hs : s.LineLaw) (major : t.alarms.major = s.alarms.major)
    (minor : t.alarms.minor = s.alarms.minor) (policies : t.alarms.policies = s.alarms.policies)
    (standing : ∀ r : Fin 400, t.alarms.records[r].standing = s.alarms.records[r].standing) : t.LineLaw := by
  have policy (r : Fin 400) : t.alarms.policyOf r = s.alarms.policyOf r := congrArg (·[recordKind r]) policies
  constructor
  · simpa only [major, policy, standing] using hs.major
  · simpa only [minor, policy, standing] using hs.minor

theorem State.LineLaw.of_alarms {s t : State} (hs : s.LineLaw) (same : t.alarms = s.alarms) : t.LineLaw :=
  hs.of_standing (by rw [same]) (by rw [same]) (by rw [same]) fun r => by rw [same]

theorem State.LineLaw.updRecord {s : State} (hs : s.LineLaw) (r : Fin 400) {g : AlarmRecord → AlarmRecord}
    (same : ∀ x, (g x).standing = x.standing) : (s.updRecord r g).LineLaw := by
  refine hs.of_standing rfl rfl rfl fun q => ?_
  by_cases e : r = q
  · subst e
    exact (congrArg AlarmRecord.standing (updAt_same ..)).trans (same _)
  · exact congrArg AlarmRecord.standing (updAt_other _ _ _ _ e)

/-! ### Each operation keeps the law -/

/-- An offer changes at most the unreported flag of its record, which no line reads (R136). -/
theorem State.LineLaw.offerAlarm {s : State} (hs : s.LineLaw) (type : AlarmReportType) (r : Fin 400) : (s.offerAlarm type r).LineLaw := by
  have flag (b : Bool) (t : State) (ht : t.LineLaw) : (t.updRecord r fun x => { x with unreported := b }).LineLaw :=
    ht.updRecord r fun _ => rfl
  unfold State.offerAlarm
  split
  · exact flag false _ (hs.of_alarms rfl)
  · cases type with
    | raise | clear => exact flag true s hs
    | rpt | state => exact hs

theorem State.LineLaw.judge {s : State} (hs : s.LineLaw) (o : Byte) (c : Command) : (judge o c s).state.LineLaw := by
  obtain same | ⟨t, formed⟩ := judge_alarms o c s
  · exact hs.of_alarms same
  · exact formed ▸ t.formLines_lineLaw

/-- An entry appended to the log can set the log overrun mark alone (R129, R144). -/
theorem State.LineLaw.logAppend {s : State} (hs : s.LineLaw) (e : LogEntry) : (s.logAppend e).LineLaw := by
  unfold State.logAppend
  dsimp only
  split
  · exact hs.of_alarms rfl
  · exact hs.of_standing rfl rfl rfl fun _ => rfl

theorem State.LineLaw.logProgramme {s : State} (hs : s.LineLaw) (p : Fin 16) : (s.logProgramme p).LineLaw := by
  unfold State.logProgramme
  repeat' split
  · exact (hs.logAppend (s.logEntry p)).of_alarms rfl
  · exact hs.of_alarms rfl
  · exact hs

/-- Right after reset every record is CLEAR and both lines are deasserted. -/
theorem State.reset_lineLaw : State.reset.LineLaw := by
  have clear (r : Fin 400) : State.reset.alarms.records[r].standing = false :=
    congrArg AlarmRecord.standing (Vector.getElem_replicate r.isLt)
  have none (v : Severity) : ¬ ∃ r : Fin 400, (State.reset.alarms.policyOf r).enabled = true ∧
      (State.reset.alarms.policyOf r).severity = v ∧ State.reset.alarms.records[r].standing = true :=
    fun ⟨r, _, _, stands⟩ => Bool.false_ne_true ((clear r).symm.trans stands)
  exact ⟨iff_of_false Bool.false_ne_true (none .major), iff_of_false Bool.false_ne_true (none .minor)⟩

/-- Every elementary operation keeps the law of the alarm lines: what moves a record or writes a policy forms the lines anew. -/
theorem lineLaw_kept : Kept State.LineLaw where
  pending _ _ hs := hs.of_alarms rfl
  powerOn _ _ _ := State.reset_lineLaw.of_alarms rfl
  time _ _ hs := hs.of_alarms rfl
  judge o c _ hs := hs.judge o c
  reply _ _ _ hs := hs.of_alarms rfl
  alarm _ type r hs := hs.offerAlarm type r
  aborted s hs := hs.of_alarms s.offerAborted_alarms
  transfer _ _ hs := hs.of_alarms rfl
  commands _ _ _ hs := hs.of_alarms rfl
  overrun _ hs := hs.of_standing rfl rfl rfl fun _ => rfl
  departs _ _ _ _ hs := hs.of_alarms rfl
  queues s hs := hs.of_alarms s.emptyQueues_alarms
  release s hs := hs.of_alarms s.releaseAll_alarms
  alarms _ _ := State.formLines_lineLaw _
  endLog s hs := hs.of_alarms s.endLog_alarms
  ready _ hs := hs.of_alarms rfl
  receiver _ _ _ hs := hs.of_alarms rfl
  unframed s n hs := hs.of_alarms (s.trunkUnframed_alarms n)
  deliver s n b hs := hs.of_alarms (s.deliverSample_alarms n b)
  forward s n b hs := hs.of_alarms (s.forwardBurst_alarms n b)
  output _ _ _ _ hs := hs.of_alarms rfl
  takes _ _ _ hs := hs.of_alarms rfl
  fireTakes s hs := hs.of_alarms s.fireTakes_alarms
  latch s hs := hs.of_alarms s.latchGains_beside.alarms
  convert s hs := hs.of_alarms s.convertFeeds_alarms
  programme s outputs p hs := hs.of_alarms (State.runProgramme_beside outputs s p).alarms
  assemble s hs := hs.of_alarms s.assembleOutputs_alarms
  period _ hs := hs.of_alarms rfl
  servo s hs := hs.of_alarms s.servo_alarms
  slices s hs := hs.of_alarms s.formSlices_alarms
  log _ p hs := hs.logProgramme p
  sweep _ _ _ := State.formLines_lineLaw _

/-! ### The digest (R175, R183) -/

/-- An indication and its place entered in a digest octet. -/
def enterIndication (octet : Byte) (x : Bool × Nat) : Byte := if x.1 then octet ||| (1#8 <<< x.2) else octet

theorem enterIndication_getLsbD (octet : Byte) (b : Bool) (k i : Nat) (h : i < 8) :
    (enterIndication octet (b, k)).getLsbD i = (octet.getLsbD i || (b && decide (i = k))) := by
  have place : (1#8 <<< k).getLsbD i = decide (i = k) := by
    rw [BitVec.getLsbD_shiftLeft, BitVec.getLsbD_one, Bool.eq_iff_iff]
    simp only [Bool.and_eq_true, Bool.not_eq_true', decide_eq_true_eq, decide_eq_false_iff_not]
    omega
  cases b with
  | false => simp [enterIndication]
  | true => simp [enterIndication, place]

/-- Entering indications from place `k` on sets the bits from `k` on, one each. -/
theorem foldl_enterIndication_getLsbD (bs : List Bool) (octet : Byte) (k i : Nat) (h : i < 8) :
    ((bs.zipIdx k).foldl enterIndication octet).getLsbD i = (octet.getLsbD i || (decide (k ≤ i) && bs.getD (i - k) false)) := by
  induction bs generalizing octet k with
  | nil => simp
  | cons b bs ih =>
    rw [List.zipIdx_cons, List.foldl_cons, ih, enterIndication_getLsbD _ _ _ _ h]
    rcases Nat.lt_trichotomy i k with before | rfl | after
    · simp [Nat.not_le_of_lt before, Nat.not_le_of_lt (Nat.lt_succ_of_lt before), Nat.ne_of_lt before]
    · simp
    · have next : i - k = i - (k + 1) + 1 := by omega
      simp [next, Nat.le_of_lt after, Nat.succ_le_of_lt after, Nat.ne_of_gt after]

/-- Bit `i` of the status digest is indication `i` (R183). -/
theorem State.digest_getLsbD (s : State) (i : Nat) (h : i < 8) : s.digest.getLsbD i = s.indications.getD i false := by
  have formed := foldl_enterIndication_getLsbD s.indications 0#8 0 i h
  rwa [BitVec.getLsbD_zero, Bool.false_or, decide_eq_true (Nat.zero_le i), Bool.true_and] at formed

/-! ### READ (R178) -/

/-- A READ that reaches an idle command processor is judged at once, and its REPLY enters (R167, R168). -/
theorem exec_read {s : State} (idle : s.Idle) (sender : Sender) (group object : Byte) (start count : BitVec 16) :
    exec (.read sender group object start count) s =
      .next ((judgeRead group.toNat object.toNat start.toNat count.toNat s).answer
        (s.commandBurst sender (encodeCommand (.read group object start count)))) := by
  have decoded : decodeCommand 3 0 ([group, object] ++ octets16 start ++ octets16 count) = .ok (.read group object start count) := by
    change Except.ok (Command.read group object (field2 _ _) (field2 _ _)) = _
    rw [field2_extract, field2_extract]
  change Host.Outcome.next (s.intake _) = _
  rw [State.intake_idle idle, State.takeCommand, judgeBurstCommand]
  simp only [State.commandBurst, encodeCommand, decoded]
  rfl

/-- READ of group 14 returns the two lines first, then the two overrun marks (R139, R184). -/
theorem judgeRead_lines (s : State) (start count : Nat) :
    judgeRead 14 0 start count s =
      accept s (item (codeOf s.alarms.major) ++ item (codeOf s.alarms.minor) ++
        (item (codeOf s.alarms.commandOverrun) ++ item (codeOf s.alarms.logOverrun))) := by
  rw [← List.append_assoc]
  rfl

/-- Settles O60: an operation that moves a record or writes a policy ends with the lines formed anew, and the others leave the lines, the
policies and the records that stand as they were. -/
theorem stepKeepsAlarmLines : Obligations.StepKeepsAlarmLines := by
  unfold Obligations.StepKeepsAlarmLines
  refine ⟨lineLaw_kept.step, ⟨State.reset_lineLaw, rfl, rfl⟩, fun s _ => ?_, fun sender start count s idle => ?_⟩
  · exact ⟨s.digest_getLsbD 0 (by decide), s.digest_getLsbD 1 (by decide)⟩
  · refine ⟨item (codeOf s.alarms.commandOverrun) ++ item (codeOf s.alarms.logOverrun), (exec_read idle ..).trans ?_⟩
    exact congrArg (fun j : Judged => Host.Outcome.next (j.answer _)) (judgeRead_lines s start.toNat count.toNat)

end Sys2Proof.Machine
end

