-- ==== Sys2Proof/Proofs/Rings.lean ====
section
/-! SUPPORT. The law of delay lines (R46, R69) is kept by every step, and a state that has it never stops: a house frame finds every RUNNING
programme's write index in its ring. -/

namespace Sys2Proof.Machine

/-! ### Delays within the ring -/

theorem clampNat_le_max {lo hi x : Nat} (h : lo ≤ hi) : clampNat lo hi x ≤ hi := by
  unfold clampNat
  repeat' split
  all_goals omega

theorem clampNat_ge_min {lo hi x : Nat} (h : lo ≤ hi) : lo ≤ clampNat lo hi x := by
  unfold clampNat
  repeat' split
  all_goals omega

theorem Programme.clampDelay_lt {p : Programme} (d : Nat) (h : 0 < p.store.ringLength) : p.clampDelay d < p.store.ringLength := by
  have := clampNat_le_max (x := d) (Nat.zero_le (p.store.ringLength - 1))
  unfold Programme.clampDelay
  omega

theorem Programme.candidate_lt {p : Programme} (wanted : Int) (h : 0 < p.store.ringLength) : p.candidate wanted < p.store.ringLength := by
  unfold Programme.candidate clampInt
  repeat' split
  all_goals omega

theorem StoreContext.ringLength_pos {c : StoreContext} (h : c.pages ≠ []) : 0 < c.ringLength := by
  have := List.length_pos_iff.mpr h
  unfold StoreContext.ringLength
  omega

namespace Programme.RingLaw

variable {p q : Programme}

theorem ring_pos (h : p.RingLaw) (run : p.store.state = .running) : 0 < p.store.ringLength :=
  Nat.lt_of_le_of_lt (Nat.zero_le _) (h.write run)

/-- The law reads the store context, the applied delay and the pending target, and nothing else. A new pending target has to lie in the ring. -/
theorem of_same (h : p.RingLaw) (store : q.store = p.store) (delay : q.align.delay = p.align.delay)
    (pending : p.store.state = .running → ∀ t, q.align.pending = some t → p.align.pending = some t ∨ t < p.store.ringLength) :
    q.RingLaw where
  clearing := by rw [store]; exact h.clearing
  write := by rw [store]; exact h.write
  delay := by rw [store, delay]; exact h.delay
  pending run t e := by
    rw [store] at run ⊢
    exact (pending run t e).elim (h.pending run t) id

theorem of_align (h : p.RingLaw) (store : q.store = p.store) (align : q.align = p.align) : q.RingLaw :=
  h.of_same store (by rw [align]) fun _ t e => .inl (align ▸ e)

/-- Neither CLEARING nor RUNNING. -/
theorem of_unallocated (h : p.store.state = .unallocated) : p.RingLaw := by
  constructor <;> simp only [h, reduceCtorEq, false_implies]

/-! ### Writes of TIMING fields (R77) -/

theorem writeTiming (h : p.RingLaw) (t : TimingFields) : (p.writeTiming t).RingLaw := by
  unfold Programme.writeTiming
  split
  · exact h.of_same rfl rfl fun _ _ e => .inl e
  · exact h.of_align rfl rfl

theorem writeMode (h : p.RingLaw) (mode : TimingMode) : (p.writeMode mode).RingLaw := by
  unfold Programme.writeMode
  dsimp only
  split
  · exact h.of_align rfl rfl
  · split
    · split
      · refine h.of_same rfl rfl fun run t e => .inr ?_
        cases e
        exact p.clampDelay_lt _ (h.ring_pos run)
      · exact h.of_same rfl rfl fun _ _ e => .inl e
    · split
      · exact h.of_same rfl rfl fun _ _ e => nomatch e
      · exact h.of_align rfl rfl

theorem writeFixedDelay (h : p.RingLaw) (d : Nat) : (p.writeFixedDelay d).RingLaw := by
  unfold Programme.writeFixedDelay
  dsimp only
  split
  · refine h.of_same rfl rfl fun run t e => .inr ?_
    cases e
    exact p.clampDelay_lt d (h.ring_pos run)
  · exact h.of_align rfl rfl

theorem writeGainMode (h : p.RingLaw) (mode : GainMode) : (p.writeGainMode mode).RingLaw := by
  unfold Programme.writeGainMode
  dsimp only
  split
  · exact h.of_align rfl rfl
  · cases mode <;> exact h.of_align rfl rfl

theorem writeField (h : p.RingLaw) (field v : Nat) : (p.writeField field v).RingLaw := by
  unfold Programme.writeField
  split
  case h_1 => exact h.writeTiming _
  case h_2 => exact h.writeMode _
  case h_3 => exact h.writeTiming _
  case h_4 => exact h.writeFixedDelay v
  case h_11 => exact h.writeGainMode _
  all_goals exact h.of_align rfl rfl

/-! ### Age samples (R71, R72) -/

theorem ageSample (h : p.RingLaw) (a : Int) : (p.ageSample a).RingLaw := by
  have judged : ∀ (x : AlignContext) (tolerance c : Nat), (x.judge tolerance c).delay = x.delay ∧
      ((x.judge tolerance c).pending = x.pending ∨ (x.judge tolerance c).pending = some c) := by
    intro x tolerance c
    unfold AlignContext.judge
    repeat' split
    · exact ⟨rfl, .inr rfl⟩
    · exact ⟨rfl, .inl rfl⟩
    · exact ⟨rfl, .inl rfl⟩
    · exact ⟨rfl, .inr rfl⟩
  obtain ⟨delay, pending⟩ := judged (p.wantedFlags (p.timing.offset - a)) p.timing.tolerance (p.candidate (p.timing.offset - a))
  refine h.of_same rfl delay fun run t e => ?_
  rcases pending with same | ordered
  · exact .inl (same.symm.trans e)
  · cases ordered.symm.trans e
    exact .inr (p.candidate_lt _ (h.ring_pos run))

/-! ### House frames and boundaries -/

theorem passFrame (h : p.RingLaw) (t : Tables) (threshold : Nat) (words : List Word32) : (p.passFrame t threshold words).RingLaw := by
  have judged : (p.judgeEpoch words).store = p.store ∧ (p.judgeEpoch words).align = p.align := by
    unfold Programme.judgeEpoch
    split <;> exact ⟨rfl, rfl⟩
  have law : (p.judgeEpoch words).RingLaw := h.of_align judged.1 judged.2
  exact
    { clearing := law.clearing
      write := fun run => Nat.mod_lt _ (law.ring_pos run)
      delay := law.delay
      pending := law.pending }

/-- A completed clearing starts at slot 0, under a delay clamped into the ring (R50, R78). -/
theorem complete (h : p.store.pages ≠ []) : p.complete.RingLaw where
  clearing run := nomatch run
  write _ := StoreContext.ringLength_pos h
  delay _ := p.clampDelay_lt _ (StoreContext.ringLength_pos h)
  pending _ _ e := nomatch e

/-- A realignment taken applies a target that was within the ring (R74). -/
theorem alignBoundary (h : p.RingLaw) (run : p.store.state = .running) : Programme.RingLaw { p with align := p.align.boundary } where
  clearing := h.clearing
  write := h.write
  delay _ := by
    unfold AlignContext.boundary
    split
    · split
      · exact h.delay run
      · exact h.pending run _ ‹_›
    · exact h.delay run
  pending _ t e := by
    have none : p.align.boundary.pending = .none := by
      unfold AlignContext.boundary
      split
      · split <;> rfl
      · assumption
    exact absurd (none.symm.trans e) (by simp)

theorem boundary (h : p.RingLaw) : p.boundary.RingLaw := by
  unfold Programme.boundary Programme.clearStep
  split
  · exact h
  · split
    · exact complete (h.clearing ‹_›)
    · exact ⟨h.clearing, h.write, h.delay, h.pending⟩
  · exact h.alignBoundary ‹_›

end Programme.RingLaw

/-- Everything that any operation does to a programme keeps the law of its delay line. -/
theorem ringLaw_programmeKept : ProgrammeKept Programme.RingLaw where
  initial := .of_unallocated rfl
  holds _ _ h := h.of_align rfl rfl
  field _ field _ fv _ h := h.writeField field fv.stored
  take _ _ _ h := h.of_align rfl rfl
  cancel _ h := h.of_align rfl rfl
  allocated _ _ _ some _ := { clearing := fun _ => some, write := nofun, delay := nofun, pending := nofun }
  released _ _ := .of_unallocated rfl
  measured p h := by
    unfold Programme.restartMeasurement
    split
    · exact h.of_align rfl rfl
    · exact h
  timeJump p h := by
    unfold Programme.timeJump
    split
    · exact h.of_same rfl rfl fun _ _ e => .inl e
    · exact h
  restarted _ _ _ := .of_unallocated rfl
  fireDue p now h := by
    unfold Programme.fireDue Programme.fire
    repeat' split
    all_goals exact h.of_align rfl rfl
  latch _ h := h.of_align rfl rfl
  age _ a _ h := h.ageSample a
  pass _ t threshold words _ h := h.passFrame t threshold words
  boundary _ h := h.boundary
  slice p levels unity n h := by
    unfold Programme.slice
    dsimp only
    split <;> exact h.of_align rfl rfl
  written _ h := h.of_same rfl rfl fun _ _ e => .inl e
  interval _ _ h := h.of_align rfl rfl

/-! ### Progress -/

/-- Under the law every RUNNING programme's write index names a slot of its ring (R46). -/
theorem State.RingLaw.slotsHold {s : State} (h : s.RingLaw) : s.slotsHold = true := by
  simp only [State.slotsHold, List.all_eq_true, List.mem_finRange, true_implies, Bool.or_eq_true, Bool.not_eq_true', decide_eq_true_eq]
  intro p
  cases run : s.programmes[p].running with
  | false => exact .inl rfl
  | true => exact .inr ((h p).write (eq_of_beq run))

/-- A house frame answers a next state where, once what is due has been taken, every write index names a slot; every other command and event
answers one in any state. -/
theorem exec_answers (i : Instr) (s : State) (slots : s.catchUp.slotsHold = true) : ∃ t, exec i s = .next t := by
  cases i with
  | houseFrame order => exact ⟨s.catchUp.frame order, if_pos slots⟩
  | _ => exact ⟨_, rfl⟩

/-- Settles O58: everything that any operation does to a programme keeps the law of its delay line, so what is due leaves the law standing,
and under the law a house frame does not stop. -/
theorem stepKeepsRingsAndNeverStops : Obligations.StepKeepsRingsAndNeverStops := by
  unfold Obligations.StepKeepsRingsAndNeverStops
  intro s law
  have kept : Kept State.RingLaw := ringLaw_programmeKept.kept
  have answers : ∃ t, step s = .next t := by
    unfold step
    split
    · exact ⟨s, rfl⟩
    · exact exec_answers _ _ (State.RingLaw.slotsHold (kept.catchUp _ (kept.pending s _ law)))
  obtain ⟨t, e⟩ := answers
  exact ⟨t, e, kept.step s t law e⟩

end Sys2Proof.Machine
end

