-- ==== Sys2Proof/Proofs/Steady.lean ====
section
/-! SUPPORT. What only a few commands touch: the feeds, the loaded tables, the output trunks, the ring of the loudness log and the retire table. -/

namespace Sys2Proof.Machine

structure Steady (s t : State) : Prop where
  feeds   : t.feeds = s.feeds
  tables  : t.tables = s.tables
  outputs : t.outputs = s.outputs
  ring    : t.log.ring = s.log.ring
  retired : t.store.retired = s.store.retired

namespace Steady

theorem refl (s : State) : Steady s s := ⟨rfl, rfl, rfl, rfl, rfl⟩

theorem trans {s t u : State} (h : Steady s t) (k : Steady t u) : Steady s u :=
  ⟨k.feeds.trans h.feeds, k.tables.trans h.tables, k.outputs.trans h.outputs, k.ring.trans h.ring, k.retired.trans h.retired⟩

theorem foldl {α : Type} {g : State → α → State} (h : ∀ s a, Steady s (g s a)) (as : List α) (s : State) : Steady s (as.foldl g s) := by
  induction as generalizing s with
  | nil => exact refl s
  | cons a as ih => exact (h s a).trans (ih _)

end Steady

/-! ### SET -/

theorem State.writeProgramme_steady (s : State) (o : Byte) (cls : RightClass) (field v : Nat) (p : Fin 16) :
    Steady s (s.writeProgramme o cls field v p).state := by
  unfold State.writeProgramme
  repeat' split
  all_goals exact ⟨rfl, rfl, rfl, rfl, rfl⟩

theorem setProgramme_steady (o object field : Byte) (value : Word32) (s : State) : Steady s (setProgramme o object field value s).state := by
  unfold setProgramme refuse
  repeat' split
  · exact .refl s
  · exact .refl s
  · exact .refl s
  · dsimp only
    split
    · exact s.writeProgramme_steady ..
    · exact .refl s

theorem setPolicy_steady (o object field : Byte) (value : Word32) (s : State) : Steady s (setPolicy o object field value s).state := by
  unfold setPolicy refuse
  split
  · exact .refl s
  · split
    · exact .refl s
    · split
      · exact .refl s
      · split
        · exact .refl s
        · rename_i kind _ _ fv _
          dsimp only
          split
          · constructor <;> simp only [State.formLines_feeds, State.formLines_tables, State.formLines_outputs, State.formLines_log,
              State.formLines_store, State.forceKind_feeds, State.forceKind_tables, State.forceKind_outputs, State.forceKind_log,
              State.forceKind_store, State.writePolicy]
          · exact ⟨rfl, rfl, rfl, rfl, rfl⟩

theorem setOriginator_steady (o object field : Byte) (value : Word32) (s : State) : Steady s (setOriginator o object field value s).state := by
  unfold setOriginator refuse
  repeat' split
  all_goals exact ⟨rfl, rfl, rfl, rfl, rfl⟩

theorem setPart_steady (o object field : Byte) (value : Word32) (s : State) : Steady s (setPart o object field value s).state := by
  unfold setPart refuse accept
  repeat' split
  all_goals exact ⟨rfl, rfl, rfl, rfl, rfl⟩

/-- A SET is steady but for a feed record, an output map and an input trunk (R176). -/
theorem judgeSet_steady (o target object field : Byte) (value : Word32) (s : State) :
    Steady s (judgeSet o target object field value s).state ∨
      judgeSet o target object field value s = setFeed o object field value s ∨
      judgeSet o target object field value s = setMap o object field value s ∨
      judgeSet o target object field value s = setTrunk o object field value s := by
  unfold judgeSet
  split
  · exact .inr (.inl rfl)
  · exact .inl (setProgramme_steady ..)
  · exact .inr (.inr (.inl rfl))
  · exact .inr (.inr (.inr rfl))
  · exact .inl (setPolicy_steady ..)
  · exact .inl (setOriginator_steady ..)
  · exact .inl (setPart_steady ..)
  · exact .inl (.refl s)

/-! ### Group forms -/

section Group

variable {one : State → Fin 16 → State × CommandResult} (alone : ∀ s p, Steady s (one s p).1)

include alone

theorem judgeEach_steady (ps : List (Fin 16)) (s : State) (g : GroupTally) : Steady s (judgeEach one ps s g).1 := by
  induction ps generalizing s g with
  | nil => exact .refl s
  | cons p ps ih => exact (alone s p).trans (ih _ _)

omit alone in
theorem groupReply_steady (s : State) (g : GroupTally) (whole : Option CommandResult) : Steady s (groupReply s g whole).state := by
  unfold groupReply
  cases g.first <;> exact ⟨rfl, rfl, rfl, rfl, rfl⟩

theorem judgeGroup_steady (selection : BitVec 16) (s : State) : Steady s (judgeGroup selection one s).state :=
  (judgeEach_steady alone ..).trans (groupReply_steady ..)

theorem judgeChoice_steady (o : Byte) (cls : RightClass) (choice : ProgrammeChoice) (s : State) :
    Steady s (judgeChoice o cls choice one s).state := by
  unfold judgeChoice refuse
  split
  · repeat' split
    · exact .refl s
    · exact .refl s
    · exact alone s _
  · exact judgeGroup_steady alone _ s

end Group

theorem judgeGroupSet_steady (o : Byte) (selection : BitVec 16) (field : Byte) (value : Word32) (s : State) :
    Steady s (judgeGroupSet o selection field value s).state := by
  unfold judgeGroupSet
  repeat' split
  · exact groupReply_steady ..
  · exact groupReply_steady ..
  · exact judgeGroup_steady (fun t p => t.writeProgramme_steady ..) _ s

theorem cancelTake_steady (o : Byte) (s : State) (p : Fin 16) : Steady s (cancelTake o s p).1 := by
  unfold cancelTake
  repeat' split
  all_goals exact ⟨rfl, rfl, rfl, rfl, rfl⟩

theorem restartMeter_steady (o : Byte) (s : State) (p : Fin 16) : Steady s (restartMeter o s p).1 := by
  unfold restartMeter
  split <;> exact ⟨rfl, rfl, rfl, rfl, rfl⟩

theorem State.acknowledgeAll_steady (s : State) (rs : List (Fin 400)) : Steady s (s.acknowledgeAll rs) :=
  (Steady.foldl (g := fun t r => t.updRecord r AlarmRecord.acknowledge) (fun _ _ => ⟨rfl, rfl, rfl, rfl, rfl⟩) rs s).trans
    ⟨rfl, rfl, rfl, rfl, rfl⟩

theorem judgeAcknowledge_steady (o : Byte) (choice : AcknowledgeChoice) (s : State) : Steady s (judgeAcknowledge o choice s).state := by
  unfold judgeAcknowledge
  split
  · unfold acknowledgeOne refuse
    repeat' split
    · exact .refl s
    · exact .refl s
    · exact s.acknowledgeAll_steady _
    · exact .refl s
  · unfold acknowledgeGroup
    split
    · exact judgeGroup_steady (one := fun t _ => (t, .noRight)) (fun t _ => .refl t) _ s
    · split
      · exact groupReply_steady ..
      · exact (judgeGroup_steady (one := fun t _ => (t, .done)) (fun t _ => .refl t) _ s).trans (State.acknowledgeAll_steady ..)

/-! ### The other commands -/

theorem judgeRead_steady (group object start count : Nat) (s : State) : Steady s (judgeRead group object start count s).state := by
  unfold judgeRead refuse accept
  cases readsImmediate s group object
  all_goals
    dsimp only [Bool.false_eq_true, if_true, if_false]
    split <;> exact ⟨rfl, rfl, rfl, rfl, rfl⟩

theorem judgeTake_steady (o programme immediate : Byte) (time : Word32) (again : Byte) (layout : List PositionCode) (s : State) :
    Steady s (judgeTake o programme immediate time again layout s).state := by
  unfold judgeTake refuse accept
  repeat' split
  all_goals exact ⟨rfl, rfl, rfl, rfl, rfl⟩

theorem judgeAllocate_steady (o programme : Byte) (frames : Word32) (s : State) : Steady s (judgeAllocate o programme frames s).state := by
  unfold judgeAllocate refuse
  repeat' split
  · exact .refl s
  · exact .refl s
  · exact .refl s
  · dsimp only
    split <;> exact ⟨rfl, rfl, rfl, rfl, rfl⟩

theorem judgeRelease_steady (o programme : Byte) (s : State) : Steady s (judgeRelease o programme s).state := by
  unfold judgeRelease refuse accept
  repeat' split
  all_goals exact ⟨rfl, rfl, rfl, rfl, rfl⟩

theorem judgeReadFault_steady (o : Byte) (s : State) : Steady s (judgeReadFault o s).state := by
  unfold judgeReadFault refuse accept
  split <;> exact ⟨rfl, rfl, rfl, rfl, rfl⟩

theorem judgeReleaseHold_steady (o programme cls : Byte) (s : State) : Steady s (judgeReleaseHold o programme cls s).state := by
  unfold judgeReleaseHold refuse accept
  repeat' split
  all_goals exact ⟨rfl, rfl, rfl, rfl, rfl⟩

theorem judgeLogRead_steady (o mode : Byte) (count : BitVec 16) (stop : Byte) (s : State) :
    Steady s (judgeLogRead o mode count stop s).state := by
  unfold judgeLogRead refuse
  repeat' split
  all_goals exact ⟨rfl, rfl, rfl, rfl, rfl⟩

theorem judgeLogCancel_steady (o : Byte) (s : State) : Steady s (judgeLogCancel o s).state := by
  unfold judgeLogCancel refuse
  repeat' split
  all_goals exact ⟨rfl, rfl, rfl, rfl, rfl⟩

theorem judgeRestart_steady (o : Byte) (s : State) : Steady s (judgeRestart o s).state := by
  unfold judgeRestart refuse accept
  split <;> exact ⟨rfl, rfl, rfl, rfl, rfl⟩

/-- A house time command is refused, or the time jumps (R64 to R66). -/
theorem judgeTimeSet_jumps (o : Byte) (value : Word32) (s : State) :
    (judgeTimeSet o value s).state = s ∨ ∃ t, (judgeTimeSet o value s).state = State.timeJump { s with time := t } := by
  unfold judgeTimeSet refuse accept
  split
  · exact .inl rfl
  · exact .inr ⟨_, rfl⟩

theorem judgeTimeAdjust_jumps (o : Byte) (shift : Word32) (s : State) :
    (judgeTimeAdjust o shift s).state = s ∨ ∃ t, (judgeTimeAdjust o shift s).state = State.timeJump { s with time := t } := by
  unfold judgeTimeAdjust refuse
  split
  · exact .inl rfl
  · exact .inr ⟨_, rfl⟩

/-- What a command can do to the feeds, the tables, the output trunks, the ring of the log and the retire table. -/
inductive Moves (o : Byte) (s : State) : State → Prop where
  | steady {t : State} (h : Steady s t) : Moves o s t
  | feed (object field : Byte) (value : Word32) : Moves o s (setFeed o object field value s).state
  | map (object field : Byte) (value : Word32) : Moves o s (setMap o object field value s).state
  | trunk (object field : Byte) (value : Word32) : Moves o s (setTrunk o object field value s).state
  | load (table : Byte) (start : BitVec 16) (codes : List Byte) : Moves o s (judgeLoad o table start codes s).state
  | retire (page : BitVec 16) : Moves o s (judgeRetire o page s).state
  | restore (page : BitVec 16) : Moves o s (judgeRestore o page s).state
  | jump (t : Timebase) : Moves o s (State.timeJump { s with time := t })

theorem judge_moves (o : Byte) (c : Command) (s : State) : Moves o s (judge o c s).state := by
  cases c with
  | set t ob f v =>
    change Moves o s (judgeSet o t ob f v s).state
    obtain h | h | h | h := judgeSet_steady o t ob f v s
    · exact .steady h
    · exact h ▸ .feed ob f v
    · exact h ▸ .map ob f v
    · exact h ▸ .trunk ob f v
  | groupSet m f v => exact .steady (judgeGroupSet_steady ..)
  | read g ob a n => exact .steady (judgeRead_steady ..)
  | load t a cs => exact .load t a cs
  | take p i t r l => exact .steady (judgeTake_steady ..)
  | takeCancel c => exact .steady (judgeChoice_steady (cancelTake_steady o) ..)
  | allocate p f => exact .steady (judgeAllocate_steady ..)
  | release p => exact .steady (judgeRelease_steady ..)
  | retire n => exact .retire n
  | restore n => exact .restore n
  | readFault => exact .steady (judgeReadFault_steady ..)
  | timeSet v =>
    change Moves o s (judgeTimeSet o v s).state
    obtain h | ⟨t, h⟩ := judgeTimeSet_jumps o v s
    · exact .steady (by rw [h]; exact .refl s)
    · exact h ▸ .jump t
  | timeAdjust v =>
    change Moves o s (judgeTimeAdjust o v s).state
    obtain h | ⟨t, h⟩ := judgeTimeAdjust_jumps o v s
    · exact .steady (by rw [h]; exact .refl s)
    · exact h ▸ .jump t
  | restartMeasurement c => exact .steady (judgeChoice_steady (restartMeter_steady o) ..)
  | acknowledge c => exact .steady (judgeAcknowledge_steady ..)
  | releaseHold p c => exact .steady (judgeReleaseHold_steady ..)
  | logRead m n f => exact .steady (judgeLogRead_steady ..)
  | logCancel => exact .steady (judgeLogCancel_steady ..)
  | logStatus => exact .steady ⟨rfl, rfl, rfl, rfl, rfl⟩
  | status => exact .steady (.refl s)
  | restart => exact .steady (judgeRestart_steady ..)

end Sys2Proof.Machine
end

