-- ==== Sys2Proof/Proofs/EpochsAndGains.lean ====
section
/-! SUPPORT. The laws of epochs (R29, R31, R39) and of gain indices (R103) are kept by everything that any operation does to a programme. -/

namespace Sys2Proof.Machine

/-! ### Epochs -/

namespace Programme.EpochLaw

variable {p q : Programme}

/-- The law reads the epochs, whether a take is pending, and the store state. -/
theorem of_same (h : p.EpochLaw) (eIn : q.eIn = p.eIn) (eOut : q.eOut = p.eOut) (take : q.take.isSome → p.take.isSome)
    (state : q.store.state = p.store.state) : q.EpochLaw where
  ahead := by rw [eIn, eOut]; exact h.ahead
  pending some := by rw [eIn, eOut]; exact h.pending (take some)
  resting rest := by rw [eIn, eOut]; exact h.resting (state ▸ rest)

theorem of_equal (h : p.eIn = p.eOut) : p.EpochLaw := ⟨.inl h, fun _ => h, fun _ => h⟩

theorem writeField (h : p.EpochLaw) (field v : Nat) : (p.writeField field v).EpochLaw := by
  have mode (m : TimingMode) : (p.writeMode m).EpochLaw := by
    unfold Programme.writeMode
    dsimp only
    repeat' split
    all_goals exact h.of_same rfl rfl id rfl
  have gain (m : GainMode) : (p.writeGainMode m).EpochLaw := by
    unfold Programme.writeGainMode
    dsimp only
    repeat' split
    all_goals exact h.of_same rfl rfl id rfl
  have timing (t : TimingFields) : (p.writeTiming t).EpochLaw := by
    unfold Programme.writeTiming
    split <;> exact h.of_same rfl rfl id rfl
  have fixed : (p.writeFixedDelay v).EpochLaw := by
    unfold Programme.writeFixedDelay
    dsimp only
    split <;> exact h.of_same rfl rfl id rfl
  unfold Programme.writeField
  split
  case h_1 => exact timing _
  case h_2 => exact mode _
  case h_3 => exact timing _
  case h_4 => exact fixed
  case h_11 => exact gain _
  all_goals exact h.of_same rfl rfl id rfl

/-- A take fires only while the epochs are equal, and advances e_in of a RUNNING programme alone (R32, R33). -/
theorem fireDue (h : p.EpochLaw) (now : Word32) : (p.fireDue now).EpochLaw := by
  unfold Programme.fireDue Programme.fire
  cases pending : p.take with
  | none => exact h
  | some t =>
    have equal := h.pending (Option.isSome_of_eq_some pending)
    dsimp only
    split
    · split
      · rename_i run
        exact ⟨.inr (congrArg (· + 1) equal), nofun, fun rest => absurd (eq_of_beq run) rest⟩
      · exact of_equal equal
    · exact h

/-- An output epoch switch brings e_out to e_in (R37). -/
theorem judgeEpoch (h : p.EpochLaw) (words : List Word32) : (p.judgeEpoch words).EpochLaw := by
  unfold Programme.judgeEpoch
  split
  · rename_i switches
    simp only [Programme.switches, Bool.and_eq_true, bne_iff_ne] at switches
    exact of_equal (h.ahead.resolve_left (Ne.symm switches.2))
  · exact h

theorem boundary (h : p.EpochLaw) : p.boundary.EpochLaw := by
  unfold Programme.boundary Programme.clearStep
  split
  · exact h
  · split
    · exact of_equal rfl
    · exact h.of_same rfl rfl id rfl
  · exact h.of_same rfl rfl id rfl

end Programme.EpochLaw

theorem epochLaw_programmeKept : ProgrammeKept Programme.EpochLaw where
  initial := .of_equal rfl
  holds _ _ h := h.of_same rfl rfl id rfl
  field _ field _ fv _ h := h.writeField field fv.stored
  take p _ free _ := by
    simp only [Programme.takeFree, Bool.and_eq_true, beq_iff_eq] at free
    exact .of_equal free.2
  cancel _ h := h.of_same rfl rfl (nomatch ·) rfl
  allocated _ _ vacant _ h := .of_equal (h.resting (by rw [vacant]; nofun))
  released _ _ := .of_equal rfl
  measured p h := by
    unfold Programme.restartMeasurement
    split
    · exact h.of_same rfl rfl id rfl
    · exact h
  timeJump p h := by
    unfold Programme.timeJump
    split
    · exact h.of_same rfl rfl id rfl
    · exact h
  restarted _ _ _ := .of_equal rfl
  fireDue _ now h := h.fireDue now
  latch _ h := h.of_same rfl rfl id rfl
  age _ _ _ h := h.of_same rfl rfl id rfl
  pass _ _ _ words _ h := (h.judgeEpoch words).of_same rfl rfl id rfl
  boundary _ h := h.boundary
  slice p _ _ _ h := by
    unfold Programme.slice
    dsimp only
    split <;> exact h.of_same rfl rfl id rfl
  written _ h := h.of_same rfl rfl id rfl
  interval _ _ h := h.of_same rfl rfl id rfl

/-! ### Gain indices -/

theorem clampNat_mem {lo hi : Nat} (x : Nat) (h : lo ≤ hi) : lo ≤ clampNat lo hi x ∧ clampNat lo hi x ≤ hi :=
  ⟨clampNat_ge_min h, clampNat_le_max h⟩

theorem clampInt_mem {lo hi : Int} (x : Int) (h : lo ≤ hi) : lo ≤ clampInt lo hi x ∧ clampInt lo hi x ≤ hi := by
  unfold clampInt
  repeat' split
  all_goals omega

/-- The wanted gain index lies within the limits (R107). -/
theorem LevelFields.wanted_mem {l : LevelFields} (aim : Int) (h : l.gMin ≤ l.gMax) : l.gMin ≤ l.wanted aim ∧ l.wanted aim ≤ l.gMax := by
  have := clampInt_mem aim (Int.ofNat_le.mpr h)
  unfold LevelFields.wanted
  omega

/-- The law of the gain index, of the fields it reads. -/
structure GainIn (l : LevelFields) (gain : Nat) : Prop where
  limits : l.gMin ≤ l.gMax
  ride   : l.gainMode = .ride → l.gMin ≤ gain ∧ gain ≤ l.gMax
  fixed  : l.gainMode = .fixed → gain = l.fixedGain

theorem Programme.gainLaw_iff (p : Programme) : p.GainLaw ↔ GainIn p.level p.rider.gain :=
  ⟨fun h => ⟨h.limits, h.ride, h.fixed⟩, fun h => ⟨h.limits, h.ride, h.fixed⟩⟩

/-- In RIDE mode the law asks for a gain index within the limits alone. -/
theorem GainIn.of_ride {l : LevelFields} {gain : Nat} (mode : l.gainMode = .ride) (lo : l.gMin ≤ gain) (hi : gain ≤ l.gMax) : GainIn l gain :=
  ⟨Nat.le_trans lo hi, fun _ => ⟨lo, hi⟩, fun e => nomatch mode.symm.trans e⟩

theorem GainIn.of_fixed {l : LevelFields} (mode : l.gainMode = .fixed) (limits : l.gMin ≤ l.gMax) : GainIn l l.fixedGain :=
  ⟨limits, fun e => (nomatch mode.symm.trans e), fun _ => rfl⟩

theorem RiderContext.limitTo_gain (r : RiderContext) (gMin gMax : Nat) : (r.limitTo gMin gMax).gain = clampNat gMin gMax r.gain := by
  unfold RiderContext.limitTo
  dsimp only
  split
  · exact Eq.symm ‹_›
  · rfl

/-- One step toward an index within the limits stays within them (R107). -/
theorem RiderContext.ride_gain {r : RiderContext} {l : LevelFields} (aim : Int) (h : l.gMin ≤ l.gMax) (lo : l.gMin ≤ r.gain)
    (hi : r.gain ≤ l.gMax) : l.gMin ≤ (r.ride l aim).gain ∧ (r.ride l aim).gain ≤ l.gMax := by
  have := LevelFields.wanted_mem aim h
  unfold RiderContext.ride
  dsimp only
  repeat' split
  all_goals dsimp only; omega

namespace Programme.GainLaw

variable {p q : Programme}

theorem of_same (h : p.GainLaw) (level : q.level = p.level) (gain : q.rider.gain = p.rider.gain) : q.GainLaw :=
  (Programme.gainLaw_iff q).mpr (by rw [level, gain]; exact (Programme.gainLaw_iff p).mp h)

/-- Fields other than the limits, the gain mode and the fixed gain index do not matter. -/
theorem of_level (h : p.GainLaw) (gMin : q.level.gMin = p.level.gMin) (gMax : q.level.gMax = p.level.gMax)
    (mode : q.level.gainMode = p.level.gainMode) (fixed : q.level.fixedGain = p.level.fixedGain)
    (gain : q.rider.gain = p.rider.gain) : q.GainLaw := by
  constructor
  · rw [gMin, gMax]; exact h.limits
  · rw [gMin, gMax, mode, gain]; exact h.ride
  · rw [mode, fixed, gain]; exact h.fixed

theorem writeLimits (h : p.GainLaw) {gMin gMax : Nat} (order : gMin ≤ gMax) : (p.writeLimits gMin gMax).GainLaw := by
  refine (Programme.gainLaw_iff _).mpr ?_
  unfold Programme.writeLimits
  dsimp only
  split
  · rename_i ride
    have := clampNat_mem p.rider.gain order
    rw [RiderContext.limitTo_gain]
    exact .of_ride ride this.1 this.2
  · rename_i fixed
    exact ⟨order, fun ride => absurd ride fixed, h.fixed⟩

theorem writeGainMode (h : p.GainLaw) (mode : GainMode) : (p.writeGainMode mode).GainLaw := by
  refine (Programme.gainLaw_iff _).mpr ?_
  unfold Programme.writeGainMode
  dsimp only
  split
  · rename_i same
    subst same
    exact (Programme.gainLaw_iff p).mp h
  · cases mode with
    | fixed => exact .of_fixed rfl h.limits
    | ride =>
      have := clampNat_mem p.rider.gain h.limits
      exact .of_ride rfl this.1 this.2

theorem writeFixedGain (h : p.GainLaw) (g : Nat) : (p.writeFixedGain g).GainLaw := by
  refine (Programme.gainLaw_iff _).mpr ?_
  unfold Programme.writeFixedGain
  dsimp only
  split
  · exact .of_fixed (l := { p.level with fixedGain := g }) ‹_› h.limits
  · exact ⟨h.limits, h.ride, fun e => absurd e ‹_›⟩

/-- A limit is accepted only in order with the other (R28). -/
theorem writeField (h : p.GainLaw) {field v : Nat} {fv : FieldValue} (judged : judgeProgrammeField p field v = some fv) :
    (p.writeField field fv.stored).GainLaw := by
  have relates {keeps : Nat → Bool} {x : Option FieldValue} (e : related keeps x = some fv) : keeps fv.stored = true := by
    unfold related at e
    split at e
    · split at e
      · cases e; assumption
      · cases e
    · cases e
  have same {q : Programme} (level : q.level = p.level) (rider : q.rider = p.rider) : q.GainLaw := h.of_same level (by rw [rider])
  unfold Programme.writeField
  split
  case h_1 => unfold Programme.writeTiming; split <;> exact same rfl rfl
  case h_2 =>
    unfold Programme.writeMode
    dsimp only
    repeat' split
    all_goals exact same rfl rfl
  case h_3 => unfold Programme.writeTiming; split <;> exact same rfl rfl
  case h_4 => unfold Programme.writeFixedDelay; dsimp only; split <;> exact same rfl rfl
  case h_5 => exact same rfl rfl
  case h_11 => exact h.writeGainMode _
  case h_12 => exact h.writeFixedGain _
  case h_13 => exact h.writeLimits (of_decide_eq_true (relates (keeps := fun x => decide (x ≤ p.level.gMax)) (x := numeric 0 255 v) judged))
  case h_14 => exact h.writeLimits (of_decide_eq_true (relates (keeps := fun x => decide (p.level.gMin ≤ x)) (x := numeric 0 255 v) judged))
  case h_20 => exact h
  all_goals exact h.of_level rfl rfl rfl rfl rfl

/-- The rider at a slice end: the ride, a step of the clip guard above g_min in RIDE mode alone, and the limit mark (R105 to R109). -/
theorem riderSlice (h : p.GainLaw) (unity : Byte) : GainIn p.level (p.riderSlice unity).gain := by
  have step : GainIn p.level (p.rideStep unity).gain := by
    unfold Programme.rideStep
    cases mode : p.level.gainMode with
    | fixed => exact .of_fixed mode h.limits
    | ride =>
      have within := h.ride mode
      dsimp only
      repeat' split
      · exact .of_ride mode within.1 within.2
      · have := RiderContext.ride_gain (p.aimOf unity ‹_›) h.limits within.1 within.2
        exact .of_ride mode this.1 this.2
      · exact .of_ride mode within.1 within.2
  change GainIn p.level ((p.rideStep unity).guard p.level p.clipped).gain
  unfold RiderContext.guard
  split
  · rename_i guards
    have within := step.ride guards.1
    refine .of_ride guards.1 ?_ ?_
    all_goals dsimp only; split <;> omega
  · exact step

theorem slice (h : p.GainLaw) (levels : List LevelEntry) (unity : Byte) (n : Nat) : (p.slice levels unity n).GainLaw := by
  unfold Programme.slice
  dsimp only
  split
  · have measured : Programme.GainLaw { p with meter := p.meter.slice levels p.level.absoluteGate p.level.relativeOffset n } :=
      h.of_same rfl rfl
    exact (Programme.gainLaw_iff _).mpr (measured.riderSlice unity)
  · exact h.of_same rfl rfl

theorem restarted (h : p.GainLaw) (unity : Byte) : (p.restarted unity).GainLaw := by
  refine (Programme.gainLaw_iff _).mpr ?_
  change GainIn p.level (p.riderRestart unity).gain
  unfold Programme.riderRestart
  cases mode : p.level.gainMode with
  | fixed => exact .of_fixed mode h.limits
  | ride =>
    have := clampNat_mem unity.toNat h.limits
    exact .of_ride mode this.1 this.2

end Programme.GainLaw

theorem gainLaw_programmeKept : ProgrammeKept Programme.GainLaw where
  initial := ⟨by decide, fun _ => by decide, fun _ => rfl⟩
  holds _ _ h := h.of_same rfl rfl
  field _ _ _ _ judged h := h.writeField judged
  take _ _ _ h := h.of_same rfl rfl
  cancel _ h := h.of_same rfl rfl
  allocated _ _ _ _ h := h.of_same rfl rfl
  released _ h := h.of_same rfl rfl
  measured p h := by
    unfold Programme.restartMeasurement
    split
    · exact h.of_same rfl rfl
    · exact h
  timeJump p h := by
    unfold Programme.timeJump
    split
    · exact h.of_same rfl rfl
    · exact h
  restarted _ unity h := h.restarted unity
  fireDue p now h := by
    unfold Programme.fireDue Programme.fire
    repeat' split
    all_goals exact h.of_same rfl rfl
  latch _ h := h.of_same rfl rfl
  age _ _ _ h := h.of_same rfl rfl
  pass p _ _ words _ h := by
    have judged : (p.judgeEpoch words).GainLaw := by
      unfold Programme.judgeEpoch
      split
      · exact h.of_same rfl rfl
      · exact h
    exact judged.of_same rfl rfl
  boundary p h := by
    unfold Programme.boundary Programme.clearStep
    repeat' split
    all_goals exact h.of_same rfl rfl
  slice _ levels unity n h := h.slice levels unity n
  written _ h := h.of_same rfl rfl
  interval _ _ h := h.of_same rfl rfl

end Sys2Proof.Machine
end

