-- ==== Sys2Proof/Proofs/FeedLaw.lean ====
section
/-! SUPPORT. The law of a feed (R2, R4) is kept by everything that any operation does to a feed. -/

namespace Sys2Proof.Machine

/-- What a context must be under a feed record. -/
structure FeedRecord.Bounds (r : FeedRecord) (c : FeedContext) : Prop where
  ratio   : r.rmin ≤ c.ratio ∧ c.ratio ≤ r.rmax
  rbase   : r.rmin ≤ c.rbase ∧ c.rbase ≤ r.rmax
  frames  : c.frames.length ≤ 256
  anchors : c.anchors.length ≤ 8

theorem Feed.law_iff (x : Feed) : x.Law ↔ x.record.rmin ≤ x.record.rmax ∧ x.record.Bounds x.context :=
  ⟨fun h => ⟨h.limits, h.ratio, h.rbase, h.frames, h.anchors⟩, fun ⟨l, b⟩ => ⟨l, b.ratio, b.rbase, b.frames, b.anchors⟩⟩

namespace FeedRecord.Bounds

variable {r : FeedRecord} {c d : FeedContext}

theorem of_same (h : r.Bounds c) (ratio : d.ratio = c.ratio) (rbase : d.rbase = c.rbase) (frames : d.frames.length ≤ c.frames.length)
    (anchors : d.anchors.length ≤ c.anchors.length) : r.Bounds d :=
  ⟨ratio ▸ h.ratio, rbase ▸ h.rbase, frames.trans h.frames, anchors.trans h.anchors⟩

/-- The contexts that agree in what the law reads. -/
theorem of_eq (h : r.Bounds c) (ratio : d.ratio = c.ratio) (rbase : d.rbase = c.rbase) (frames : d.frames = c.frames)
    (anchors : d.anchors = c.anchors) : r.Bounds d := h.of_same ratio rbase (by rw [frames]) (by rw [anchors])

/-- The context with other frames and other marks. -/
theorem refilled (h : r.Bounds c) {frames : List (List Sample)} {marks : List Anchor} (ratio : d.ratio = c.ratio) (rbase : d.rbase = c.rbase)
    (held : d.frames = frames) (listed : d.anchors = marks) (room : frames.length ≤ 256) (few : marks.length ≤ 8) : r.Bounds d :=
  ⟨ratio ▸ h.ratio, rbase ▸ h.rbase, held ▸ room, listed ▸ few⟩

theorem emptied (h : r.Bounds c) : r.Bounds c.emptied := h.of_same rfl rfl (Nat.zero_le _) (Nat.zero_le _)

theorem toHoldover (h : r.Bounds c) : r.Bounds c.toHoldover := by
  unfold FeedContext.toHoldover
  split
  all_goals exact h.of_eq rfl rfl rfl rfl

/-! ### Arrival of a burst (R14 to R16) -/

theorem storeFrames (h : r.Bounds c) (frames : List (List Sample)) : r.Bounds (c.storeFrames frames) := by
  have kept (limit : Word32) : (keepMarks limit c.anchors).length ≤ c.anchors.length := List.length_filter_le ..
  have room : ((c.frames ++ frames).drop ((c.frames ++ frames).length - 256)).length ≤ 256 := by
    rw [List.length_drop]
    omega
  unfold FeedContext.storeFrames
  dsimp only
  generalize excess : (c.frames ++ frames).length - 256 = k at room ⊢
  split
  · rename_i whole
    subst k
    exact h.refilled rfl rfl rfl rfl (Nat.le_of_sub_eq_zero whole) h.anchors
  · split
    · exact h.refilled rfl rfl rfl rfl room ((kept _).trans h.anchors)
    · exact h.refilled rfl rfl rfl rfl room ((kept _).trans h.anchors)

theorem appendMark_length (marks : List Anchor) (m : Anchor) (h : marks.length ≤ 8) : (appendMark marks m).length ≤ 8 := by
  unfold appendMark
  split
  · rw [List.length_append, List.length_singleton]; omega
  · rw [List.length_append, List.length_singleton, List.length_drop]; omega

theorem startConversion (h : r.Bounds c) (setpoint : Nat) : r.Bounds (c.startConversion setpoint) := by
  unfold FeedContext.startConversion
  split
  · exact h.of_eq rfl rfl rfl rfl
  · exact h

/-! ### House frames, boundaries and servo events -/

theorem advance (h : r.Bounds c) : r.Bounds c.advance := by
  refine h.of_same rfl rfl ?_ (List.length_dropWhile_le ..)
  change (c.frames.drop _).length ≤ _
  rw [List.length_drop]
  omega

end FeedRecord.Bounds

theorem FeedRecord.clampRatio_mem {r : FeedRecord} (h : r.rmin ≤ r.rmax) (x : Nat) : r.rmin ≤ r.clampRatio x ∧ r.clampRatio x ≤ r.rmax :=
  clampNat_mem x h

theorem FeedRecord.clampRatioInt_mem {r : FeedRecord} (h : r.rmin ≤ r.rmax) (x : Int) :
    r.rmin ≤ r.clampRatioInt x ∧ r.clampRatioInt x ≤ r.rmax := by
  have := clampInt_mem x (Int.ofNat_le.mpr h)
  unfold FeedRecord.clampRatioInt
  omega

namespace Feed.Law

variable {x : Feed}

theorem bounds (h : x.Law) : x.record.Bounds x.context := (x.law_iff.mp h).2

theorem withContext (h : x.Law) {c : FeedContext} (bounds : x.record.Bounds c) : Feed.Law { x with context := c } :=
  (Feed.law_iff _).mpr ⟨h.limits, bounds⟩

theorem primingReset (h : x.Law) : x.record.Bounds x.primingReset :=
  { ratio := x.record.clampRatio_mem h.limits _, rbase := x.record.clampRatio_mem h.limits _
    frames := Nat.zero_le _, anchors := Nat.zero_le _ }

theorem restarted (h : x.Law) : x.record.Bounds x.restarted :=
  { ratio := x.record.clampRatio_mem h.limits _, rbase := x.record.clampRatio_mem h.limits _
    frames := Nat.zero_le _, anchors := Nat.zero_le _ }

theorem arrival (h : x.Law) : x.record.Bounds x.arrival := by
  unfold Feed.arrival
  split
  · exact h.primingReset
  · exact h.primingReset
  · split <;> exact h.bounds.of_eq rfl rfl rfl rfl
  · exact h.bounds

theorem accept (h : x.Law) (b : SampleBurst) : x.record.Bounds (x.accept b) := by
  have stored := h.arrival.storeFrames b.frames
  unfold Feed.accept
  dsimp only
  generalize x.arrival.storeFrames b.frames = c at stored ⊢
  refine .startConversion ?_ _
  cases b.capture with
  | some t => exact stored.refilled rfl rfl rfl rfl stored.frames (FeedRecord.Bounds.appendMark_length _ _ stored.anchors)
  | none => exact stored.of_eq rfl rfl rfl rfl

theorem deliver (h : x.Law) (n : Fin 4) (b : SampleBurst) : x.record.Bounds (x.deliver n b) := by
  unfold Feed.deliver
  repeat' split
  · exact h.bounds
  · exact h.bounds.of_eq rfl rfl rfl rfl
  · exact h.accept b

theorem convert (h : x.Law) (t : Tables) (now : Word32) : x.record.Bounds (x.convert t now).context := by
  unfold Feed.convert
  dsimp only
  repeat' split
  · exact h.bounds.of_eq rfl rfl rfl rfl
  · exact h.bounds.advance
  · exact h.bounds

theorem silenceTick (h : x.Law) : x.record.Bounds x.silenceTick := by
  unfold Feed.silenceTick
  dsimp only
  repeat' split
  case h_4.isTrue => exact h.bounds.emptied.of_eq rfl rfl rfl rfl
  all_goals exact h.bounds.of_eq rfl rfl rfl rfl

theorem servo (h : x.Law) : x.record.Bounds x.servo := by
  unfold Feed.servo
  dsimp only
  split
  · exact { h.bounds with ratio := x.record.clampRatioInt_mem h.limits _, rbase := x.record.clampRatioInt_mem h.limits _ }
  · exact h.bounds

/-! ### Writes of a feed record (R2, R3, R5, R12) -/

theorem writeLimits (h : x.Law) {rmin rmax : Nat} (order : rmin ≤ rmax) : (x.writeLimits rmin rmax).Law :=
  { h with limits := order, ratio := clampNat_mem _ order, rbase := clampNat_mem _ order }

theorem writeChannels (h : x.Law) (n : Nat) : (x.writeChannels n).Law := by
  have written : Feed.Law { x with record := { x.record with channels := n } } := { h with }
  unfold Feed.writeChannels
  dsimp only
  split
  · exact written
  · exact written.withContext written.primingReset

theorem writeEnabled (h : x.Law) (on : Bool) : (x.writeEnabled on).Law := by
  have written : Feed.Law { x with record := { x.record with enabled := on } } := { h with }
  have bounds := written.bounds
  unfold Feed.writeEnabled
  dsimp only
  repeat' split
  · exact written.withContext (bounds.of_eq rfl rfl rfl rfl)
  · exact written
  · exact written.withContext (bounds.emptied.of_eq rfl rfl rfl rfl)

theorem writeTrunk (h : x.Law) (n : Fin 4) (framed : Bool) : (x.writeTrunk n framed).Law := by
  have written : Feed.Law { x with record := { x.record with trunk := n } } := { h with }
  unfold Feed.writeTrunk
  split
  · exact written
  · exact written.withContext written.bounds.toHoldover

/-- A ratio limit is accepted only in order with the other (R2). -/
theorem writeField (h : x.Law) {framed : Fin 4 → Bool} {field v : Nat} {fv : FieldValue}
    (judged : judgeFeedField x.record field v = some fv) : (x.writeField framed field fv.stored).Law := by
  unfold Feed.writeField
  split
  case h_1 => exact h.writeEnabled _
  case h_2 => exact h.writeTrunk _ _
  case h_3 => exact h.writeChannels _
  case h_6 =>
    simp only [judgeFeedField] at judged
    split at judged
    · cases judged
      rename_i within
      exact h.writeLimits within.2.2
    · cases judged
  case h_7 =>
    simp only [judgeFeedField] at judged
    split at judged
    · cases judged
      rename_i within
      exact h.writeLimits within.2.2
    · cases judged
  case h_11 => exact h
  all_goals exact { h with }

theorem initial : Feed.Law { record := FeedRecord.initial, context := FeedContext.initial } := by
  constructor <;> decide

end Feed.Law

/-! ### The feeds of a state -/

namespace State.FeedLaw

variable {s t : State}

theorem of_feeds (h : s.FeedLaw) (same : t.feeds = s.feeds) : t.FeedLaw := fun f => same ▸ h f

theorem map (h : s.FeedLaw) (g : Fin 8 → Feed → Feed) (feeds : t.feeds = mapAll g s.feeds) (keeps : ∀ f x, x.Law → (g f x).Law) :
    t.FeedLaw := fun f => by
  have := keeps f _ (h f)
  rw [feeds, Fin.getElem_fin, mapAll_getElem]
  exact this

theorem updFeed (h : s.FeedLaw) (f : Fin 8) (g : Feed → Feed) (keeps : (g s.feeds[f]).Law) : (s.updFeed f g).FeedLaw := fun x => by
  by_cases e : f = x
  · subst e; exact (updAt_same s.feeds f g).symm ▸ keeps
  · exact (updAt_other s.feeds f x g e).symm ▸ h x

theorem trunkUnframed (h : s.FeedLaw) (n : Fin 4) : (s.trunkUnframed n).FeedLaw := by
  refine h.map (fun _ x => if x.record.trunk = n then { x with context := x.context.toHoldover } else x) rfl fun _ x law => ?_
  split
  · exact law.withContext law.bounds.toHoldover
  · exact law

theorem judge (h : s.FeedLaw) (o : Byte) (c : Command) : (Machine.judge o c s).state.FeedLaw := by
  have moves := judge_moves o c s
  generalize (Machine.judge o c s).state = t at moves
  cases moves with
  | steady same => exact h.of_feeds same.feeds
  | feed object field value =>
    unfold setFeed refuse
    repeat' split
    · exact h
    · exact h
    · exact h
    · exact h
    · exact h.updFeed _ _ ((h _).writeField ‹_›)
  | map object field value =>
    refine h.of_feeds ?_
    unfold setMap refuse
    repeat' split
    all_goals rfl
  | trunk object field value =>
    unfold setTrunk refuse State.afterReceiver
    repeat' split
    · exact h
    · exact h
    · exact h
    · exact h
    · exact (h.of_feeds rfl).trunkUnframed _
    · exact h.of_feeds rfl
  | load table start codes =>
    refine h.of_feeds ?_
    unfold judgeLoad refuse accept
    repeat' split
    · rfl
    · rfl
    · dsimp only
      split <;> rfl
  | retire page =>
    refine h.of_feeds ?_
    unfold judgeRetire refuse accept
    repeat' split
    all_goals rfl
  | restore page =>
    refine h.of_feeds ?_
    unfold judgeRestore refuse accept
    repeat' split
    all_goals rfl
  | jump t =>
    exact h.map (fun _ x => { x with context := { x.context with anchors := [] } }) (by simp only [State.timeJump])
      fun _ x law => law.withContext (law.bounds.of_same rfl rfl le_rfl (Nat.zero_le _))

theorem offerAlarm (h : s.FeedLaw) (type : AlarmReportType) (r : Fin 400) : (s.offerAlarm type r).FeedLaw := by
  refine h.of_feeds ?_
  unfold State.offerAlarm
  repeat' split
  all_goals rfl

theorem logProgramme (h : s.FeedLaw) (p : Fin 16) : (s.logProgramme p).FeedLaw := by
  refine h.of_feeds ?_
  have appended : (s.logAppend (s.logEntry p)).feeds = s.feeds := by
    unfold State.logAppend
    dsimp only
    split <;> rfl
  unfold State.logProgramme
  repeat' split
  · exact appended
  · rfl
  · rfl

theorem sweep (h : s.FeedLaw) (v : SliceHandover) : (s.sweep v).FeedLaw := by
  obtain ⟨w, e, -⟩ := s.sweep_told v
  exact h.of_feeds (by rw [e]; rfl)

theorem powerOn (s : State) (straps : BitVec 6) : (s.powerOn straps).FeedLaw := fun f => by
  have : (s.powerOn straps).feeds[f] = { record := FeedRecord.initial, context := FeedContext.initial } := Vector.getElem_replicate f.isLt
  rw [this]
  exact .initial

end State.FeedLaw

theorem feedLaw_kept : Kept State.FeedLaw where
  pending _ _ h := h
  powerOn s straps _ := .powerOn s straps
  time _ _ h := h
  judge o c _ h := h.judge o c
  reply _ _ _ h := h
  alarm _ type r h := h.offerAlarm type r
  aborted s h := h.of_feeds (by unfold State.offerAborted; split <;> rfl)
  transfer _ _ h := h
  commands _ _ _ h := h
  overrun _ h := h
  departs _ _ _ _ h := h
  queues s h := h.of_feeds s.emptyQueues_feeds
  release s h := h.map (fun _ x => { x with context := x.restarted }) (by simp only [State.releaseAll])
    fun _ _ law => law.withContext law.restarted
  alarms s h := by
    have forced : s.forceAll.FeedLaw := h.of_feeds s.forceAll_feeds
    exact Kept.foldl (P := State.FeedLaw) (fun t r => t.offerAlarm .clear r) (fun _ r law => law.offerAlarm .clear r) _ _ forced
  endLog s h := h.of_feeds (by
    unfold State.endLog State.offerAborted
    repeat' split
    all_goals rfl)
  ready _ h := h
  receiver _ _ _ h := h
  unframed _ n h := h.trunkUnframed n
  deliver s n b h := by
    unfold State.deliverSample
    split
    · exact h.updFeed _ _ ((h _).withContext ((h _).deliver n b))
    · exact h
  forward s n b h := h.of_feeds (by unfold State.forwardBurst; split <;> rfl)
  output _ _ _ _ h := h
  takes _ _ _ h := h
  fireTakes s h := h.of_feeds s.fireTakes_feeds
  latch s h := h.of_feeds (by unfold State.latchGains; split <;> rfl)
  convert s h := fun f => by
    have feed : s.convertFeeds.feeds[f] = { s.feeds[f] with context := (s.feeds[f].convert s.tables s.time.houseTime).context } := by
      simp only [State.convertFeeds, State.conversions, Fin.getElem_fin, mapAll_getElem]
    rw [feed]
    exact (h f).withContext ((h f).convert ..)
  programme s outputs p h := h.of_feeds (by unfold State.runProgramme; dsimp only; split <;> rfl)
  assemble s h := h.of_feeds s.assembleOutputs_feeds
  period s h := h.map (fun _ x => { x with context := x.silenceTick }) rfl fun _ _ law => law.withContext law.silenceTick
  servo s h := h.map (fun _ x => { x with context := x.servo }) (by simp only [State.servo]) fun _ _ law => law.withContext law.servo
  slices s h := h.map (fun _ x => { x with context := x.context.clearFlags }) (by simp only [State.formSlices])
    fun _ _ law => law.withContext (law.bounds.of_eq rfl rfl rfl rfl)
  log _ p h := h.logProgramme p
  sweep _ v h := h.sweep v

/-- Settles O59: the laws of epochs and gain indices are kept for each programme, and the law of feeds for each feed. -/
theorem stepKeepsEpochsGainsAndFeeds : Obligations.StepKeepsEpochsGainsAndFeeds := by
  unfold Obligations.StepKeepsEpochsGainsAndFeeds
  exact ⟨epochLaw_programmeKept.kept.step, gainLaw_programmeKept.kept.step, feedLaw_kept.step⟩

end Sys2Proof.Machine
end

