-- ==== Sys2Proof/Proofs/MemoryForm.lean ====
section
/-! SUPPORT. The canonical form of the delay store's memory (log entry 3): only a house frame's writes and a burst boundary's clearing
touch the memory at all. -/

namespace Sys2Proof.Machine

/-! ### What leaves the memory as it was -/

@[simp] theorem State.offerAlarm_store (s : State) (type : AlarmReportType) (r : Fin 400) : (s.offerAlarm type r).store = s.store := by
  unfold State.offerAlarm
  repeat' split
  all_goals rfl

@[simp] theorem State.offerClears_store (s : State) (rs : List (Fin 400)) : (s.offerClears rs).store = s.store := by
  induction rs generalizing s with
  | nil => rfl
  | cons r rs ih => exact (ih _).trans (s.offerAlarm_store .clear r)

@[simp] theorem State.offerAborted_store (s : State) : s.offerAborted.store = s.store := by
  unfold State.offerAborted
  split <;> rfl

@[simp] theorem State.clearAlarms_store (s : State) : s.clearAlarms.store = s.store := by
  rw [State.clearAlarms, State.formLines_store, State.offerClears_store, State.forceAll_store]

@[simp] theorem State.endLog_store (s : State) : s.endLog.store = s.store := by
  unfold State.endLog
  dsimp only
  split
  · exact State.offerAborted_store _
  · rfl

@[simp] theorem State.deliverSample_store (s : State) (n : Fin 4) (b : SampleBurst) : (s.deliverSample n b).store = s.store := by
  unfold State.deliverSample
  split <;> rfl

@[simp] theorem State.forwardBurst_store (s : State) (n : Fin 4) (b : Burst) : (s.forwardBurst n b).store = s.store := by
  unfold State.forwardBurst
  split <;> rfl

@[simp] theorem State.latchGains_store (s : State) : s.latchGains.store = s.store := by
  unfold State.latchGains
  split <;> rfl

@[simp] theorem State.logAppend_store (s : State) (e : LogEntry) : (s.logAppend e).store = s.store := by
  unfold State.logAppend
  dsimp only
  split <;> rfl

@[simp] theorem State.logProgramme_store (s : State) (p : Fin 16) : (s.logProgramme p).store = s.store := by
  unfold State.logProgramme
  repeat' split
  · exact s.logAppend_store (s.logEntry p)
  · rfl
  · rfl

@[simp] theorem State.sweep_store (s : State) (h : SliceHandover) : (s.sweep h).store = s.store := by
  obtain ⟨w, e, -⟩ := s.sweep_told h
  rw [e]
  rfl

/-! ### What writes it -/

theorem Programme.formFrame_length (p : Programme) (outputs : Vector FeedOutput 8) : (p.formFrame outputs).length = 8 := by
  rw [Programme.formFrame, List.length_map, List.length_range]

@[simp] theorem DelayStore.foldl_fault1_memory (d : DelayStore) (fs : List ParityFault) : (fs.foldl DelayStore.fault1 d).memory = d.memory := by
  induction fs generalizing d with
  | nil => rfl
  | cons f fs ih => exact ih _

theorem DelayStore.serve_wf {d : DelayStore} (h : Memory.wf d.memory) (i : Fin 16) (now : Word32) (outputs : Vector FeedOutput 8)
    (p : Programme) : Memory.wf (d.serve i now outputs p).memory :=
  DelayStore.writeSlot_wf _ _ _ (p.formFrame_length outputs).le (by rwa [DelayStore.foldl_fault1_memory])

namespace State.MemoryLaw

variable {s t : State}

theorem of_store (h : s.MemoryLaw) (same : t.store.memory = s.store.memory) : t.MemoryLaw := by
  unfold State.MemoryLaw
  rwa [same]

theorem runProgramme (h : s.MemoryLaw) (outputs : Vector FeedOutput 8) (p : Fin 16) : (State.runProgramme outputs s p).MemoryLaw := by
  unfold State.runProgramme
  dsimp only
  split
  · exact DelayStore.serve_wf h ..
  · exact h

end State.MemoryLaw

theorem memoryLaw_kept : Kept State.MemoryLaw where
  pending _ _ h := h.of_store rfl
  powerOn s straps h := h.of_store (by simp only [State.powerOn])
  time _ _ h := h.of_store rfl
  judge o c s h := h.of_store (judge_same o c s).memory
  reply _ _ _ h := h.of_store rfl
  alarm s type r h := h.of_store (by rw [s.offerAlarm_store])
  aborted s h := h.of_store (by rw [s.offerAborted_store])
  transfer _ _ h := h.of_store rfl
  commands _ _ _ h := h.of_store rfl
  overrun _ h := h.of_store rfl
  departs _ _ _ _ h := h.of_store rfl
  queues s h := h.of_store (by rw [s.emptyQueues_store])
  release s h := h.of_store (by rw [s.releaseAll_store])
  alarms s h := h.of_store (by rw [s.clearAlarms_store])
  endLog s h := h.of_store (by rw [s.endLog_store])
  ready _ h := h.of_store rfl
  receiver _ _ _ h := h.of_store rfl
  unframed s n h := h.of_store (by rw [s.trunkUnframed_store])
  deliver s n b h := h.of_store (by rw [s.deliverSample_store])
  forward s n b h := h.of_store (by rw [s.forwardBurst_store])
  output _ _ _ _ h := h.of_store rfl
  takes _ _ _ h := h.of_store rfl
  fireTakes s h := h.of_store (by rw [s.fireTakes_store])
  latch s h := h.of_store (by rw [s.latchGains_store])
  convert s h := h.of_store (by rw [s.convertFeeds_store])
  programme _ outputs p h := h.runProgramme outputs p
  assemble s h := h.of_store (by rw [s.assembleOutputs_store])
  period s h := (State.clearedMemory_wf h : Memory.wf s.closePeriod.store.memory)
  servo s h := h.of_store (by rw [s.servo_store])
  slices s h := h.of_store (by rw [s.formSlices_store])
  log s p h := h.of_store (by rw [s.logProgramme_store])
  sweep s v h := h.of_store (by rw [s.sweep_store])

/-- Settles O55: by the induction over the operations of a step. -/
theorem stepKeepsTheMemoryForm : Obligations.StepKeepsTheMemoryForm := memoryLaw_kept.step

end Sys2Proof.Machine
end

