-- ==== Sys2Proof/Proofs/PowerOn.lean ====
section
/-! SUPPORT. The part at its power-on values (R158), item by item, and the power-on tables (R22, R83, R86, R91, R104). -/

namespace Sys2Proof.Machine

/-! ### Lists of equal parts laid end to end -/

section EqualParts

variable {α β : Type} {f : α → List β} {n : Nat}

theorem length_flatMap_const (each : ∀ a, (f a).length = n) (as : List α) : (as.flatMap f).length = as.length * n := by
  induction as with
  | nil => rw [List.flatMap_nil, List.length_nil, List.length_nil, Nat.zero_mul]
  | cons a as ih => rw [List.flatMap_cons, List.length_append, each, ih, List.length_cons, Nat.succ_mul, Nat.add_comm]

theorem getElem?_flatMap_const (each : ∀ a, (f a).length = n) (as : List α) {i j : Nat} (h : j < n) :
    (as.flatMap f)[i * n + j]? = as[i]?.bind fun a => (f a)[j]? := by
  induction as generalizing i with
  | nil => rw [List.flatMap_nil, List.getElem?_nil, List.getElem?_nil, Option.bind_none]
  | cons a as ih =>
    rw [List.flatMap_cons]
    cases i with
    | zero =>
      rw [Nat.zero_mul, Nat.zero_add, List.getElem?_append_left (by rw [each]; exact h), List.getElem?_cons_zero, Option.bind_some]
    | succ i =>
      have place : (i + 1) * n + j - n = i * n + j := by rw [Nat.succ_mul]; omega
      have beyond : n ≤ (i + 1) * n + j := by rw [Nat.succ_mul]; omega
      rw [List.getElem?_append_right (by rwa [each]), each, place, ih, List.getElem?_cons_succ]

end EqualParts

/-! ### The power-on tables -/

theorem initialBranch_length (b : Nat) : (initialBranch b).length = 16 := rfl

theorem initialKernel_length (x : Nat) : ((fun _ : Nat => (List.range 128).flatMap initialBranch) x).length = 2048 := by
  rw [length_flatMap_const initialBranch_length, List.length_range]

theorem Tables.initial_taps_length : Tables.initial.taps.length = 8192 := by
  rw [Tables.initial, length_flatMap_const initialKernel_length, List.length_range]

/-- The power-on kernel interpolates linearly (R22). -/
theorem Tables.initial_taps (kernel : Fin 4) (branch : Fin 128) (tap : Fin 16) :
    Tables.initial.taps[2048 * kernel.val + 16 * branch.val + tap.val]? =
      some (BitVec.ofNat 18
        (if tap.val = 7 then 131072 - 1024 * branch.val else if tap.val = 8 then 1024 * branch.val else 0)) := by
  have place : 2048 * kernel.val + 16 * branch.val + tap.val = kernel.val * 2048 + (branch.val * 16 + tap.val) := by omega
  rw [Tables.initial, place, getElem?_flatMap_const initialKernel_length _ (by omega), List.getElem?_range kernel.isLt, Option.bind_some,
    getElem?_flatMap_const initialBranch_length _ tap.isLt, List.getElem?_range branch.isLt, Option.bind_some]
  unfold initialBranch
  fin_cases tap <;> rfl

theorem Tables.initial_levels_length : Tables.initial.levels.length = 256 := by
  rw [Tables.initial, List.length_map, List.length_range]

theorem Tables.initial_levels {j : Nat} (h : j < 256) :
    Tables.initial.levels[j]? = some { threshold := BitVec.ofNat 40 (65536 * j), power := BitVec.ofNat 40 (65536 * j + 32768) } := by
  rw [Tables.initial, List.getElem?_map, List.getElem?_range h, Option.map_some]

theorem initialFilters_length (x : Nat) : ((fun _ : Nat => ([1048576, 0, 0, 0, 0] : List (BitVec 24))) x).length = 5 := rfl

theorem Tables.initial_filters_length : Tables.initial.filters.length = 40 := by
  rw [Tables.initial, length_flatMap_const initialFilters_length, List.length_range]

theorem Tables.initial_filters {i : Nat} (h : i < 40) : Tables.initial.filters[i]? = some (if i % 5 = 0 then 1048576 else 0) := by
  have place : i = i / 5 * 5 + i % 5 := by omega
  have inside : i % 5 < 5 := Nat.mod_lt _ (by decide)
  rw [Tables.initial, place, getElem?_flatMap_const initialFilters_length _ inside, List.getElem?_range (by omega), Option.bind_some]
  have same : (i / 5 * 5 + i % 5) % 5 = i % 5 := by omega
  rw [same]
  generalize i % 5 = k at inside
  match k, inside with
  | 0, _ => rfl
  | 1, _ => rfl
  | 2, _ => rfl
  | 3, _ => rfl
  | 4, _ => rfl

/-! ### The blocks at power-on -/

section PowerOn

variable (s : State) (straps : BitVec 6)

@[simp] theorem State.powerOn_feeds (f : Fin 8) :
    (s.powerOn straps).feeds[f] = { record := FeedRecord.initial, context := FeedContext.initial } := Vector.getElem_replicate f.isLt
@[simp] theorem State.powerOn_programmes (p : Fin 16) : (s.powerOn straps).programmes[p] = Programme.initial :=
  Vector.getElem_replicate p.isLt
@[simp] theorem State.powerOn_tables : (s.powerOn straps).tables = Tables.initial := by simp only [State.powerOn, State.reset]
@[simp] theorem State.powerOn_store : (s.powerOn straps).store = { DelayStore.initial with memory := s.store.memory } := by
  simp only [State.powerOn]
@[simp] theorem State.powerOn_time : (s.powerOn straps).time = Timebase.initial := by simp only [State.powerOn, State.reset]
@[simp] theorem State.powerOn_inputs (n : Fin 4) : (s.powerOn straps).inputs[n] = InputTrunk.initial := Vector.getElem_replicate n.isLt
@[simp] theorem State.powerOn_outputs (k : Fin 2) : (s.powerOn straps).outputs[k] = OutputTrunk.initial ⟨k.val, by omega⟩ :=
  Vector.getElem_ofFn k.isLt
@[simp] theorem State.powerOn_alarms : (s.powerOn straps).alarms = AlarmUnit.initial := by simp only [State.powerOn, State.reset]
@[simp] theorem State.powerOn_log : (s.powerOn straps).log = LoudnessLog.initial := by simp only [State.powerOn, State.reset]
@[simp] theorem State.powerOn_processor : (s.powerOn straps).processor = { Processor.initial with station := straps } := by
  simp only [State.powerOn]

end PowerOn

theorem AlarmUnit.initial_policy (k : Fin 18) : AlarmUnit.initial.policies[k] = KindPolicy.initial k.val := Vector.getElem_ofFn k.isLt

theorem AlarmUnit.initial_record (r : Fin 400) : AlarmUnit.initial.records[r] = AlarmRecord.initial := Vector.getElem_replicate r.isLt

theorem Processor.initial_originator (n : Fin 8) : Processor.initial.originators[n] = Originator.initial n.val := Vector.getElem_ofFn n.isLt

end Sys2Proof.Machine
end

