-- ==== Sys2Proof/Proofs/Capacities.lean ====
section
/-! SUPPORT. The bounded collections and the sizes of the loaded tables are kept by every operation (R45, R81, R140, R162, R167, R174,
R185). -/

namespace Sys2Proof.Machine

/-! ### The histogram (R81, R92) -/

theorem histogramTest_length (gAbs : Nat) (ring : List SliceEntry) (level : Option Nat) (h : List Nat) :
    (histogramTest gAbs ring level h).length = h.length := by
  unfold histogramTest countBin
  repeat' split
  · rw [List.length_modify, List.length_map]
  · rw [List.length_modify]
  · rfl
  · rfl

/-- The histogram of a programme has all its counts (R81). -/
def Programme.Binned (p : Programme) : Prop := p.meter.histogram.length = 256

namespace Programme.Binned

variable {p q : Programme}

theorem of_meter (h : p.Binned) (same : q.meter.histogram = p.meter.histogram) : q.Binned := by
  unfold Programme.Binned
  rwa [same]

theorem of_empty (h : q.meter.histogram = List.replicate 256 0) : q.Binned := by
  unfold Programme.Binned
  rw [h, List.length_replicate]

theorem measure (t : Tables) (set : Fin 4) (layout : Layout) (frame : Vector Handed 8) (m : MeterContext) :
    (m.measure t set layout frame).histogram = m.histogram := by
  have positions (is : List (Fin 8)) (m : MeterContext) :
      (is.foldl (fun m i =>
        match layout[i.val]? with
        | some pos => measurePosition t set pos.weight frame[i].sample i m
        | none => m) m).histogram = m.histogram := by
    induction is generalizing m with
    | nil => rfl
    | cons i is ih =>
      rw [List.foldl_cons, ih]
      split <;> rfl
  exact positions (List.finRange 8) m

theorem writeField (h : p.Binned) (field v : Nat) : (p.writeField field v).Binned := by
  refine h.of_meter ?_
  unfold Programme.writeField
  split
  case h_1 => unfold Programme.writeTiming; split <;> rfl
  case h_2 => unfold Programme.writeMode; dsimp only; repeat' split
              all_goals rfl
  case h_3 => unfold Programme.writeTiming; split <;> rfl
  case h_4 => unfold Programme.writeFixedDelay; dsimp only; split <;> rfl
  case h_6 => unfold Programme.writeFilterSet; dsimp only; split <;> rfl
  case h_11 => unfold Programme.writeGainMode; dsimp only; repeat' split
               all_goals rfl
  all_goals rfl

theorem judgeEpoch (h : p.Binned) (words : List Word32) : (p.judgeEpoch words).Binned := by
  unfold Programme.judgeEpoch Programme.switchEpoch
  dsimp only
  repeat' split
  · exact of_empty rfl
  · exact h.of_meter rfl
  · exact h

theorem boundary (h : p.Binned) : p.boundary.Binned := by
  refine h.of_meter ?_
  unfold Programme.boundary Programme.clearStep
  repeat' split
  all_goals rfl

theorem slice (h : p.Binned) (levels : List LevelEntry) (unity : Byte) (n : Nat) : (p.slice levels unity n).Binned := by
  unfold Programme.slice
  dsimp only
  split
  · exact (histogramTest_length ..).trans h
  · exact h

end Programme.Binned

theorem binned_programmeKept : ProgrammeKept Programme.Binned where
  initial := .of_empty rfl
  holds _ _ h := h
  field _ field _ fv _ h := h.writeField field fv.stored
  take _ _ _ h := h
  cancel _ h := h
  allocated _ _ _ _ _ := .of_empty rfl
  released _ _ := .of_empty rfl
  measured p h := by
    unfold Programme.restartMeasurement
    split
    · exact .of_empty rfl
    · exact h
  timeJump p h := h.of_meter (by unfold Programme.timeJump; split <;> rfl)
  restarted _ _ _ := .of_empty rfl
  fireDue p now h := h.of_meter (by
    unfold Programme.fireDue Programme.fire
    repeat' split
    all_goals rfl)
  latch _ h := h
  age _ _ _ h := h
  pass _ t threshold words _ h := (h.judgeEpoch words).of_meter (Programme.Binned.measure ..)
  boundary _ h := h.boundary
  slice _ levels unity n h := h.slice levels unity n
  written _ h := h
  interval _ _ h := h

/-! ### The loaded tables (R179, R185) -/

theorem overwrite_length {α : Type} (old : List α) (start : Nat) (new : List α) (h : start + new.length ≤ old.length) :
    (overwrite old start new).length = old.length := by
  simp only [overwrite, List.length_append, List.length_take, List.length_drop]
  omega

theorem codesOf_length (width count : Nat) (bs : List Byte) : (codesOf width count bs).length = count := by
  induction count generalizing bs with
  | zero => rfl
  | succ n ih => rw [codesOf, List.length_cons, ih]

/-- Every table has all its entries (R22, R83, R86, R91, R104, R185). -/
structure Tables.Whole (t : Tables) : Prop where
  taps      : t.taps.length = 8192
  latencies : t.latencies.length = 4
  levels    : t.levels.length = 256
  gains     : t.gains.length = 256
  weights   : t.weights.length = 16
  filters   : t.filters.length = 40

theorem Tables.initial_whole : Tables.initial.Whole where
  taps := Tables.initial_taps_length
  latencies := List.length_replicate
  levels := Tables.initial_levels_length
  gains := List.length_replicate
  weights := List.length_replicate
  filters := Tables.initial_filters_length

/-- A run within the table it is written to leaves every table with all its entries. -/
theorem Tables.Whole.write {t : Tables} (h : t.Whole) (table : Byte) (start : Nat) (codes : List Nat)
    (fits : start + codes.length ≤ tableSize table) : (t.write table.toNat start codes).Whole := by
  have size (n : Nat) (e : table.toNat = n) : tableSize table = [8192, 4, 256, 256, 1, 16, 40].getD n 0 := by rw [tableSize, e]
  have kept {α : Type} (old : List α) (f : Nat → α) (room : start + codes.length ≤ old.length) :
      (overwrite old start (codes.map f)).length = old.length := overwrite_length _ _ _ (by rwa [List.length_map])
  unfold Tables.write
  split
  case h_1 e => exact { h with taps := (kept _ _ (by rw [h.taps]; exact fits.trans (size 0 e).le)).trans h.taps }
  case h_2 e => exact { h with latencies := (kept _ _ (by rw [h.latencies]; exact fits.trans (size 1 e).le)).trans h.latencies }
  case h_3 e => exact { h with levels := (kept _ _ (by rw [h.levels]; exact fits.trans (size 2 e).le)).trans h.levels }
  case h_4 e => exact { h with gains := (kept _ _ (by rw [h.gains]; exact fits.trans (size 3 e).le)).trans h.gains }
  case h_5 => exact { h with }
  case h_6 e => exact { h with weights := (kept _ _ (by rw [h.weights]; exact fits.trans (size 5 e).le)).trans h.weights }
  case h_7 e => exact { h with filters := (kept _ _ (by rw [h.filters]; exact fits.trans (size 6 e).le)).trans h.filters }
  case h_8 => exact h

/-- What a LOAD can do to the tables: nothing, or a run written within its table (R179). -/
theorem judgeLoad_tables (o table : Byte) (start : BitVec 16) (codes : List Byte) (s : State) :
    (judgeLoad o table start codes s).state = s ∨
      ∃ run : List Nat, start.toNat + run.length ≤ tableSize table ∧
        (judgeLoad o table start codes s).state = { s with tables := s.tables.write table.toNat start.toNat run } := by
  unfold judgeLoad refuse accept
  split
  · exact .inl rfl
  · split
    · exact .inl rfl
    · dsimp only
      split
      · exact .inl rfl
      · rename_i inside
        exact .inr ⟨_, by rw [codesOf_length]; omega, rfl⟩

/-! ### The queues, the ring and the retire table -/

theorem retireEntry_length (retired : List Page) (page : Page) (h : retired.length ≤ 32) : (retireEntry retired page).length ≤ 32 := by
  unfold retireEntry
  repeat' split
  · exact h
  · rw [List.length_append, List.length_singleton]; omega
  · exact h

/-- The capacity law but for the histograms. -/
structure State.SizeLaw (s : State) : Prop where
  commands : s.processor.commands.length ≤ 8
  reports  : s.processor.reports.length ≤ 32
  alarms   : s.processor.alarmReports ≤ 24
  forward  : ∀ k : Fin 2, s.outputs[k].forward.length ≤ 4
  ring     : s.log.ring.length ≤ 512
  retired  : s.store.retired.length ≤ 32
  tables   : s.tables.Whole

theorem State.capacityLaw_iff (s : State) : s.CapacityLaw ↔ s.SizeLaw ∧ AllProgrammes Programme.Binned s :=
  ⟨fun h => ⟨⟨h.commands, h.reports, h.alarms, h.forward, h.ring, h.retired, h.taps, h.latencies, h.levels, h.gains, h.weights, h.filters⟩,
    h.bins⟩,
   fun ⟨h, bins⟩ => ⟨h.commands, h.reports, h.alarms, h.forward, h.ring, h.retired, h.tables.taps, h.tables.latencies, h.tables.levels,
    h.tables.gains, h.tables.weights, h.tables.filters, bins⟩⟩

/-- What the size law reads is the same in two states. -/
structure SameSizes (s t : State) : Prop where
  commands : t.processor.commands = s.processor.commands
  reports  : t.processor.reports = s.processor.reports
  outputs  : t.outputs = s.outputs
  ring     : t.log.ring = s.log.ring
  retired  : t.store.retired = s.store.retired
  tables   : t.tables = s.tables

namespace State.SizeLaw

variable {s t : State}

theorem of_same (h : s.SizeLaw) (e : SameSizes s t) : t.SizeLaw where
  commands := by rw [e.commands]; exact h.commands
  reports := by rw [e.reports]; exact h.reports
  alarms := by rw [Processor.alarmReports, e.reports]; exact h.alarms
  forward := by rw [e.outputs]; exact h.forward
  ring := by rw [e.ring]; exact h.ring
  retired := by rw [e.retired]; exact h.retired
  tables := by rw [e.tables]; exact h.tables

/-- A report that enters while there is room, and if it is an alarm report while there is room for one (R136, R174). -/
theorem pushReport (h : s.SizeLaw) (r : Report) (room : s.reportRoom = true) (alarm : s.processor.alarmReports < 24 ∨ ∀ a, r ≠ .alarm a) :
    (s.pushReport r).SizeLaw :=
  have room := of_decide_eq_true room
  { h with
    reports := by
      change (s.processor.reports ++ [r]).length ≤ 32
      rw [List.length_append, List.length_singleton]
      omega
    alarms := by
      have held := h.alarms
      change (s.processor.reports ++ [r]).countP _ ≤ 24
      rw [List.countP_append, List.countP_singleton]
      unfold Processor.alarmReports at alarm held
      cases r with
      | alarm a =>
        have few := alarm.resolve_right fun other => other a rfl
        simp only [if_true]
        omega
      | reply r => simpa using held
      | log l => simpa using held }

theorem offerAlarm (h : s.SizeLaw) (type : AlarmReportType) (r : Fin 400) : (s.offerAlarm type r).SizeLaw := by
  unfold State.offerAlarm
  split
  · rename_i room
    rw [State.alarmRoom, Bool.and_eq_true, decide_eq_true_eq] at room
    exact (h.pushReport _ room.2 (.inl room.1)).of_same ⟨rfl, rfl, rfl, rfl, rfl, rfl⟩
  · split
    · exact h.of_same ⟨rfl, rfl, rfl, rfl, rfl, rfl⟩
    · exact h.of_same ⟨rfl, rfl, rfl, rfl, rfl, rfl⟩
    · exact h
    · exact h

theorem offerAborted (h : s.SizeLaw) : s.offerAborted.SizeLaw := by
  unfold State.offerAborted
  split
  · exact h.pushReport _ ‹_› (.inr nofun)
  · exact h

theorem setRing (h : s.SizeLaw) (log : LoudnessLog) (ring : log.ring.length ≤ 512) : State.SizeLaw { s with log := log } :=
  { h with ring := ring }

theorem setRetired (h : s.SizeLaw) (store : DelayStore) (retired : store.retired.length ≤ 32) : State.SizeLaw { s with store := store } :=
  { h with retired := retired }

theorem updOutput (h : s.SizeLaw) (k : Fin 2) (g : OutputTrunk → OutputTrunk) (few : (g s.outputs[k]).forward.length ≤ 4) :
    (s.updOutput k g).SizeLaw :=
  { h with
    forward := fun j => by
      by_cases e : k = j
      · subst e; rw [State.updOutput_outputs, updAt_same]; exact few
      · rw [State.updOutput_outputs, updAt_other _ _ _ _ e]; exact h.forward j }

theorem mapOutputs (h : s.SizeLaw) (g : Fin 2 → OutputTrunk → OutputTrunk) (keeps : ∀ k t, (g k t).forward.length ≤ t.forward.length)
    (outputs : t.outputs = mapAll g s.outputs) (commands : t.processor.commands = s.processor.commands)
    (reports : t.processor.reports = s.processor.reports) (ring : t.log.ring = s.log.ring) (retired : t.store.retired = s.store.retired)
    (tables : t.tables = s.tables) : t.SizeLaw :=
  have same : State.SizeLaw { t with outputs := s.outputs } := h.of_same ⟨commands, reports, rfl, ring, retired, tables⟩
  { same with
    forward := fun k => by
      rw [outputs, Fin.getElem_fin, mapAll_getElem]
      exact (keeps _ _).trans (h.forward k) }

theorem judge (h : s.SizeLaw) (o : Byte) (c : Command) : (Machine.judge o c s).state.SizeLaw := by
  have moves := judge_moves o c s
  have queues := judge_same o c s
  generalize (Machine.judge o c s).state = t at moves queues
  cases moves with
  | steady same => exact h.of_same ⟨queues.commands, queues.reports, same.outputs, same.ring, same.retired, same.tables⟩
  | feed object field value =>
    unfold setFeed refuse
    repeat' split
    all_goals exact h.of_same ⟨rfl, rfl, rfl, rfl, rfl, rfl⟩
  | map object field value =>
    unfold setMap refuse
    repeat' split
    · exact h
    · exact h
    · exact h
    · exact h
    · exact h.updOutput _ _ (h.forward _)
  | trunk object field value =>
    unfold setTrunk refuse State.afterReceiver
    repeat' split
    all_goals exact h.of_same ⟨rfl, rfl, rfl, rfl, rfl, rfl⟩
  | load table start codes =>
    obtain e | ⟨run, fits, e⟩ := judgeLoad_tables o table start codes s
    · rw [e]; exact h
    · rw [e]; exact { h with tables := h.tables.write table _ _ fits }
  | retire page =>
    unfold judgeRetire refuse accept
    repeat' split
    · exact h
    · exact h
    · exact h
    · exact h
    · refine h.setRetired _ ?_
      rw [List.length_append, List.length_singleton]; omega
    · refine h.setRetired _ ?_
      rw [List.length_append, List.length_singleton]; omega
  | restore page =>
    unfold judgeRestore refuse accept
    repeat' split
    · exact h
    · exact h
    · exact h.setRetired _ ((List.length_filter_le ..).trans h.retired)
    · exact h.setRetired _ ((List.length_filter_le ..).trans h.retired)
    · exact h
  | jump t => exact h.of_same ⟨by simp, by simp, by simp, by simp, by simp, by simp⟩

theorem transferStep (h : s.SizeLaw) (can : s.canStep = true) : s.transferStep.SizeLaw := by
  have room : s.reportRoom = true := by
    simp only [State.canStep, Bool.and_eq_true] at can
    exact can.1.2
  refine (h.setRing _ ?_).pushReport _ room (.inr nofun)
  change (s.log.ring.drop _).length ≤ 512
  rw [List.length_drop]
  exact (Nat.sub_le ..).trans h.ring

theorem clearAlarms (h : s.SizeLaw) : s.clearAlarms.SizeLaw := by
  have forced : s.forceAll.SizeLaw := h.of_same ⟨by simp, by simp, by simp, by simp, by simp, by simp⟩
  have told : (s.forceAll.offerClears (s.standingOf (List.finRange 400))).SizeLaw :=
    Kept.foldl (P := State.SizeLaw) (fun t r => t.offerAlarm .clear r) (fun _ r law => law.offerAlarm .clear r) _ _ forced
  exact told.of_same ⟨rfl, rfl, rfl, rfl, rfl, rfl⟩

theorem endLog (h : s.SizeLaw) : s.endLog.SizeLaw := by
  unfold State.endLog
  dsimp only
  split
  · have ended : (s.setTransfer s.log.transfer.aborted).SizeLaw := h.of_same ⟨rfl, rfl, rfl, rfl, rfl, rfl⟩
    exact ended.offerAborted.setRing _ (Nat.zero_le _)
  · exact h.setRing _ (Nat.zero_le _)

theorem forwardBurst (h : s.SizeLaw) (n : Fin 4) (b : Burst) : (s.forwardBurst n b).SizeLaw := by
  unfold State.forwardBurst
  split
  · rename_i k _
    refine h.updOutput _ _ ?_
    have held := h.forward k
    unfold OutputTrunk.offer
    split
    · change (_ ++ [b]).length ≤ 4
      rw [List.length_append, List.length_singleton]
      omega
    · exact held
  · exact h

theorem logAppend (h : s.SizeLaw) (e : LogEntry) : (s.logAppend e).SizeLaw := by
  have held := h.ring
  unfold State.logAppend
  dsimp only
  split
  · refine h.setRing _ ?_
    rw [List.length_append, List.length_singleton]
    omega
  · have discarded : s.logDiscard.SizeLaw := (h.setRing _ (by
      change (s.log.ring.drop 1).length ≤ 512
      rw [List.length_drop]
      omega)).of_same (s := { s with log := s.logDiscard.log }) ⟨rfl, rfl, rfl, rfl, rfl, rfl⟩
    refine discarded.setRing _ ?_
    change (s.log.ring.drop 1 ++ [e]).length ≤ 512
    rw [List.length_append, List.length_singleton, List.length_drop]
    omega

theorem logProgramme (h : s.SizeLaw) (p : Fin 16) : (s.logProgramme p).SizeLaw := by
  unfold State.logProgramme
  repeat' split
  · exact (h.logAppend _).of_same ⟨rfl, rfl, rfl, rfl, rfl, rfl⟩
  · exact h.of_same ⟨rfl, rfl, rfl, rfl, rfl, rfl⟩
  · exact h

theorem sweepRecord (h : s.SizeLaw) (v : SliceHandover) (r : Fin 400) : (Machine.sweepRecord v s r).SizeLaw := by
  unfold Machine.sweepRecord
  dsimp only
  have moved (g : AlarmRecord → AlarmRecord) : (s.updRecord r g).SizeLaw := h.of_same ⟨rfl, rfl, rfl, rfl, rfl, rfl⟩
  repeat' split
  · exact (moved _).offerAlarm _ r
  · exact moved _
  · exact h

theorem reoffer (h : s.SizeLaw) (rs : List (Fin 400)) : (Machine.reoffer rs s).SizeLaw := by
  induction rs generalizing s with
  | nil => exact h
  | cons r rs ih =>
    unfold Machine.reoffer
    repeat' split
    · exact ih (h.offerAlarm .state r)
    · exact h
    · exact ih h

theorem sweep (h : s.SizeLaw) (v : SliceHandover) : (s.sweep v).SizeLaw := by
  have moved := Kept.foldl (P := State.SizeLaw) (Machine.sweepRecord v) (fun _ r law => law.sweepRecord v r) (List.finRange 400) _
    (h.reoffer (List.finRange 400))
  unfold State.sweep
  generalize (List.finRange 400).foldl _ _ = u at moved ⊢
  exact moved.of_same ⟨rfl, rfl, rfl, rfl, rfl, rfl⟩

theorem runProgramme (h : s.SizeLaw) (outputs : Vector FeedOutput 8) (p : Fin 16) : (State.runProgramme outputs s p).SizeLaw := by
  have faults (d : DelayStore) (fs : List ParityFault) (few : d.retired.length ≤ 32) : (fs.foldl DelayStore.fault1 d).retired.length ≤ 32 := by
    induction fs generalizing d with
    | nil => exact few
    | cons f fs ih => exact ih _ (retireEntry_length _ _ few)
  unfold State.runProgramme
  dsimp only
  split
  · refine (h.setRetired _ ?_).of_same ⟨rfl, rfl, rfl, rfl, rfl, rfl⟩
    unfold DelayStore.serve DelayStore.writeSlot
    dsimp only
    split <;> exact faults _ _ h.retired
  · exact h

theorem powerOn (s : State) (straps : BitVec 6) : (s.powerOn straps).SizeLaw where
  commands := by rw [s.powerOn_processor]; exact Nat.zero_le _
  reports := by rw [s.powerOn_processor]; exact Nat.zero_le _
  alarms := by rw [s.powerOn_processor]; exact Nat.zero_le _
  forward k := by rw [s.powerOn_outputs]; exact Nat.zero_le _
  ring := by rw [s.powerOn_log]; exact Nat.zero_le _
  retired := by rw [s.powerOn_store]; exact Nat.zero_le _
  tables := by rw [s.powerOn_tables]; exact Tables.initial_whole

end State.SizeLaw

theorem sizeLaw_kept : Kept State.SizeLaw where
  pending _ _ h := h.of_same ⟨rfl, rfl, rfl, rfl, rfl, rfl⟩
  powerOn s straps _ := .powerOn s straps
  time _ _ h := h.of_same ⟨rfl, rfl, rfl, rfl, rfl, rfl⟩
  judge o c _ h := h.judge o c
  reply _ _ room h := h.pushReport _ room (.inr nofun)
  alarm _ type r h := h.offerAlarm type r
  aborted _ h := h.offerAborted
  transfer _ can h := h.transferStep can
  commands s bs few h := { h with
    commands := by
      have held := h.commands
      change bs.length ≤ 8
      omega }
  overrun _ h := h.of_same ⟨rfl, rfl, rfl, rfl, rfl, rfl⟩
  departs s r rest e h :=
    have reports := h.reports
    have alarms := h.alarms
    { h with
      reports := by
        rw [e, List.length_cons] at reports
        change rest.length ≤ 32
        omega
      alarms := by
        rw [Processor.alarmReports, e, List.countP_cons] at alarms
        exact (Nat.le_add_right ..).trans alarms }
  queues s h :=
    { commands := Nat.zero_le _, reports := Nat.zero_le _, alarms := Nat.zero_le _
      forward := fun k => by simp [State.emptyQueues]
      ring := by rw [s.emptyQueues_log]; exact h.ring
      retired := by rw [s.emptyQueues_store]; exact h.retired
      tables := by rw [s.emptyQueues_tables]; exact h.tables }
  release _ h := h.of_same ⟨by simp, by simp, by simp, by simp, by simp, by simp⟩
  alarms _ h := h.clearAlarms
  endLog _ h := h.endLog
  ready _ h := h.of_same ⟨rfl, rfl, rfl, rfl, rfl, rfl⟩
  receiver _ _ _ h := h.of_same ⟨rfl, rfl, rfl, rfl, rfl, rfl⟩
  unframed _ _ h := h.of_same ⟨by simp, by simp, by simp, by simp, by simp, by simp⟩
  deliver s n b h := by
    unfold State.deliverSample
    split
    · exact h.of_same ⟨rfl, rfl, rfl, rfl, rfl, rfl⟩
    · exact h
  forward _ n b h := h.forwardBurst n b
  output s k g shrinks h := h.updOutput k g ((shrinks _).trans (h.forward k))
  takes _ _ _ h := h.of_same ⟨rfl, rfl, rfl, rfl, rfl, rfl⟩
  fireTakes _ h := h.of_same ⟨by simp, by simp, by simp, by simp, by simp, by simp⟩
  latch s h := by
    unfold State.latchGains
    split
    · exact h.of_same ⟨rfl, rfl, rfl, rfl, rfl, rfl⟩
    · exact h
  convert _ h := h.of_same ⟨by simp, by simp, by simp, by simp, by simp, by simp⟩
  programme _ outputs p h := h.runProgramme outputs p
  assemble s h := h.mapOutputs (fun _ t =>
      { t with assembly := t.assembly ++ [s.outputFrame t.copy]
               firstTime := if t.assembly.isEmpty then s.time.houseTime else t.firstTime })
    (fun _ _ => le_rfl) (by simp only [State.assembleOutputs]) (by simp) (by simp) (by simp) (by simp) (by simp)
  period _ h := h.mapOutputs (fun _ o => o.handOver) (fun _ _ => le_rfl) rfl rfl rfl rfl rfl rfl
  servo _ h := h.of_same ⟨by simp, by simp, by simp, by simp, by simp, by simp⟩
  slices _ h := h.of_same ⟨by simp, by simp, by simp, by simp, by simp, by simp⟩
  log _ p h := h.logProgramme p
  sweep _ v h := h.sweep v

/-- Settles O56: the queues, the ring, the retire table and the tables by the induction over a step's operations, the histograms by the
induction over what is done to a programme. -/
theorem stepKeepsCapacities : Obligations.StepKeepsCapacities := by
  intro s t h next
  obtain ⟨sizes, bins⟩ := s.capacityLaw_iff.mp h
  exact t.capacityLaw_iff.mpr ⟨sizeLaw_kept.step s t sizes next, binned_programmeKept.kept.step s t bins next⟩

end Sys2Proof.Machine
end

