-- ==== Sys2Proof/Proofs/ResetLaws.lean ====
section
/-! SUPPORT. The queue (log entry 1), what POWER_ON_RESET sets (R158), and that every law holds right after reset. -/

namespace Sys2Proof.Machine

/-- Settles O1: the two cases of a step. -/
theorem stepTakesTheFrontCommand : Obligations.StepTakesTheFrontCommand := by
  intro s
  constructor
  · intro c rest front
    unfold step
    rw [front]
  · intro empty
    unfold step
    rw [empty]

/-- The policy of each kind at power-on (R120). -/
theorem KindPolicy.initial_parameter1 (k : Nat) :
    (k = 0 → (KindPolicy.initial k).parameter1 = 256) ∧ (k = 1 → (KindPolicy.initial k).parameter1 = 1) ∧
      (k = 2 ∨ k = 3 → (KindPolicy.initial k).parameter1 = 8) ∧
      (k = 4 → (KindPolicy.initial k).parameter1 = 192 ∧ (KindPolicy.initial k).parameter2 = 8192) ∧
      (4 < k → (KindPolicy.initial k).parameter1 = 0) ∧ (k ≠ 4 → (KindPolicy.initial k).parameter2 = 0) := by
  unfold KindPolicy.initial
  refine ⟨?_, ?_, ?_, ?_, fun h => ?_, fun h => ?_⟩
  · rintro rfl; rfl
  · rintro rfl; rfl
  · rintro (rfl | rfl) <;> rfl
  · rintro rfl; exact ⟨rfl, rfl⟩
  · have far : k ≠ 0 ∧ k ≠ 1 ∧ k ≠ 2 ∧ k ≠ 3 ∧ k ≠ 4 := by omega
    simp only [far, or_self, if_false]
  · simp only [h, if_false]

theorem KindPolicy.initial_severity (k : Nat) :
    (KindPolicy.initial k).severity = if k ∈ [0, 9, 13, 14, 15] then .major else .minor := by
  simp only [KindPolicy.initial, List.mem_cons, List.not_mem_nil, or_false]

/-- Settles O2: block by block, from the values that the initial contexts and tables hold. -/
theorem powerOnResetSetsPowerOnValues : Obligations.PowerOnResetSetsPowerOnValues := by
  intro straps s
  refine ⟨s.powerOn straps, rfl, fun f => ?_, fun p => ?_, ?_, ?_, ?_, fun n => ?_, fun k => ?_, fun k => ?_, fun r => ?_, ?_, ?_, ?_⟩
  · rw [s.powerOn_feeds]
    exact ⟨rfl, rfl⟩
  · rw [s.powerOn_programmes]
    exact ⟨rfl, rfl, rfl, rfl, rfl, rfl, rfl, rfl, rfl, rfl, rfl, rfl, rfl, rfl, rfl, rfl⟩
  · rw [s.powerOn_tables]
    exact ⟨Tables.initial_taps_length, Tables.initial_taps, rfl, Tables.initial_levels_length, fun j => Tables.initial_levels,
      rfl, rfl, rfl, Tables.initial_filters_length, fun i => Tables.initial_filters⟩
  · rw [s.powerOn_store]
    simp only [DelayStore.initial, and_self]
  · rw [s.powerOn_time]
    exact ⟨rfl, rfl, rfl, rfl, rfl, rfl, rfl⟩
  · rw [s.powerOn_inputs]
    exact ⟨rfl, rfl, rfl, rfl, rfl, rfl, rfl, rfl⟩
  · rw [s.powerOn_outputs]
    exact ⟨rfl, rfl, rfl, rfl, rfl, rfl, rfl, rfl, rfl, rfl⟩
  · rw [s.powerOn_alarms, AlarmUnit.initial_policy]
    obtain ⟨silence, clips, loud, phase, others, second⟩ := KindPolicy.initial_parameter1 k.val
    exact ⟨rfl, rfl, rfl, rfl, rfl, rfl, silence, clips, loud, phase, others, second, KindPolicy.initial_severity k.val⟩
  · rw [s.powerOn_alarms, AlarmUnit.initial_record]
    rfl
  · rw [s.powerOn_alarms]
    exact ⟨rfl, rfl, rfl, rfl⟩
  · rw [s.powerOn_log]
    exact ⟨rfl, rfl, rfl⟩
  · rw [s.powerOn_processor]
    refine ⟨rfl, rfl, rfl, rfl, rfl, Processor.initial_originator 0, fun n other => (Processor.initial_originator n).trans ?_⟩
    exact if_neg (Fin.val_ne_of_ne other)

theorem State.reset_programmes : AllProgrammes (· = Programme.initial) State.reset := fun p => Vector.getElem_replicate p.isLt

theorem ProgrammeKept.reset {Q : Programme → Prop} (kept : ProgrammeKept Q) : AllProgrammes Q State.reset := fun p =>
  (State.reset_programmes p).symm ▸ kept.initial

/-- The part after reset is the part after POWER_ON_RESET with all straps low. -/
theorem State.reset_powerOn : State.reset.powerOn 0 = State.reset := by
  simp only [State.powerOn, State.reset, DelayStore.initial, Processor.initial]

/-- Settles O3: the values at reset are the power-on values, for which each law holds. -/
theorem resetKeepsEveryLaw : Obligations.ResetKeepsEveryLaw := by
  have sizes : State.reset.SizeLaw := State.reset_powerOn ▸ State.SizeLaw.powerOn State.reset 0
  have pages : (State.reset.powerOn 0).PageLaw :=
    (State.pageLaw_iff _).mpr ((State.reset.powerOn_book 0).symm ▸ PageBook.law_rebuilt List.nodup_nil)
  have feeds : State.reset.FeedLaw := State.reset_powerOn ▸ State.FeedLaw.powerOn State.reset 0
  exact ⟨reset_memory_wf, State.reset.capacityLaw_iff.mpr ⟨sizes, binned_programmeKept.reset⟩, State.reset_powerOn ▸ pages,
    ringLaw_programmeKept.reset, epochLaw_programmeKept.reset, gainLaw_programmeKept.reset, feeds, State.reset_lineLaw⟩

end Sys2Proof.Machine
end

