-- ==== Sys2Proof/Proofs/Encodings.lean ====
section
/-! SUPPORT. The delay word and its parity (R47), commands as octets (R183, R184), and the bin of a power (R91). -/

namespace Sys2Proof.Machine

/-! ### Parity (R47) -/

theorem ones_ofBool_append (n : Nat) (w : BitVec n) (b : Bool) : ones (BitVec.ofBool b ++ w) = ones w + b.toNat := by
  have low : (List.range n).countP (fun i => (BitVec.ofBool b ++ w).getLsbD i) = (List.range n).countP fun i => w.getLsbD i := by
    refine List.countP_congr fun i hi => ?_
    rw [BitVec.getLsbD_append, if_pos (List.mem_range.mp hi)]
  have places : List.range (1 + n) = List.range n ++ [n] := by rw [Nat.add_comm, List.range_succ]
  unfold ones
  rw [places, List.countP_append, low, List.countP_singleton, BitVec.getLsbD_append, if_neg (Nat.lt_irrefl n),
    Nat.sub_self, BitVec.getLsbD_ofBool]
  cases b <;> rfl

/-- One place in which two strings of bits differ changes the parity of their ones. -/
theorem countP_flip {f g : Nat → Bool} {n i : Nat} (inside : i < n) (flip : g i = !f i) (same : ∀ j, j ≠ i → g j = f j) :
    ((List.range n).countP g + (List.range n).countP f) % 2 = 1 := by
  induction n with
  | zero => omega
  | succ n ih =>
    rw [List.range_succ, List.countP_append, List.countP_append, List.countP_singleton, List.countP_singleton]
    by_cases last : i = n
    · subst last
      have before : (List.range i).countP g = (List.range i).countP f :=
        List.countP_congr fun j hj => by rw [same j (Nat.ne_of_lt (List.mem_range.mp hj))]
      rw [before, flip]
      cases f i <;> simp <;> omega
    · have earlier := ih (by omega)
      rw [same n (Ne.symm last)]
      cases f n <;> simp <;> omega

theorem ones_flip {n : Nat} (w : BitVec n) {i : Nat} (h : i < n) : (ones (w ^^^ (1#n <<< i)) + ones w) % 2 = 1 := by
  have bit (j : Nat) : (1#n <<< i).getLsbD j = decide (j = i) := by
    rw [BitVec.getLsbD_shiftLeft, BitVec.getLsbD_one, Bool.eq_iff_iff]
    simp only [Bool.and_eq_true, Bool.not_eq_true', decide_eq_true_eq, decide_eq_false_iff_not]
    omega
  refine countP_flip h ?_ fun j hj => ?_
  · rw [BitVec.getLsbD_xor, bit, decide_eq_true rfl, Bool.xor_true]
  · rw [BitVec.getLsbD_xor, bit, decide_eq_false hj, Bool.xor_false]

theorem ones_packWord (x : DelayWord) : ones (packWord x) % 2 = 0 := by
  unfold packWord
  dsimp only
  rw [ones_ofBool_append]
  generalize ones _ = n
  rcases Nat.mod_two_eq_zero_or_one n with even | odd
  · simp [even]
  · simp [odd]; omega

/-- The place of every field of a delay word (R185). -/
theorem packWord_getLsbD (x : DelayWord) (i : Nat) (h : i < 31) :
    (packWord x).getLsbD i =
      if i < 24 then x.sample.getLsbD i else if i < 26 then x.epoch.getLsbD (i - 24) else if i = 26 then x.substituted else false := by
  unfold packWord
  dsimp only
  rw [BitVec.getLsbD_append, if_pos h, BitVec.getLsbD_append]
  by_cases sample : i < 24
  · rw [if_pos sample, if_pos sample]
  · rw [if_neg sample, if_neg sample, BitVec.getLsbD_append]
    by_cases epoch : i < 26
    · rw [if_pos (by omega), if_pos epoch]
    · rw [if_neg (by omega), if_neg epoch, BitVec.getLsbD_append]
      by_cases mark : i = 26
      · subst mark; simp
      · rw [if_neg (by omega), if_neg mark, BitVec.getLsbD_zero]

theorem packWord_sample (x : DelayWord) : (packWord x).extractLsb' 0 24 = x.sample := by
  refine BitVec.eq_of_getLsbD_eq fun i hi => ?_
  rw [BitVec.getLsbD_extractLsb', packWord_getLsbD x _ (by omega), Nat.zero_add, if_pos hi, decide_eq_true hi, Bool.true_and]

theorem packWord_epoch (x : DelayWord) : (packWord x).extractLsb' 24 2 = x.epoch := by
  refine BitVec.eq_of_getLsbD_eq fun i hi => ?_
  rw [BitVec.getLsbD_extractLsb', packWord_getLsbD x _ (by omega), if_neg (by omega), if_pos (by omega), decide_eq_true hi, Bool.true_and,
    Nat.add_sub_cancel_left]

theorem packWord_substituted (x : DelayWord) : (packWord x).getLsbD 26 = x.substituted := packWord_getLsbD x 26 (by decide)

theorem packWord_spare (x : DelayWord) : (packWord x).extractLsb' 27 4 = 0 := by
  refine BitVec.eq_of_getLsbD_eq fun i hi => ?_
  rw [BitVec.getLsbD_extractLsb', packWord_getLsbD x _ (by omega), if_neg (by omega), if_neg (by omega), if_neg (by omega), Bool.and_false]
  exact BitVec.getLsbD_zero.symm

/-- A word is read exactly when its ones are even (R47). -/
theorem unpackWord_even {w : Word32} (h : ones w % 2 = 0) :
    unpackWord w = some { sample := w.extractLsb' 0 24, epoch := w.extractLsb' 24 2, substituted := w.getLsbD 26 } := if_pos h

theorem unpackWord_odd {w : Word32} (h : ones w % 2 = 1) : unpackWord w = none := if_neg (by omega)

/-- What is written is read back (R47). -/
theorem unpackWord_packWord (x : DelayWord) : unpackWord (packWord x) = some x := by
  rw [unpackWord_even (ones_packWord x), packWord_sample, packWord_epoch, packWord_substituted]

/-- Settles O6: the fields by their places, and the parity of a word with one bit changed. -/
theorem delayWordsHoldTheirFields : Obligations.DelayWordsHoldTheirFields := by
  refine ⟨fun x => ⟨packWord_sample x, packWord_epoch x, packWord_substituted x, packWord_spare x, ones_packWord x⟩,
    fun w => ⟨unpackWord_even, unpackWord_odd⟩, fun x i h => unpackWord_odd ?_⟩
  have flipped := ones_flip (packWord x) h
  have even := ones_packWord x
  omega

/-! ### Commands (R183, R184) -/

theorem positionCodes_octets (l : List PositionCode) : positionCodes (l.flatMap positionCodeOctets) = some l := by
  induction l with
  | nil => rfl
  | cons p l ih =>
    change (positionCodes (l.flatMap positionCodeOctets)).map _ = _
    rw [ih, Option.map_some]

theorem positionCodeOctets_length (p : PositionCode) : (positionCodeOctets p).length = 4 := rfl

/-- A command that fits is read back from its octets (R184). -/
theorem decode_encode (c : Command) (fits : c.fits = true) :
    decodeCommand (encodeCommand c).code (encodeCommand c).form (encodeCommand c).params = .ok c := by
  have word (w : Word32) := field4_extract w
  have half (x : BitVec 16) := field2_extract x
  cases c with
  | set t o f v => exact congrArg (fun v => Except.ok (Command.set t o f v)) (word v)
  | groupSet m f v => exact congrArg₂ (fun m v => Except.ok (Command.groupSet m f v)) (half m) (word v)
  | read g o a n => exact congrArg₂ (fun a n => Except.ok (Command.read g o a n)) (half a) (half n)
  | load t a codes =>
    have whole : wholeCodes t codes = true := (Bool.and_eq_true_iff.mp fits).1
    change withLength (if wholeCodes t codes then some (Command.load t (field2 _ _) codes) else none) = _
    rw [if_pos whole, half]
    rfl
  | take p i t r l =>
    have few : l.length ≤ 62 := of_decide_eq_true fits
    have count : (l.flatMap positionCodeOctets).length = 4 * (BitVec.ofNat 8 l.length).toNat := by
      rw [length_flatMap_const positionCodeOctets_length, BitVec.toNat_ofNat]
      omega
    change withLength (if (l.flatMap positionCodeOctets).length = 4 * (BitVec.ofNat 8 l.length).toNat then
      (positionCodes (l.flatMap positionCodeOctets)).map (Command.take p i (field4 _ _ _ _) r) else none) = _
    rw [if_pos count, positionCodes_octets, word]
    rfl
  | takeCancel c =>
    cases c with
    | single p => rfl
    | group m => exact congrArg (fun m => Except.ok (Command.takeCancel (.group m))) (half m)
  | allocate p n => exact congrArg (fun n => Except.ok (Command.allocate p n)) (word n)
  | release p => rfl
  | retire n => exact congrArg (fun n => Except.ok (Command.retire n)) (half n)
  | restore n => exact congrArg (fun n => Except.ok (Command.restore n)) (half n)
  | readFault => rfl
  | timeSet v => exact congrArg (fun v => Except.ok (Command.timeSet v)) (word v)
  | timeAdjust v => exact congrArg (fun v => Except.ok (Command.timeAdjust v)) (word v)
  | restartMeasurement c =>
    cases c with
    | single p => rfl
    | group m => exact congrArg (fun m => Except.ok (Command.restartMeasurement (.group m))) (half m)
  | acknowledge c =>
    cases c with
    | single n => exact congrArg (fun n => Except.ok (Command.acknowledge (.single n))) (half n)
    | group k m => exact congrArg (fun m => Except.ok (Command.acknowledge (.group k m))) (half m)
  | releaseHold p c => rfl
  | logRead m n f => exact congrArg (fun n => Except.ok (Command.logRead m n f)) (half n)
  | logCancel => rfl
  | logStatus => rfl
  | status => rfl
  | restart => rfl

/-- The parameters of a command that fits number at most 256 octets (R151). -/
theorem encode_length (c : Command) (fits : c.fits = true) : (encodeCommand c).params.length ≤ 256 := by
  cases c with
  | load t a codes =>
    have few : codes.length ≤ 253 := of_decide_eq_true (Bool.and_eq_true_iff.mp fits).2
    change (([t] ++ octets16 a) ++ codes).length ≤ 256
    rw [List.length_append]
    exact (Nat.add_le_add_left few 3)
  | take p i t r l =>
    have few : l.length ≤ 62 := of_decide_eq_true fits
    change (([p, i] ++ wordOctets t ++ [r, BitVec.ofNat 8 l.length]) ++ l.flatMap positionCodeOctets).length ≤ 256
    rw [List.length_append, length_flatMap_const positionCodeOctets_length]
    change 8 + l.length * 4 ≤ 256
    omega
  | set | groupSet | read | allocate | release | retire | restore | readFault | timeSet | timeAdjust | releaseHold | logRead | logCancel
  | logStatus | status | restart => exact Nat.le_of_ble_eq_true rfl
  | takeCancel c | restartMeasurement c | acknowledge c => cases c <;> exact Nat.le_of_ble_eq_true rfl

/-- Settles O4. -/
theorem commandsDecodeAsEncoded : Obligations.CommandsDecodeAsEncoded := fun c fits => ⟨encode_length c fits, decode_encode c fits⟩

/-! ### The bin of a power (R91) -/

/-- A last entry that qualifies is the bin. -/
theorem bin_concat (levels : List LevelEntry) (e : LevelEntry) (power : Nat) :
    bin (levels ++ [e]) power = if e.threshold.toNat ≤ power then some levels.length else bin levels power := by
  unfold bin
  rw [List.zipIdx_append, List.filter_append, Nat.zero_add, List.zipIdx_cons, List.zipIdx_nil]
  by_cases qualifies : e.threshold.toNat ≤ power
  · simp [qualifies]
  · simp [qualifies]

theorem bin_eq_none (levels : List LevelEntry) (power : Nat) : bin levels power = none ↔ ∀ e ∈ levels, power < e.threshold.toNat := by
  induction levels using List.reverseRecOn with
  | nil => exact iff_of_true rfl nofun
  | append_singleton levels e ih =>
    rw [bin_concat]
    split
    · exact iff_of_false nofun fun h => absurd (h e (List.mem_append_right _ List.mem_cons_self)) (by omega)
    · simp only [ih, List.mem_append, List.mem_singleton, or_imp, forall_and, forall_eq]
      constructor
      · intro h; exact ⟨h, by omega⟩
      · intro h; exact h.1

/-- The bin is the largest index that qualifies (R91). -/
theorem bin_eq_some (levels : List LevelEntry) (power j : Nat) :
    bin levels power = some j ↔
      (∃ e, levels[j]? = some e ∧ e.threshold.toNat ≤ power) ∧
        ∀ (k : Nat) e, j < k → levels[k]? = some e → power < e.threshold.toNat := by
  induction levels using List.reverseRecOn with
  | nil => exact iff_of_false nofun fun h => by simp at h
  | append_singleton levels e ih =>
    have last : (levels ++ [e])[levels.length]? = some e := List.getElem?_concat_length
    have before {k : Nat} (h : k < levels.length) : (levels ++ [e])[k]? = levels[k]? := List.getElem?_append_left h
    have inside {k : Nat} {x : LevelEntry} (h : (levels ++ [e])[k]? = some x) : k < levels.length ∨ k = levels.length ∧ e = x := by
      have := List.getElem?_eq_some_iff.mp h
      obtain ⟨bound, value⟩ := this
      rw [List.length_append, List.length_singleton] at bound
      by_cases first : k < levels.length
      · exact .inl first
      · have : k = levels.length := by omega
        subst this
        rw [last] at h
        exact .inr ⟨rfl, Option.some.inj h⟩
    rw [bin_concat]
    split
    · rename_i qualifies
      constructor
      · intro h
        cases h
        refine ⟨⟨e, last, qualifies⟩, fun k x beyond here => ?_⟩
        have := inside here
        omega
      · rintro ⟨⟨x, here, _⟩, beyond⟩
        rcases inside here with first | ⟨rfl, -⟩
        · exact absurd (beyond levels.length e first last) (by omega)
        · rfl
    · rename_i exceeds
      rw [ih]
      constructor
      · rintro ⟨⟨x, here, small⟩, beyond⟩
        obtain ⟨bound, -⟩ := List.getElem?_eq_some_iff.mp here
        refine ⟨⟨x, (before bound).trans here, small⟩, fun k y after there => ?_⟩
        rcases inside there with first | ⟨rfl, rfl⟩
        · exact beyond k y after (before first ▸ there)
        · omega
      · rintro ⟨⟨x, here, small⟩, beyond⟩
        rcases inside here with first | ⟨rfl, rfl⟩
        · refine ⟨⟨x, before first ▸ here, small⟩, fun k y after there => beyond k y after ?_⟩
          obtain ⟨bound, -⟩ := List.getElem?_eq_some_iff.mp there
          exact (before bound).trans there
        · exact absurd small exceeds

/-- Settles O18: by induction on the table from its end. -/
theorem binIsTheLargestQualifyingIndex : Obligations.BinIsTheLargestQualifyingIndex := fun levels power =>
  ⟨bin_eq_some levels power, bin_eq_none levels power⟩

end Sys2Proof.Machine
end

