-- ==== Sys2Proof/Proofs/BurstOctets.lean ====
section
/-! SUPPORT. The octets of a burst and their judgement (R151, R183). -/

namespace Sys2Proof.Machine

/-! ### Samples and frames from octets -/

theorem samplesOf_length (bs : List Byte) : (samplesOf bs).length = bs.length / 3 := by
  induction bs using samplesOf.induct with
  | case1 a b c rest ih => simp only [samplesOf, List.length_cons, ih]; omega
  | case2 bs short =>
    unfold samplesOf
    split
    · exact absurd rfl (short _ _ _ _)
    · rename_i few
      match bs, few with
      | [], _ => rfl
      | [_], _ => simp
      | [_, _], _ => simp
      | a :: b :: c :: rest, few => exact absurd rfl (few a b c rest)

/-- Sample `i` is read from its three octets (R183). -/
theorem samplesOf_getD (bs : List Byte) (i : Nat) (h : 3 * i + 2 < bs.length) :
    (samplesOf bs).getD i 0 = bs.getD (3 * i) 0 ++ bs.getD (3 * i + 1) 0 ++ bs.getD (3 * i + 2) 0 := by
  induction bs using samplesOf.induct generalizing i with
  | case1 a b c rest ih =>
    cases i with
    | zero => rfl
    | succ i =>
      have place : 3 * (i + 1) = 3 * i + 1 + 1 + 1 := by omega
      simp only [List.length_cons] at h
      rw [samplesOf, place]
      exact ih i (by omega)
  | case2 bs short =>
    match bs, short, h with
    | [], _, h => exact absurd h (by simp)
    | [_], _, h => exact absurd h (by simp)
    | [_, _], _, h => exact absurd h (by simp)
    | a :: b :: c :: rest, short, _ => exact absurd rfl (short a b c rest)

theorem framesOf_length (count width : Nat) (xs : List Sample) : (framesOf count width xs).length = count := by
  induction count generalizing xs with
  | zero => rfl
  | succ n ih => rw [framesOf, List.length_cons, ih]

theorem framesOf_getD (count width : Nat) (xs : List Sample) (i : Nat) (h : i < count) :
    (framesOf count width xs).getD i [] = (xs.drop (i * width)).take width := by
  induction count generalizing xs i with
  | zero => omega
  | succ n ih =>
    cases i with
    | zero => rw [Nat.zero_mul, List.drop_zero]; rfl
    | succ i =>
      change (framesOf n width (xs.drop width)).getD i [] = _
      rw [ih _ i (by omega), List.drop_drop, Nat.succ_mul, Nat.add_comm]

theorem framesOf_width (count width : Nat) (xs : List Sample) (enough : count * width ≤ xs.length) :
    ∀ frame ∈ framesOf count width xs, frame.length = width := by
  induction count generalizing xs with
  | zero => nofun
  | succ n ih =>
    rw [Nat.succ_mul] at enough
    intro frame member
    rcases List.mem_cons.mp member with rfl | member
    · rw [List.length_take]; omega
    · exact ih (xs.drop width) (by rw [List.length_drop]; omega) frame member

/-- Sample `j` of frame `i` (R183). -/
theorem framesOf_sample {count width : Nat} {xs : List Sample} {i j : Nat} (row : i < count) (column : j < width) :
    ((framesOf count width xs).getD i []).getD j 0 = xs.getD (i * width + j) 0 := by
  rw [framesOf_getD _ _ _ _ row, List.getD_eq_getElem?_getD, List.getElem?_take, if_pos column, List.getElem?_drop,
    List.getD_eq_getElem?_getD]

/-! ### The judgement by header, body and check word (R151) -/

/-- A header of twelve octets, a body and two octets of check word are judged by the length, the check word and the points of the kind. -/
theorem judgeBurst_parts (header body tail : List Byte) (head : header.length = 12) (two : tail.length = 2) :
    judgeBurst (header ++ body ++ tail) =
      if numberOf ((header.drop 1).take 2) = body.length ∧ octets16 (checkWord (header ++ body)) = tail then
        (burstOf header body).filter burstGood
      else none := by
  have content : (header ++ body ++ tail).take ((header ++ body ++ tail).length - 2) = header ++ body :=
    List.take_left' (by simp only [List.length_append]; omega)
  have check : (header ++ body ++ tail).drop ((header ++ body ++ tail).length - 2) = tail :=
    List.drop_left' (by simp only [List.length_append]; omega)
  have enough : ¬ (header ++ body ++ tail).length < 14 := by simp only [List.length_append]; omega
  unfold judgeBurst
  dsimp only
  rw [if_neg enough, content, check, List.take_left' head, List.drop_left' head]
  by_cases counted : numberOf ((header.drop 1).take 2) = body.length
  · rw [if_neg (not_not.mpr counted)]
    by_cases checked : octets16 (checkWord (header ++ body)) = tail
    · rw [if_neg (not_not.mpr checked), if_pos ⟨counted, checked⟩]
      cases burstOf header body with
      | none => rfl
      | some b => rfl
    · rw [if_pos checked, if_neg fun h => checked h.2]
  · rw [if_pos counted, if_neg fun h => counted h.1]

theorem burstOf_sample (l1 l2 h3 h4 h5 h6 h7 h8 h9 h10 h11 : Byte) (body : List Byte) (whole : body.length = h4.toNat * h5.toNat * 3) :
    burstOf [1, l1, l2, h3, h4, h5, h6, h7, h8, h9, h10, h11] body =
      some (.sample
        { stream := h3, channels := h5.toNat, frames := framesOf h4.toNat h5.toNat (samplesOf body)
          capture := if h6.getLsbD 0 then some (field4 h7 h8 h9 h10) else none }) := by
  change (if body.length = _ then _ else _) = _
  rw [if_pos whole]

theorem burstOf_control (l1 l2 h3 h4 h5 h6 h7 h8 h9 h10 h11 : Byte) (body : List Byte) :
    burstOf [2, l1, l2, h3, h4, h5, h6, h7, h8, h9, h10, h11] body =
      some (.control
        { destination := h3, originator := h4, tag := h5, code := h6, form := h7, spare := [h8, h9, h10, h11], params := body }) := rfl

theorem burstOf_report (l1 l2 h3 h4 h5 h6 h7 h8 h9 h10 h11 : Byte) (body : List Byte) :
    burstOf [3, l1, l2, h3, h4, h5, h6, h7, h8, h9, h10, h11] body =
      some (.report { station := h3, reportType := h4, digest := h5, spare := [h6, h7, h8, h9, h10, h11], body := body }) := rfl

/-! ### What is sent is judged good -/

/-- The octets of a burst whose header of twelve octets gives the length of its body. -/
theorem judgeBurst_octets {b : Burst} (kind : Byte) (rest body : List Byte) (nine : rest.length = 9) (small : body.length ≤ 4608)
    (content : burstContent b = headerStart kind body.length ++ rest ++ body)
    (read : burstOf (headerStart kind body.length ++ rest) body = some b) (good : burstGood b = true) :
    judgeBurst (burstOctets b) = some b := by
  have head : (headerStart kind body.length ++ rest).length = 12 := by
    rw [List.length_append, nine, headerStart, List.length_cons, octetsOf_length]
  have number : numberOf (((headerStart kind body.length ++ rest).drop 1).take 2) = body.length := by
    change numberOf ((octetsOf 2 body.length ++ rest).take 2) = _
    rw [List.take_left' (octetsOf_length ..), numberOf_octetsOf _ _ (by omega)]
  rw [burstOctets, content, judgeBurst_parts _ _ _ head rfl, if_pos ⟨number, rfl⟩, read, Option.filter_some, if_pos good]

theorem sampleBody_length {frames : List (List Sample)} {width : Nat} (h : ∀ f ∈ frames, f.length = width) :
    (frames.flatMap fun frame => frame.flatMap sampleOctets).length = frames.length * width * 3 := by
  induction frames with
  | nil => rw [List.flatMap_nil, List.length_nil, List.length_nil, Nat.zero_mul, Nat.zero_mul]
  | cons f fs ih =>
    rw [List.flatMap_cons, List.length_append, length_flatMap_const (n := 3) (fun _ => rfl), h f List.mem_cons_self,
      ih fun g hg => h g (List.mem_cons_of_mem _ hg), List.length_cons, Nat.succ_mul, Nat.add_mul, Nat.add_comm]

theorem sampleBody_samples (frames : List (List Sample)) :
    samplesOf (frames.flatMap fun frame => frame.flatMap sampleOctets) = frames.flatten := by
  rw [← List.flatMap_assoc, List.flatMap_id', sampleOctets_samples]

theorem judgeBurst_burstOctets (b : Burst) (good : burstGood b = true) : judgeBurst (burstOctets b) = some b := by
  cases b with
  | sample b =>
    have points := good
    simp only [burstGood, sampleGood, Bool.and_eq_true, decide_eq_true_eq, List.all_eq_true, beq_iff_eq] at points
    obtain ⟨⟨⟨⟨⟨⟨_, frames⟩, _⟩, channels⟩, _⟩, width⟩, size⟩ := points
    have count : (BitVec.ofNat 8 b.frames.length).toNat = b.frames.length := by rw [BitVec.toNat_ofNat]; omega
    have columns : (BitVec.ofNat 8 b.channels).toNat = b.channels := by rw [BitVec.toNat_ofNat]; omega
    have body := sampleBody_length width
    have whole : (b.frames.flatMap fun frame => frame.flatMap sampleOctets).length =
        (BitVec.ofNat 8 b.frames.length).toNat * (BitVec.ofNat 8 b.channels).toNat * 3 := by rw [body, count, columns]
    have read (flag c1 c2 c3 c4 l1 l2 : Byte) (capture : (if flag.getLsbD 0 then some (field4 c1 c2 c3 c4) else none) = b.capture) :
        burstOf [1, l1, l2, b.stream, BitVec.ofNat 8 b.frames.length, BitVec.ofNat 8 b.channels, flag, c1, c2, c3, c4, 0]
          (b.frames.flatMap fun frame => frame.flatMap sampleOctets) = some (.sample b) := by
      rw [burstOf_sample _ _ _ _ _ _ _ _ _ _ _ _ whole, capture, count, columns, sampleBody_samples, framesOf_flatten _ _ width]
    cases captured : b.capture with
    | none =>
      refine judgeBurst_octets 1 [b.stream, BitVec.ofNat 8 b.frames.length, BitVec.ofNat 8 b.channels, 0, 0, 0, 0, 0, 0] _ rfl
        (body ▸ size) ?_ (read 0 0 0 0 0 _ _ captured.symm) good
      simp only [burstContent, captured, List.append_assoc]
      rfl
    | some t =>
      refine judgeBurst_octets 1 ([b.stream, BitVec.ofNat 8 b.frames.length, BitVec.ofNat 8 b.channels, 1] ++ wordOctets t ++ [0]) _ rfl
        (body ▸ size) ?_ (read 1 _ _ _ _ _ _ ?_) good
      · simp only [burstContent, captured, List.append_assoc]
        rfl
      · rw [captured, field4_extract]; rfl
  | control b =>
    have points := good
    simp only [burstGood, controlGood, Bool.and_eq_true, decide_eq_true_eq, beq_iff_eq] at points
    obtain ⟨small, four⟩ := points
    obtain ⟨s0, s1, s2, s3, spare⟩ : ∃ s0 s1 s2 s3, b.spare = [s0, s1, s2, s3] := by
      match e : b.spare, four with
      | [s0, s1, s2, s3], _ => exact ⟨s0, s1, s2, s3, rfl⟩
    refine judgeBurst_octets 2 ([b.destination, b.originator, b.tag, b.code, b.form] ++ b.spare) b.params (by rw [List.length_append, four]; rfl)
      (by omega) (by simp only [burstContent, List.append_assoc]) ?_ good
    rw [spare]
    refine (burstOf_control ..).trans ?_
    rw [← spare]
  | report b =>
    have points := good
    simp only [burstGood, reportGood, Bool.and_eq_true, decide_eq_true_eq, beq_iff_eq] at points
    obtain ⟨small, six⟩ := points
    obtain ⟨s0, s1, s2, s3, s4, s5, spare⟩ : ∃ s0 s1 s2 s3 s4 s5, b.spare = [s0, s1, s2, s3, s4, s5] := by
      match e : b.spare, six with
      | [s0, s1, s2, s3, s4, s5], _ => exact ⟨s0, s1, s2, s3, s4, s5, rfl⟩
    refine judgeBurst_octets 3 ([b.station, b.reportType, b.digest] ++ b.spare) b.body (by rw [List.length_append, six]; rfl)
      (by omega) (by simp only [burstContent, List.append_assoc]) ?_ good
    rw [spare]
    refine (burstOf_report ..).trans ?_
    rw [← spare]

/-! ### Every way octets can be read -/

theorem exists_lastTwo {α : Type} (as : List α) (h : 2 ≤ as.length) : ∃ front y z, as = front ++ [y, z] := by
  obtain rfl | ⟨bs, z, rfl⟩ := List.eq_nil_or_concat' as
  · exact absurd h (by simp)
  · obtain rfl | ⟨cs, y, rfl⟩ := List.eq_nil_or_concat' bs
    · exact absurd h (by simp)
    · exact ⟨cs, y, z, by rw [List.append_assoc]; rfl⟩

theorem exists_burstParts (octets : List Byte) (h : 14 ≤ octets.length) :
    ∃ k l1 l2 h3 h4 h5 h6 h7 h8 h9 h10 h11 : Byte, ∃ body : List Byte, ∃ t0 t1 : Byte,
      octets = [k, l1, l2, h3, h4, h5, h6, h7, h8, h9, h10, h11] ++ body ++ [t0, t1] := by
  match octets, h with
  | k :: l1 :: l2 :: h3 :: h4 :: h5 :: h6 :: h7 :: h8 :: h9 :: h10 :: h11 :: x :: y :: rest, _ =>
    obtain ⟨body, t0, t1, e⟩ := exists_lastTwo (x :: y :: rest) (Nat.le_add_left ..)
    exact ⟨k, l1, l2, h3, h4, h5, h6, h7, h8, h9, h10, h11, body, t0, t1, by rw [e]; rfl⟩

section Parts

variable (k l1 l2 h3 h4 h5 h6 h7 h8 h9 h10 h11 : Byte) (body : List Byte)

/-- What a header and a body can be read as (R183). -/
theorem burstOf_eq_some (b : Burst) (read : burstOf [k, l1, l2, h3, h4, h5, h6, h7, h8, h9, h10, h11] body = some b) :
    (k = 1 ∧ body.length = h4.toNat * h5.toNat * 3 ∧
      b = .sample
        { stream := h3, channels := h5.toNat, frames := framesOf h4.toNat h5.toNat (samplesOf body)
          capture := if h6.getLsbD 0 then some (field4 h7 h8 h9 h10) else none }) ∨
    (k = 2 ∧ b = .control
      { destination := h3, originator := h4, tag := h5, code := h6, form := h7, spare := [h8, h9, h10, h11], params := body }) ∨
    (k = 3 ∧ b = .report { station := h3, reportType := h4, digest := h5, spare := [h6, h7, h8, h9, h10, h11], body := body }) := by
  unfold burstOf at read
  dsimp only at read
  split at read
  · split at read
    · exact .inl ⟨‹_›, ‹_›, (Option.some.inj read).symm⟩
    · cases read
  · split at read
    · exact .inr (.inl ⟨‹_›, (Option.some.inj read).symm⟩)
    · split at read
      · exact .inr (.inr ⟨‹_›, (Option.some.inj read).symm⟩)
      · cases read

/-- When a header and a body are read as a good burst (R151). -/
theorem burstOf_good_iff :
    (∃ b, (burstOf [k, l1, l2, h3, h4, h5, h6, h7, h8, h9, h10, h11] body).filter burstGood = some b) ↔
      body.length ≤ 4608 ∧
      ((k.toNat = 1 ∧ 1 ≤ h4.toNat ∧ h4.toNat ≤ 64 ∧ 1 ≤ h5.toNat ∧ h5.toNat ≤ 32 ∧ h3.toNat ≤ 7 ∧
          body.length = h4.toNat * h5.toNat * 3) ∨
        (k.toNat = 2 ∧ body.length ≤ 256) ∨ k.toNat = 3) := by
  constructor
  · rintro ⟨b, judged⟩
    obtain ⟨read, good⟩ := Option.filter_eq_some_iff.mp judged
    rcases burstOf_eq_some _ _ _ _ _ _ _ _ _ _ _ _ _ _ read with ⟨rfl, whole, rfl⟩ | ⟨rfl, rfl⟩ | ⟨rfl, rfl⟩
    · simp only [burstGood, sampleGood, framesOf_length, Bool.and_eq_true, decide_eq_true_eq] at good
      obtain ⟨⟨⟨⟨⟨⟨some, frames⟩, wide⟩, channels⟩, stream⟩, _⟩, size⟩ := good
      exact ⟨whole.trans_le size, .inl ⟨rfl, some, frames, wide, channels, stream, whole⟩⟩
    · simp only [burstGood, controlGood, Bool.and_eq_true, decide_eq_true_eq] at good
      exact ⟨good.1.trans (by decide), .inr (.inl ⟨rfl, good.1⟩)⟩
    · simp only [burstGood, reportGood, Bool.and_eq_true, decide_eq_true_eq] at good
      exact ⟨good.1, .inr (.inr rfl)⟩
  · rintro ⟨size, ⟨one, some, frames, wide, channels, stream, whole⟩ | ⟨two, small⟩ | three⟩
    · obtain rfl : k = 1 := BitVec.eq_of_toNat_eq one
      refine ⟨_, Option.filter_eq_some_iff.mpr ⟨burstOf_sample l1 l2 h3 h4 h5 h6 h7 h8 h9 h10 h11 body whole, ?_⟩⟩
      have widths := framesOf_width h4.toNat h5.toNat (samplesOf body) (by rw [samplesOf_length]; omega)
      change sampleGood _ = true
      simp only [sampleGood, framesOf_length, Bool.and_eq_true, decide_eq_true_eq, List.all_eq_true, beq_iff_eq]
      exact ⟨⟨⟨⟨⟨⟨some, frames⟩, wide⟩, channels⟩, stream⟩, widths⟩, whole ▸ size⟩
    · obtain rfl : k = 2 := BitVec.eq_of_toNat_eq two
      refine ⟨_, Option.filter_eq_some_iff.mpr ⟨burstOf_control .., ?_⟩⟩
      exact Bool.and_eq_true_iff.mpr ⟨decide_eq_true small, rfl⟩
    · obtain rfl : k = 3 := BitVec.eq_of_toNat_eq three
      refine ⟨_, Option.filter_eq_some_iff.mpr ⟨burstOf_report .., ?_⟩⟩
      exact Bool.and_eq_true_iff.mpr ⟨decide_eq_true size, rfl⟩

theorem numberOf_pair (a b : Byte) : numberOf [a, b] = 256 * a.toNat + b.toNat := by
  simp only [numberOf, List.foldl_cons, List.foldl_nil, Nat.mul_zero, Nat.zero_add]

/-- The judgement of octets taken apart. -/
theorem judgeBurst_explicit (t0 t1 : Byte) :
    judgeBurst ([k, l1, l2, h3, h4, h5, h6, h7, h8, h9, h10, h11] ++ body ++ [t0, t1]) =
      if 256 * l1.toNat + l2.toNat = body.length ∧
          octets16 (checkWord ([k, l1, l2, h3, h4, h5, h6, h7, h8, h9, h10, h11] ++ body)) = [t0, t1] then
        (burstOf [k, l1, l2, h3, h4, h5, h6, h7, h8, h9, h10, h11] body).filter burstGood
      else none := by
  have number : numberOf (([k, l1, l2, h3, h4, h5, h6, h7, h8, h9, h10, h11].drop 1).take 2) = 256 * l1.toNat + l2.toNat :=
    numberOf_pair l1 l2
  rw [judgeBurst_parts _ _ _ rfl rfl]
  simp only [number]

/-- What octets judged good are read as. -/
theorem judgeBurst_reads {t0 t1 : Byte} {b : Burst}
    (good : judgeBurst ([k, l1, l2, h3, h4, h5, h6, h7, h8, h9, h10, h11] ++ body ++ [t0, t1]) = some b) :
    burstOf [k, l1, l2, h3, h4, h5, h6, h7, h8, h9, h10, h11] body = some b := by
  rw [judgeBurst_explicit] at good
  split at good
  · exact (Option.filter_eq_some_iff.mp good).1
  · cases good

end Parts

theorem judgeBurst_short {octets : List Byte} (h : octets.length < 14) : judgeBurst octets = none := if_pos h

/-- Settles O5: octets are taken apart into header, body and check word, and the header's kind says how they are read. -/
theorem goodBurstsAreJudgedGood : Obligations.GoodBurstsAreJudgedGood := by
  refine ⟨judgeBurst_burstOctets, fun octets => ?_⟩
  by_cases short : octets.length < 14
  · have bad := judgeBurst_short short
    dsimp only
    rw [bad]
    refine ⟨iff_of_false nofun fun h => absurd h.1 (by omega), nofun, nofun, nofun⟩
  obtain ⟨k, l1, l2, h3, h4, h5, h6, h7, h8, h9, h10, h11, body, t0, t1, rfl⟩ := exists_burstParts octets (by omega)
  have size : ([k, l1, l2, h3, h4, h5, h6, h7, h8, h9, h10, h11] ++ body ++ [t0, t1]).length = body.length + 14 := by
    simp only [List.length_append, List.length_cons, List.length_nil]; omega
  have before : body.length + 14 - 2 = ([k, l1, l2, h3, h4, h5, h6, h7, h8, h9, h10, h11] ++ body).length := by
    simp only [List.length_append, List.length_cons, List.length_nil]; omega
  intro n octet number length content
  have count : n = body.length + 14 := size
  have head : content = [k, l1, l2, h3, h4, h5, h6, h7, h8, h9, h10, h11] ++ body := List.take_left' (by rw [count, before])
  have check : ([k, l1, l2, h3, h4, h5, h6, h7, h8, h9, h10, h11] ++ body ++ [t0, t1]).drop (n - 2) = [t0, t1] :=
    List.drop_left' (by rw [count, before])
  have params : content.drop 12 = body := by rw [head]; rfl
  have announced : length = 256 * l1.toNat + l2.toNat := rfl
  refine ⟨?_, fun b good => ?_, fun b good => ?_, fun b good => ?_⟩
  · rw [judgeBurst_explicit, check, head, count, announced]
    have kinds := burstOf_good_iff k l1 l2 h3 h4 h5 h6 h7 h8 h9 h10 h11 body
    change _ ↔ _ ∧ _ ∧ _ ∧ _ ∧ ((k.toNat = 1 ∧ 1 ≤ h4.toNat ∧ h4.toNat ≤ 64 ∧ 1 ≤ h5.toNat ∧ h5.toNat ≤ 32 ∧ h3.toNat ≤ 7 ∧
      256 * l1.toNat + l2.toNat = h4.toNat * h5.toNat * 3) ∨ (k.toNat = 2 ∧ _) ∨ k.toNat = 3)
    have body14 : body.length + 14 - 14 = body.length := Nat.add_sub_cancel ..
    rw [body14]
    split
    · rename_i judged
      rw [kinds, judged.1]
      exact ⟨fun h => ⟨by omega, rfl, h.1, judged.2.symm, h.2⟩, fun h => ⟨h.2.2.1, h.2.2.2.2⟩⟩
    · rename_i refused
      exact iff_of_false nofun fun h => refused ⟨h.2.1, h.2.2.2.1.symm⟩
  · rcases burstOf_eq_some _ _ _ _ _ _ _ _ _ _ _ _ _ _ (judgeBurst_reads _ _ _ _ _ _ _ _ _ _ _ _ _ good) with
      ⟨rfl, whole, same⟩ | ⟨_, other⟩ | ⟨_, other⟩
    · cases same
      refine ⟨rfl, rfl, framesOf_length .., rfl, rfl, framesOf_width _ _ _ (by rw [samplesOf_length]; omega),
        fun i j (row : i < h4.toNat) (column : j < h5.toNat) => ?_⟩
      have place (x : Nat) (h : x < body.length) : octet (12 + x) = body.getD x 0 := by
        rw [Nat.add_comm]
        exact (List.getD_append _ _ _ (x + 12) (Nat.lt_of_lt_of_eq (Nat.add_lt_add_right h 12) rfl)).trans rfl
      have inside : 3 * (i * h5.toNat + j) + 2 < body.length := by
        have := Nat.mul_le_mul_right h5.toNat (Nat.succ_le_of_lt row)
        rw [Nat.succ_mul] at this
        omega
      change ((framesOf h4.toNat h5.toNat (samplesOf body)).getD i []).getD j 0 =
        octet (12 + 3 * (i * h5.toNat + j)) ++ octet (12 + 3 * (i * h5.toNat + j) + 1) ++ octet (12 + 3 * (i * h5.toNat + j) + 2)
      rw [framesOf_sample row column, samplesOf_getD _ _ inside, Nat.add_assoc 12, Nat.add_assoc 12, place _ (by omega), place _ (by omega),
        place _ (by omega)]
    · cases other
    · cases other
  · rcases burstOf_eq_some _ _ _ _ _ _ _ _ _ _ _ _ _ _ (judgeBurst_reads _ _ _ _ _ _ _ _ _ _ _ _ _ good) with
      ⟨_, _, other⟩ | ⟨rfl, same⟩ | ⟨_, other⟩
    · cases other
    · cases same
      rw [params]
      exact ⟨rfl, rfl⟩
    · cases other
  · rcases burstOf_eq_some _ _ _ _ _ _ _ _ _ _ _ _ _ _ (judgeBurst_reads _ _ _ _ _ _ _ _ _ _ _ _ _ good) with
      ⟨_, _, other⟩ | ⟨_, other⟩ | ⟨rfl, same⟩
    · cases other
    · cases other
    · cases same
      rw [params]
      exact ⟨rfl, rfl⟩

end Sys2Proof.Machine
end

