-- ==== Sys2Proof/Proofs/Answers.lean ====
section
/-! SUPPORT. A management row sent to the idle command processor is its command judged, its REPLY, and the reports it causes (R167, R168). -/

namespace Sys2Proof.Machine

/-! ### The row is its command -/

theorem exec_management {i : Instr} {sender : Sender} {c : Command} (row : i.management = some (sender, c)) (s : State) :
    exec i s = .next (s.submit sender c) := by
  cases i <;> first | (cases row; rfl) | cases row

/-- The answer to the command of an idle processor. -/
def State.answered (s : State) (sender : Sender) (c : Command) : State :=
  (judge sender.originator c s).answer (s.commandBurst sender (encodeCommand c))

theorem exec_idle {i : Instr} {sender : Sender} {c : Command} {s : State} (row : i.management = some (sender, c)) (fits : c.fits = true)
    (idle : s.Idle) : exec i s = .next (s.answered sender c) := by
  have decoded : judgeBurstCommand (s.commandBurst sender (encodeCommand c)) s = judge sender.originator c s := by
    have decode : decodeCommand (s.commandBurst sender (encodeCommand c)).code (s.commandBurst sender (encodeCommand c)).form
        (s.commandBurst sender (encodeCommand c)).params = .ok c := decode_encode c fits
    rw [judgeBurstCommand, decode]
    rfl
  rw [exec_management row, State.submit, State.intake_idle idle, State.takeCommand, decoded]
  rfl

/-- The REPLY's state, before the reports that the command causes. -/
theorem State.answered_eq (s : State) (sender : Sender) (c : Command) :
    s.answered sender c =
      (judge sender.originator c s).after.foldl (fun t d => d.run t)
        ((judge sender.originator c s).state.replied sender (encodeCommand c).code (encodeCommand c).form
          (judge sender.originator c s).result (judge sender.originator c s).items) := rfl

/-- A command that causes no report is answered by its REPLY alone. -/
theorem exec_plain {i : Instr} {sender : Sender} {c : Command} {s u : State} {result : CommandResult} {items : List Byte}
    (row : i.management = some (sender, c)) (fits : c.fits = true) (idle : s.Idle)
    (judged : judge sender.originator c s = { state := u, result := result, items := items, after := [] }) :
    exec i s = .next (u.replied sender (encodeCommand c).code (encodeCommand c).form result items) := by
  rw [exec_idle row fits idle, State.answered_eq, judged]
  rfl

/-! ### The reports a command causes -/

/-- From `s` to `t` reports that are no REPLYs entered the report queue, and the command queue, the memory and house time stayed. -/
structure Told (s t : State) : Prop where
  reports   : ∃ caused : List Report, t.processor.reports = s.processor.reports ++ caused ∧ ∀ r ∈ caused, r.isReply = false
  commands  : t.processor.commands = s.processor.commands
  pending   : t.pending = s.pending
  memory    : t.store.memory = s.store.memory
  houseTime : t.time.houseTime = s.time.houseTime

namespace Told

theorem refl (s : State) : Told s s := ⟨⟨[], (List.append_nil _).symm, nofun⟩, rfl, rfl, rfl, rfl⟩

theorem trans {s t u : State} (h : Told s t) (k : Told t u) : Told s u := by
  obtain ⟨first, hf, nf⟩ := h.reports
  obtain ⟨second, hs, ns⟩ := k.reports
  refine ⟨⟨first ++ second, by rw [hs, hf, List.append_assoc], fun r member => ?_⟩, k.commands.trans h.commands, k.pending.trans h.pending,
    k.memory.trans h.memory, k.houseTime.trans h.houseTime⟩
  exact (List.mem_append.mp member).elim (nf r) (ns r)

theorem foldl {α : Type} {g : State → α → State} (h : ∀ s a, Told s (g s a)) (as : List α) (s : State) : Told s (as.foldl g s) := by
  induction as generalizing s with
  | nil => exact refl s
  | cons a as ih => exact (h s a).trans (ih _)

theorem push (s : State) (r : Report) (other : r.isReply = false) : Told s (s.pushReport r) :=
  ⟨⟨[r], rfl, fun x member => by rw [List.mem_singleton.mp member]; exact other⟩, rfl, rfl, rfl, rfl⟩

theorem offerAlarm (s : State) (type : AlarmReportType) (r : Fin 400) : Told s (s.offerAlarm type r) := by
  have same (t : State) (g : AlarmRecord → AlarmRecord) : Told t (t.updRecord r g) :=
    ⟨⟨[], (List.append_nil _).symm, nofun⟩, rfl, rfl, rfl, rfl⟩
  unfold State.offerAlarm
  split
  · exact (push s _ rfl).trans (same _ _)
  · split
    · exact same s _
    · exact same s _
    · exact refl s
    · exact refl s

theorem transferSteps (fuel : Nat) (s : State) : Told s (State.transferSteps fuel s) := by
  induction fuel generalizing s with
  | zero => exact refl s
  | succ fuel ih =>
    unfold State.transferSteps
    split
    · have step : Told s s.transferStep := ⟨⟨_, rfl, fun r member => by rw [List.mem_singleton.mp member]; rfl⟩, rfl, rfl, rfl, rfl⟩
      exact step.trans (ih s.transferStep)
    · exact refl s

theorem run (d : Deferred) (s : State) : Told s (d.run s) := by
  cases d with
  | clears rs => exact foldl (g := fun s r => s.offerAlarm .clear r) (fun s r => offerAlarm s .clear r) rs s
  | abortedLog =>
    change Told s s.offerAborted
    unfold State.offerAborted
    split
    · exact push s _ rfl
    · exact refl s
  | transferSteps => exact transferSteps 33 s

end Told

/-- Settles O34: the judgement leaves the queues, the REPLY enters, and what the command causes are no REPLYs. -/
theorem everyCommandIsAnsweredOnce : Obligations.EveryCommandIsAnsweredOnce := by
  intro i sender c s row fits idle
  have same := judge_same sender.originator c s
  have told := Told.foldl (g := fun t d => d.run t) (fun t d => Told.run d t) (judge sender.originator c s).after
    ((judge sender.originator c s).state.replied sender (encodeCommand c).code (encodeCommand c).form
      (judge sender.originator c s).result (judge sender.originator c s).items)
  rw [← State.answered_eq] at told
  obtain ⟨caused, reports, others⟩ := told.reports
  refine ⟨_, (judge sender.originator c s).result, (judge sender.originator c s).items, caused, exec_idle row fits idle, ?_, others, ?_, ?_, ?_, ?_⟩
  · rw [reports, State.replied, State.pushReport, same.reports, List.append_assoc]
    rfl
  · exact told.commands.trans (same.commands.trans idle.2)
  · exact told.pending.trans same.pending
  · exact told.memory.trans same.memory
  · exact told.houseTime.trans same.houseTime

/-! ### Refusals (R168, R169) -/

/-- The judgement is an acceptance, or it changes nothing and causes nothing. -/
def Judged.Fair (s : State) (j : Judged) : Prop := (j.result = .done ∨ j.result = .clamped) ∨ j.state = s ∧ j.after = []

theorem Judged.Fair.refused (s : State) (r : CommandResult) : (refuse s r).Fair s := .inr ⟨rfl, rfl⟩

theorem Judged.Fair.accepted (s t : State) (items : List Byte) : (accept t items).Fair s := .inl (.inl rfl)

theorem FieldValue.result_accepts (v : FieldValue) : v.result = .done ∨ v.result = .clamped := by
  unfold FieldValue.result
  split
  · exact .inr rfl
  · exact .inl rfl

theorem judgeSet_fair (o target object field : Byte) (value : Word32) (s : State) : (judgeSet o target object field value s).Fair s := by
  unfold judgeSet
  split
  · unfold setFeed
    repeat' split
    · exact .refused ..
    · exact .refused ..
    · exact .refused ..
    · exact .refused ..
    · exact .inl (FieldValue.result_accepts _)
  · unfold setProgramme
    repeat' split
    · exact .refused ..
    · exact .refused ..
    · exact .refused ..
    · dsimp only
      split
      · exact .inl ‹_›
      · exact .refused ..
  · unfold setMap
    repeat' split
    · exact .refused ..
    · exact .refused ..
    · exact .refused ..
    · exact .refused ..
    · exact .inl (FieldValue.result_accepts _)
  · unfold setTrunk
    repeat' split
    · exact .refused ..
    · exact .refused ..
    · exact .refused ..
    · exact .refused ..
    · exact .inl (FieldValue.result_accepts _)
  · unfold setPolicy
    dsimp only
    repeat' split
    · exact .refused ..
    · exact .refused ..
    · exact .refused ..
    · exact .refused ..
    · exact .inl (FieldValue.result_accepts _)
    · exact .inl (FieldValue.result_accepts _)
  · unfold setOriginator
    repeat' split
    · exact .refused ..
    · exact .refused ..
    · exact .refused ..
    · exact .refused ..
    · exact .refused ..
    · exact .inl (FieldValue.result_accepts _)
  · unfold setPart
    repeat' split
    · exact .refused ..
    · exact .refused ..
    · exact .refused ..
    · exact .accepted ..
  · exact .refused ..

theorem judgeChoice_fair {one : State → Fin 16 → State × CommandResult}
    (alone : ∀ s p, ((one s p).2 = .done ∨ (one s p).2 = .clamped) ∨ (one s p).1 = s) (o : Byte) (cls : RightClass) (programme : Byte)
    (s : State) : (judgeChoice o cls (.single programme) one s).Fair s := by
  unfold judgeChoice
  dsimp only
  repeat' split
  · exact .refused ..
  · exact .refused ..
  · rename_i p _
    rcases alone s p with accepts | same
    · exact .inl accepts
    · exact .inr ⟨same, rfl⟩

/-- A command in its single form is accepted, or changes nothing (R168, R169). -/
theorem judge_fair (o : Byte) (c : Command) (single : c.isGroup = false) (s : State) : (judge o c s).Fair s := by
  cases c with
  | set t ob f v => exact judgeSet_fair ..
  | groupSet m f v => cases single
  | read g ob a n =>
    change (judgeRead ..).Fair s
    unfold judgeRead
    dsimp only
    split
    · exact .accepted ..
    · exact .refused ..
  | load t a cs =>
    change (judgeLoad ..).Fair s
    unfold judgeLoad
    dsimp only
    repeat' split
    · exact .refused ..
    · exact .refused ..
    · exact .refused ..
    · exact .accepted ..
  | take p i t r l =>
    change (judgeTake ..).Fair s
    unfold judgeTake
    repeat' split
    · exact .refused ..
    · exact .refused ..
    · exact .refused ..
    · exact .accepted ..
    · exact .accepted ..
    · exact .refused ..
    · exact .refused ..
  | takeCancel c =>
    cases c with
    | group m => cases single
    | single p =>
      refine judgeChoice_fair (fun s p => ?_) ..
      unfold cancelTake
      repeat' split
      · exact .inr rfl
      · exact .inl (.inl rfl)
      · exact .inr rfl
  | allocate p n =>
    change (judgeAllocate ..).Fair s
    unfold judgeAllocate
    dsimp only
    split
    · exact .refused ..
    · split
      · exact .refused ..
      · split
        · exact .refused ..
        · split
          · exact .refused ..
          · refine .inl ?_
            dsimp only
            split
            · exact .inl rfl
            · exact .inr rfl
  | release p =>
    change (judgeRelease ..).Fair s
    unfold judgeRelease
    repeat' split
    · exact .refused ..
    · exact .refused ..
    · exact .refused ..
    · exact .accepted ..
  | retire n =>
    change (judgeRetire ..).Fair s
    unfold judgeRetire
    repeat' split
    · exact .refused ..
    · exact .refused ..
    · exact .accepted ..
    · exact .inr ⟨rfl, rfl⟩
    · exact .accepted ..
    · exact .accepted ..
  | restore n =>
    change (judgeRestore ..).Fair s
    unfold judgeRestore
    repeat' split
    · exact .refused ..
    · exact .refused ..
    · exact .accepted ..
    · exact .accepted ..
    · exact .accepted ..
  | readFault =>
    change (judgeReadFault ..).Fair s
    unfold judgeReadFault
    split
    · exact .refused ..
    · exact .accepted ..
  | timeSet v =>
    change (judgeTimeSet ..).Fair s
    unfold judgeTimeSet
    split
    · exact .refused ..
    · exact .accepted ..
  | timeAdjust v =>
    change (judgeTimeAdjust ..).Fair s
    unfold judgeTimeAdjust
    split
    · exact .refused ..
    · refine .inl ?_
      dsimp only
      split
      · exact .inr rfl
      · exact .inl rfl
  | restartMeasurement c =>
    cases c with
    | group m => cases single
    | single p =>
      refine judgeChoice_fair (fun s p => ?_) ..
      unfold restartMeter
      split
      · exact .inr rfl
      · exact .inl (.inl rfl)
  | acknowledge c =>
    cases c with
    | group k m => cases single
    | single n =>
      change (acknowledgeOne ..).Fair s
      unfold acknowledgeOne
      repeat' split
      · exact .refused ..
      · exact .refused ..
      · exact .inl (.inl rfl)
      · exact .refused ..
  | releaseHold p cls =>
    change (judgeReleaseHold ..).Fair s
    unfold judgeReleaseHold
    repeat' split
    · exact .refused ..
    · exact .refused ..
    · exact .refused ..
    · exact .refused ..
    · exact .accepted ..
  | logRead m n f =>
    change (judgeLogRead ..).Fair s
    unfold judgeLogRead
    repeat' split
    · exact .refused ..
    · exact .refused ..
    · exact .inl (.inl rfl)
    · exact .refused ..
  | logCancel =>
    change (judgeLogCancel ..).Fair s
    unfold judgeLogCancel
    repeat' split
    · exact .refused ..
    · exact .refused ..
    · exact .inl (.inl rfl)
  | logStatus => exact .accepted ..
  | status => exact .accepted ..
  | restart =>
    change (judgeRestart ..).Fair s
    unfold judgeRestart
    split
    · exact .refused ..
    · exact .accepted ..

/-- Settles O35: a judgement that is no acceptance leaves the state and causes no report. -/
theorem refusedCommandsChangeNothing : Obligations.RefusedCommandsChangeNothing := by
  intro i sender c s row fits single idle
  have told := Told.foldl (g := fun t d => d.run t) (fun t d => Told.run d t) (judge sender.originator c s).after
    ((judge sender.originator c s).state.replied sender (encodeCommand c).code (encodeCommand c).form
      (judge sender.originator c s).result (judge sender.originator c s).items)
  rw [← State.answered_eq] at told
  obtain ⟨caused, reports, -⟩ := told.reports
  refine ⟨_, replyOf (s.commandBurst sender (encodeCommand c)) (judge sender.originator c s), caused, exec_idle row fits idle, ?_,
    fun notDone notClamped => ?_⟩
  · rw [reports, State.replied, State.pushReport, (judge_same sender.originator c s).reports, List.append_assoc]
    rfl
  · rcases judge_fair sender.originator c single s with accepted | ⟨state, after⟩
    · exact absurd accepted (not_or.mpr ⟨notDone, notClamped⟩)
    · rw [State.answered_eq, after, state]
      rfl

end Sys2Proof.Machine
end

