-- ==== Sys2Proof/Proofs/Rights.lean ====
section
/-! SUPPORT. A sender without rights is refused by every command that needs one, in the group forms programme by programme (R170, R171). -/

namespace Sys2Proof.Machine

/-! ### Group forms whose judgement of each programme changes nothing -/

theorem judgeEach_unmoved {one : State → Fin 16 → State × CommandResult} (s : State) (still : ∀ p, (one s p).1 = s) (ps : List (Fin 16))
    (g : GroupTally) : (judgeEach one ps s g).1 = s := by
  induction ps generalizing g with
  | nil => rfl
  | cons p ps ih =>
    change (judgeEach one ps (one s p).1 (g.enter p (one s p).2)).1 = s
    rw [still p]
    exact ih _

/-- A group reply takes a free value when no programme was refused (log entry 4). -/
theorem groupReply_state (s : State) (g : GroupTally) (whole : Option CommandResult) :
    ∃ n, (groupReply s g whole).state = { s with freeCount := n } := by
  unfold groupReply
  cases g.first with
  | none => exact ⟨s.freeCount + 1, rfl⟩
  | some x => exact ⟨s.freeCount, rfl⟩

theorem groupReply_after (s : State) (g : GroupTally) (whole : Option CommandResult) : (groupReply s g whole).after = [] := rfl

/-! ### The lines stand as they are -/

/-- Lines that agree with the records and policies are not changed by being formed anew (R133). -/
theorem State.LineLaw.formLines {s : State} (h : s.LineLaw) : s.formLines = s := by
  have major : s.alarms.lineOf .major = s.alarms.major := Bool.eq_iff_iff.mpr ((s.alarms.lineOf_iff .major).trans h.major.symm)
  have minor : s.alarms.lineOf .minor = s.alarms.minor := Bool.eq_iff_iff.mpr ((s.alarms.lineOf_iff .minor).trans h.minor.symm)
  rw [State.formLines, AlarmUnit.formLines, major, minor]

/-! ### Without a right -/

/-- The judgement changes nothing but the count of free values taken, and causes no report. -/
def Judged.Barred (s : State) (j : Judged) : Prop :=
  (∃ n, j.state = { s with freeCount := n }) ∧ ∀ t, j.after.foldl (fun t d => d.run t) t = t

theorem Judged.Barred.refused (s : State) (r : CommandResult) : (refuse s r).Barred s := ⟨⟨s.freeCount, rfl⟩, fun _ => rfl⟩

theorem Judged.Barred.reply (s : State) (g : GroupTally) (whole : Option CommandResult) : (groupReply s g whole).Barred s :=
  ⟨groupReply_state s g whole, fun _ => rfl⟩

theorem Judged.Barred.group {one : State → Fin 16 → State × CommandResult} (s : State) (still : ∀ p, (one s p).1 = s)
    (selection : BitVec 16) : (judgeGroup selection one s).Barred s := by
  have unmoved := judgeEach_unmoved s still (selected selection) GroupTally.initial
  change (groupReply (judgeEach one (selected selection) s GroupTally.initial).1 _ none).Barred s
  rw [unmoved]
  exact .reply ..

section Barred

variable {s : State} {o : Byte}

theorem judgeHold_noRight {cls : RightClass} (barred : s.holdsRight o cls = false) (p : Fin 16) : s.judgeHold o cls p = some .noRight := by
  unfold State.judgeHold
  rw [barred]
  rfl

theorem writeProgramme_noRight {cls : RightClass} (barred : s.holdsRight o cls = false) (field v : Nat) (p : Fin 16) :
    s.writeProgramme o cls field v p = { state := s, result := .noRight, stored := 0 } := by
  unfold State.writeProgramme
  rw [judgeHold_noRight barred]

theorem judgeChoice_noRight {cls : RightClass} (barred : s.holdsRight o cls = false) {one : State → Fin 16 → State × CommandResult}
    (still : ∀ p, (one s p).1 = s) (choice : ProgrammeChoice) : (judgeChoice o cls choice one s).Barred s := by
  cases choice with
  | single p =>
    change (if (!s.holdsRight o cls) = true then refuse s .noRight else _).Barred s
    rw [barred]
    exact .refused ..
  | group m => exact .group s still m

theorem judgeSet_noRight (stranger : o ≠ 0) (barred : ∀ cls, s.holdsRight o cls = false) (target object field : Byte) (value : Word32) :
    (judgeSet o target object field value s).Barred s := by
  have right (cls : RightClass) : (!s.holdsRight o cls) = true := by rw [barred cls]; rfl
  unfold judgeSet
  split
  · unfold setFeed
    split
    · exact .refused ..
    · rw [if_pos (right _)]; exact .refused ..
  · unfold setProgramme
    split
    · exact .refused ..
    · rw [if_pos (right _)]; exact .refused ..
  · unfold setMap
    split
    · exact .refused ..
    · rw [if_pos (right _)]; exact .refused ..
  · unfold setTrunk
    split
    · exact .refused ..
    · rw [if_pos (right _)]; exact .refused ..
  · unfold setPolicy
    split
    · exact .refused ..
    · rw [if_pos (right _)]; exact .refused ..
  · unfold setOriginator
    split
    · exact .refused ..
    · exact .refused ..
  · unfold setPart
    split
    · exact .refused ..
    · rw [if_pos (right _)]; exact .refused ..
  · exact .refused ..

/-- An ACKNOWLEDGE without the right: an empty selection reaches no record (log entry 25). -/
theorem judgeAcknowledge_noRight (law : s.LineLaw) (barred : s.holdsRight o .alarm = false) (choice : AcknowledgeChoice) :
    (judgeAcknowledge o choice s).Barred s := by
  cases choice with
  | single n =>
    change (acknowledgeOne o n s).Barred s
    unfold acknowledgeOne
    rw [barred]
    exact .refused ..
  | group kind selection =>
    change (acknowledgeGroup o kind selection s).Barred s
    unfold acknowledgeGroup
    by_cases empty : selection = 0
    · rw [if_neg fun h => h.2 empty]
      subst empty
      cases below 8 kind.toNat with
      | none => exact .reply ..
      | some k =>
        refine ⟨⟨s.freeCount + 1, ?_⟩, fun _ => rfl⟩
        have law' : State.LineLaw { s with freeCount := s.freeCount + 1 } := law.of_alarms rfl
        exact law'.formLines
    · rw [if_pos ⟨by rw [barred]; rfl, empty⟩]
      exact .group s (fun _ => rfl) selection

/-- Every command that needs a right bars a sender without one, originator 0 aside (R170, R171). -/
theorem judge_noRight (law : s.LineLaw) (stranger : o ≠ 0) (barred : ∀ cls, s.holdsRight o cls = false) (c : Command)
    (needs : c.needsNoRight = false) : (judge o c s).Barred s := by
  have right (cls : RightClass) : (!s.holdsRight o cls) = true := by rw [barred cls]; rfl
  cases c with
  | set t ob f v => exact judgeSet_noRight stranger barred t ob f v
  | groupSet m f v =>
    change (judgeGroupSet o m f v s).Barred s
    unfold judgeGroupSet
    split
    · exact .reply ..
    · split
      · exact .reply ..
      · refine .group s (fun p => ?_) m
        dsimp only
        rw [writeProgramme_noRight (barred _)]
  | read | status | logStatus => cases needs
  | load t a cs =>
    change (judgeLoad o t a cs s).Barred s
    unfold judgeLoad
    rw [if_pos (right _)]; exact .refused ..
  | take p i t r l =>
    change (judgeTake o p i t r l s).Barred s
    unfold judgeTake
    rw [if_pos (right _)]; exact .refused ..
  | takeCancel c =>
    refine judgeChoice_noRight (barred _) (fun p => ?_) c
    unfold cancelTake
    rw [judgeHold_noRight (barred _)]
  | allocate p n =>
    change (judgeAllocate o p n s).Barred s
    unfold judgeAllocate
    rw [if_pos (right _)]; exact .refused ..
  | release p =>
    change (judgeRelease o p s).Barred s
    unfold judgeRelease
    rw [if_pos (right _)]; exact .refused ..
  | retire n =>
    change (judgeRetire o n s).Barred s
    unfold judgeRetire
    rw [if_pos (right _)]; exact .refused ..
  | restore n =>
    change (judgeRestore o n s).Barred s
    unfold judgeRestore
    rw [if_pos (right _)]; exact .refused ..
  | readFault =>
    change (judgeReadFault o s).Barred s
    unfold judgeReadFault
    rw [if_pos (right _)]; exact .refused ..
  | timeSet v =>
    change (judgeTimeSet o v s).Barred s
    unfold judgeTimeSet
    rw [if_pos (right _)]; exact .refused ..
  | timeAdjust v =>
    change (judgeTimeAdjust o v s).Barred s
    unfold judgeTimeAdjust
    rw [if_pos (right _)]; exact .refused ..
  | restartMeasurement c =>
    refine judgeChoice_noRight (barred _) (fun p => ?_) c
    unfold restartMeter
    rw [judgeHold_noRight (barred _)]
  | acknowledge c => exact judgeAcknowledge_noRight law (barred _) c
  | releaseHold p cls =>
    change (judgeReleaseHold o p cls s).Barred s
    unfold judgeReleaseHold
    split
    · exact .refused ..
    · rw [if_pos (right _)]; exact .refused ..
  | logRead m n f =>
    change (judgeLogRead o m n f s).Barred s
    unfold judgeLogRead
    rw [if_pos (right _)]; exact .refused ..
  | logCancel =>
    change (judgeLogCancel o s).Barred s
    unfold judgeLogCancel
    rw [if_pos (right _)]; exact .refused ..
  | restart =>
    change (judgeRestart o s).Barred s
    unfold judgeRestart
    rw [if_pos stranger]; exact .refused ..

end Barred

/-- Settles O36: each command meets its test of the right before anything it would change. -/
theorem unprivilegedSenderChangesNothing : Obligations.UnprivilegedSenderChangesNothing := by
  intro i sender c s row fits idle law stranger barred needs
  obtain ⟨⟨n, state⟩, silent⟩ := judge_noRight law stranger barred c needs
  refine ⟨n, replyOf (s.commandBurst sender (encodeCommand c)) (judge sender.originator c s), ?_⟩
  rw [exec_idle row fits idle, State.answered_eq, silent, state]
  rfl

end Sys2Proof.Machine
end

