-- ==== Sys2Proof/Proofs/FieldValues.lean ====
section
/-! SUPPORT. The values that writes of fields store, and the numbers of things (R169, R176, R183). -/

namespace Sys2Proof.Machine

/-! ### Numbers of things -/

theorem below_val {n : Nat} (i : Fin n) : below n i.val = some i := dif_pos i.isLt

theorem below_eq {n x : Nat} {i : Fin n} (h : x = i.val) : below n x = some i := h ▸ below_val i

theorem below_none {n x : Nat} (h : n ≤ x) : below n x = none := dif_neg (Nat.not_lt.mpr h)

/-- A number below `n` is that of some item. -/
theorem exists_fin {n x : Nat} (h : x < n) : ∃ i : Fin n, x = i.val := ⟨⟨x, h⟩, rfl⟩

/-! ### Values stored (R169) -/

/-- The value `n` stored for a write of `v`. -/
def FieldValue.storing (v n : Nat) : FieldValue := { stored := n, clamped := decide (n ≠ v) }

@[simp] theorem FieldValue.storing_stored (v n : Nat) : (FieldValue.storing v n).stored = n := rfl

@[simp] theorem FieldValue.storing_result (v n : Nat) : (FieldValue.storing v n).result = storedResult v n := by
  unfold FieldValue.result storedResult FieldValue.storing
  by_cases e : v = n
  · subst e; simp
  · simp [e, Ne.symm e]

theorem clampNat_eq_within {lo hi : Nat} (h : lo ≤ hi) (v : Nat) : clampNat lo hi v = within lo hi v := by
  unfold clampNat within
  split
  · omega
  · split <;> omega

theorem numeric_storing {lo hi : Nat} (h : lo ≤ hi) (v : Nat) : numeric lo hi v = some (.storing v (within lo hi v)) := by
  rw [numeric, clampNat_eq_within h, FieldValue.storing]

theorem structural_storing {n v : Nat} (h : v < n) : structural n v = some (.storing v v) := by
  rw [structural, if_pos h, FieldValue.storing, decide_eq_false fun e => e rfl]

theorem structural_none {n v : Nat} (h : n ≤ v) : structural n v = none := if_neg (Nat.not_lt.mpr h)

theorem storedResult_self (v : Nat) : storedResult v v = .done := if_pos rfl

/-- A write of an item as it stands. -/
theorem updAt_const {α : Type} {n : Nat} (v : Vector α n) (i : Fin n) (g : α → α) : updAt v i g = updAt v i fun _ => g v[i] := rfl

theorem State.updFeed_const (s : State) (f : Fin 8) (g : Feed → Feed) : s.updFeed f g = s.updFeed f fun _ => g s.feeds[f] := rfl
theorem State.updProgramme_const (s : State) (p : Fin 16) (g : Programme → Programme) :
    s.updProgramme p g = s.updProgramme p fun _ => g s.programmes[p] := rfl

/-! ### The right of a sender -/

theorem not_holds {b : Bool} (h : b = false) : (!b) = true := by rw [h]; rfl

theorem holds {b : Bool} (h : b = true) : ¬ (!b) = true := by rw [h]; decide

theorem FeedContext.toHoldover_eq (c : FeedContext) :
    c.toHoldover = if c.state ∈ [.priming, .acquiring, .locked] then { c with state := .holdover } else c := by
  unfold FeedContext.toHoldover
  split
  · rename_i e; rw [if_pos (by rw [e]; decide)]
  · rename_i e; rw [if_pos (by rw [e]; decide)]
  · rename_i e; rw [if_pos (by rw [e]; decide)]
  · rename_i a b d
    rw [if_neg]
    simp only [List.mem_cons, List.not_mem_nil, or_false, not_or]
    exact ⟨a, b, d⟩

end Sys2Proof.Machine
end

