-- ==== Sys2Proof/Proofs/SetFeed.lean ====
section
/-! SUPPORT. SET of a feed record field (R2, R3, R5, R12, R176). -/

namespace Sys2Proof.Machine

section SetFeed

variable {s : State} {o object field : Byte} {value : Word32}

theorem setFeed_noField (h : 10 ≤ field.toNat) : setFeed o object field value s = refuse s .badValue := if_pos h

theorem setFeed_noRight (h : field.toNat < 10) (may : s.holdsRight o .route = false) :
    setFeed o object field value s = refuse s .noRight := by
  rw [setFeed, if_neg (Nat.not_le.mpr h), if_pos (not_holds may)]

theorem setFeed_noFeed (h : field.toNat < 10) (may : s.holdsRight o .route = true) (none : 8 ≤ object.toNat) :
    setFeed o object field value s = refuse s .badValue := by
  rw [setFeed, if_neg (Nat.not_le.mpr h), if_neg (holds may), below_none none]

/-- SET of an existing feed by a sender that may: the field's own rule decides (R2). -/
theorem setFeed_judged (h : field.toNat < 10) (may : s.holdsRight o .route = true) {f : Fin 8} (feed : object.toNat = f.val) :
    setFeed o object field value s =
      match judgeFeedField s.feeds[f].record field.toNat value.toNat with
      | none => refuse s .badValue
      | some fv =>
        { state := s.updFeed f fun x => x.writeField s.framed field.toNat fv.stored
          result := fv.result, items := item fv.stored, after := [] } := by
  rw [setFeed, if_neg (Nat.not_le.mpr h), if_neg (holds may), below_eq feed] <;> rfl

end SetFeed

/-- Settles O38: the checks in their order, then each field's rule and effect. -/
theorem setFeedRecordWritesItsField : Obligations.SetFeedRecordWritesItsField := by
  intro sender object field value s idle v may answers
  have refused {r : CommandResult} (h : setFeed sender.originator object field value s = refuse s r) : answers s r [] :=
    exec_plain (c := .set 0 object field value) rfl rfl idle h
  refine ⟨fun h => refused (setFeed_noField h), fun h none => refused (setFeed_noRight h none),
    fun h right none => refused (setFeed_noFeed h right none), ?_⟩
  intro right f feed r c stores
  have stored {k n : Nat} {record : FeedRecord} {context : FeedContext} (here : field.toNat = k) (known : k < 10)
      (rule : judgeFeedField r k v = some (.storing v n))
      (written : s.feeds[f].writeField s.framed k n = { record := record, context := context }) : stores n record context := by
    subst here
    refine exec_plain (c := .set 0 object field value) rfl rfl idle ((setFeed_judged known right feed).trans ?_)
    rw [rule, ← written]
    dsimp only
    rw [FieldValue.storing_result]
    rfl
  have badValue {k : Nat} (here : field.toNat = k) (known : k < 10) (rule : judgeFeedField r k v = none) : answers s .badValue [] := by
    subst here
    exact refused ((setFeed_judged known right feed).trans (by rw [rule]))
  refine ⟨fun h => ⟨fun zero => ?_, fun one => ?_, fun high => badValue h (by decide) (structural_none high)⟩,
    fun h => ⟨fun n trunk => ?_, fun high => badValue h (by decide) (structural_none high)⟩,
    fun h => stored h (by decide) (numeric_storing (by decide) v) ?_,
    fun h => ⟨fun k kernel => stored h (by decide) (structural_storing (kernel ▸ k.isLt)) ?_,
      fun high => badValue h (by decide) (structural_none high)⟩,
    fun h => stored h (by decide) (numeric_storing (by decide) v) rfl,
    fun h => ⟨fun limits => stored h (by decide) ?_ rfl, fun beyond => badValue h (by decide) (if_neg beyond)⟩,
    fun h => ⟨fun limits => stored h (by decide) ?_ rfl, fun beyond => badValue h (by decide) (if_neg beyond)⟩,
    fun h => stored h (by decide) (numeric_storing (by decide) v) rfl,
    fun h => stored h (by decide) (numeric_storing (by decide) v) rfl,
    fun h => stored h (by decide) (numeric_storing (by decide) v) rfl⟩
  · exact stored h (by decide) (by rw [zero]; rfl) rfl
  · exact stored h (by decide) (by rw [one]; rfl) rfl
  · refine stored h (by decide) (structural_storing (trunk ▸ n.isLt)) ?_
    change s.feeds[f].writeTrunk ((below 4 v).getD 0) (s.framed ((below 4 v).getD 0)) = _
    rw [below_eq trunk, Option.getD_some, Feed.writeTrunk, FeedContext.toHoldover_eq]
    congr 1
    have known : s.framed n = decide (s.inputs[n].receiver.state = .framed) := rfl
    by_cases framed : s.inputs[n].receiver.state = .framed
    · rw [known, decide_eq_true framed, if_pos rfl, if_neg fun h => h.1 framed]
    · rw [known, decide_eq_false framed, if_neg Bool.false_ne_true]
      exact if_congr ⟨fun moves => ⟨framed, moves⟩, And.right⟩ rfl rfl
  · change s.feeds[f].writeChannels _ = _
    unfold Feed.writeChannels
    dsimp only
    split <;> rfl
  · change ({ s.feeds[f] with record := { r with kernel := (below 4 v).getD 0 } } : Feed) = _
    rw [below_eq kernel]
    rfl
  · refine (if_pos limits).trans ?_
    rw [FieldValue.storing, decide_eq_false fun e => e rfl]
  · refine (if_pos limits).trans ?_
    rw [FieldValue.storing, decide_eq_false fun e => e rfl]

end Sys2Proof.Machine
end

