-- ==== Sys2Proof/Proofs/SetProgramme.lean ====
section
/-! SUPPORT. SET of a TIMING or LEVEL field of a programme (R28, R77, R100, R110, R142, R172, R176). -/

namespace Sys2Proof.Machine

/-! ### What each write does to a programme, as one record -/

theorem Programme.running_iff (p : Programme) : p.running = true ↔ p.store.state = .running := beq_iff_eq

theorem Programme.clampDelay_eq (p : Programme) (d : Nat) : p.clampDelay d = min d (128 * p.store.pages.length - 1) := by
  unfold Programme.clampDelay clampNat StoreContext.ringLength
  split
  · omega
  · split <;> omega

theorem Programme.writeTiming_eq (p : Programme) (t : TimingFields) :
    p.writeTiming t =
      { p with
        timing := t
        align := if p.store.state = .running ∧ p.timing.mode = .tracked then { p.align with aligned := false, misses := 0 } else p.align } := by
  unfold Programme.writeTiming
  simp only [p.running_iff]
  split <;> rfl

theorem Programme.writeMode_tracked (p : Programme) :
    p.writeMode .tracked =
      { p with
        timing := { p.timing with mode := .tracked }
        align := if p.timing.mode = .fixed ∧ p.store.state = .running then { p.align with aligned := false, misses := 0, pending := none }
          else p.align } := by
  unfold Programme.writeMode
  cases mode : p.timing.mode with
  | tracked => simp
  | fixed => by_cases run : p.store.state = .running <;> simp [run, p.running_iff, AlignContext.unalign]

theorem Programme.writeMode_fixed (p : Programme) :
    p.writeMode .fixed =
      { p with
        timing := { p.timing with mode := .fixed }
        align := if p.timing.mode = .fixed then p.align
          else if p.store.state = .running then
            { p.align with
              aligned := false, misses := 0, delayShort := false, late := false
              pending := some (min p.timing.fixedDelay (128 * p.store.pages.length - 1)) }
          else { p.align with delayShort := false, late := false } } := by
  unfold Programme.writeMode
  cases mode : p.timing.mode with
  | fixed => simp
  | tracked =>
    by_cases run : p.store.state = .running <;> simp [run, p.running_iff, p.clampDelay_eq, AlignContext.unalign, AlignContext.order]

theorem Programme.writeFixedDelay_eq (p : Programme) (d : Nat) :
    p.writeFixedDelay d =
      { p with
        timing := { p.timing with fixedDelay := d }
        align := if p.store.state = .running ∧ p.timing.mode = .fixed then
            { p.align with pending := some (min d (128 * p.store.pages.length - 1)) }
          else p.align } := by
  unfold Programme.writeFixedDelay
  simp only [p.running_iff, p.clampDelay_eq]
  split <;> rfl

theorem Programme.writeGainMode_ride (p : Programme) :
    p.writeGainMode .ride =
      { p with
        level := { p.level with gainMode := .ride }
        rider := if p.level.gainMode = .ride then p.rider
          else { p.rider with gain := clampNat p.level.gMin p.level.gMax p.rider.gain, rise := 0, fall := 0, aim := none } } := by
  unfold Programme.writeGainMode
  dsimp only
  cases p.level.gainMode <;> rfl

theorem Programme.writeGainMode_fixed (p : Programme) :
    p.writeGainMode .fixed =
      { p with
        level := { p.level with gainMode := .fixed }
        rider := if p.level.gainMode = .fixed then p.rider
          else { p.rider with gain := p.level.fixedGain, rise := 0, fall := 0, aim := none, limit := false } } := by
  unfold Programme.writeGainMode
  dsimp only
  cases p.level.gainMode <;> rfl

theorem Programme.writeLimits_eq (p : Programme) (gMin gMax : Nat) :
    p.writeLimits gMin gMax =
      { p with
        level := { p.level with gMin := gMin, gMax := gMax }
        rider := if p.level.gainMode = .ride ∧ clampNat gMin gMax p.rider.gain ≠ p.rider.gain then
            { p.rider with gain := clampNat gMin gMax p.rider.gain, rise := 0, fall := 0 }
          else p.rider } := by
  unfold Programme.writeLimits RiderContext.limitTo
  dsimp only
  by_cases ride : p.level.gainMode = .ride
  · rw [if_pos ride]
    by_cases same : clampNat gMin gMax p.rider.gain = p.rider.gain
    · rw [if_pos same, if_neg fun h => h.2 same]
    · rw [if_neg same, if_pos ⟨ride, same⟩]
  · rw [if_neg ride, if_neg fun h => ride h.1]

/-! ### The judgement (R28, R172, R176) -/

theorem programmeFieldClass_eq {field : Nat} (h : field < 19) : programmeFieldClass field = some (if field < 5 then .timing else .level) := by
  rw [programmeFieldClass, if_pos h]
  split <;> rfl

theorem programmeFieldClass_none {field : Nat} (h : 19 ≤ field) : programmeFieldClass field = none := by
  rw [programmeFieldClass, if_neg (by omega), if_neg (by omega)]

theorem State.MayWrite.judgeHold {s : State} {o : Byte} {cls : RightClass} {p : Fin 16} (may : s.MayWrite o cls p) :
    s.judgeHold o cls p = none := by
  rw [State.judgeHold, if_neg (holds may.1), may.2]
  rfl

theorem judgeHold_outranked {s : State} {o : Byte} {cls : RightClass} {p : Fin 16} (right : s.holdsRight o cls = true)
    (rank : s.outranks o cls p = true) : s.judgeHold o cls p = some .outranked := by
  rw [State.judgeHold, if_neg (holds right), if_pos rank]

/-- A programme with the hold that a write takes (R172). -/
def Programme.held (p : Programme) (cls : RightClass) (priority : Fin 8) : Programme := { p with holds := p.holds.withHold cls priority }

theorem State.updProgramme_takeHold (s : State) (p : Fin 16) (g : Programme → Programme) (o : Byte) (cls : RightClass) :
    (s.updProgramme p g).takeHold o cls p = s.updProgramme p fun _ => (g s.programmes[p]).held cls (s.priorityOf o) := by
  change State.updProgramme _ p _ = _
  unfold State.updProgramme
  dsimp only
  rw [updAt_updAt]
  rfl

/-- A sender that may write: the field's rule decides (R28). -/
theorem State.writeProgramme_may {s : State} {o : Byte} {cls : RightClass} {p : Fin 16} (may : s.MayWrite o cls p) (field v : Nat) :
    s.writeProgramme o cls field v p =
      match judgeProgrammeField s.programmes[p] field v with
      | none => { state := s, result := .badValue, stored := 0 }
      | some fv =>
        { state := s.updProgramme p fun _ => (s.programmes[p].writeField field fv.stored).held cls (s.priorityOf o)
          result := fv.result, stored := fv.stored } := by
  rw [State.writeProgramme, may.judgeHold]
  cases judgeProgrammeField s.programmes[p] field v with
  | none => rfl
  | some fv =>
    dsimp only
    rw [State.updProgramme_takeHold]

section SetProgramme

variable {s : State} {o object field : Byte} {value : Word32}

theorem setProgramme_noField (h : 19 ≤ field.toNat) : setProgramme o object field value s = refuse s .badValue := by
  rw [setProgramme, programmeFieldClass_none h]

theorem setProgramme_noRight (h : field.toNat < 19) (may : s.holdsRight o (if field.toNat < 5 then .timing else .level) = false) :
    setProgramme o object field value s = refuse s .noRight := by
  rw [setProgramme, programmeFieldClass_eq h]
  exact if_pos (not_holds may)

theorem setProgramme_noProgramme (h : field.toNat < 19) (may : s.holdsRight o (if field.toNat < 5 then .timing else .level) = true)
    (none : 16 ≤ object.toNat) : setProgramme o object field value s = refuse s .badValue := by
  rw [setProgramme, programmeFieldClass_eq h]
  dsimp only
  rw [if_neg (holds may), below_none none]

/-- SET of an existing programme by a sender with the right (R176). -/
theorem setProgramme_right (h : field.toNat < 19) (may : s.holdsRight o (if field.toNat < 5 then .timing else .level) = true) {p : Fin 16}
    (programme : object.toNat = p.val) :
    setProgramme o object field value s =
      let w := s.writeProgramme o (if field.toNat < 5 then .timing else .level) field.toNat value.toNat p
      if w.result = .done ∨ w.result = .clamped then { state := w.state, result := w.result, items := item w.stored, after := [] }
      else refuse s w.result := by
  rw [setProgramme, programmeFieldClass_eq h]
  dsimp only
  rw [if_neg (holds may), below_eq programme]

theorem setProgramme_outranked (h : field.toNat < 19) (may : s.holdsRight o (if field.toNat < 5 then .timing else .level) = true)
    {p : Fin 16} (programme : object.toNat = p.val) (rank : s.outranks o (if field.toNat < 5 then .timing else .level) p = true) :
    setProgramme o object field value s = refuse s .outranked := by
  rw [setProgramme_right h may programme, State.writeProgramme, judgeHold_outranked may rank]
  rfl

theorem setProgramme_badValue (h : field.toNat < 19) {p : Fin 16} (may : s.MayWrite o (if field.toNat < 5 then .timing else .level) p)
    (programme : object.toNat = p.val) (rule : judgeProgrammeField s.programmes[p] field.toNat value.toNat = none) :
    setProgramme o object field value s = refuse s .badValue := by
  rw [setProgramme_right h may.1 programme, State.writeProgramme_may may, rule]
  rfl

theorem setProgramme_stored (h : field.toNat < 19) {p : Fin 16} (may : s.MayWrite o (if field.toNat < 5 then .timing else .level) p)
    (programme : object.toNat = p.val) {n : Nat}
    (rule : judgeProgrammeField s.programmes[p] field.toNat value.toNat = some (.storing value.toNat n)) :
    setProgramme o object field value s =
      { state := s.updProgramme p fun _ =>
          (s.programmes[p].writeField field.toNat n).held (if field.toNat < 5 then .timing else .level) (s.priorityOf o)
        result := storedResult value.toNat n, items := item n, after := [] } := by
  rw [setProgramme_right h may.1 programme, State.writeProgramme_may may, rule]
  dsimp only
  rw [if_pos (FieldValue.result_accepts _), FieldValue.storing_result, FieldValue.storing_stored]

end SetProgramme

theorem related_storing {keeps : Nat → Bool} {v n : Nat} (h : keeps n = true) :
    related keeps (some (.storing v n)) = some (.storing v n) := if_pos h

theorem related_none {keeps : Nat → Bool} {v n : Nat} (h : keeps n = false) : related keeps (some (.storing v n)) = none :=
  if_neg (Bool.not_eq_true _ ▸ h)

/-- Settles O39: the checks in their order, then each field's rule and effect. -/
theorem setProgrammeFieldWritesItsField : Obligations.SetProgrammeFieldWritesItsField := by
  intro sender object field value s idle o v cls answers
  have refused {r : CommandResult} (h : setProgramme sender.originator object field value s = refuse s r) : answers s r [] :=
    exec_plain (c := .set 1 object field value) rfl rfl idle h
  refine ⟨fun h => refused (setProgramme_noField h), fun h may => refused (setProgramme_noRight h may),
    fun h may none => refused (setProgramme_noProgramme h may none),
    fun p programme h may rank => refused (setProgramme_outranked h may programme rank), ?_⟩
  intro p programme may q running top lost timing level plain limited
  have stored {k n : Nat} {u : Programme} (here : field.toNat = k) (known : k < 19)
      (rule : judgeProgrammeField q k v = some (.storing v n))
      (written : (q.writeField k n).held (if k < 5 then .timing else .level) (s.priorityOf o) = u) :
      answers (s.updProgramme p fun _ => u) (storedResult v n) (item n) := by
    subst here
    subst written
    exact exec_plain (c := .set 1 object field value) rfl rfl idle (setProgramme_stored known may programme rule)
  have badValue {k : Nat} (here : field.toNat = k) (known : k < 19) (rule : judgeProgrammeField q k v = none) :
      answers s .badValue [] := by
    subst here
    exact refused (setProgramme_badValue known may programme rule)
  -- a field that stores a clamped number and acts on nothing else
  have number {k lo hi : Nat} {u : Programme} (here : field.toNat = k) (known : k < 19) (range : lo ≤ hi)
      (rule : judgeProgrammeField q k v = numeric lo hi v)
      (written : (q.writeField k (within lo hi v)).held (if k < 5 then .timing else .level) (s.priorityOf o) = u) :
      answers (s.updProgramme p fun _ => u) (storedResult v (within lo hi v)) (item (within lo hi v)) :=
    stored here known (rule.trans (numeric_storing range v)) written
  -- a field of two values
  have flag {k n : Nat} {u : Programme} (here : field.toNat = k) (known : k < 19) (value : v = n) (two : n < 2)
      (rule : judgeProgrammeField q k v = structural 2 v)
      (written : (q.writeField k n).held (if k < 5 then .timing else .level) (s.priorityOf o) = u) :
      answers (s.updProgramme p fun _ => u) (storedResult v v) (item v) := by
    subst value
    exact stored here known (rule.trans (structural_storing two)) written
  refine ⟨fun h => ⟨fun f feed => stored h (by decide) (structural_storing (feed ▸ f.isLt)) ?_,
      fun high => badValue h (by decide) (structural_none high)⟩,
    fun h => ⟨fun zero => flag h (by decide) zero (by decide) rfl ?_, fun one => flag h (by decide) one (by decide) rfl ?_,
      fun high => badValue h (by decide) (structural_none high)⟩,
    fun h => number h (by decide) (by decide) rfl ?_, fun h => number h (by decide) (by decide) rfl ?_,
    fun h => number h (by decide) (by decide) rfl rfl,
    fun h => ⟨fun n set => ?_, fun high => badValue h (by decide) (structural_none high)⟩,
    fun h => number h (by decide) (by decide) rfl rfl, fun h => number h (by decide) (by decide) rfl rfl,
    fun h => number h (by decide) (by decide) rfl rfl,
    fun h => ⟨fun zero => flag h (by decide) zero (by decide) rfl rfl, fun one => flag h (by decide) one (by decide) rfl rfl,
      fun high => badValue h (by decide) (structural_none high)⟩,
    fun h => ⟨fun zero => flag h (by decide) zero (by decide) rfl ?_, fun one => flag h (by decide) one (by decide) rfl ?_,
      fun high => badValue h (by decide) (structural_none high)⟩,
    fun h => number h (by decide) (by decide) rfl ?_,
    fun h => ⟨fun below => stored h (by decide) ?_ ?_, fun above => badValue h (by decide) ?_⟩,
    fun h => ⟨fun above => stored h (by decide) ?_ ?_, fun below => badValue h (by decide) ?_⟩,
    fun h => number h (by decide) (by decide) rfl rfl, fun h => number h (by decide) (by decide) rfl rfl,
    fun h => ⟨fun zero => flag h (by decide) zero (by decide) rfl rfl, fun one => flag h (by decide) one (by decide) rfl rfl,
      fun high => badValue h (by decide) (structural_none high)⟩,
    fun h => number h (by decide) (by decide) rfl rfl, fun h => number h (by decide) (by decide) rfl ?_⟩
  · change (q.writeTiming { q.timing with feed := (below 8 v).getD 0 }).held _ _ = _
    rw [below_eq feed, Programme.writeTiming_eq]
    rfl
  · change (q.writeMode .tracked).held _ _ = _
    rw [Programme.writeMode_tracked]
    rfl
  · change (q.writeMode .fixed).held _ _ = _
    rw [Programme.writeMode_fixed]
    rfl
  · change (q.writeTiming _).held _ _ = _
    rw [Programme.writeTiming_eq]
    rfl
  · change (q.writeFixedDelay _).held _ _ = _
    rw [Programme.writeFixedDelay_eq]
    rfl
  · rw [← storedResult_self v]
    refine stored h (by decide) (structural_storing (set ▸ n.isLt)) ?_
    change (q.writeFilterSet ((below 4 v).getD 0)).held _ _ = _
    rw [below_eq set]
    rfl
  · change (q.writeGainMode .ride).held _ _ = _
    rw [Programme.writeGainMode_ride]
    rfl
  · change (q.writeGainMode .fixed).held _ _ = _
    rw [Programme.writeGainMode_fixed]
    rfl
  · rfl
  · rw [judgeProgrammeField, numeric_storing (by decide)]
    exact related_storing (decide_eq_true below)
  · change (q.writeLimits _ _).held _ _ = _
    rw [Programme.writeLimits_eq]
    rfl
  · rw [judgeProgrammeField, numeric_storing (by decide)]
    exact related_none (decide_eq_false (Nat.not_le.mpr above))
  · rw [judgeProgrammeField, numeric_storing (by decide)]
    exact related_storing (decide_eq_true above)
  · change (q.writeLimits _ _).held _ _ = _
    rw [Programme.writeLimits_eq]
    rfl
  · rw [judgeProgrammeField, numeric_storing (by decide)]
    exact related_none (decide_eq_false (Nat.not_le.mpr below))
  · have zero : within 0 600 v = 0 ↔ v = 0 := by unfold within; omega
    change (q.writeLogInterval _).held _ _ = _
    unfold Programme.writeLogInterval
    simp only [zero]
    rfl

end Sys2Proof.Machine
end

