-- ==== Sys2Proof/Proofs/SetMaps.lean ====
section
/-! SUPPORT. SET of an output map field, of an originator record and of the reply trunk (R41, R170, R176). -/

namespace Sys2Proof.Machine

/-! ### Output maps (R41) -/

theorem mapEntryOf_empty : mapEntryOf 4294967295 = some none := rfl

theorem mapEntryOf_place (p : Fin 16) (q : Fin 8) : mapEntryOf (65536 * p.val + q.val) = some (some (p, q)) := by
  have programme : (65536 * p.val + q.val) / 65536 = p.val := by omega
  have position : (65536 * p.val + q.val) % 65536 = q.val := by omega
  rw [mapEntryOf, if_neg (by omega), programme, position, below_val, below_val]

theorem mapEntryOf_none {v : Nat} (filled : v ≠ 4294967295) (noPlace : ∀ (p : Fin 16) (q : Fin 8), v ≠ 65536 * p.val + q.val) :
    mapEntryOf v = none := by
  rw [mapEntryOf, if_neg filled]
  by_cases programme : v / 65536 < 16
  · by_cases position : v % 65536 < 8
    · exact absurd (Nat.div_add_mod v 65536).symm (noPlace ⟨_, programme⟩ ⟨_, position⟩)
    · rw [below_none (Nat.not_lt.mp position)]
      split <;> simp_all
  · rw [below_none (Nat.not_lt.mp programme)]

/-- The place of an entry among the fields of an output map (R184). -/
theorem judgeMapField_entry (e v : Nat) :
    judgeMapField (e + 3) v = if (mapEntryOf v).isSome then some (.storing v v) else none := by
  rw [FieldValue.storing, decide_eq_false fun h => h rfl]
  rfl

theorem OutputMap.writeField_entry (m : OutputMap) (e : Fin 32) {v : Nat} {entry : MapEntry} (h : mapEntryOf v = some entry) :
    m.writeField (e.val + 3) v = { m with entries := m.entries.set e entry } := by
  change (match below 32 e.val, mapEntryOf v with | some i, some entry => { m with entries := m.entries.set i entry } | _, _ => m) = _
  rw [below_val, h]

section SetMap

variable {s : State} {o object field : Byte} {value : Word32}

theorem setMap_noField (h : 35 ≤ field.toNat) : setMap o object field value s = refuse s .badValue := if_pos h

theorem setMap_noRight (h : field.toNat < 35) (may : s.holdsRight o .route = false) :
    setMap o object field value s = refuse s .noRight := by
  rw [setMap, if_neg (Nat.not_le.mpr h), if_pos (not_holds may)]

theorem setMap_noMap (h : field.toNat < 35) (may : s.holdsRight o .route = true) (none : 2 ≤ object.toNat) :
    setMap o object field value s = refuse s .badValue := by
  rw [setMap, if_neg (Nat.not_le.mpr h), if_neg (holds may), below_none none]

theorem setMap_badValue (h : field.toNat < 35) (may : s.holdsRight o .route = true) {k : Fin 2} (map : object.toNat = k.val)
    (rule : judgeMapField field.toNat value.toNat = none) : setMap o object field value s = refuse s .badValue := by
  rw [setMap, if_neg (Nat.not_le.mpr h), if_neg (holds may), below_eq map]
  dsimp only
  rw [rule]

theorem setMap_stored (h : field.toNat < 35) (may : s.holdsRight o .route = true) {k : Fin 2} (map : object.toNat = k.val) {n : Nat}
    (rule : judgeMapField field.toNat value.toNat = some (.storing value.toNat n)) :
    setMap o object field value s =
      { state := s.updOutput k fun t => { t with map := s.outputs[k].map.writeField field.toNat n }
        result := storedResult value.toNat n, items := item n, after := [] } := by
  rw [setMap, if_neg (Nat.not_le.mpr h), if_neg (holds may), below_eq map]
  dsimp only
  rw [rule]
  dsimp only
  rw [FieldValue.storing_result]
  rfl

end SetMap

/-! ### Originator records (R170) -/

section SetOriginator

variable {s : State} {o object field : Byte} {value : Word32}

theorem setOriginator_noField (h : 9 ≤ field.toNat) : setOriginator o object field value s = refuse s .badValue := if_pos h

theorem setOriginator_noRight (h : field.toNat < 9) (other : o ≠ 0) : setOriginator o object field value s = refuse s .noRight := by
  rw [setOriginator, if_neg (Nat.not_le.mpr h), if_pos other]

theorem setOriginator_noRecord (h : field.toNat < 9) (first : o = 0) (none : object = 0 ∨ 8 ≤ object.toNat) :
    setOriginator o object field value s = refuse s .badValue := by
  rw [setOriginator, if_neg (Nat.not_le.mpr h), if_neg (not_not_intro first)]
  by_cases zero : object = 0
  · rw [if_pos zero]
  · rw [if_neg zero, below_none (none.resolve_left zero)]

theorem object_ne_zero {n : Fin 8} (other : n ≠ 0) (record : object.toNat = n.val) : object ≠ 0 := by
  rintro rfl
  exact other (Fin.ext record.symm)

theorem setOriginator_badValue (h : field.toNat < 9) (first : o = 0) {n : Fin 8} (other : n ≠ 0) (record : object.toNat = n.val)
    (rule : judgeOriginatorField field.toNat value.toNat = none) : setOriginator o object field value s = refuse s .badValue := by
  rw [setOriginator, if_neg (Nat.not_le.mpr h), if_neg (not_not_intro first), if_neg (object_ne_zero other record), below_eq record]
  dsimp only
  rw [rule]

theorem setOriginator_stored (h : field.toNat < 9) (first : o = 0) {n : Fin 8} (other : n ≠ 0) (record : object.toNat = n.val) {w : Nat}
    (rule : judgeOriginatorField field.toNat value.toNat = some (.storing value.toNat w)) :
    setOriginator o object field value s =
      { state := { s with processor := { s.processor with
          originators := s.processor.originators.set n (s.processor.originators[n].writeField field.toNat w) } }
        result := storedResult value.toNat w, items := item w, after := [] } := by
  rw [setOriginator, if_neg (Nat.not_le.mpr h), if_neg (not_not_intro first), if_neg (object_ne_zero other record), below_eq record]
  dsimp only
  rw [rule]
  dsimp only
  rw [FieldValue.storing_result]
  rfl

end SetOriginator

/-- The place of a right among the fields of an originator record (R184). -/
theorem Originator.writeField_right (x : Originator) (cls : RightClass) (v : Nat) :
    x.writeField (1 + cls.index.val) v = { x with rights := x.rights.set cls.index (decide (v = 1)) } := by
  cases cls <;> rfl

theorem judgeOriginatorField_flag {field v : Nat} (known : field ≠ 8) : judgeOriginatorField field v = structural 2 v := if_neg known

/-! ### The reply trunk (R176) -/

section SetPart

variable {s : State} {o object field : Byte} {value : Word32}

theorem setPart_noField (h : field ≠ 0 ∨ object ≠ 0) : setPart o object field value s = refuse s .badValue := if_pos h

theorem setPart_noRight (here : field = 0) (part : object = 0) (may : s.holdsRight o .route = false) :
    setPart o object field value s = refuse s .noRight := by
  rw [setPart, if_neg fun h => h.elim (· here) (· part), if_pos (not_holds may)]

/-- A reply trunk written by a sender that may: it is one of the two output trunks, or the value is refused. -/
theorem setPart_may (here : field = 0) (part : object = 0) (may : s.holdsRight o .route = true) :
    (∀ k : Fin 2, value.toNat = k.val →
      setPart o object field value s = accept { s with processor := { s.processor with replyTrunk := k } } (item k.val)) ∧
    (2 ≤ value.toNat → setPart o object field value s = refuse s .badValue) := by
  rw [setPart, if_neg fun h => h.elim (· here) (· part), if_neg (holds may)]
  exact ⟨fun k trunk => by rw [below_eq trunk], fun high => by rw [below_none high]⟩

end SetPart

/-- Settles O40: for each of the three targets the checks in their order, then each field's rule and effect. -/
theorem setMapsOriginatorsAndReplyTrunk : Obligations.SetMapsOriginatorsAndReplyTrunk := by
  intro sender object field value s idle o v answers
  refine ⟨?_, ?_, ?_⟩
  · intro map
    have judged {j : Judged} (h : setMap o object field value s = j) (plain : j.after = []) : map j.state j.result j.items :=
      exec_plain (c := .set 2 object field value) rfl rfl idle (h.trans (by rw [← plain]))
    refine ⟨fun h => judged (setMap_noField h) rfl, fun h none => judged (setMap_noRight h none) rfl,
      fun h right none => judged (setMap_noMap h right none) rfl, ?_⟩
    intro right k trunk m stores
    have stored {j n : Nat} {record : OutputMap} (here : field.toNat = j) (known : j < 35)
        (rule : judgeMapField j v = some (.storing v n)) (written : m.writeField j n = record) : stores n record := by
      subst here
      subst written
      exact judged (setMap_stored known right trunk rule) rfl
    have badValue {j : Nat} (here : field.toNat = j) (known : j < 35) (rule : judgeMapField j v = none) : map s .badValue [] := by
      subst here
      exact judged (setMap_badValue known right trunk rule) rfl
    refine ⟨fun h => ⟨fun f feed => stored h (by decide) (structural_storing (feed ▸ f.isLt)) ?_,
        fun high => badValue h (by decide) (structural_none high)⟩,
      fun h => stored h (by decide) (numeric_storing (by decide) v) rfl,
      fun h => ⟨fun zero => stored h (by decide) (structural_storing (by omega)) ?_,
        fun one => stored h (by decide) (structural_storing (by omega)) ?_,
        fun high => badValue h (by decide) (structural_none high)⟩, ?_⟩
    · change ({ m with stream := (below 8 v).getD 0 } : OutputMap) = _
      rw [below_eq feed]
      rfl
    · change ({ m with captureTime := decide (v = 1) } : OutputMap) = _
      rw [zero]
      rfl
    · change ({ m with captureTime := decide (v = 1) } : OutputMap) = _
      rw [one]
      rfl
    · intro e h
      rw [Nat.add_comm] at h
      have entry {x : MapEntry} (h' : mapEntryOf v = some x) : stores v { m with entries := m.entries.set e x } :=
        stored h (by omega) ((judgeMapField_entry e v).trans (by rw [h']; rfl)) (m.writeField_entry e h')
      exact ⟨fun empty => entry (empty ▸ mapEntryOf_empty), fun p q place => entry (place ▸ mapEntryOf_place p q),
        fun none => badValue h (by omega) ((judgeMapField_entry e v).trans (by rw [mapEntryOf_none none.1 none.2]; rfl))⟩
  · intro set
    have judged {j : Judged} (h : setOriginator o object field value s = j) (plain : j.after = []) : set j.state j.result j.items :=
      exec_plain (c := .set 5 object field value) rfl rfl idle (h.trans (by rw [← plain]))
    refine ⟨fun h => judged (setOriginator_noField h) rfl, fun h other => judged (setOriginator_noRight h other) rfl,
      fun h first none => judged (setOriginator_noRecord h first none) rfl, ?_⟩
    intro first n other number x stores
    have stored {j w : Nat} {record : Originator} (here : field.toNat = j) (known : j < 9)
        (rule : judgeOriginatorField j v = some (.storing v w)) (written : x.writeField j w = record) : stores w record := by
      subst here
      subst written
      exact judged (setOriginator_stored known first other number rule) rfl
    have badValue {j : Nat} (here : field.toNat = j) (known : j < 9) (rule : judgeOriginatorField j v = none) : set s .badValue [] := by
      subst here
      exact judged (setOriginator_badValue known first other number rule) rfl
    refine ⟨fun h => ⟨fun zero => stored h (by decide) (structural_storing (by omega)) ?_,
        fun one => stored h (by decide) (structural_storing (by omega)) ?_,
        fun high => badValue h (by decide) (structural_none high)⟩, fun cls h => ?_,
      fun h w priority => stored h (by decide) ?_ ?_⟩
    · change ({ x with enabled := decide (v = 1) } : Originator) = _
      rw [zero]
      rfl
    · change ({ x with enabled := decide (v = 1) } : Originator) = _
      rw [one]
      rfl
    · have known : 1 + cls.index.val < 8 := by omega
      have rule : judgeOriginatorField (1 + cls.index.val) v = structural 2 v := judgeOriginatorField_flag (by omega)
      refine ⟨fun zero => stored h (by omega) (rule.trans (structural_storing (by omega))) ?_,
        fun one => stored h (by omega) (rule.trans (structural_storing (by omega))) ?_,
        fun high => badValue h (by omega) (rule.trans (structural_none high))⟩
      · rw [x.writeField_right, zero]
        rfl
      · rw [x.writeField_right, one]
        rfl
    · exact (numeric_storing (by decide) v).trans (by rw [priority])
    · change ({ x with priority := (below 8 w.val).getD 0 } : Originator) = _
      rw [below_val]
      rfl
  · intro part
    have judged {j : Judged} (h : setPart o object field value s = j) (plain : j.after = []) : part j.state j.result j.items :=
      exec_plain (c := .set 6 object field value) rfl rfl idle (h.trans (by rw [← plain]))
    refine ⟨fun h => judged (setPart_noField h) rfl, fun here only none => judged (setPart_noRight here only none) rfl,
      fun here only right => ⟨fun k trunk => ?_, fun high => judged ((setPart_may here only right).2 high) rfl⟩⟩
    rw [trunk]
    exact judged ((setPart_may here only right).1 k trunk) rfl

end Sys2Proof.Machine
end

