-- ==== Sys2Proof/Proofs/SetTrunk.lean ====
section
/-! SUPPORT. SET of an input trunk field (R152, R156). -/

namespace Sys2Proof.Machine

theorem State.framed_updInput (s : State) (n : Fin 4) (g : InputTrunk → InputTrunk) :
    (s.updInput n g).framed n = ((g s.inputs[n]).receiver.state == .framed) := by
  rw [State.framed, State.updInput, updAt_same]

/-- A write that leaves the receiver alone moves no feed (R156). -/
theorem State.afterReceiver_kept (s : State) (n : Fin 4) {u : InputTrunk} (same : u.receiver = s.inputs[n].receiver) :
    (s.updInput n fun _ => u).afterReceiver s n = s.updInput n fun _ => u := by
  rw [State.afterReceiver, State.framed_updInput, same]
  exact if_neg fun h => h.2 h.1

/-- The feeds of an input trunk whose receiver leaves FRAMED go to HOLDOVER (R9). -/
theorem State.trunkUnframed_feeds (s : State) (n : Fin 4) (f : Fin 8) :
    (s.trunkUnframed n).feeds[f] =
      if s.feeds[f].record.trunk = n ∧ s.feeds[f].context.state ∈ [.priming, .acquiring, .locked] then
        { s.feeds[f] with context := { s.feeds[f].context with state := .holdover } }
      else s.feeds[f] := by
  have moved : (s.trunkUnframed n).feeds[f] = if s.feeds[f].record.trunk = n then { s.feeds[f] with context := s.feeds[f].context.toHoldover }
      else s.feeds[f] := mapAll_getElem ..
  rw [moved, FeedContext.toHoldover_eq]
  by_cases own : s.feeds[f].record.trunk = n
  · rw [if_pos own]
    by_cases moves : s.feeds[f].context.state ∈ [.priming, .acquiring, .locked]
    · rw [if_pos moves, if_pos ⟨own, moves⟩]
    · rw [if_neg moves, if_neg fun h => moves h.2]
  · rw [if_neg own, if_neg fun h => own h.1]

/-- The feeds after input trunk `n`'s receiver was put out of FRAMED (R9, R156). -/
theorem State.afterReceiver_put (s : State) (n : Fin 4) {u : InputTrunk} (unframed : u.receiver.state ≠ .framed) :
    ∃ feeds : Vector Feed 8,
      (s.updInput n fun _ => u).afterReceiver s n = { s with feeds := feeds }.updInput n (fun _ => u) ∧
      ∀ f : Fin 8, feeds[f] =
        if s.inputs[n].receiver.state = .framed ∧ s.feeds[f].record.trunk = n ∧ s.feeds[f].context.state ∈ [.priming, .acquiring, .locked] then
          { s.feeds[f] with context := { s.feeds[f].context with state := .holdover } }
        else s.feeds[f] := by
  have after : ¬ (u.receiver.state == .framed) = true := by simpa using unframed
  have before : s.framed n = true ↔ s.inputs[n].receiver.state = .framed := beq_iff_eq
  rw [State.afterReceiver, State.framed_updInput]
  by_cases framed : s.inputs[n].receiver.state = .framed
  · rw [if_pos ⟨before.mpr framed, after⟩]
    refine ⟨(s.trunkUnframed n).feeds, rfl, fun f => ?_⟩
    rw [State.trunkUnframed_feeds]
    exact if_congr ⟨fun h => ⟨framed, h⟩, And.right⟩ rfl rfl
  · rw [if_neg fun h => framed (before.mp h.1)]
    exact ⟨s.feeds, rfl, fun f => by rw [if_neg fun h => framed h.1]⟩

section SetTrunk

variable {s : State} {o object field : Byte} {value : Word32}

theorem setTrunk_noField (h : 3 ≤ field.toNat) : setTrunk o object field value s = refuse s .badValue := if_pos h

theorem setTrunk_noRight (h : field.toNat < 3) (may : s.holdsRight o .route = false) :
    setTrunk o object field value s = refuse s .noRight := by
  rw [setTrunk, if_neg (Nat.not_le.mpr h), if_pos (not_holds may)]

theorem setTrunk_noTrunk (h : field.toNat < 3) (may : s.holdsRight o .route = true) (none : 4 ≤ object.toNat) :
    setTrunk o object field value s = refuse s .badValue := by
  rw [setTrunk, if_neg (Nat.not_le.mpr h), if_neg (holds may), below_none none]

theorem setTrunk_badValue (h : field.toNat < 3) (may : s.holdsRight o .route = true) {n : Fin 4} (trunk : object.toNat = n.val)
    (rule : judgeTrunkField field.toNat value.toNat = none) : setTrunk o object field value s = refuse s .badValue := by
  rw [setTrunk, if_neg (Nat.not_le.mpr h), if_neg (holds may), below_eq trunk]
  dsimp only
  rw [rule]

theorem setTrunk_stored (h : field.toNat < 3) (may : s.holdsRight o .route = true) {n : Fin 4} (trunk : object.toNat = n.val)
    (rule : judgeTrunkField field.toNat value.toNat = some (.storing value.toNat value.toNat)) :
    setTrunk o object field value s =
      { state := (s.updInput n fun _ => s.inputs[n].writeField field.toNat value.toNat).afterReceiver s n
        result := .done, items := item value.toNat, after := [] } := by
  rw [setTrunk, if_neg (Nat.not_le.mpr h), if_neg (holds may), below_eq trunk]
  dsimp only
  rw [rule]
  dsimp only
  rw [FieldValue.storing_result, storedResult_self]
  rfl

end SetTrunk

/-- Settles O41: the checks in their order, then each field's rule and what it does to the receiver. -/
theorem setInputTrunkWritesItsField : Obligations.SetInputTrunkWritesItsField := by
  intro sender object field value s idle v may answers
  have judged {j : Judged} (h : setTrunk sender.originator object field value s = j) (plain : j.after = []) :
      answers j.state j.result j.items :=
    exec_plain (c := .set 3 object field value) rfl rfl idle (h.trans (by rw [← plain]))
  refine ⟨fun h => judged (setTrunk_noField h) rfl, fun h none => judged (setTrunk_noRight h none) rfl,
    fun h right none => judged (setTrunk_noTrunk h right none) rfl, ?_⟩
  intro right n trunk x stores puts
  have badValue {k : Nat} (here : field.toNat = k) (known : k < 3) (rule : judgeTrunkField k v = none) : answers s .badValue [] := by
    subst here
    exact judged (setTrunk_badValue known right trunk rule) rfl
  have written {k : Nat} (here : field.toNat = k) (known : k < 3) (rule : judgeTrunkField k v = some (.storing v v)) :
      answers ((s.updInput n fun _ => x.writeField k v).afterReceiver s n) .done (item v) := by
    subst here
    exact judged (setTrunk_stored known right trunk rule) rfl
  -- a write that leaves the receiver alone
  have stored {k : Nat} {u : InputTrunk} (here : field.toNat = k) (known : k < 3) (rule : judgeTrunkField k v = some (.storing v v))
      (leaves : x.writeField k v = u) (same : u.receiver = x.receiver) : stores u := by
    have h := written here known rule
    rw [leaves, State.afterReceiver_kept s n same] at h
    exact h
  -- a write that puts the receiver into a state
  have put {k : Nat} {u : InputTrunk} {state : ReceiverState} (here : field.toNat = k) (known : k < 3)
      (rule : judgeTrunkField k v = some (.storing v v)) (leaves : x.writeField k v = { u with receiver := x.receiver.put state })
      (unframed : state ≠ .framed) : puts state u := by
    have h := written here known rule
    rw [leaves] at h
    obtain ⟨feeds, after, each⟩ := s.afterReceiver_put n (u := { u with receiver := x.receiver.put state }) unframed
    rw [after] at h
    exact ⟨feeds, h, each⟩
  refine ⟨fun h => ⟨fun two same => stored h (by decide) (structural_storing two) (if_pos same) rfl,
      fun two change => put h (by decide) (structural_storing two) (if_neg change) nofun,
      fun high => badValue h (by decide) (structural_none high)⟩,
    fun h => ⟨fun zero => stored h (by decide) (structural_storing (by omega)) ?_ rfl,
      fun k target => stored h (by decide) (structural_storing (by omega)) ?_ rfl,
      fun high => badValue h (by decide) (structural_none high)⟩,
    fun h => ⟨fun two same => stored h (by decide) (structural_storing two) (if_pos same) rfl,
      fun two change disabled => stored h (by decide) (structural_storing two) ((if_neg change).trans ?_) rfl,
      fun two change enabled => put h (by decide) (structural_storing two) ((if_neg change).trans ?_) nofun,
      fun high => badValue h (by decide) (structural_none high)⟩⟩
  · change ({ x with forward := (forwardOf v).getD none } : InputTrunk) = _
    rw [zero]
    rfl
  · change ({ x with forward := (forwardOf v).getD none } : InputTrunk) = _
    rw [target]
    fin_cases k <;> rfl
  · rw [if_neg (by rw [disabled]; decide)]
  · rw [if_pos enabled]

end Sys2Proof.Machine
end

