-- ==== Sys2Proof/Proofs/SetPolicy.lean ====
section
/-! SUPPORT. SET of a kind policy field (R121, R132, R133). -/

namespace Sys2Proof.Machine

theorem State.LineLaw.offerClears {s : State} (law : s.LineLaw) (rs : List (Fin 400)) : (s.offerClears rs).LineLaw := by
  unfold State.offerClears
  induction rs generalizing s with
  | nil => exact law
  | cons r rs ih => exact ih (law.offerAlarm .clear r)

/-- The CLEAR reports that an offer enters, and what then stands in the way of more (R136). -/
theorem State.take_alarmSpace (s : State) (rs : List (Fin 400)) (w : Vector AlarmRecord 400) (report : Fin 400 → AlarmReport) :
    let told := rs.take s.alarmSpace
    let t := s.withTold w (s.processor.reports ++ told.map fun r => .alarm (report r))
    told = rs ∨ 24 ≤ t.processor.alarmReports ∨ 32 ≤ t.processor.reports.length := by
  intro told t
  by_cases all : rs.length ≤ s.alarmSpace
  · exact .inl (List.take_of_length_le all)
  · have mapped : told.map (fun r => Report.alarm (report r)) = (told.map report).map .alarm := (List.map_map ..).symm
    have space : t.alarmSpace = s.alarmSpace - told.length := by
      change (s.withTold w (s.processor.reports ++ told.map fun r => .alarm (report r))).alarmSpace = _
      rw [mapped, State.alarmSpace_reports s w s.alarms.records, List.length_map]
      rfl
    have full : told.length = s.alarmSpace := List.length_take_of_le (by omega)
    have none : min (24 - t.processor.alarmReports) (32 - t.processor.reports.length) = 0 := space.trans (by omega)
    omega

theorem mem_standingOf {s : State} {k : Fin 18} {r : Fin 400} :
    r ∈ s.standingOf (kindRecords k) ↔ recordKind r = k ∧ s.alarms.records[r].standing = true := by
  simp only [State.standingOf, kindRecords, List.mem_filter, List.mem_finRange, true_and, decide_eq_true_eq]

theorem standingOf_kindRecords (s : State) (k : Fin 18) :
    s.standingOf (kindRecords k) = (List.finRange 400).filter fun r => decide (recordKind r = k) && s.alarms.records[r].standing := by
  rw [State.standingOf, kindRecords, List.filter_filter]
  exact List.filter_congr fun r _ => Bool.and_comm ..

theorem State.policyOf_writePolicy (s : State) {k : Fin 18} {r : Fin 400} (own : recordKind r = k) (field v : Nat) :
    (s.writePolicy k field v).alarms.policyOf r = s.alarms.policies[k].writeField field v := by
  subst own
  exact updAt_same ..

theorem AlarmUnit.policyOf_congr {a b : AlarmUnit} (same : a.policies = b.policies) (r : Fin 400) : a.policyOf r = b.policyOf r :=
  congrArg (·[recordKind r]) same

/-- A disable moves the policies, the records, the lines and the report queue alone. -/
theorem State.withTold_formLines (s : State) (policies : Vector KindPolicy 18) (v w : Vector AlarmRecord 400) (reply : Report)
    (q : List Report) :
    let t := (({ s with alarms := { s.alarms with policies := policies, records := v } }.formLines).pushReport reply).withTold w q
    t = { s with
      alarms := { s.alarms with policies := t.alarms.policies, records := t.alarms.records, major := t.alarms.major,
                                minor := t.alarms.minor }
      processor := { s.processor with reports := t.processor.reports } } := rfl

theorem State.forceKind_records (s : State) (k : Fin 18) (r : Fin 400) :
    (s.forceKind k).alarms.records[r] = if recordKind r = k then s.alarms.records[r].forced else s.alarms.records[r] :=
  mapAll_getElem ..

theorem parameter1Top_eq (k : Nat) :
    parameter1Top k = if k = 1 then 8896 else if k = 2 ∨ k = 3 then 255 else if k = 4 then 256 else 8388608 := by
  unfold parameter1Top
  split <;> simp_all

/-! ### The judgement -/

section SetPolicy

variable {s : State} {o object field : Byte} {value : Word32}

theorem setPolicy_noField (h : 9 ≤ field.toNat) : setPolicy o object field value s = refuse s .badValue := if_pos h

theorem setPolicy_noRight (h : field.toNat < 9) (may : s.holdsRight o .alarm = false) :
    setPolicy o object field value s = refuse s .noRight := by
  rw [setPolicy, if_neg (Nat.not_le.mpr h), if_pos (not_holds may)]

theorem setPolicy_noKind (h : field.toNat < 9) (may : s.holdsRight o .alarm = true) (none : 18 ≤ object.toNat) :
    setPolicy o object field value s = refuse s .badValue := by
  rw [setPolicy, if_neg (Nat.not_le.mpr h), if_neg (holds may), below_none none]

theorem setPolicy_badValue (h : field.toNat < 9) (may : s.holdsRight o .alarm = true) {k : Fin 18} (kind : object.toNat = k.val)
    (rule : judgePolicyField k.val field.toNat value.toNat = none) : setPolicy o object field value s = refuse s .badValue := by
  rw [setPolicy, if_neg (Nat.not_le.mpr h), if_neg (holds may), below_eq kind]
  dsimp only
  rw [rule]

/-- A write that disables no enabled kind. -/
theorem setPolicy_stored (h : field.toNat < 9) (may : s.holdsRight o .alarm = true) {k : Fin 18} (kind : object.toNat = k.val) {n : Nat}
    (rule : judgePolicyField k.val field.toNat value.toNat = some (.storing value.toNat n))
    (keeps : ¬ (field = 0 ∧ n = 0 ∧ s.alarms.policies[k].enabled = true)) :
    setPolicy o object field value s =
      { state := (s.writePolicy k field.toNat n).formLines, result := storedResult value.toNat n, items := item n, after := [] } := by
  rw [setPolicy, if_neg (Nat.not_le.mpr h), if_neg (holds may), below_eq kind]
  dsimp only
  rw [rule]
  dsimp only
  rw [FieldValue.storing_result, FieldValue.storing_stored, if_neg keeps]

/-- A write that disables an enabled kind (R132). -/
theorem setPolicy_disable (here : field.toNat = 0) (may : s.holdsRight o .alarm = true) {k : Fin 18} (kind : object.toNat = k.val)
    (zero : value.toNat = 0) (on : s.alarms.policies[k].enabled = true) :
    setPolicy o object field value s =
      { state := ((s.writePolicy k 0 0).forceKind k).formLines, result := .done, items := item 0
        after := [.clears (s.standingOf (kindRecords k))] } := by
  have known : field.toNat < 9 := by omega
  have rule : judgePolicyField k.val 0 0 = some (.storing 0 0) := structural_storing (by decide)
  rw [setPolicy, if_neg (Nat.not_le.mpr known), if_neg (holds may), below_eq kind]
  dsimp only
  rw [here, zero, rule]
  dsimp only
  rw [FieldValue.storing_result, FieldValue.storing_stored, if_pos ⟨BitVec.eq_of_toNat_eq here, rfl, on⟩]
  rfl

end SetPolicy

/-- The answer to a SET that disables an enabled kind (R132, R133, R136). -/
theorem State.disableKind_told (s : State) (sender : Sender) (k : Fin 18) :
    let y := s.alarms.policies[k]
    let L := (List.finRange 400).filter fun r => decide (recordKind r = k) && s.alarms.records[r].standing
    let u := (((s.writePolicy k 0 0).forceKind k).formLines).replied sender 1 0 .done (item 0)
    let t := u.offerClears L
    ∃ told : List (Fin 400), t.LineLaw ∧
      t.alarms.policies = s.alarms.policies.set k { y with enabled := false } ∧
      told <+: L ∧ (told = L ∨ 24 ≤ t.processor.alarmReports ∨ 32 ≤ t.processor.reports.length) ∧
      t.processor.reports = s.processor.reports ++
        .reply { tag := sender.tag, originator := sender.originator, code := 1, form := 0, result := .done, items := item 0 } ::
        told.map (fun r => .alarm
          { type := .clear, index := r, state := .clear, severity := y.severity, acknowledged := false
            timeOfRaise := s.alarms.records[r].timeOfRaise, houseTime := s.time.houseTime }) ∧
      (∀ r : Fin 400, recordKind r ≠ k → t.alarms.records[r] = s.alarms.records[r]) ∧
      (∀ r : Fin 400, recordKind r = k → t.alarms.records[r] =
        { state := .clear, count := 0, repeatCount := 0, repeatsDue := 0, acknowledged := false
          unreported := if r ∈ told then false else s.alarms.records[r].unreported || s.alarms.records[r].standing
          timeOfRaise := s.alarms.records[r].timeOfRaise }) ∧
      t = { s with
        alarms := { s.alarms with policies := t.alarms.policies, records := t.alarms.records, major := t.alarms.major,
                                  minor := t.alarms.minor }
        processor := { s.processor with reports := t.processor.reports } } := by
  intro y L u t
  have member {r : Fin 400} : r ∈ L ↔ recordKind r = k ∧ s.alarms.records[r].standing = true := by
    rw [← mem_standingOf, standingOf_kindRecords]
  have forced (r : Fin 400) : u.alarms.records[r] = if recordKind r = k then s.alarms.records[r].forced else s.alarms.records[r] :=
    (s.writePolicy k 0 0).forceKind_records k r
  have policy (r : Fin 400) (own : recordKind r = k) : u.alarms.policyOf r = { y with enabled := false } := by
    have same : u.alarms.policies = (s.writePolicy k 0 0).alarms.policies := rfl
    exact (AlarmUnit.policyOf_congr same r).trans (s.policyOf_writePolicy own 0 0)
  have law : t.LineLaw := ((State.formLines_lineLaw _).of_alarms (t := u) rfl).offerClears L
  obtain ⟨w, told, records⟩ := u.offerClears_told L ((List.nodup_finRange 400).filter _)
  have form (r : Fin 400) (own : recordKind r = k) :
      u.reportOf u.alarms.records (r, .clear) =
        .alarm { type := .clear, index := r, state := .clear, severity := y.severity, acknowledged := false
                 timeOfRaise := s.alarms.records[r].timeOfRaise, houseTime := s.time.houseTime } := by
    simp only [State.reportOf, State.formAlarm, State.withTold_records, State.withTold_policyOf, State.withTold_time, forced r, policy r own,
      if_pos own]
    rfl
  have reports : t = u.withTold w (u.processor.reports ++ (L.take u.alarmSpace).map fun r => .alarm
      { type := .clear, index := r, state := .clear, severity := y.severity, acknowledged := false
        timeOfRaise := s.alarms.records[r].timeOfRaise, houseTime := s.time.houseTime }) := by
    refine told.trans (congrArg (fun q => u.withTold w (u.processor.reports ++ q)) ?_)
    exact List.map_congr_left fun r inside => form r (member.mp (List.mem_of_mem_take inside)).1
  refine ⟨L.take u.alarmSpace, law, ?_, List.take_prefix .., ?_, ?_, fun r other => ?_, fun r own => ?_, ?_⟩
  · rw [reports]
    rfl
  · rw [reports]
    exact u.take_alarmSpace L w _
  · rw [reports]
    exact (List.append_assoc ..).trans rfl
  · rw [reports]
    refine (records r).trans ?_
    rw [if_neg fun inside => other (member.mp inside).1, forced, if_neg other]
  · rw [reports]
    refine (records r).trans ?_
    rw [forced, if_pos own]
    by_cases stands : s.alarms.records[r].standing = true
    · rw [if_pos (member.mpr ⟨own, stands⟩), stands, Bool.or_true]
      by_cases enters : r ∈ L.take u.alarmSpace <;> simp only [enters, AlarmRecord.forced] <;> rfl
    · have outside : r ∉ L := fun inside => stands (member.mp inside).2
      rw [if_neg outside, if_neg fun inside => outside (List.mem_of_mem_take inside), Bool.not_eq_true _ |>.mp stands, Bool.or_false]
      rfl
  · rw [reports]
    exact s.withTold_formLines _ _ w _ _

/-- Settles O42: the checks in their order, then each field's rule, with what a disable does to the kind's records. -/
theorem setKindPolicyWritesItsField : Obligations.SetKindPolicyWritesItsField := by
  intro sender object field value s idle v may answers
  have judged {j : Judged} (h : setPolicy sender.originator object field value s = j) (plain : j.after = []) :
      answers j.state j.result j.items :=
    exec_plain (c := .set 4 object field value) rfl rfl idle (h.trans (by rw [← plain]))
  refine ⟨fun h => judged (setPolicy_noField h) rfl, fun h none => judged (setPolicy_noRight h none) rfl,
    fun h right none => judged (setPolicy_noKind h right none) rfl, ?_⟩
  intro right k kind y written stores
  have badValue {j : Nat} (here : field.toNat = j) (known : j < 9) (rule : judgePolicyField k.val j v = none) : answers s .badValue [] := by
    subst here
    exact judged (setPolicy_badValue known right kind rule) rfl
  have stored {j n : Nat} {record : KindPolicy} (here : field.toNat = j) (known : j < 9)
      (rule : judgePolicyField k.val j v = some (.storing v n)) (leaves : y.writeField j n = record)
      (keeps : ¬ (j = 0 ∧ n = 0 ∧ y.enabled = true)) : stores n record := by
    subst here
    subst leaves
    exact ⟨_, _, State.formLines_lineLaw (s.writePolicy k field.toNat n),
      judged (setPolicy_stored known right kind rule fun h => keeps ⟨congrArg BitVec.toNat h.1, h.2⟩) rfl⟩
  have number {j lo hi : Nat} {record : KindPolicy} (here : field.toNat = j) (known : j < 9) (range : lo ≤ hi)
      (rule : judgePolicyField k.val j v = numeric lo hi v) (leaves : y.writeField j (within lo hi v) = record) (filled : j ≠ 0) :
      stores (within lo hi v) record :=
    stored here known (rule.trans (numeric_storing range v)) leaves fun h => filled h.1
  refine ⟨fun h high => badValue h (by decide) (structural_none high), fun h one => stored h (by decide) (structural_storing (by omega)) ?_ ?_,
    fun h zero off => stored h (by decide) (structural_storing (by omega)) ?_ ?_, fun h zero on => ?_,
    fun h => ⟨fun zero => stored h (by decide) (structural_storing (by omega)) ?_ nofun,
      fun one => stored h (by decide) (structural_storing (by omega)) ?_ nofun,
      fun two => stored h (by decide) (structural_storing (by omega)) ?_ nofun,
      fun high => badValue h (by decide) (structural_none high)⟩,
    fun h => number h (by decide) (by decide) rfl rfl nofun, fun h => number h (by decide) (by decide) rfl rfl nofun,
    fun h => ⟨fun zero => stored h (by decide) (structural_storing (by omega)) ?_ nofun,
      fun one => stored h (by decide) (structural_storing (by omega)) ?_ nofun,
      fun high => badValue h (by decide) (structural_none high)⟩,
    fun h => number h (by decide) (by decide) rfl rfl nofun, fun h => number h (by decide) (by decide) rfl rfl nofun,
    fun h => ?_, fun h => ?_⟩
  · change ({ y with enabled := decide (v = 1) } : KindPolicy) = _
    rw [one]
    rfl
  · rintro ⟨_, zero, _⟩
    omega
  · change ({ y with enabled := decide (v = 1) } : KindPolicy) = _
    rw [zero]
    rfl
  · rintro ⟨_, _, on⟩
    exact Bool.false_ne_true (off.symm.trans on)
  · have answer : exec (.setKindPolicy sender object field value) s =
        .next (((((s.writePolicy k 0 0).forceKind k).formLines).replied sender 1 0 .done (item 0)).offerClears
          (s.standingOf (kindRecords k))) := by
      rw [exec_idle (c := .set 4 object field value) rfl rfl idle, State.answered_eq]
      have disabled : judge sender.originator (.set 4 object field value) s = _ := setPolicy_disable h right kind zero on
      rw [disabled]
      rfl
    rw [standingOf_kindRecords] at answer
    obtain ⟨told, law⟩ := s.disableKind_told sender k
    exact ⟨_, told, answer, law⟩
  · change ({ y with severity := (severityOf v).getD .none } : KindPolicy) = _
    rw [zero]
    rfl
  · change ({ y with severity := (severityOf v).getD .none } : KindPolicy) = _
    rw [one]
    rfl
  · change ({ y with severity := (severityOf v).getD .none } : KindPolicy) = _
    rw [two]
    rfl
  · change ({ y with latching := decide (v = 1) } : KindPolicy) = _
    rw [zero]
    rfl
  · change ({ y with latching := decide (v = 1) } : KindPolicy) = _
    rw [one]
    rfl
  · intro top
    refine number h (by decide) (Nat.zero_le _) ?_ rfl nofun
    exact congrArg (numeric 0 · v) (parameter1Top_eq k.val)
  · intro top
    exact number h (by decide) (Nat.zero_le _) rfl rfl nofun

end Sys2Proof.Machine
end

