-- ==== Sys2Proof/Proofs/Groups.lean ====
section
/-! SUPPORT. The group forms judge each selected programme as the single form would (R177). -/

namespace Sys2Proof.Machine

/-- The result accepts its command (R169). -/
def CommandResult.accepts (r : CommandResult) : Prop := r = .done ∨ r = .clamped

/-- Judging a programme reads that programme and what no judgement moves, and writes that programme alone: `out` is what it leaves of each
programme, and `res` its result. -/
def ActsAlone (one : State → Fin 16 → State × CommandResult) (s : State) (out : Fin 16 → Programme) (res : Fin 16 → CommandResult) : Prop :=
  ∀ (v : Vector Programme 16) (p : Fin 16), v[p] = s.programmes[p] →
    one { s with programmes := v } p = ({ s with programmes := updAt v p fun _ => out p }, res p)

theorem judgeEach_alone {one : State → Fin 16 → State × CommandResult} {s : State} {out : Fin 16 → Programme} {res : Fin 16 → CommandResult}
    (alone : ActsAlone one s out res) {ps : List (Fin 16)} (once : ps.Nodup) {v : Vector Programme 16}
    (fresh : ∀ p ∈ ps, v[p] = s.programmes[p]) (g : GroupTally) :
    ∃ w : Vector Programme 16,
      judgeEach one ps { s with programmes := v } g = ({ s with programmes := w }, ps.foldl (fun g p => g.enter p (res p)) g) ∧
      ∀ p : Fin 16, w[p] = if p ∈ ps then out p else v[p] := by
  induction ps generalizing v g with
  | nil => exact ⟨v, rfl, fun p => (if_neg List.not_mem_nil).symm⟩
  | cons p ps ih =>
    obtain ⟨absent, once⟩ := List.nodup_cons.mp once
    have others : ∀ q ∈ ps, (updAt v p fun _ => out p)[q] = s.programmes[q] := fun q inside => by
      rw [updAt_other v p q _ fun e => absent (e ▸ inside)]
      exact fresh q (List.mem_cons_of_mem p inside)
    obtain ⟨w, judged, each⟩ := ih once others (g.enter p (res p))
    refine ⟨w, ?_, fun q => ?_⟩
    · rw [judgeEach, alone v p (fresh p List.mem_cons_self)]
      exact judged
    · rw [each q]
      by_cases e : p = q
      · subst e
        rw [if_neg absent, if_pos List.mem_cons_self, updAt_same]
      · rw [updAt_other v p q _ e]
        exact if_congr ⟨fun h => List.mem_cons_of_mem p h, fun h => (List.mem_cons.mp h).resolve_left (Ne.symm e)⟩ rfl rfl

/-! ### The tally (R177) -/

section Tally

variable (res : Fin 16 → CommandResult)

theorem one_shiftLeft_getLsbD (i p : Fin 16) : (1#16 <<< p.val).getLsbD i.val = decide (p = i) := by
  rw [BitVec.getLsbD_shiftLeft, BitVec.getLsbD_one, Bool.eq_iff_iff]
  simp only [Bool.and_eq_true, Bool.not_eq_true', decide_eq_true_eq, decide_eq_false_iff_not, Fin.ext_iff]
  omega

theorem GroupTally.enter_accepted (g : GroupTally) (p : Fin 16) {r : CommandResult} (h : r.accepts) :
    g.enter p r = { g with mask := g.mask ||| (1#16 <<< p.val), clamped := g.clamped || decide (r = .clamped) } := if_pos h

theorem GroupTally.enter_refused (g : GroupTally) (p : Fin 16) {r : CommandResult} (h : ¬ r.accepts) :
    g.enter p r = { g with first := g.first.or (some (p, r)) } := by
  refine (if_neg h).trans ?_
  cases first : g.first <;> simp only [Option.or]

theorem GroupTally.foldl_mask (ps : List (Fin 16)) (g : GroupTally) (i : Fin 16) :
    (ps.foldl (fun g p => g.enter p (res p)) g).mask.getLsbD i.val = true ↔ g.mask.getLsbD i.val = true ∨ i ∈ ps ∧ (res i).accepts := by
  induction ps generalizing g with
  | nil => simp
  | cons p ps ih =>
    rw [List.foldl_cons, ih, List.mem_cons]
    by_cases accepts : (res p).accepts
    · rw [g.enter_accepted p accepts, BitVec.getLsbD_or, one_shiftLeft_getLsbD, Bool.or_eq_true, decide_eq_true_eq]
      constructor
      · rintro ((h | rfl) | h)
        · exact .inl h
        · exact .inr ⟨.inl rfl, accepts⟩
        · exact .inr ⟨.inr h.1, h.2⟩
      · rintro (h | ⟨rfl | h, k⟩)
        · exact .inl (.inl h)
        · exact .inl (.inr rfl)
        · exact .inr ⟨h, k⟩
    · rw [g.enter_refused p accepts]
      refine or_congr_right ⟨fun h => ⟨.inr h.1, h.2⟩, fun h => ⟨h.1.resolve_left fun e => accepts (e ▸ h.2), h.2⟩⟩

theorem GroupTally.foldl_clamped (ps : List (Fin 16)) (g : GroupTally) :
    (ps.foldl (fun g p => g.enter p (res p)) g).clamped = true ↔ g.clamped = true ∨ ∃ p ∈ ps, res p = .clamped := by
  induction ps generalizing g with
  | nil => simp
  | cons p ps ih =>
    rw [List.foldl_cons, ih, List.exists_mem_cons_iff]
    by_cases accepts : (res p).accepts
    · rw [g.enter_accepted p accepts, Bool.or_eq_true, decide_eq_true_eq, or_assoc]
    · rw [g.enter_refused p accepts]
      exact or_congr_right ⟨.inr, fun h => h.resolve_left fun e => accepts (.inr e)⟩

/-- With every programme accepted there is no first refusal. -/
theorem GroupTally.foldl_first_none (ps : List (Fin 16)) (g : GroupTally) (all : ∀ p ∈ ps, (res p).accepts) :
    (ps.foldl (fun g p => g.enter p (res p)) g).first = g.first := by
  induction ps generalizing g with
  | nil => rfl
  | cons p ps ih =>
    rw [List.foldl_cons, ih _ fun q h => all q (List.mem_cons_of_mem p h), g.enter_accepted p (all p List.mem_cons_self)]

/-- A refusal once entered stays the first. -/
theorem GroupTally.foldl_first_some (ps : List (Fin 16)) {g : GroupTally} {x : Fin 16 × CommandResult} (first : g.first = some x) :
    (ps.foldl (fun g p => g.enter p (res p)) g).first = some x := by
  induction ps generalizing g with
  | nil => exact first
  | cons p ps ih =>
    refine ih ?_
    change (g.enter p (res p)).first = some x
    by_cases accepts : (res p).accepts
    · rw [g.enter_accepted p accepts]
      exact first
    · rw [g.enter_refused p accepts, first]
      rfl

/-- The first refusal of an ascending list is that of its lowest programme refused. -/
theorem GroupTally.foldl_first (ps : List (Fin 16)) (ascending : ps.Pairwise (· < ·)) {g : GroupTally} (fresh : g.first = none) {p : Fin 16}
    (member : p ∈ ps) (refused : ¬ (res p).accepts) (lowest : ∀ q < p, q ∈ ps → (res q).accepts) :
    (ps.foldl (fun g p => g.enter p (res p)) g).first = some (p, res p) := by
  induction ps generalizing g with
  | nil => nomatch member
  | cons q ps ih =>
    obtain ⟨below, ascending⟩ := List.pairwise_cons.mp ascending
    rw [List.foldl_cons]
    obtain rfl | inside := List.mem_cons.mp member
    · refine foldl_first_some res ps ?_
      rw [g.enter_refused p refused, fresh]
      rfl
    · refine ih ascending ?_ inside fun r h k => lowest r h (List.mem_cons_of_mem q k)
      rw [g.enter_accepted q (lowest q (below p inside) List.mem_cons_self)]
      exact fresh

end Tally

theorem mem_selected {selection : BitVec 16} {p : Fin 16} : p ∈ selected selection ↔ selection.getLsbD p.val = true := by
  simp only [selected, List.mem_filter, List.mem_finRange, true_and]

theorem selected_ascending (selection : BitVec 16) : (selected selection).Pairwise (· < ·) := (List.pairwise_lt_finRange 16).filter _

/-! ### The reply of a group form (R184) -/

theorem groupReply_accepted (s : State) {g : GroupTally} (empty : g.first = none) :
    ∃ (n : Nat) (fill : Byte), groupReply s g none =
      { state := { s with freeCount := n }, result := if g.clamped = true then .clamped else .done
        items := [g.mask.extractLsb' 8 8, g.mask.extractLsb' 0 8, 255, fill], after := [] } := by
  unfold groupReply
  rw [empty]
  exact ⟨_, _, rfl⟩

theorem groupReply_refused (s : State) {g : GroupTally} {p : Fin 16} {r : CommandResult} (first : g.first = some (p, r)) :
    groupReply s g none =
      { state := s, result := r
        items := [g.mask.extractLsb' 8 8, g.mask.extractLsb' 0 8, BitVec.ofNat 8 p.val, BitVec.ofNat 8 r.code], after := [] } := by
  unfold groupReply
  rw [first]
  rfl

/-- A group form whose whole answer is a refusal (R177). -/
theorem groupReply_whole (s : State) (r : CommandResult) :
    ∃ (n : Nat) (fill : Byte), groupReply s GroupTally.initial (some r) =
      { state := { s with freeCount := n }, result := r, items := [0, 0, 255, fill], after := [] } := ⟨_, _, rfl⟩

/-! ### Single and group form -/

/-- A group form over judgements that act alone judges each programme as the single form does. -/
theorem judgesEachAlone {s : State} {sender : Sender} {selection : BitVec 16} {code form singleCode singleForm : Byte}
    {one : State → Fin 16 → State × CommandResult} {out : Fin 16 → Programme} {res : Fin 16 → CommandResult} (alone : ActsAlone one s out res)
    {single : Fin 16 → State → Host.Outcome State Fault Refusal} {group : State → Host.Outcome State Fault Refusal}
    (singles : ∀ p, ∃ items, single p s = .next ((one s p).1.replied sender singleCode singleForm (one s p).2 items))
    (whole : group s = .next ((judgeGroup selection one s).state.replied sender code form (judgeGroup selection one s).result
      (judgeGroup selection one s).items)) : s.JudgesEachAlone sender selection code form single group := by
  intro u r answers accepts
  have left (p : Fin 16) : one s p = ({ s with programmes := updAt s.programmes p fun _ => out p }, res p) := alone s.programmes p rfl
  have agrees (p : Fin 16) : (u p).programmes[p] = out p ∧ (r p).result = res p := by
    obtain ⟨next, reports⟩ := answers p
    obtain ⟨items, answer⟩ := singles p
    rw [left p, next] at answer
    injection answer with state
    rw [state] at reports ⊢
    have reply := List.append_cancel_left reports
    injection reply with reply
    injection reply with reply
    rw [← reply]
    exact ⟨updAt_same .., rfl⟩
  have result (p : Fin 16) : (r p).result = res p := (agrees p).2
  obtain ⟨w, judged, each⟩ := judgeEach_alone alone ((selected_ascending selection).imp (fun h => h.ne)) (fun _ _ => rfl) GroupTally.initial
  have mask := GroupTally.foldl_mask res (selected selection) GroupTally.initial
  have clamped := GroupTally.foldl_clamped res (selected selection) GroupTally.initial
  have noFirst := GroupTally.foldl_first_none res (selected selection) GroupTally.initial
  have firstOf := fun p => GroupTally.foldl_first res (selected selection) (selected_ascending selection) (g := GroupTally.initial) rfl (p := p)
  have reply : judgeGroup selection one s = groupReply { s with programmes := w } _ none :=
    congrArg (fun x : State × GroupTally => groupReply x.1 x.2 none) judged
  revert mask clamped noFirst firstOf reply
  generalize (selected selection).foldl (fun g p => g.enter p (res p)) GroupTally.initial = g
  intro mask clamped noFirst firstOf reply
  have programmes (p : Fin 16) : w[p] = if selection.getLsbD p.val then (u p).programmes[p] else s.programmes[p] := by
    rw [each p, (agrees p).1]
    exact if_congr mem_selected rfl rfl
  have masked (p : Fin 16) : g.mask.getLsbD p.val = true ↔ selection.getLsbD p.val = true ∧ accepts p := by
    rw [mask p, mem_selected]
    change _ ∨ _ ↔ _ ∧ (r p).result.accepts
    rw [result p]
    exact or_iff_right (by simp [GroupTally.initial])
  rw [reply] at whole
  by_cases all : ∀ p : Fin 16, selection.getLsbD p.val = true → accepts p
  · have none : g.first = none := noFirst fun p member => result p ▸ all p (mem_selected.mp member)
    obtain ⟨n, fill, answer⟩ := groupReply_accepted { s with programmes := w } none
    rw [answer] at whole
    refine ⟨{ s with programmes := w, freeCount := n }, g.mask, 255, fill, _, whole, programmes, masked, fun _ => ⟨rfl, ?_⟩,
      fun p member refused _ => absurd (all p member) refused⟩
    refine if_congr (clamped.trans ?_) rfl rfl
    simp only [result, mem_selected]
    exact or_iff_right Bool.false_ne_true
  · simp only [not_forall] at all
    obtain ⟨i, hi, hi'⟩ := all
    obtain ⟨p, ⟨member, refused⟩, lowest⟩ :=
      wellFounded_lt.has_min {p : Fin 16 | selection.getLsbD p.val = true ∧ ¬ accepts p} ⟨i, hi, hi'⟩
    have below (q : Fin 16) (less : q < p) (inside : selection.getLsbD q.val = true) : accepts q :=
      by_contra fun h => lowest q ⟨inside, h⟩ less
    have first : g.first = some (p, res p) := firstOf p (mem_selected.mpr member) (result p ▸ refused)
      fun q less inside => result q ▸ below q less (mem_selected.mp inside)
    rw [groupReply_refused { s with programmes := w } first] at whole
    refine ⟨{ s with programmes := w }, g.mask, _, _, _, whole, programmes, masked, fun h => absurd (h p member) refused,
      fun q member' refused' lowest' => ?_⟩
    have same : q = p := by
      rcases lt_trichotomy q p with less | e | more
      · exact absurd (below q less member') refused'
      · exact e
      · exact absurd (lowest' p more member) refused
    rw [same, result p]
    exact ⟨rfl, rfl, rfl⟩

/-! ### The judgements of one programme act alone -/

/-- A command on one programme, refused by right or hold, or carried out there with the hold taken (R168, R172). -/
theorem judgeHold_programmes {s : State} (o : Byte) (cls : RightClass) {v : Vector Programme 16} {p : Fin 16} (same : v[p] = s.programmes[p]) :
    { s with programmes := v }.judgeHold o cls p = s.judgeHold o cls p := by
  unfold State.judgeHold State.outranks
  change (if (!s.holdsRight o cls) = true then _ else if decide (s.priorityOf o < v[p].holds.of cls) = true then _ else _) = _
  rw [same]

/-- A programme written as it stands. -/
theorem State.updProgramme_self (s : State) (p : Fin 16) : (s.updProgramme p fun _ => s.programmes[p]) = s :=
  congrArg (fun v => { s with programmes := v }) (updAt_id s.programmes p)

/-- What a judgement leaves of a programme, and its result, when `g` says what it does once right and hold are given. -/
def judgedBy (g : Programme → Programme × CommandResult) (hold : Option CommandResult) (q : Programme) : Programme × CommandResult :=
  match hold with
  | some r => (q, r)
  | none => g q

/-- A judgement that refuses by right and hold, and else reads and writes its own programme, acts alone. -/
theorem actsAlone {one : State → Fin 16 → State × CommandResult} {o : Byte} {cls : RightClass} (s : State)
    {g : Fin 8 → Programme → Programme × CommandResult}
    (refused : ∀ (t : State) p r, t.judgeHold o cls p = some r → one t p = (t, r))
    (carried : ∀ (t : State) p, t.judgeHold o cls p = none →
      one t p = (t.updProgramme p fun _ => (g (t.priorityOf o) t.programmes[p]).1, (g (t.priorityOf o) t.programmes[p]).2)) :
    ∃ out res, ActsAlone one s out res := by
  refine ⟨fun p => (judgedBy (g (s.priorityOf o)) (s.judgeHold o cls p) s.programmes[p]).1,
    fun p => (judgedBy (g (s.priorityOf o)) (s.judgeHold o cls p) s.programmes[p]).2, fun v p same => ?_⟩
  have hold := judgeHold_programmes (s := s) o cls same
  dsimp only
  cases h : s.judgeHold o cls p with
  | some r =>
    have kept := State.updProgramme_self { s with programmes := v } p
    rw [refused _ p r (hold.trans h)]
    refine Prod.ext (kept.symm.trans ?_) rfl
    exact congrArg (fun q => { s with programmes := updAt v p fun _ => q }) same
  | none =>
    rw [carried _ p (hold.trans h)]
    exact congrArg (fun q => ({ s with programmes := updAt v p fun _ => (g (s.priorityOf o) q).1 }, (g (s.priorityOf o) q).2)) same

/-- What a write does to a programme (R28, R172). -/
def writeOf (cls : RightClass) (field v : Nat) (priority : Fin 8) (q : Programme) : Programme × CommandResult :=
  match judgeProgrammeField q field v with
  | none => (q, .badValue)
  | some fv => ((q.writeField field fv.stored).held cls priority, fv.result)

theorem judgeHold_none {s : State} {o : Byte} {cls : RightClass} {p : Fin 16} (h : s.judgeHold o cls p = none) : s.MayWrite o cls p := by
  unfold State.judgeHold at h
  cases right : s.holdsRight o cls with
  | false => simp [right] at h
  | true =>
    cases rank : s.outranks o cls p with
    | false => exact ⟨right, rank⟩
    | true => simp [right, rank] at h

theorem writeProgramme_alone (s : State) (o : Byte) (cls : RightClass) (field v : Nat) :
    ∃ out res, ActsAlone (fun t p => ((t.writeProgramme o cls field v p).state, (t.writeProgramme o cls field v p).result)) s out res := by
  refine actsAlone (o := o) (cls := cls) s (g := writeOf cls field v) (fun t p r h => ?_) fun t p h => ?_
  · rw [State.writeProgramme, h]
  · rw [State.writeProgramme_may (judgeHold_none h), writeOf]
    cases judgeProgrammeField t.programmes[p] field v with
    | none => exact Prod.ext (t.updProgramme_self p).symm rfl
    | some fv => rfl

/-- What a TAKE CANCEL does to a programme (R34). -/
def cancelOf (priority : Fin 8) (q : Programme) : Programme × CommandResult :=
  if q.take.isSome then ({ q with take := none }.held .route priority, .done) else (q, .busy)

theorem cancelTake_alone (s : State) (o : Byte) : ∃ out res, ActsAlone (cancelTake o) s out res := by
  refine actsAlone (o := o) (cls := .route) s (g := cancelOf) (fun t p r h => ?_) fun t p h => ?_
  · rw [cancelTake, h]
  · rw [cancelTake, h, cancelOf]
    dsimp only
    by_cases pending : t.programmes[p].take.isSome = true
    · rw [if_pos pending, if_pos pending, State.updProgramme_takeHold]
    · rw [if_neg pending, if_neg pending]
      exact Prod.ext (t.updProgramme_self p).symm rfl

/-- What a RESTART MEASUREMENT does to a programme (R98). -/
def restartOf (priority : Fin 8) (q : Programme) : Programme × CommandResult := (q.restartMeasurement.held .level priority, .done)

theorem restartMeter_alone (s : State) (o : Byte) : ∃ out res, ActsAlone (restartMeter o) s out res := by
  refine actsAlone (o := o) (cls := .level) s (g := restartOf) (fun t p r h => ?_) fun t p h => ?_
  · rw [restartMeter, h]
  · rw [restartMeter, h]
    dsimp only
    rw [State.updProgramme_takeHold]
    rfl

/-! ### The single forms -/

theorem programmeNumber (p : Fin 16) : (BitVec.ofNat 8 p.val).toNat = p.val := by
  rw [BitVec.toNat_ofNat]
  omega

/-- The single form for one programme leaves what judging it leaves, and answers with its result. -/
theorem judgeChoice_single {o : Byte} {cls : RightClass} {one : State → Fin 16 → State × CommandResult} (s : State) (p : Fin 16)
    (refused : ∀ r, s.judgeHold o cls p = some r → one s p = (s, r)) :
    judgeChoice o cls (.single (BitVec.ofNat 8 p.val)) one s = { state := (one s p).1, result := (one s p).2, items := [], after := [] } := by
  cases right : s.holdsRight o cls with
  | false =>
    rw [judgeChoice, if_pos (not_holds right), refused .noRight (judgeHold_noRight right p)]
    rfl
  | true => rw [judgeChoice, if_neg (holds right), below_eq (programmeNumber p)]

/-- A write that is refused changes nothing (R168). -/
theorem writeProgramme_refused {s : State} {o : Byte} {cls : RightClass} {field v : Nat} {p : Fin 16}
    (refused : ¬ (s.writeProgramme o cls field v p).result.accepts) : (s.writeProgramme o cls field v p).state = s := by
  cases hold : s.judgeHold o cls p with
  | some r => rw [State.writeProgramme, hold]
  | none =>
    rw [State.writeProgramme_may (judgeHold_none hold)] at refused ⊢
    cases rule : judgeProgrammeField s.programmes[p] field v with
    | none => rfl
    | some fv =>
      rw [rule] at refused
      exact absurd fv.result_accepts refused

/-- The SET of one programme leaves what its write leaves, and answers with its result. -/
theorem setProgramme_single (s : State) (o field : Byte) (value : Word32) (p : Fin 16) (h : field.toNat < 19) :
    ∃ items, setProgramme o (BitVec.ofNat 8 p.val) field value s =
      { state := (s.writeProgramme o (if field.toNat < 5 then .timing else .level) field.toNat value.toNat p).state
        result := (s.writeProgramme o (if field.toNat < 5 then .timing else .level) field.toNat value.toNat p).result
        items := items, after := [] } := by
  cases right : s.holdsRight o (if field.toNat < 5 then .timing else .level) with
  | false =>
    refine ⟨[], ?_⟩
    rw [setProgramme_noRight h right, writeProgramme_noRight right]
    rfl
  | true =>
    rw [setProgramme_right h right (programmeNumber p)]
    dsimp only
    by_cases accepts : (s.writeProgramme o (if field.toNat < 5 then .timing else .level) field.toNat value.toNat p).result.accepts
    · exact ⟨_, if_pos accepts⟩
    · refine ⟨[], (if_neg accepts).trans ?_⟩
      rw [writeProgramme_refused accepts]
      rfl

/-- The value stored by a write of a field that no rule refuses (R28). -/
theorem judgeProgrammeField_storing (q : Programme) {f v n : Nat} (stores : n =
      if f = 2 ∨ f = 3 then within 0 1048575 v else if f = 4 then within 0 4800 v
      else if f = 14 ∨ f = 15 then within 1 255 v else if f = 17 then within 1 8388607 v else if f = 18 then within 0 600 v
      else if f ∈ [6, 7, 8, 11, 12, 13] then within 0 255 v else v)
    (known : f < 19) (feed : f = 0 → v < 8) (set : f = 5 → v < 4) (flag : f ∈ [1, 9, 10, 16] → v < 2) (top : f = 12 → n ≤ q.level.gMax)
    (bottom : f = 13 → q.level.gMin ≤ n) : judgeProgrammeField q f v = some (.storing v n) := by
  interval_cases f <;> simp only [reduceIte, Nat.reduceEqDiff, List.mem_cons, List.not_mem_nil, or_false, or_self, or_true] at stores
  · exact stores.symm ▸ structural_storing (feed rfl)
  · exact stores.symm ▸ structural_storing (flag (by decide))
  · exact stores ▸ numeric_storing (by decide) v
  · exact stores ▸ numeric_storing (by decide) v
  · exact stores ▸ numeric_storing (by decide) v
  · exact stores.symm ▸ structural_storing (set rfl)
  · exact stores ▸ numeric_storing (by decide) v
  · exact stores ▸ numeric_storing (by decide) v
  · exact stores ▸ numeric_storing (by decide) v
  · exact stores.symm ▸ structural_storing (flag (by decide))
  · exact stores.symm ▸ structural_storing (flag (by decide))
  · exact stores ▸ numeric_storing (by decide) v
  · rw [judgeProgrammeField, numeric_storing (by decide), ← stores]
    exact related_storing (decide_eq_true (top rfl))
  · rw [judgeProgrammeField, numeric_storing (by decide), ← stores]
    exact related_storing (decide_eq_true (bottom rfl))
  · exact stores ▸ numeric_storing (by decide) v
  · exact stores ▸ numeric_storing (by decide) v
  · exact stores.symm ▸ structural_storing (flag (by decide))
  · exact stores ▸ numeric_storing (by decide) v
  · exact stores ▸ numeric_storing (by decide) v

/-! ### GROUP SET (R177) -/

theorem refusedForAll_iff {f v : Nat} :
    refusedForAll f v = true ↔ (f = 0 ∧ 8 ≤ v) ∨ (f = 5 ∧ 4 ≤ v) ∨ (f ∈ [1, 9, 10, 16] ∧ 2 ≤ v) := by
  unfold refusedForAll
  split <;> simp_all

section GroupSet

variable {s : State} {o field : Byte} {value : Word32} {selection : BitVec 16}

theorem judgeGroupSet_whole (refused : 19 ≤ field.toNat ∨ refusedForAll field.toNat value.toNat = true) :
    judgeGroupSet o selection field value s = groupReply s GroupTally.initial (some .badValue) := by
  unfold judgeGroupSet
  by_cases known : field.toNat < 19
  · rw [programmeFieldClass_eq known]
    exact if_pos (refused.resolve_left (Nat.not_le.mpr known))
  · rw [programmeFieldClass_none (Nat.not_lt.mp known)]

theorem judgeGroupSet_each (known : field.toNat < 19) (fair : ¬ refusedForAll field.toNat value.toNat = true) :
    judgeGroupSet o selection field value s =
      judgeGroup selection (fun t p =>
        ((t.writeProgramme o (if field.toNat < 5 then .timing else .level) field.toNat value.toNat p).state,
          (t.writeProgramme o (if field.toNat < 5 then .timing else .level) field.toNat value.toNat p).result)) s := by
  unfold judgeGroupSet
  rw [programmeFieldClass_eq known]
  exact if_neg fair

end GroupSet

/-- GROUP SET judges each selected programme as SET would. -/
theorem groupSet_judgesEachAlone {s : State} (idle : s.Idle) (sender : Sender) (selection : BitVec 16) {field : Byte} {value : Word32}
    (known : field.toNat < 19) (fair : ¬ refusedForAll field.toNat value.toNat = true) :
    s.JudgesEachAlone sender selection 2 0 (fun p => exec (.setProgrammeField sender (BitVec.ofNat 8 p.val) field value))
      (exec (.groupSet sender selection field value)) := by
  obtain ⟨out, res, alone⟩ := writeProgramme_alone s sender.originator (if field.toNat < 5 then .timing else .level) field.toNat value.toNat
  refine judgesEachAlone alone (singleCode := 1) (singleForm := 0) (fun p => ?_) ?_
  · obtain ⟨items, single⟩ := setProgramme_single s sender.originator field value p known
    exact ⟨items, exec_plain (c := .set 1 (BitVec.ofNat 8 p.val) field value) rfl rfl idle single⟩
  · exact exec_plain (c := .groupSet selection field value) rfl rfl idle (judgeGroupSet_each known fair)

/-- The answer to a SET that is carried out. -/
theorem exec_setProgramme_stored {s : State} (idle : s.Idle) (sender : Sender) {field : Byte} {value : Word32} (known : field.toNat < 19)
    {p : Fin 16} (may : s.MayWrite sender.originator (if field.toNat < 5 then .timing else .level) p) {n : Nat}
    (rule : judgeProgrammeField s.programmes[p] field.toNat value.toNat = some (.storing value.toNat n)) :
    exec (.setProgrammeField sender (BitVec.ofNat 8 p.val) field value) s =
      .next ((s.updProgramme p fun _ => (s.programmes[p].writeField field.toNat n).held (if field.toNat < 5 then .timing else .level)
        (s.priorityOf sender.originator)).replied sender 1 0 (storedResult value.toNat n) (item n)) :=
  exec_plain (c := .set 1 (BitVec.ofNat 8 p.val) field value) rfl rfl idle (setProgramme_stored known may (programmeNumber p) rule)

theorem Programme.held_of (q : Programme) {cls : RightClass} (timed : cls = .timing ∨ cls = .level) (priority : Fin 8) :
    (q.held cls priority).holds.of cls = priority := by
  obtain rfl | rfl := timed <;> rfl

theorem storedResult_accepts (v n : Nat) : (storedResult v n).accepts := by
  unfold storedResult
  split
  · exact .inl rfl
  · exact .inr rfl

theorem storedResult_eq (v n : Nat) : (if storedResult v n = .clamped then CommandResult.clamped else .done) = storedResult v n := by
  unfold storedResult
  split <;> rfl

/-- Every single form of a SET has its REPLY alone for answer. -/
theorem setProgramme_answers {s : State} (idle : s.Idle) (sender : Sender) {field : Byte} (value : Word32) (known : field.toNat < 19) (p : Fin 16) :
    ∃ (u : State) (r : Reply), exec (.setProgrammeField sender (BitVec.ofNat 8 p.val) field value) s = .next u ∧
      u.processor.reports = s.processor.reports ++ [.reply r] := by
  obtain ⟨out, res, alone⟩ := writeProgramme_alone s sender.originator (if field.toNat < 5 then .timing else .level) field.toNat value.toNat
  obtain ⟨items, single⟩ := setProgramme_single s sender.originator field value p known
  have left := congrArg Prod.fst (alone s.programmes p rfl)
  dsimp only at left
  rw [left] at single
  exact ⟨_, _, exec_plain (c := .set 1 (BitVec.ofNat 8 p.val) field value) rfl rfl idle single, rfl⟩

/-- Settles O37: every judgement of a group form reads and writes its own programme alone, so it is that of the single form. -/
theorem groupFormsJudgeEachProgrammeAlone : Obligations.GroupFormsJudgeEachProgrammeAlone := by
  intro sender selection s idle
  refine ⟨fun field value => ⟨fun refused => ?_, fun known feed set flag => ?_, ?_⟩, ?_, ?_⟩
  · obtain ⟨n, fill, reply⟩ := groupReply_whole s .badValue
    have whole : judgeGroupSet sender.originator selection field value s = _ :=
      (judgeGroupSet_whole (refused.imp_right refusedForAll_iff.mpr)).trans reply
    exact ⟨fill, n, exec_plain (c := .groupSet selection field value) rfl rfl idle whole⟩
  · refine groupSet_judgesEachAlone idle sender selection known fun h => ?_
    obtain h | h | h := refusedForAll_iff.mp h
    · exact feed h
    · exact set h
    · exact flag h
  · intro v f cls n known feed set flag each
    have fair : ¬ refusedForAll f v = true := fun h => by
      obtain ⟨h, high⟩ | ⟨h, high⟩ | ⟨h, high⟩ := refusedForAll_iff.mp h
      · exact absurd (feed h) (Nat.not_lt.mpr high)
      · exact absurd (set h) (Nat.not_lt.mpr high)
      · exact absurd (flag h) (Nat.not_lt.mpr high)
    have timed : cls = .timing ∨ cls = .level := by
      by_cases low : f < 5
      · exact .inl (if_pos low)
      · exact .inr (if_neg low)
    choose u r next reports using setProgramme_answers idle sender value known
    obtain ⟨t, mask, first, second, result, answer, programmes, masked, all, -⟩ :=
      groupSet_judgesEachAlone idle sender selection known fair u r fun p => ⟨next p, reports p⟩
    -- each selected programme is written
    have written (p : Fin 16) (member : selection.getLsbD p.val = true) :
        (u p).programmes[p] = (s.programmes[p].writeField f n).held cls (s.priorityOf sender.originator) ∧ (r p).result = storedResult v n := by
      obtain ⟨may, top, bottom⟩ := each p member
      have stored := exec_setProgramme_stored idle sender known may (judgeProgrammeField_storing s.programmes[p] rfl known feed set flag top bottom)
      rw [next p] at stored
      injection stored with state
      have reply := reports p
      rw [state] at reply ⊢
      have last := List.append_cancel_left reply
      injection last with last
      injection last with last
      exact ⟨updAt_same .., last ▸ rfl⟩
    have accepted (p : Fin 16) (member : selection.getLsbD p.val = true) : (r p).result.accepts :=
      (written p member).2 ▸ storedResult_accepts v n
    obtain ⟨none, outcome⟩ := all accepted
    have whole : mask = selection := by
      refine BitVec.eq_of_getLsbD_eq fun i below => ?_
      rw [Bool.eq_iff_iff]
      exact (masked ⟨i, below⟩).trans (and_iff_left_of_imp (accepted ⟨i, below⟩))
    have ends : result = if selection = 0 then .done else storedResult v n := by
      rw [outcome]
      by_cases empty : selection = 0
      · rw [if_pos empty, if_neg]
        rintro ⟨p, member, -⟩
        rw [empty] at member
        simp at member
      · obtain ⟨p, member⟩ : ∃ p : Fin 16, selection.getLsbD p.val = true := by
          by_contra none
          refine empty (BitVec.eq_of_getLsbD_eq fun i below => ?_)
          have absent := not_exists.mp none ⟨i, below⟩
          exact (Bool.not_eq_true _ ▸ absent).trans BitVec.getLsbD_zero.symm
        rw [if_neg empty, ← storedResult_eq v n]
        refine if_congr ⟨fun ⟨q, inside, clamped⟩ => (written q inside).2 ▸ clamped, fun clamped => ⟨p, member, (written p member).2.trans clamped⟩⟩ rfl rfl
    subst whole
    subst none
    subst ends
    refine ⟨t, second, answer, fun p => ⟨fun outside => ?_, fun member => ?_⟩⟩
    · rw [programmes p, outside]
      rfl
    · have here : t.programmes[p] = (u p).programmes[p] := (programmes p).trans (if_pos member)
      refine ⟨?_, u p, next p, here⟩
      rw [here, (written p member).1]
      exact Programme.held_of _ timed _
  · obtain ⟨out, res, alone⟩ := cancelTake_alone s sender.originator
    refine judgesEachAlone alone (singleCode := 6) (singleForm := 0) (fun p => ⟨[], ?_⟩) ?_
    · exact exec_plain (c := .takeCancel (.single (BitVec.ofNat 8 p.val))) rfl rfl idle
        (judgeChoice_single s p fun r h => by rw [cancelTake, h])
    · exact exec_plain (c := .takeCancel (.group selection)) rfl rfl idle rfl
  · obtain ⟨out, res, alone⟩ := restartMeter_alone s sender.originator
    refine judgesEachAlone alone (singleCode := 14) (singleForm := 0) (fun p => ⟨[], ?_⟩) ?_
    · exact exec_plain (c := .restartMeasurement (.single (BitVec.ofNat 8 p.val))) rfl rfl idle
        (judgeChoice_single s p fun r h => by rw [restartMeter, h])
    · exact exec_plain (c := .restartMeasurement (.group selection)) rfl rfl idle rfl

end Sys2Proof.Machine
end

