-- ==== Sys2Proof/Proofs/TakeCommands.lean ====
section
/-! SUPPORT. TAKE, TAKE CANCEL, RESTART MEASUREMENT and RELEASE HOLD of one programme (R26, R31, R34, R96, R98, R173). -/

namespace Sys2Proof.Machine

/-! ### Layouts (R26) -/

theorem flagOf_isSome {x : Nat} : (flagOf x).isSome = true ↔ x < 2 := by
  unfold flagOf
  split
  · exact iff_of_true rfl (by omega)
  · split
    · exact iff_of_true rfl (by omega)
    · exact iff_of_false Bool.false_ne_true (by omega)

theorem flagOf_val {x : Nat} {b : Bool} (h : flagOf x = some b) : b = decide (x = 1) := by
  unfold flagOf at h
  split at h
  · injection h with h; subst h; subst x; rfl
  · split at h
    · injection h with h; subst h; subst x; rfl
    · cases h

theorem roleOf_code {x : Nat} {role : Role} (h : roleOf x = some role) : role.code = x := by
  have known : x < 10 := by
    by_contra high
    rw [roleOf, List.getElem?_eq_none (by simpa using high)] at h
    cases h
  interval_cases x <;> (cases h; rfl)

theorem roleOf_isSome {x : Nat} : (roleOf x).isSome = true ↔ x < 10 := by
  rw [roleOf, isSome_getElem?]
  rfl

theorem below_isSome {n x : Nat} : (below n x).isSome = true ↔ x < n := by
  unfold below
  split <;> simp_all

theorem below_some {n x : Nat} {i : Fin n} (h : below n x = some i) : i.val = x := by
  unfold below at h
  split at h
  · cases h; rfl
  · cases h

/-- The four fields of a position as numbers. -/
def Position.numbers (p : Position) : Nat × Nat × Nat × Nat := (p.role.code, p.feed.val, p.channel.val, p.weight.val)

def codeNumbers (c : PositionCode) : Nat × Nat × Nat × Nat := (c.role.toNat, c.feed.toNat, c.channel.toNat, c.weight.toNat)

/-- The four fields of a record are in range (R26). -/
def CodeInRange (c : PositionCode) : Prop := c.role.toNat < 10 ∧ c.feed.toNat < 8 ∧ c.channel.toNat < 16 ∧ c.weight.toNat < 16

theorem codedPosition_some {c : PositionCode} (range : CodeInRange c) : ∃ p, codedPosition c = some p ∧ p.numbers = codeNumbers c := by
  obtain ⟨hr, hf, hc, hw⟩ := range
  obtain ⟨role, r⟩ := Option.isSome_iff_exists.mp (roleOf_isSome.mpr hr)
  obtain ⟨feed, f⟩ := exists_fin hf
  obtain ⟨channel, h⟩ := exists_fin hc
  obtain ⟨weight, w⟩ := exists_fin hw
  refine ⟨{ role := role, feed := feed, channel := channel, weight := weight }, ?_, ?_⟩
  · rw [codedPosition, r, below_eq f, below_eq h, below_eq w]
  · rw [Position.numbers, codeNumbers, roleOf_code r, f, h, w]

theorem codedPosition_none {c : PositionCode} (beyond : ¬ CodeInRange c) : codedPosition c = none := by
  cases h : codedPosition c with
  | none => rfl
  | some p =>
    refine absurd ?_ beyond
    unfold codedPosition at h
    split at h
    · rename_i r f ch w
      exact ⟨roleOf_isSome.mp (by rw [r]; rfl), below_isSome.mp (by rw [f]; rfl), below_isSome.mp (by rw [ch]; rfl),
        below_isSome.mp (by rw [w]; rfl)⟩
    · cases h

theorem positionsOf_some {cs : List PositionCode} (range : ∀ c ∈ cs, CodeInRange c) :
    ∃ l, positionsOf cs = some l ∧ l.map Position.numbers = cs.map codeNumbers := by
  induction cs with
  | nil => exact ⟨[], rfl, rfl⟩
  | cons c cs ih =>
    obtain ⟨p, first, place⟩ := codedPosition_some (range c List.mem_cons_self)
    obtain ⟨l, rest, places⟩ := ih fun x h => range x (List.mem_cons_of_mem c h)
    exact ⟨p :: l, by rw [positionsOf, first, rest], by rw [List.map_cons, List.map_cons, place, places]⟩

theorem positionsOf_none {cs : List PositionCode} (beyond : ¬ ∀ c ∈ cs, CodeInRange c) : positionsOf cs = none := by
  induction cs with
  | nil => exact absurd nofun beyond
  | cons c cs ih =>
    rw [positionsOf]
    by_cases first : CodeInRange c
    · rw [ih fun rest => beyond fun x h => (List.mem_cons.mp h).elim (fun e => e ▸ first) (rest x)]
      cases codedPosition c <;> rfl
    · rw [codedPosition_none first]

/-- A layout is 1 to 8 positions, each in range (R26). -/
theorem layoutOf_some {cs : List PositionCode} (one : 1 ≤ cs.length) (eight : cs.length ≤ 8) (range : ∀ c ∈ cs, CodeInRange c) :
    ∃ l, layoutOf cs = some l ∧ l.map Position.numbers = cs.map codeNumbers := by
  rw [layoutOf, if_neg (by omega)]
  exact positionsOf_some range

theorem layoutOf_none {cs : List PositionCode} (bad : ¬ (1 ≤ cs.length ∧ cs.length ≤ 8 ∧ ∀ c ∈ cs, CodeInRange c)) : layoutOf cs = none := by
  unfold layoutOf
  split
  · rfl
  · exact positionsOf_none fun range => bad ⟨by omega, by omega, range⟩

/-! ### TAKE (R31) -/

section Take

variable {s : State} {o programme immediate again : Byte} {time : Word32} {codes : List PositionCode}

theorem judgeTake_noRight (may : s.holdsRight o .route = false) : judgeTake o programme immediate time again codes s = refuse s .noRight :=
  if_pos (not_holds may)

theorem judgeTake_noProgramme (may : s.holdsRight o .route = true) (none : 16 ≤ programme.toNat) :
    judgeTake o programme immediate time again codes s = refuse s .badValue := by
  rw [judgeTake, if_neg (holds may), below_none none]

theorem judgeTake_outranked {p : Fin 16} (number : programme.toNat = p.val) (may : s.holdsRight o .route = true)
    (rank : s.outranks o .route p = true) : judgeTake o programme immediate time again codes s = refuse s .outranked := by
  rw [judgeTake, if_neg (holds may), below_eq number]
  exact if_pos rank

theorem judgeTake_badValue {p : Fin 16} (number : programme.toNat = p.val) (may : s.MayWrite o .route p)
    (bad : ¬ (immediate.toNat < 2 ∧ again.toNat < 2 ∧ 1 ≤ codes.length ∧ codes.length ≤ 8 ∧ ∀ c ∈ codes, CodeInRange c)) :
    judgeTake o programme immediate time again codes s = refuse s .badValue := by
  rw [judgeTake, if_neg (holds may.1), below_eq number]
  dsimp only
  rw [if_neg (by rw [may.2]; decide)]
  split
  · rename_i now restart l hn hr hl
    refine absurd ⟨flagOf_isSome.mp (by rw [hn]; rfl), flagOf_isSome.mp (by rw [hr]; rfl), ?_⟩ bad
    by_contra wrong
    rw [layoutOf_none wrong] at hl
    cases hl
  · rfl

/-- A TAKE whose operands are valid: it is carried out when the programme is free for it (R31). -/
theorem judgeTake_valid {p : Fin 16} (number : programme.toNat = p.val) (may : s.MayWrite o .route p) (now : immediate.toNat < 2)
    (restart : again.toNat < 2) {l : Layout} (layout : layoutOf codes = some l) :
    judgeTake o programme immediate time again codes s =
      if s.programmes[p].takeFree then
        accept (s.updProgramme p fun _ => ({ s.programmes[p] with
          take := some { layout := l, time := if immediate.toNat = 1 then none else some time, restart := decide (again.toNat = 1) } }).held
            .route (s.priorityOf o)) []
      else refuse s .busy := by
  obtain ⟨a, ha⟩ := Option.isSome_iff_exists.mp (flagOf_isSome.mpr now)
  obtain ⟨b, hb⟩ := Option.isSome_iff_exists.mp (flagOf_isSome.mpr restart)
  rw [judgeTake, if_neg (holds may.1), below_eq number]
  dsimp only
  rw [if_neg (by rw [may.2]; decide), ha, hb, layout]
  dsimp only
  rw [State.updProgramme_takeHold, flagOf_val ha, flagOf_val hb]
  simp only [decide_eq_true_eq]

end Take

theorem Programme.takeFree_iff (p : Programme) : p.takeFree = true ↔ p.take = none ∧ p.eIn = p.eOut := by
  simp only [Programme.takeFree, Bool.and_eq_true, Option.isNone_iff_eq_none, beq_iff_eq]

/-! ### Commands on one programme (R34, R98) -/

section Choice

variable {s : State} {o programme : Byte} {cls : RightClass} {one : State → Fin 16 → State × CommandResult}

theorem judgeChoice_noProgrammeRight (may : s.holdsRight o cls = false) : judgeChoice o cls (.single programme) one s = refuse s .noRight :=
  if_pos (not_holds may)

theorem judgeChoice_noProgramme (may : s.holdsRight o cls = true) (none : 16 ≤ programme.toNat) :
    judgeChoice o cls (.single programme) one s = refuse s .badValue := by
  rw [judgeChoice, if_neg (holds may), below_none none]

theorem judgeChoice_one (may : s.holdsRight o cls = true) {p : Fin 16} (number : programme.toNat = p.val) {u : State} {r : CommandResult}
    (judged : one s p = (u, r)) : judgeChoice o cls (.single programme) one s = { state := u, result := r, items := [], after := [] } := by
  rw [judgeChoice, if_neg (holds may), below_eq number]
  dsimp only
  rw [judged]

end Choice

theorem cancelTake_outranked {s : State} {o : Byte} {p : Fin 16} (may : s.holdsRight o .route = true) (rank : s.outranks o .route p = true) :
    cancelTake o s p = (s, .outranked) := by
  rw [cancelTake, judgeHold_outranked may rank]

theorem cancelTake_may {s : State} {o : Byte} {p : Fin 16} (may : s.MayWrite o .route p) :
    cancelTake o s p =
      if s.programmes[p].take.isSome then
        (s.updProgramme p fun _ => ({ s.programmes[p] with take := none }).held .route (s.priorityOf o), .done)
      else (s, .busy) := by
  rw [cancelTake, may.judgeHold]
  dsimp only
  rw [State.updProgramme_takeHold]

/-- Settles O45: the checks in their order, then the take that is left, or taken away. -/
theorem takeIsHeldAndCancelled : Obligations.TakeIsHeldAndCancelled := by
  intro sender programme immediate time again codes s idle few o takes cancels valid
  have taken {j : Judged} (h : judgeTake o programme immediate time again codes s = j) (plain : j.after = []) (bare : j.items = []) :
      takes j.state j.result :=
    exec_plain (c := .take programme immediate time again codes) rfl (decide_eq_true few) idle (h.trans (by rw [← plain, ← bare]))
  have cancelled {u : State} {r : CommandResult}
      (h : judgeChoice o .route (.single programme) (cancelTake o) s = { state := u, result := r, items := [], after := [] }) : cancels u r :=
    exec_plain (c := .takeCancel (.single programme)) rfl rfl idle h
  refine ⟨fun may => ⟨taken (judgeTake_noRight may) rfl rfl, cancelled (judgeChoice_noProgrammeRight may)⟩,
    fun may none => ⟨taken (judgeTake_noProgramme may none) rfl rfl, cancelled (judgeChoice_noProgramme may none)⟩, fun p number =>
    ⟨fun may rank => ⟨taken (judgeTake_outranked number may rank) rfl rfl,
      cancelled (judgeChoice_one may number (cancelTake_outranked may rank))⟩, fun may => ?_⟩⟩
  intro q held
  have cancel := cancelTake_may may
  refine ⟨fun bad => taken (judgeTake_badValue number may bad) rfl rfl, fun good busy => ?_, fun good free same => ?_,
    fun none => cancelled (judgeChoice_one may.1 number (cancel.trans (if_neg (by rw [none]; decide)))),
    fun some => cancelled (judgeChoice_one may.1 number (cancel.trans (if_pos some)))⟩
  · obtain ⟨now, restart, one, eight, range⟩ := good
    obtain ⟨l, layout, -⟩ := layoutOf_some one eight range
    refine taken ((judgeTake_valid number may now restart layout).trans (if_neg fun free => ?_)) rfl rfl
    obtain ⟨none, same⟩ := q.takeFree_iff.mp free
    rw [none] at busy
    exact busy.elim Bool.false_ne_true fun differ => differ same
  · obtain ⟨now, restart, one, eight, range⟩ := good
    obtain ⟨l, layout, places⟩ := layoutOf_some one eight range
    refine ⟨l, places, ?_⟩
    have flag {b : Byte} : b = 1 ↔ b.toNat = 1 := ⟨fun e => e ▸ rfl, fun e => BitVec.eq_of_toNat_eq e⟩
    have answer := taken ((judgeTake_valid number may now restart layout).trans (if_pos (q.takeFree_iff.mpr ⟨free, same⟩))) rfl rfl
    simp only [flag]
    exact answer

/-! ### RESTART MEASUREMENT (R98) -/

theorem restartMeter_outranked {s : State} {o : Byte} {p : Fin 16} (may : s.holdsRight o .level = true) (rank : s.outranks o .level p = true) :
    restartMeter o s p = (s, .outranked) := by
  rw [restartMeter, judgeHold_outranked may rank]

theorem Programme.restartMeasurement_eq (p : Programme) :
    p.restartMeasurement = { p with meter := if p.store.state = .running then p.meter.restart else p.meter } := by
  unfold Programme.restartMeasurement
  simp only [p.running_iff]
  split <;> rfl

theorem restartMeter_may {s : State} {o : Byte} {p : Fin 16} (may : s.MayWrite o .level p) :
    restartMeter o s p = (s.updProgramme p fun q => q.restartMeasurement.held .level (s.priorityOf o), .done) := by
  rw [restartMeter, may.judgeHold]
  dsimp only
  rw [State.updProgramme_takeHold]
  rfl

/-- Settles O50: the checks in their order, then the restart of a RUNNING programme's meter with the hold taken. -/
theorem restartMeasurementEmptiesTheMeter : Obligations.RestartMeasurementEmptiesTheMeter := by
  intro sender programme s idle o answers
  have answered {u : State} {r : CommandResult}
      (h : judgeChoice o .level (.single programme) (restartMeter o) s = { state := u, result := r, items := [], after := [] }) : answers u r :=
    exec_plain (c := .restartMeasurement (.single programme)) rfl rfl idle h
  refine ⟨fun may => answered (judgeChoice_noProgrammeRight may), fun may none => answered (judgeChoice_noProgramme may none),
    fun p number => ⟨fun may rank => answered (judgeChoice_one may number (restartMeter_outranked may rank)), fun may => ?_⟩⟩
  have answer := answered (judgeChoice_one may.1 number (restartMeter_may may))
  simp only [Programme.restartMeasurement_eq] at answer
  exact answer

/-! ### RELEASE HOLD (R173) -/

theorem holdClassOf_none {x : Nat} (h : 3 ≤ x) : holdClassOf x = none := List.getElem?_eq_none h

theorem holdClassOf_some {x : Nat} {c : RightClass} (h : (x = 0 ∧ c = .route) ∨ (x = 1 ∧ c = .timing) ∨ (x = 2 ∧ c = .level)) :
    holdClassOf x = some c := by
  rcases h with ⟨rfl, rfl⟩ | ⟨rfl, rfl⟩ | ⟨rfl, rfl⟩ <;> rfl

section ReleaseHold

variable {s : State} {o programme cls : Byte} {c : RightClass}

theorem judgeReleaseHold_noClass (none : 3 ≤ cls.toNat) : judgeReleaseHold o programme cls s = refuse s .badValue := by
  rw [judgeReleaseHold, holdClassOf_none none]

theorem judgeReleaseHold_noRight (known : holdClassOf cls.toNat = some c) (may : s.holdsRight o c = false) :
    judgeReleaseHold o programme cls s = refuse s .noRight := by
  rw [judgeReleaseHold, known]
  exact if_pos (not_holds may)

theorem judgeReleaseHold_noProgramme (known : holdClassOf cls.toNat = some c) (may : s.holdsRight o c = true) (none : 16 ≤ programme.toNat) :
    judgeReleaseHold o programme cls s = refuse s .badValue := by
  rw [judgeReleaseHold, known]
  dsimp only
  rw [if_neg (holds may), below_none none]

theorem judgeReleaseHold_right (known : holdClassOf cls.toNat = some c) (may : s.holdsRight o c = true) {p : Fin 16}
    (number : programme.toNat = p.val) :
    judgeReleaseHold o programme cls s =
      if s.priorityOf o < s.programmes[p].holds.of c then refuse s .outranked
      else accept (s.updProgramme p fun q => { q with holds := q.holds.withHold c 0 }) (item (s.programmes[p].holds.of c).val) := by
  rw [judgeReleaseHold, known]
  dsimp only
  rw [if_neg (holds may), below_eq number]
  exact if_congr decide_eq_true_iff rfl rfl

end ReleaseHold

/-- The holder priorities with that of one of the three classes back at 0. -/
theorem Holds.withHold_zero (h : Holds) {c : RightClass} (timed : c = .route ∨ c = .timing ∨ c = .level) :
    h.withHold c 0 =
      { route := if c = .route then 0 else h.route, timing := if c = .timing then 0 else h.timing
        level := if c = .level then 0 else h.level } := by
  rcases timed with rfl | rfl | rfl <;> rfl

theorem Holds.withHold_self (h : Holds) {c : RightClass} (zero : h.of c = 0) : h.withHold c 0 = h := by
  cases c with
  | route => rw [← zero]; rfl
  | timing => rw [← zero]; rfl
  | level => rw [← zero]; rfl
  | alarm | store | tables | log => rfl

/-- Settles O52: the class, the right, the programme and the hold are judged in this order; the hold is then cleared. -/
theorem releaseHoldClearsTheHold : Obligations.ReleaseHoldClearsTheHold := by
  intro sender programme cls s idle o answers
  have answered {j : Judged} (h : judgeReleaseHold o programme cls s = j) (plain : j.after = []) : answers j.state j.result j.items :=
    exec_plain (c := .releaseHold programme cls) rfl rfl idle (h.trans (by rw [← plain]))
  refine ⟨fun none => answered (judgeReleaseHold_noClass none) rfl, fun c coded => ?_⟩
  have known := holdClassOf_some coded
  have timed : c = .route ∨ c = .timing ∨ c = .level := coded.imp And.right (Or.imp And.right And.right)
  refine ⟨fun may => answered (judgeReleaseHold_noRight known may) rfl,
    fun may none => answered (judgeReleaseHold_noProgramme known may none) rfl, fun p number may => ?_⟩
  intro h
  have judged := judgeReleaseHold_right known may number
  refine ⟨fun less => answered (judged.trans (if_pos less)) rfl, fun least => ?_⟩
  have released := answered (judged.trans (if_neg (not_lt.mpr least))) rfl
  refine ⟨?_, fun zero => ?_⟩
  · rw [← h.withHold_zero timed]
    exact released
  · have same : (s.updProgramme p fun q => { q with holds := q.holds.withHold c 0 }) = s := by
      rw [State.updProgramme_const, s.programmes[p].holds.withHold_self zero]
      exact s.updProgramme_self p
    have kept := released
    dsimp only [accept] at kept
    rw [same] at kept
    change answers s .done (item (h.of c).val) at kept
    rw [zero] at kept
    exact kept

end Sys2Proof.Machine
end

