-- ==== Sys2Proof/Proofs/StoreCommands.lean ====
section
/-! SUPPORT. ALLOCATE, RELEASE, RETIRE, RESTORE and READ FAULT (R48, R52 to R54, R60). -/

namespace Sys2Proof.Machine

/-! ### ALLOCATE and RELEASE (R48, R52) -/

section Pages

variable {s : State} {o programme : Byte} {frames : Word32}

theorem judgeAllocate_noRight (may : s.holdsRight o .store = false) : judgeAllocate o programme frames s = refuse s .noRight :=
  if_pos (not_holds may)

theorem judgeAllocate_noProgramme (may : s.holdsRight o .store = true) (none : 16 ≤ programme.toNat) :
    judgeAllocate o programme frames s = refuse s .badValue := by
  rw [judgeAllocate, if_neg (holds may), below_none none]

theorem judgeAllocate_right (may : s.holdsRight o .store = true) {p : Fin 16} (number : programme.toNat = p.val) :
    judgeAllocate o programme frames s =
      let f := within 1 1048576 frames.toNat
      let n := (f + 127) / 128
      if s.programmes[p].store.state ≠ .unallocated then refuse s .busy
      else if s.store.freeList.length < n then refuse s .noRoom
      else
        { state := { s with store := { s.store with freeList := s.store.freeList.drop n } }.updProgramme p fun q =>
            q.allocated (s.store.freeList.take n)
          result := storedResult frames.toNat f, items := item n ++ item (128 * n), after := [] } := by
  rw [judgeAllocate, if_neg (holds may), below_eq number, ← clampNat_eq_within (by decide)]
  dsimp only
  congr 2
  unfold storedResult
  simp only [eq_comm]

theorem judgeRelease_noRight (may : s.holdsRight o .store = false) : judgeRelease o programme s = refuse s .noRight :=
  if_pos (not_holds may)

theorem judgeRelease_noProgramme (may : s.holdsRight o .store = true) (none : 16 ≤ programme.toNat) :
    judgeRelease o programme s = refuse s .badValue := by
  rw [judgeRelease, if_neg (holds may), below_none none]

theorem judgeRelease_right (may : s.holdsRight o .store = true) {p : Fin 16} (number : programme.toNat = p.val) :
    judgeRelease o programme s =
      let pages := s.programmes[p].store.pages
      let back := s.store.returned pages
      if s.programmes[p].store.state = .unallocated then refuse s .busy
      else
        accept ({ s with store := { s.store with freeList := s.store.freeList ++ back } }.updProgramme p Programme.released)
          (item back.length ++ item (pages.length - back.length)) := by
  rw [judgeRelease, if_neg (holds may), below_eq number]

end Pages

theorem DelayStore.returned_eq (d : DelayStore) (pages : List Page) : d.returned pages = pages.filter fun m => decide (m ∉ d.retired) := by
  refine List.filter_congr fun m _ => ?_
  rw [List.contains_eq_mem, decide_not]

/-- Settles O46: the checks in their order, then the pages moved and the programme cleared. -/
theorem allocateAndReleaseMovePages : Obligations.AllocateAndReleaseMovePages := by
  intro sender programme frames s idle may allocates releases
  have allocated {j : Judged} (h : judgeAllocate sender.originator programme frames s = j) (plain : j.after = []) :
      allocates j.state j.result j.items :=
    exec_plain (c := .allocate programme frames) rfl rfl idle (h.trans (by rw [← plain]))
  have released {j : Judged} (h : judgeRelease sender.originator programme s = j) (plain : j.after = []) :
      releases j.state j.result j.items :=
    exec_plain (c := .release programme) rfl rfl idle (h.trans (by rw [← plain]))
  refine ⟨fun none => ⟨allocated (judgeAllocate_noRight none) rfl, released (judgeRelease_noRight none) rfl⟩,
    fun right none => ⟨allocated (judgeAllocate_noProgramme right none) rfl, released (judgeRelease_noProgramme right none) rfl⟩,
    fun right p number => ?_⟩
  intro q f n cleared stay
  have allocation := judgeAllocate_right (frames := frames) right number
  have removal := judgeRelease_right right number
  refine ⟨fun busy => allocated (allocation.trans (if_pos busy)) rfl,
    fun vacant few => allocated (allocation.trans ((if_neg (not_not_intro vacant)).trans (if_pos few))) rfl,
    fun vacant room => allocated (allocation.trans ((if_neg (not_not_intro vacant)).trans (if_neg (Nat.not_lt.mpr room)))) rfl,
    fun vacant => released (removal.trans (if_pos vacant)) rfl, fun owned => ?_⟩
  have answer := released (removal.trans (if_neg owned)) rfl
  simp only [DelayStore.returned_eq] at answer
  exact answer

/-! ### RETIRE and RESTORE (R53, R54) -/

/-- The owner found is the lowest programme that holds the page. -/
theorem State.ownerOf_eq {s : State} {n : Page} {p : Fin 16}
    (owns : n ∈ s.programmes[p].store.pages ∧ ∀ q : Fin 16, q < p → n ∉ s.programmes[q].store.pages) : s.ownerOf n = some p := by
  obtain ⟨as, bs, split, before⟩ : ∃ as bs, List.finRange 16 = as ++ p :: bs ∧ ∀ q ∈ as, q < p := by
    obtain ⟨as, bs, split⟩ := List.append_of_mem (List.mem_finRange p)
    have ascending : (as ++ p :: bs).Pairwise (· < ·) := split ▸ List.pairwise_lt_finRange 16
    exact ⟨as, bs, split, fun q member => (List.pairwise_append.mp ascending).2.2 q member p List.mem_cons_self⟩
  rw [State.ownerOf, List.find?_eq_some_iff_append]
  refine ⟨List.contains_iff_mem.mpr owns.1, as, bs, split, fun q member => ?_⟩
  rw [List.contains_eq_mem, Bool.not_eq_true', decide_eq_false_iff_not]
  exact owns.2 q (before q member)

theorem State.ownerOf_none {s : State} {n : Page} (unowned : ∀ p : Fin 16, n ∉ s.programmes[p].store.pages) : s.ownerOf n = none :=
  (s.ownerOf_none_iff n).mpr fun ⟨p, member⟩ => unowned p member

section Retire

variable {s : State} {o : Byte} {page : BitVec 16}

theorem judgeRetire_noRight (may : s.holdsRight o .store = false) : judgeRetire o page s = refuse s .noRight := if_pos (not_holds may)

theorem judgeRetire_noPage (may : s.holdsRight o .store = true) (none : 16384 ≤ page.toNat) : judgeRetire o page s = refuse s .badValue := by
  rw [judgeRetire, if_neg (holds may), below_none none]

theorem judgeRetire_retired (may : s.holdsRight o .store = true) {n : Page} (number : page.toNat = n.val) (retired : n ∈ s.store.retired) :
    judgeRetire o page s = accept s (retireItems 0 none) := by
  rw [judgeRetire, if_neg (holds may), below_eq number]
  exact if_pos (List.contains_iff_mem.mpr retired)

theorem judgeRetire_full (may : s.holdsRight o .store = true) {n : Page} (number : page.toNat = n.val) (fresh : n ∉ s.store.retired)
    (full : 32 ≤ s.store.retired.length) : judgeRetire o page s = { state := s, result := .noRoom, items := retireItems 3 none, after := [] } := by
  rw [judgeRetire, if_neg (holds may), below_eq number]
  exact (if_neg (mt List.contains_iff_mem.mp fresh)).trans (if_pos full)

theorem judgeRetire_owned (may : s.holdsRight o .store = true) {n : Page} (number : page.toNat = n.val) (fresh : n ∉ s.store.retired)
    (room : s.store.retired.length < 32) {p : Fin 16} (owner : s.ownerOf n = some p) :
    judgeRetire o page s = accept { s with store := { s.store with retired := s.store.retired ++ [n] } } (retireItems 2 (some p)) := by
  rw [judgeRetire, if_neg (holds may), below_eq number]
  refine (if_neg (mt List.contains_iff_mem.mp fresh)).trans ((if_neg (Nat.not_le.mpr room)).trans ?_)
  rw [owner]

theorem judgeRetire_free (may : s.holdsRight o .store = true) {n : Page} (number : page.toNat = n.val) (fresh : n ∉ s.store.retired)
    (room : s.store.retired.length < 32) (owner : s.ownerOf n = none) :
    judgeRetire o page s =
      accept { s with store := { s.store with freeList := s.store.freeList.filter (· ≠ n), retired := s.store.retired ++ [n] } }
        (retireItems 1 none) := by
  rw [judgeRetire, if_neg (holds may), below_eq number]
  refine (if_neg (mt List.contains_iff_mem.mp fresh)).trans ((if_neg (Nat.not_le.mpr room)).trans ?_)
  rw [owner]

theorem judgeRestore_noRight (may : s.holdsRight o .store = false) : judgeRestore o page s = refuse s .noRight := if_pos (not_holds may)

theorem judgeRestore_noPage (may : s.holdsRight o .store = true) (none : 16384 ≤ page.toNat) : judgeRestore o page s = refuse s .badValue := by
  rw [judgeRestore, if_neg (holds may), below_none none]

theorem judgeRestore_other (may : s.holdsRight o .store = true) {n : Page} (number : page.toNat = n.val) (fresh : n ∉ s.store.retired) :
    judgeRestore o page s = accept s (item 2) := by
  rw [judgeRestore, if_neg (holds may), below_eq number]
  exact if_neg (mt List.contains_iff_mem.mp fresh)

theorem judgeRestore_retired (may : s.holdsRight o .store = true) {n : Page} (number : page.toNat = n.val) (retired : n ∈ s.store.retired) :
    judgeRestore o page s =
      if (s.ownerOf n).isSome then accept { s with store := { s.store with retired := s.store.retired.filter (· ≠ n) } } (item 1)
      else
        accept { s with store := { s.store with freeList := s.store.freeList ++ [n], retired := s.store.retired.filter (· ≠ n) } } (item 0) := by
  rw [judgeRestore, if_neg (holds may), below_eq number]
  exact if_pos (List.contains_iff_mem.mpr retired)

end Retire

/-- Settles O47: the right and the page number, then the cases by the retire table, its room and the page's owner. -/
theorem retireAndRestoreMoveThePage : Obligations.RetireAndRestoreMoveThePage := by
  intro sender page s idle may retires restores
  have retired {j : Judged} (h : judgeRetire sender.originator page s = j) (plain : j.after = []) : retires j.state j.result j.items :=
    exec_plain (c := .retire page) rfl rfl idle (h.trans (by rw [← plain]))
  have restored {j : Judged} (h : judgeRestore sender.originator page s = j) (plain : j.after = []) :
      exec (.restore sender page) s = .next (j.state.replied sender 10 0 j.result j.items) :=
    exec_plain (c := .restore page) rfl rfl idle (h.trans (by rw [← plain]))
  refine ⟨fun none => ⟨retired (judgeRetire_noRight none) rfl, restored (judgeRestore_noRight none) rfl⟩,
    fun right none => ⟨retired (judgeRetire_noPage right none) rfl, restored (judgeRestore_noPage right none) rfl⟩, fun right n number => ?_⟩
  intro room owns unowned
  exact ⟨fun inside => retired (judgeRetire_retired right number inside) rfl,
    fun fresh free place => retired (judgeRetire_free right number fresh place (State.ownerOf_none free)) rfl,
    fun fresh place p owner => retired (judgeRetire_owned right number fresh place (State.ownerOf_eq owner)) rfl,
    fun fresh full => retired (judgeRetire_full right number fresh (Nat.not_lt.mp full)) rfl,
    fun inside free => restored ((judgeRestore_retired right number inside).trans (if_neg (by rw [State.ownerOf_none free]; decide))) rfl,
    fun inside p owner => restored ((judgeRestore_retired right number inside).trans (if_pos (by rw [State.ownerOf_eq owner]; rfl))) rfl,
    fun fresh => restored (judgeRestore_other right number fresh) rfl⟩

/-! ### READ FAULT (R60) -/

/-- A word is coded as the number it holds. -/
theorem itemWord_eq (x : Word32) : itemWord x = item x.toNat := by
  have octet (k : Nat) : x.extractLsb' k 8 = BitVec.ofNat 8 (x.toNat / 2 ^ k) := by
    apply BitVec.eq_of_toNat_eq
    rw [BitVec.extractLsb'_toNat, BitVec.toNat_ofNat, Nat.shiftRight_eq_div_pow]
  change [_, _, _, _] = [_, _, _, _]
  rw [octet, octet, octet, octet]
  rfl

theorem faultItems_eq (f : FaultRecord) :
    faultItems f = item (codeOf f.valid) ++ item f.page.val ++ item f.offset.toNat ++ item f.programme.val ++ item f.time.toNat ++
      item f.further := by
  rw [faultItems, itemWord_eq]
  rfl

/-- Settles O48: READ FAULT returns the record and empties it; the READ of the store's group ends with it and leaves it. -/
theorem readFaultEmptiesTheRecord : Obligations.ReadFaultEmptiesTheRecord := by
  intro sender s idle r whole
  refine ⟨fun none => exec_plain (c := .readFault) rfl rfl idle (if_pos (not_holds none)), fun right => ?_, ?_⟩
  · refine exec_plain (c := .readFault) rfl rfl idle ((if_neg (holds right)).trans ?_)
    rw [faultItems_eq]
    rfl
  · refine ⟨item s.store.freeList.length ++ item s.parkedCount ++ itemList (s.store.retired.map (retireItem s)), ?_⟩
    refine exec_plain (c := .read 4 0 0 0) rfl rfl idle ?_
    change accept s (storeItems s) = _
    rw [storeItems, faultItems_eq]
    rfl

end Sys2Proof.Machine
end

