-- ==== Sys2Proof/Proofs/Load.lean ====
section
/-! SUPPORT. LOAD writes a run of entries of one table (R179, R185). -/

namespace Sys2Proof.Machine

/-! ### Runs of codes -/

/-- Code `i` of a run. -/
theorem codesOf_getElem? (w : Nat) {count i : Nat} (inside : i < count) (bs : List Byte) :
    (codesOf w count bs)[i]? = some (numberOf ((bs.drop (w * i)).take w)) := by
  induction count generalizing i bs with
  | zero => omega
  | succ count ih =>
    rw [codesOf]
    cases i with
    | zero => simp
    | succ i =>
      rw [List.getElem?_cons_succ, ih (by omega), List.drop_drop]
      congr 4
      ring

/-- An overwritten list holds the new run in its place and the old entries outside. -/
theorem overwrite_getElem? {α : Type} {old : List α} {start : Nat} {new : List α} (fit : start + new.length ≤ old.length) (i : Nat) :
    (overwrite old start new)[i]? = if start ≤ i ∧ i < start + new.length then new[i - start]? else old[i]? := by
  have first : (old.take start).length = start := List.length_take_of_le (by omega)
  rw [overwrite]
  by_cases before : i < start
  · rw [if_neg (by omega), List.append_assoc, List.getElem?_append_left (by omega), List.getElem?_take_of_lt before]
  · by_cases inside : i < start + new.length
    · rw [if_pos (by omega), List.append_assoc, List.getElem?_append_right (by omega), first, List.getElem?_append_left (by omega)]
    · have place : (old.take start ++ new).length = start + new.length := by rw [List.length_append, first]
      rw [if_neg (by omega), List.getElem?_append_right (by omega), place, List.getElem?_drop]
      congr 1
      omega

/-- A table of which a run may be written: the entries of the run hold their codes, the others stay (R179). -/
theorem written_getElem? {α : Type} (c : Prop) [Decidable c] (g : Nat → α) {old : List α} {start n w : Nat} (codes : List Byte)
    (fit : c → start + n ≤ old.length) (i : Nat) :
    (if c then overwrite old start ((codesOf w n codes).map g) else old)[i]? =
      if c ∧ start ≤ i ∧ i < start + n then some (g (numberOf ((codes.drop (w * (i - start))).take w))) else old[i]? := by
  by_cases h : c
  · have size : ((codesOf w n codes).map g).length = n := by rw [List.length_map, codesOf_length]
    rw [if_pos h, overwrite_getElem? (by rw [size]; exact fit h), size]
    by_cases inside : start ≤ i ∧ i < start + n
    · rw [if_pos inside, if_pos ⟨h, inside⟩, List.getElem?_map, codesOf_getElem? w (by omega)]
      rfl
    · rw [if_neg inside, if_neg fun k => inside k.2]
  · rw [if_neg h, if_neg fun k => h k.1]

/-! ### What a LOAD writes (R185) -/

section Write

variable (t : Tables) (table start : Nat) (codes : List Nat)

theorem Tables.write_taps : (t.write table start codes).taps =
    if table = 0 then overwrite t.taps start (codes.map (BitVec.ofNat 18)) else t.taps := by
  unfold Tables.write
  split <;> simp_all

theorem Tables.write_latencies : (t.write table start codes).latencies =
    if table = 1 then overwrite t.latencies start (codes.map (BitVec.ofNat 10)) else t.latencies := by
  unfold Tables.write
  split <;> simp_all

theorem Tables.write_levels : (t.write table start codes).levels =
    if table = 2 then overwrite t.levels start (codes.map levelOf) else t.levels := by
  unfold Tables.write
  split <;> simp_all

theorem Tables.write_gains : (t.write table start codes).gains =
    if table = 3 then overwrite t.gains start (codes.map (BitVec.ofNat 24)) else t.gains := by
  unfold Tables.write
  split <;> simp_all

theorem Tables.write_unity : (t.write table start codes).unity =
    if table = 4 then (codes.map (BitVec.ofNat 8)).headD t.unity else t.unity := by
  unfold Tables.write
  split <;> simp_all

theorem Tables.write_weights : (t.write table start codes).weights =
    if table = 5 then overwrite t.weights start (codes.map (BitVec.ofNat 16)) else t.weights := by
  unfold Tables.write
  split <;> simp_all

theorem Tables.write_filters : (t.write table start codes).filters =
    if table = 6 then overwrite t.filters start (codes.map (BitVec.ofNat 24)) else t.filters := by
  unfold Tables.write
  split <;> simp_all

end Write

/-! ### A level table entry (R185) -/

theorem foldl_octets (bs : List Byte) (acc : Nat) :
    bs.foldl (fun acc b => 256 * acc + b.toNat) acc = acc * 256 ^ bs.length + numberOf bs := by
  unfold numberOf
  induction bs generalizing acc with
  | nil => simp
  | cons b bs ih =>
    rw [List.foldl_cons, List.foldl_cons, ih, ih (256 * 0 + b.toNat), List.length_cons]
    ring

theorem numberOf_append (as bs : List Byte) : numberOf (as ++ bs) = numberOf as * 256 ^ bs.length + numberOf bs := by
  rw [numberOf, List.foldl_append, foldl_octets]
  rfl

theorem numberOf_lt (bs : List Byte) : numberOf bs < 256 ^ bs.length := by
  induction bs using List.reverseRecOn with
  | nil => decide
  | append_singleton as b ih =>
    rw [numberOf_append, List.length_append, List.length_singleton, pow_succ]
    have octet : numberOf [b] < 256 := by simpa [numberOf] using b.isLt
    rw [pow_zero, one_mul]
    omega

/-- Ten octets hold the threshold in the first five and the power in the last five. -/
theorem levelOf_number {as bs : List Byte} (five : bs.length = 5) :
    levelOf (numberOf (as ++ bs)) = { threshold := BitVec.ofNat 40 (numberOf as), power := BitVec.ofNat 40 (numberOf bs) } := by
  have small := numberOf_lt bs
  rw [five] at small
  rw [levelOf, numberOf_append, five]
  congr 1
  · congr 1
    omega
  · apply BitVec.eq_of_toNat_eq
    rw [BitVec.toNat_ofNat, BitVec.toNat_ofNat]
    omega

theorem levelOf_code {codes : List Byte} {k : Nat} (room : k + 10 ≤ codes.length) :
    levelOf (numberOf ((codes.drop k).take 10)) =
      { threshold := BitVec.ofNat 40 (numberOf ((codes.drop k).take 5)), power := BitVec.ofNat 40 (numberOf ((codes.drop (k + 5)).take 5)) } := by
  have halves : (codes.drop k).take 10 = (codes.drop k).take 5 ++ (codes.drop (k + 5)).take 5 := by
    rw [← List.drop_drop]
    exact List.take_add (i := 5) (j := 5)
  rw [halves]
  refine levelOf_number ?_
  rw [List.length_take, List.length_drop]
  omega

/-! ### The judgement -/

section Judge

variable {s : State} {o table : Byte} {start : BitVec 16} {codes : List Byte}

theorem judgeLoad_noRight (may : s.holdsRight o .tables = false) : judgeLoad o table start codes s = refuse s .noRight := if_pos (not_holds may)

theorem judgeLoad_noTable (may : s.holdsRight o .tables = true) (none : 7 ≤ table.toNat) :
    judgeLoad o table start codes s = refuse s .badValue := by
  have absent : tableWidth table = Option.none := List.getElem?_eq_none none
  rw [judgeLoad, if_neg (holds may), absent]

theorem judgeLoad_table (may : s.holdsRight o .tables = true) {w : Nat} (width : tableWidth table = some w) :
    judgeLoad o table start codes s =
      if tableSize table < start.toNat + codes.length / w ∨ tableSize table ≤ start.toNat then refuse s .badValue
      else
        accept { s with tables := s.tables.write table.toNat start.toNat (codesOf w (codes.length / w) codes) }
          (item start.toNat ++ item (codes.length / w)) := by
  rw [judgeLoad, if_neg (holds may), width]

end Judge

/-- The codes of a LOAD that fits are one or more whole codes (R185). -/
theorem wholeCodes_of_fits {table : Byte} {start : BitVec 16} {codes : List Byte} (fits : (Command.load table start codes).fits = true) {w : Nat}
    (width : tableWidth table = some w) : codes ≠ [] ∧ w ∣ codes.length := by
  obtain ⟨whole, -⟩ := Bool.and_eq_true .. ▸ fits
  rw [wholeCodes, width, Bool.and_eq_true] at whole
  obtain ⟨filled, mod⟩ := whole
  exact ⟨by simpa using filled, Nat.dvd_of_mod_eq_zero (beq_iff_eq.mp mod)⟩

/-- Settles O44: the right, the table and the run's place are judged, then the run is written. -/
theorem loadWritesARunOfEntries : Obligations.LoadWritesARunOfEntries := by
  intro sender table start codes s idle capacity fits answers may
  have loaded {j : Judged} (h : judgeLoad sender.originator table start codes s = j) (plain : j.after = []) : answers j.state j.result j.items :=
    exec_plain (c := .load table start codes) rfl fits idle (h.trans (by rw [← plain]))
  refine ⟨fun none => loaded (judgeLoad_noRight none) rfl, fun right none => loaded (judgeLoad_noTable right none) rfl, fun right t number => ?_⟩
  intro width size n a code written
  have known : t.val < 7 := t.isLt
  have wide : tableWidth table = some width := by
    change [3, 2, 10, 3, 1, 2, 3][table.toNat]? = some ([3, 2, 10, 3, 1, 2, 3].getD t.val 1)
    rw [number, List.getD_eq_getElem?_getD, List.getElem?_eq_getElem known, Option.getD_some]
  have sized : tableSize table = size := congrArg (fun k => [8192, 4, 256, 256, 1, 16, 40].getD k 0) number
  have judged := judgeLoad_table (start := start) (codes := codes) right wide
  rw [sized, number] at judged
  refine ⟨fun far => loaded (judged.trans (if_pos (.inl far))) rfl, fun fit => ?_⟩
  obtain ⟨filled, whole⟩ := wholeCodes_of_fits fits wide
  have count : width * n = codes.length := Nat.mul_div_cancel' whole
  have some : 0 < n := by
    refine Nat.pos_of_ne_zero fun zero => filled (List.eq_nil_of_length_eq_zero ?_)
    rw [← count, zero, Nat.mul_zero]
  have answer := loaded (judged.trans (if_neg (by omega))) rfl
  have sizes (k : Nat) (here : t.val = k) : a + n ≤ [8192, 4, 256, 256, 1, 16, 40].getD k 0 := here ▸ fit
  refine ⟨s.tables.write t.val a (codesOf width n codes), answer, fun i _ => ?_, fun i _ => ?_, fun i _ => ?_, fun i _ => ?_, ?_,
    fun i _ => ?_, fun i _ => ?_⟩
  · rw [Tables.write_taps]
    exact written_getElem? (t.val = 0) _ codes (fun here => (sizes 0 here).trans_eq capacity.taps.symm) i
  · rw [Tables.write_latencies]
    exact written_getElem? (t.val = 1) _ codes (fun here => (sizes 1 here).trans_eq capacity.latencies.symm) i
  · rw [Tables.write_levels, written_getElem? (t.val = 2) _ codes (fun here => (sizes 2 here).trans_eq capacity.levels.symm) i]
    by_cases here : t.val = 2 ∧ written i
    · have ten : width = 10 := congrArg (fun k => [3, 2, 10, 3, 1, 2, 3].getD k 1) here.1
      rw [if_pos here, if_pos here]
      obtain ⟨-, above, below⟩ := here
      rw [ten] at count ⊢
      rw [levelOf_code (by omega)]
    · rw [if_neg here, if_neg here]
  · rw [Tables.write_gains]
    exact written_getElem? (t.val = 3) _ codes (fun here => (sizes 3 here).trans_eq capacity.gains.symm) i
  · rw [Tables.write_unity]
    refine if_congr Iff.rfl ?_ rfl
    have first := codesOf_getElem? width some codes
    rw [List.headD_eq_head?_getD, List.head?_eq_getElem?, List.getElem?_map, first, Option.map_some, Option.getD_some]
    change _ = BitVec.ofNat 8 (numberOf ((codes.drop (width * (0 - a))).take width))
    rw [Nat.zero_sub]
  · rw [Tables.write_weights]
    exact written_getElem? (t.val = 5) _ codes (fun here => (sizes 5 here).trans_eq capacity.weights.symm) i
  · rw [Tables.write_filters]
    exact written_getElem? (t.val = 6) _ codes (fun here => (sizes 6 here).trans_eq capacity.filters.symm) i

end Sys2Proof.Machine
end

