-- ==== Sys2Proof/Proofs/HouseTime.lean ====
section
/-! SUPPORT. What the end of a house frame does to the trunks, the house time that a frame carries, and TIME SET and TIME ADJUST
(R62, R64 to R66). -/

namespace Sys2Proof.Machine

/-! ### Receivers alone -/

/-- `t` is `s` but for its feeds and its input trunks. -/
def State.Received (s t : State) : Prop := t = { s with feeds := t.feeds, inputs := t.inputs }

namespace State.Received

theorem refl (s : State) : s.Received s := rfl

theorem trans {s t u : State} (h : s.Received t) (k : t.Received u) : s.Received u := by
  unfold State.Received at *
  rw [h] at k
  exact k

theorem ite {s t u : State} (c : Prop) [Decidable c] (a : s.Received t) (b : s.Received u) : s.Received (if c then t else u) := by
  split <;> assumption

theorem foldl {α : Type} {g : State → α → State} (h : ∀ (s : State) a, s.Received (g s a)) (as : List α) (s : State) : s.Received (as.foldl g s) := by
  induction as generalizing s with
  | nil => exact .refl s
  | cons a as ih => exact (h s a).trans (ih _)

theorem updReceiver (s : State) (n : Fin 4) (g : Receiver → Receiver) : s.Received (s.updReceiver n g) := rfl

theorem trunkUnframed (s : State) (n : Fin 4) : s.Received (s.trunkUnframed n) := rfl

theorem afterReceiver (s before : State) (n : Fin 4) : s.Received (s.afterReceiver before n) := .ite _ (trunkUnframed s n) (.refl s)

theorem badBurst (s : State) (n : Fin 4) : s.Received (s.badBurst n) :=
  (updReceiver s n Receiver.bad).trans (afterReceiver _ s n)

/-- An IDLE symbol ends no good burst (R150). -/
theorem receive_idle (s : State) (n : Fin 4) : s.Received (s.receive n .idle) := by
  unfold State.receive
  dsimp only
  cases (s.updReceiver n Receiver.wake).inputs[n].receiver.assembly with
  | none => exact updReceiver s n _
  | some octets => exact (updReceiver s n _).trans ((updReceiver _ n _).trans (badBurst _ n))

theorem loopIdle (k : Fin 2) (s : State) : s.Received (State.loopSymbol k s .idle) := by
  unfold State.loopSymbol
  exact foldl (fun t n => .ite _ (receive_idle t n) (.refl t)) _ s

theorem idleFill (s : State) : s.Received s.idleFill := by
  unfold State.idleFill
  exact foldl (fun t k => loopIdle k t) _ s

theorem tickReceiver (s : State) (n : Fin 4) : s.Received (s.tickReceiver n) := by
  unfold State.tickReceiver
  exact .ite _ ((updReceiver s n Receiver.tick).trans (afterReceiver _ s n)) (.refl s)

theorem tickReceivers (s : State) : s.Received s.tickReceivers := by
  unfold State.tickReceivers
  exact foldl (fun t n => .ite _ (updReceiver t n _) (tickReceiver t n)) _ s

theorem time {s t : State} (h : s.Received t) : t.time = s.time := by
  rw [h]

end State.Received

/-! ### The time of a house frame (R62) -/

theorem State.latchGains_time (s : State) : s.latchGains.time = s.time := by
  unfold State.latchGains
  split <;> rfl

theorem State.runProgrammes_time (outputs : Vector FeedOutput 8) (order : List (Fin 16)) (s : State) :
    (s.runProgrammes outputs order).time = s.time := by
  unfold State.runProgrammes
  induction programmeOrder order generalizing s with
  | nil => rfl
  | cons p ps ih =>
    rw [List.foldl_cons, ih, State.runProgramme]
    dsimp only
    split <;> rfl

/-- The time unit after a house frame. -/
theorem State.frame_time (s : State) (order : List (Fin 16)) : (s.frame order).time = s.time.frame.oscillate := by
  unfold State.frame
  dsimp only
  rw [(State.Received.tickReceivers _).time, (State.Received.idleFill _).time]
  change (State.runProgrammes _ order _).time.oscillate = _
  rw [State.runProgrammes_time]
  change (State.latchGains _).time.oscillate = _
  rw [State.latchGains_time]
  rfl

/-- The oscillator period moves the reference monitor alone. -/
theorem Timebase.oscillate_eq (t : Timebase) :
    t.oscillate = { t with
      gapCount := t.oscillate.gapCount, gapTaken := t.oscillate.gapTaken, edgeCount := t.oscillate.edgeCount
      reference := t.oscillate.reference } := by
  unfold Timebase.oscillate Timebase.gapTick
  dsimp only
  repeat' split
  all_goals rfl

theorem State.catchUp_of_nothingDue {s : State} (nothing : s.NothingDue) : s.catchUp = s := by
  obtain ⟨boundary, servo, slice⟩ := nothing
  have first : s.boundaryIfDue = s := if_neg (by rw [boundary]; decide)
  have second : s.servoIfDue = s := if_neg (by rw [servo]; decide)
  rw [State.catchUp, first, second]
  exact if_neg (by rw [slice]; decide)

theorem exec_houseFrame {s : State} (nothing : s.NothingDue) (slots : s.slotsHold = true) (order : List (Fin 16)) :
    exec (.houseFrame order) s = .next (s.frame order) := by
  change execHouseFrame order s = _
  rw [execHouseFrame, State.catchUp_of_nothingDue nothing, if_pos slots]

/-- The first house frame after `t` carries `t`'s next time and next frame count (R62). -/
theorem exec_houseFrame_time {t : State} (nothing : t.NothingDue) (slots : t.slotsHold = true) (order : List (Fin 16)) :
    ∃ u, exec (.houseFrame order) t = .next u ∧ u.time.houseTime = t.time.nextTime ∧ u.time.nextTime = t.time.nextTime + 1 ∧
      u.time.frameCounter = t.time.nextFrame := by
  refine ⟨_, exec_houseFrame nothing slots order, ?_⟩
  rw [State.frame_time, Timebase.oscillate_eq]
  exact ⟨rfl, rfl, rfl⟩

/-! ### TIME SET and TIME ADJUST (R64 to R66) -/

theorem State.timeJump_eq (s : State) :
    s.timeJump =
      { s with
        feeds := mapAll (fun _ x => { x with context := { x.context with anchors := [] } }) s.feeds
        programmes := mapAll (fun _ p =>
          { p with align := if p.timing.mode = .tracked then { p.align with aligned := false, misses := 0 } else p.align }) s.programmes } := by
  have jump : (fun (_ : Fin 16) (p : Programme) => p.timeJump) = fun _ p =>
      { p with align := if p.timing.mode = .tracked then { p.align with aligned := false, misses := 0 } else p.align } := by
    funext _ p
    unfold Programme.timeJump
    split <;> rfl
  rw [State.timeJump, jump]

theorem judgeTimeSet_right {s : State} {o : Byte} (may : s.holdsRight o .timing = true) (v : Word32) :
    judgeTimeSet o v s = accept { s with time := { s.time with nextTime := v } }.timeJump [] := if_neg (holds may)

theorem judgeTimeAdjust_right {s : State} {o : Byte} (may : s.holdsRight o .timing = true) (v : Word32) :
    judgeTimeAdjust o v s =
      { state := { s with time := { s.time with nextTime := s.time.nextTime + timeShift v } }.timeJump
        result := if v = 0x80000000 then .clamped else .done, items := [], after := [] } := if_neg (holds may)

theorem lowest_iff (v : Word32) : v.toInt = -2147483648 ↔ v = 0x80000000 :=
  ⟨fun h => BitVec.eq_of_toInt_eq h, fun h => h ▸ rfl⟩

/-- The step of a TIME ADJUST, clamped at its lower end (R65). -/
theorem timeShift_eq (v : Word32) : timeShift v = if v.toInt = -2147483648 then BitVec.ofInt 32 (-2147483647) else v := by
  unfold timeShift
  simp only [lowest_iff]
  rfl

/-- Settles O49: the next house frame carries what the command left for it. -/
theorem timeCommandsMoveHouseTime : Obligations.TimeCommandsMoveHouseTime := by
  intro sender v s idle may jumped
  refine ⟨fun none => ⟨exec_plain (c := .timeSet v) rfl rfl idle (if_pos (not_holds none)),
    exec_plain (c := .timeAdjust v) rfl rfl idle (if_pos (not_holds none))⟩, fun right => ?_⟩
  have leaves (next : Word32) : { s with time := { s.time with nextTime := next } }.timeJump = jumped next := State.timeJump_eq _
  have set : exec (.timeSet sender v) s = .next ((jumped v).replied sender 12 0 .done []) := by
    have answer := exec_plain (i := .timeSet sender v) rfl rfl idle (judgeTimeSet_right right v)
    rw [leaves] at answer
    exact answer
  have adjust : exec (.timeAdjust sender v) s =
      .next ((jumped (s.time.nextTime + timeShift v)).replied sender 13 0 (if v = 0x80000000 then .clamped else .done) []) := by
    have answer := exec_plain (i := .timeAdjust sender v) rfl rfl idle (judgeTimeAdjust_right right v)
    rw [leaves] at answer
    exact answer
  refine ⟨set, fun step => ?_, fun lowest => ?_, fun order t nothing slots => ⟨fun after => ?_, fun after => ?_⟩⟩
  · rw [adjust, timeShift_eq, if_neg step, if_neg (mt (lowest_iff v).mpr step)]
  · rw [adjust, timeShift_eq, if_pos lowest, if_pos ((lowest_iff v).mp lowest)]
  · rw [set] at after
    injection after with after
    obtain ⟨u, frame, house, next, counter⟩ := exec_houseFrame_time nothing slots order
    rw [← after] at house next counter
    exact ⟨u, frame, house, next, counter⟩
  · rw [adjust] at after
    injection after with after
    obtain ⟨u, frame, house, next, counter⟩ := exec_houseFrame_time nothing slots order
    refine ⟨u, frame, ?_, next.trans (by rw [house]), ?_⟩
    · rw [house, ← after, ← timeShift_eq]
      rfl
    · rw [counter, ← after]
      rfl

end Sys2Proof.Machine
end

