-- ==== Sys2Proof/Proofs/Acknowledge.lean ====
section
/-! SUPPORT. The records of a programme, and ACKNOWLEDGE in its single and its group form (R118, R119, R134). -/

namespace Sys2Proof.Machine

/-! ### The records of a programme (R118, R119) -/

theorem concerns_iff {r : Fin 400} {p : Fin 16} :
    concerns r p ↔ r.val < 256 ∧ r.val / 16 = p.val ∨ 256 ≤ r.val ∧ r.val < 352 ∧ (r.val - 256) / 6 = p.val := by
  unfold concerns recordObject
  by_cases h1 : r.val < 256
  · simp only [h1, dif_pos, reduceCtorEq, false_or, AlarmObject.position.injEq, Fin.ext_iff]
    exact ⟨fun ⟨_, own, _⟩ => .inl ⟨trivial, own⟩, fun h => ⟨⟨r.val / 2 % 8, by omega⟩, by omega, rfl⟩⟩
  · by_cases h2 : r.val < 352
    · simp only [h1, h2, dif_pos, dif_neg, not_false_eq_true, reduceCtorEq, AlarmObject.programme.injEq, exists_false, or_false, Fin.ext_iff,
        false_and, false_or, true_and]
      exact ⟨fun own => ⟨Nat.not_lt.mp h1, own⟩, And.right⟩
    · refine iff_of_false ?_ (by omega)
      simp only [h1, h2, dif_neg, not_false_eq_true]
      split
      · simp
      · split <;> simp

theorem recordKind_val (r : Fin 400) :
    (recordKind r).val =
      if r.val < 256 then r.val % 2 else if r.val < 352 then 2 + (r.val - 256) % 6 else if r.val < 392 then 8 + (r.val - 352) % 5
      else if r.val < 396 then 13 else 14 + (r.val - 396) % 4 := by
  unfold recordKind
  repeat' split
  all_goals rfl

/-- The records that a group acknowledgement reaches for a programme are those of the kind that concern it (R134). -/
theorem mem_acknowledgeRecords {k : Fin 8} {p : Fin 16} {r : Fin 400} :
    r ∈ acknowledgeRecords k p ↔ (recordKind r).val = k.val ∧ concerns r p := by
  rw [concerns_iff, recordKind_val]
  unfold acknowledgeRecords
  split
  · rename_i low
    simp only [List.mem_map, List.mem_finRange, true_and, positionRecord, Fin.ext_iff]
    constructor
    · rintro ⟨q, place⟩
      rw [if_pos (by omega)]
      omega
    · rintro ⟨kind, own⟩
      have position : r.val < 256 := by
        by_contra high
        rw [if_neg high] at kind
        split at kind
        · omega
        · omega
      rw [if_pos position] at kind
      exact ⟨⟨r.val / 2 % 8, by omega⟩, by dsimp only; omega⟩
  · rename_i high
    simp only [List.mem_singleton, programmeRecord, Fin.ext_iff]
    constructor
    · intro place
      rw [if_neg (by omega), if_pos (by omega)]
      omega
    · rintro ⟨kind, own⟩
      have programme : 256 ≤ r.val ∧ r.val < 352 := by
        split at kind
        · omega
        · split at kind
          · omega
          · omega
      rw [if_neg (by omega), if_pos programme.2] at kind
      omega

theorem acknowledgeRecords_nodup (k : Fin 8) (p : Fin 16) : (acknowledgeRecords k p).Nodup := by
  unfold acknowledgeRecords
  split
  · refine (List.nodup_finRange 8).map fun a b same => ?_
    simp only [positionRecord, Fin.ext_iff] at same ⊢
    omega
  · exact List.nodup_singleton _

/-- The records that a group acknowledgement reaches, each once. -/
theorem acknowledged_nodup (k : Fin 8) (selection : BitVec 16) : ((selected selection).flatMap (acknowledgeRecords k)).Nodup := by
  refine List.nodup_flatMap.mpr ⟨fun p _ => acknowledgeRecords_nodup k p, (selected_ascending selection).imp fun {p q} less r hp hq => ?_⟩
  have one := concerns_iff.mp (mem_acknowledgeRecords.mp hp).2
  have other := concerns_iff.mp (mem_acknowledgeRecords.mp hq).2
  have := Fin.lt_def.mp less
  omega

/-! ### What an acknowledgement does (R134) -/

theorem foldl_updRecord (s : State) (g : AlarmRecord → AlarmRecord) {rs : List (Fin 400)} (once : rs.Nodup) :
    rs.foldl (fun t r => t.updRecord r g) s =
      s.withTold (mapAll (fun r x => if r ∈ rs then g x else x) s.alarms.records) s.processor.reports := by
  induction rs generalizing s with
  | nil =>
    have same : mapAll (fun (r : Fin 400) (x : AlarmRecord) => if r ∈ [] then g x else x) s.alarms.records = s.alarms.records := by
      refine Vector.ext fun i h => ?_
      rw [mapAll_getElem, if_neg List.not_mem_nil]
    rw [same]
    rfl
  | cons r rs ih =>
    obtain ⟨fresh, once⟩ := List.nodup_cons.mp once
    rw [List.foldl_cons, ih _ once]
    refine congrArg (fun v => s.withTold v s.processor.reports) (Vector.ext fun i h => ?_)
    rw [mapAll_getElem, mapAll_getElem]
    by_cases e : r = ⟨i, h⟩
    · subst e
      rw [if_neg fresh, if_pos List.mem_cons_self]
      exact updAt_same s.alarms.records ⟨i, h⟩ g
    · have other : (s.updRecord r g).alarms.records[i] = s.alarms.records[i] := updAt_other s.alarms.records r ⟨i, h⟩ g e
      rw [other]
      exact if_congr ⟨fun h => List.mem_cons_of_mem r h, fun h => (List.mem_cons.mp h).resolve_left (Ne.symm e)⟩ rfl rfl

theorem mem_latchedOf {s : State} {rs : List (Fin 400)} {r : Fin 400} : r ∈ s.latchedOf rs ↔ r ∈ rs ∧ s.alarms.records[r].state = .latched := by
  rw [State.latchedOf, List.mem_filter, beq_iff_eq]

/-- What forming the lines and a REPLY leave of a state with its alarm records moved. -/
theorem State.replied_formLines (s : State) (n : Nat) (v : Vector AlarmRecord 400) (sender : Sender) (code form : Byte) (result : CommandResult)
    (items : List Byte) :
    let u := ((({ s with freeCount := n } : State).withTold v s.processor.reports).formLines).replied sender code form result items
    u.alarms.policies = s.alarms.policies ∧ u.time = s.time ∧ u.alarms.records = v ∧
      u.processor.reports = s.processor.reports ++
        [.reply { tag := sender.tag, originator := sender.originator, code := code, form := form, result := result, items := items }] :=
  ⟨rfl, rfl, rfl, rfl⟩

/-- An acknowledgement moves the records, the lines, the report queue and the count of free values alone. -/
theorem State.withTold_acknowledged (s : State) (n : Nat) (v w : Vector AlarmRecord 400) (reply : Report) (q₀ q : List Report) :
    let t := (((({ s with freeCount := n } : State).withTold v q₀).formLines).pushReport reply).withTold w q
    t = { s with
      alarms := { s.alarms with records := t.alarms.records, major := t.alarms.major, minor := t.alarms.minor }
      processor := { s.processor with reports := t.processor.reports }, freeCount := t.freeCount } := rfl

/-- The answer to an ACKNOWLEDGE of the records `rs` (R134, R136). -/
theorem State.acknowledge_told (s : State) (sender : Sender) (n : Nat) (form : Byte) (items : List Byte) {rs : List (Fin 400)} (once : rs.Nodup) :
    let u := ((({ s with freeCount := n } : State).acknowledgeAll rs).replied sender 15 form .done items)
    let t := u.offerClears (s.latchedOf rs)
    ∃ told : List (Fin 400), t.LineLaw ∧
      (∀ r, r ∈ told → r ∈ rs ∧ s.alarms.records[r].state = .latched) ∧ told.Nodup ∧
      ((∀ r, r ∈ rs → s.alarms.records[r].state = .latched → r ∈ told) ∨ 24 ≤ t.processor.alarmReports ∨
        32 ≤ t.processor.reports.length) ∧
      t.processor.reports = s.processor.reports ++
        .reply { tag := sender.tag, originator := sender.originator, code := 15, form := form, result := .done, items := items } ::
        told.map (fun r => .alarm
          { type := .clear, index := r, state := .clear, severity := (s.alarms.policyOf r).severity, acknowledged := false
            timeOfRaise := s.alarms.records[r].timeOfRaise, houseTime := s.time.houseTime }) ∧
      (∀ r : Fin 400,
        let x := s.alarms.records[r]
        (r ∈ rs → x.state = .active → t.alarms.records[r] = { x with acknowledged := true }) ∧
        (r ∈ rs → x.state = .latched → t.alarms.records[r] =
          { state := .clear, count := 0, repeatCount := 0, repeatsDue := 0, acknowledged := false
            unreported := decide (r ∉ told), timeOfRaise := x.timeOfRaise }) ∧
        (¬ (r ∈ rs ∧ x.state ∈ [.active, .latched]) → t.alarms.records[r] = x)) ∧
      t = { s with
        alarms := { s.alarms with records := t.alarms.records, major := t.alarms.major, minor := t.alarms.minor }
        processor := { s.processor with reports := t.processor.reports }, freeCount := t.freeCount } := by
  intro u t
  have member {r : Fin 400} := mem_latchedOf (s := s) (rs := rs) (r := r)
  have latched : (s.latchedOf rs).Nodup := once.filter _
  -- the state before the reports, with its records as the acknowledgement leaves them
  have acknowledged := foldl_updRecord { s with freeCount := n } AlarmRecord.acknowledge once
  have before : u = ((({ s with freeCount := n } : State).withTold
      (mapAll (fun r x => if r ∈ rs then x.acknowledge else x) s.alarms.records) s.processor.reports).formLines).replied sender 15 form .done items :=
    congrArg (fun x => (State.formLines x).replied sender 15 form .done items) acknowledged
  have law : t.LineLaw := ((State.formLines_lineLaw _).of_alarms (t := u) rfl).offerClears _
  have fields := s.replied_formLines n (mapAll (fun r x => if r ∈ rs then x.acknowledge else x) s.alarms.records) sender 15 form .done items
  rw [← before] at fields
  obtain ⟨same, house, held, queue⟩ := fields
  have record (r : Fin 400) : u.alarms.records[r] = if r ∈ rs then s.alarms.records[r].acknowledge else s.alarms.records[r] := by
    rw [held]
    exact mapAll_getElem ..
  have cleared (r : Fin 400) (inside : r ∈ rs) (lat : s.alarms.records[r].state = .latched) :
      u.alarms.records[r] = s.alarms.records[r].forced := by
    rw [record, if_pos inside, AlarmRecord.acknowledge, lat]
  obtain ⟨w, told, records⟩ := u.offerClears_told _ latched
  have form (r : Fin 400) (inside : r ∈ s.latchedOf rs) :
      u.reportOf u.alarms.records (r, .clear) =
        .alarm { type := .clear, index := r, state := .clear, severity := (s.alarms.policyOf r).severity, acknowledged := false
                 timeOfRaise := s.alarms.records[r].timeOfRaise, houseTime := s.time.houseTime } := by
    obtain ⟨own, lat⟩ := member.mp inside
    simp only [State.reportOf, State.formAlarm, State.withTold_records, State.withTold_policyOf, State.withTold_time, cleared r own lat,
      AlarmUnit.policyOf_congr same r, house]
    rfl
  have reports : t = u.withTold w (u.processor.reports ++ ((s.latchedOf rs).take u.alarmSpace).map fun r => .alarm
      { type := .clear, index := r, state := .clear, severity := (s.alarms.policyOf r).severity, acknowledged := false
        timeOfRaise := s.alarms.records[r].timeOfRaise, houseTime := s.time.houseTime }) := by
    refine told.trans (congrArg (fun q => u.withTold w (u.processor.reports ++ q)) ?_)
    exact List.map_congr_left fun r inside => form r (List.mem_of_mem_take inside)
  have left (r : Fin 400) : t.alarms.records[r] = w[r] := by rw [reports, State.withTold_records]
  refine ⟨(s.latchedOf rs).take u.alarmSpace, law, fun r inside => member.mp (List.mem_of_mem_take inside),
    latched.sublist (List.take_sublist ..), ?_, ?_, fun r => ?_, ?_⟩
  · have room := u.take_alarmSpace (s.latchedOf rs) w fun r =>
      { type := .clear, index := r, state := .clear, severity := (s.alarms.policyOf r).severity, acknowledged := false
        timeOfRaise := s.alarms.records[r].timeOfRaise, houseTime := s.time.houseTime }
    rw [reports]
    refine room.imp_left fun all r own lat => ?_
    rw [all]
    exact member.mpr ⟨own, lat⟩
  · rw [reports, State.withTold_reports, queue, List.append_assoc]
    rfl
  · intro x
    refine ⟨fun own act => ?_, fun own lat => ?_, fun other => ?_⟩
    · have outside : r ∉ s.latchedOf rs := fun h => by
        have lat := (member.mp h).2
        rw [act] at lat
        cases lat
      rw [left, records r, if_neg outside, record, if_pos own, AlarmRecord.acknowledge, act]
    · rw [left, records r, if_pos (member.mpr ⟨own, lat⟩), cleared r own lat]
      rfl
    · have outside : r ∉ s.latchedOf rs := fun h => by
        obtain ⟨own, lat⟩ := member.mp h
        exact other ⟨own, by rw [lat]; decide⟩
      rw [left, records r, if_neg outside, record]
      by_cases own : r ∈ rs
      · rw [if_pos own, AlarmRecord.acknowledge]
        split
        · rename_i act; exact absurd ⟨own, by rw [act]; decide⟩ other
        · rename_i lat; exact absurd ⟨own, by rw [lat]; decide⟩ other
        · rfl
      · rw [if_neg own]
  · rw [reports, before]
    exact s.withTold_acknowledged n _ w _ _ _

/-! ### Selections judged alike -/

theorem judgeEach_alike (r : CommandResult) (ps : List (Fin 16)) (s : State) (g : GroupTally) :
    judgeEach (fun t _ => (t, r)) ps s g = (s, ps.foldl (fun g p => g.enter p r) g) := by
  induction ps generalizing g with
  | nil => rfl
  | cons p ps ih => exact ih (g.enter p r)

/-- A group form that every selected programme accepts. -/
theorem judgeGroup_done (selection : BitVec 16) (s : State) :
    ∃ (n : Nat) (fill : Byte), judgeGroup selection (fun t _ => (t, .done)) s =
      { state := { s with freeCount := n }, result := .done
        items := [selection.extractLsb' 8 8, selection.extractLsb' 0 8, 255, fill], after := [] } := by
  have mask := GroupTally.foldl_mask (fun _ => .done) (selected selection) GroupTally.initial
  have clamped := GroupTally.foldl_clamped (fun _ => .done) (selected selection) GroupTally.initial
  have first := GroupTally.foldl_first_none (fun _ => .done) (selected selection) GroupTally.initial fun _ _ => .inl rfl
  have reply : judgeGroup selection (fun t _ => (t, .done)) s = groupReply s _ none :=
    congrArg (fun x : State × GroupTally => groupReply x.1 x.2 none) (judgeEach_alike .done (selected selection) s GroupTally.initial)
  revert mask clamped first reply
  generalize (selected selection).foldl (fun g p => g.enter p .done) GroupTally.initial = g
  intro mask clamped first reply
  obtain ⟨n, fill, answer⟩ := groupReply_accepted s first
  have whole : g.mask = selection := by
    refine BitVec.eq_of_getLsbD_eq fun i below => ?_
    rw [Bool.eq_iff_iff]
    refine (mask ⟨i, below⟩).trans ?_
    rw [mem_selected]
    exact ⟨fun h => h.elim (fun h => absurd h (by simp [GroupTally.initial])) And.left, fun h => .inr ⟨h, .inl rfl⟩⟩
  have plain : ¬ g.clamped = true := fun h => by
    obtain h | ⟨_, _, h⟩ := clamped.mp h
    · exact Bool.false_ne_true h
    · cases h
  exact ⟨n, fill, reply.trans (answer.trans (by rw [whole, if_neg plain]))⟩

/-- The lowest programme of a selection that is not empty. -/
theorem lowest_selected {selection : BitVec 16} (filled : selection ≠ 0) :
    ∃ p : Fin 16, selection.getLsbD p.val = true ∧ ∀ q : Fin 16, q < p → selection.getLsbD q.val = false := by
  obtain ⟨i, member⟩ : ∃ p : Fin 16, selection.getLsbD p.val = true := by
    by_contra none
    refine filled (BitVec.eq_of_getLsbD_eq fun i below => ?_)
    have absent := not_exists.mp none ⟨i, below⟩
    exact (Bool.not_eq_true _ ▸ absent).trans BitVec.getLsbD_zero.symm
  obtain ⟨p, member, lowest⟩ := wellFounded_lt.has_min {p : Fin 16 | selection.getLsbD p.val = true} ⟨i, member⟩
  exact ⟨p, member, fun q less => Bool.eq_false_iff.mpr fun h => lowest q h less⟩

/-- A group form that every selected programme refuses. -/
theorem judgeGroup_noRight {selection : BitVec 16} {p : Fin 16} (member : selection.getLsbD p.val = true)
    (lowest : ∀ q : Fin 16, q < p → selection.getLsbD q.val = false) (s : State) :
    judgeGroup selection (fun t _ => (t, .noRight)) s =
      { state := s, result := .noRight, items := [0, 0, BitVec.ofNat 8 p.val, 2], after := [] } := by
  have no : ¬ CommandResult.noRight.accepts := fun h => by rcases h with h | h <;> cases h
  have mask := GroupTally.foldl_mask (fun _ => .noRight) (selected selection) GroupTally.initial
  have first := GroupTally.foldl_first (fun _ => .noRight) (selected selection) (selected_ascending selection) (g := GroupTally.initial) rfl
    (mem_selected.mpr member) no fun q less inside => absurd (mem_selected.mp inside) (by rw [lowest q less]; decide)
  have reply : judgeGroup selection (fun t _ => (t, .noRight)) s = groupReply s _ none :=
    congrArg (fun x : State × GroupTally => groupReply x.1 x.2 none) (judgeEach_alike .noRight (selected selection) s GroupTally.initial)
  revert mask first reply
  generalize (selected selection).foldl (fun g p => g.enter p .noRight) GroupTally.initial = g
  intro mask first reply
  have empty : g.mask = 0 := by
    refine BitVec.eq_of_getLsbD_eq fun i below => ?_
    rw [Bool.eq_iff_iff]
    exact (mask ⟨i, below⟩).trans ⟨fun h => h.elim id fun h => absurd h.2 no, .inl⟩
  rw [reply, groupReply_refused s first, empty]
  rfl

/-! ### The judgement -/

section Acknowledge

variable {s : State} {o : Byte}

theorem AlarmRecord.acknowledgeable_iff (x : AlarmRecord) : x.acknowledgeable = true ↔ x.state ∈ [.active, .latched] := by
  unfold AlarmRecord.acknowledgeable
  cases x.state <;> simp

theorem acknowledgeOne_right (may : s.holdsRight o .alarm = true) {index : BitVec 16} {r : Fin 400} (number : index.toNat = r.val) :
    acknowledgeOne o index s =
      if s.alarms.records[r].acknowledgeable then
        { state := s.acknowledgeAll [r], result := .done, items := [], after := [.clears (s.latchedOf [r])] }
      else refuse s .busy := by
  rw [acknowledgeOne, if_neg (holds may), below_eq number]

theorem acknowledgeGroup_noRight (may : s.holdsRight o .alarm = false) (kind : Byte) {selection : BitVec 16} (filled : selection ≠ 0) :
    acknowledgeGroup o kind selection s = judgeGroup selection (fun t _ => (t, .noRight)) s := if_pos ⟨not_holds may, filled⟩

theorem acknowledgeGroup_kind {selection : BitVec 16} (may : s.holdsRight o .alarm = true ∨ selection = 0) {kind : Byte} :
    acknowledgeGroup o kind selection s =
      match below 8 kind.toNat with
      | none => groupReply s GroupTally.initial (some (if s.holdsRight o .alarm then .badValue else .noRight))
      | some k =>
        let rs := (selected selection).flatMap (acknowledgeRecords k)
        let j := judgeGroup selection (fun t _ => (t, .done)) s
        { j with state := j.state.acknowledgeAll rs, after := [.clears (s.latchedOf rs)] } := by
  have passes : ¬ ((!s.holdsRight o .alarm) = true ∧ selection ≠ 0) := fun h => may.elim (fun right => holds right h.1) h.2
  rw [acknowledgeGroup, if_neg passes] <;> rfl

end Acknowledge

/-- Settles O51: the checks in their order, then what the acknowledgement does to the records it reaches. -/
theorem acknowledgeActsByRecordState : Obligations.AcknowledgeActsByRecordState := by
  intro sender choice s idle may reached carriedOut
  have answered {j : Judged} (h : judgeAcknowledge sender.originator choice s = j) :
      exec (.acknowledge sender choice) s = .next (j.after.foldl (fun t d => d.run t)
        (j.state.replied sender 15 (encodeCommand (.acknowledge choice)).form j.result j.items)) := by
    rw [exec_idle (c := .acknowledge choice) rfl rfl idle, State.answered_eq]
    change Host.Outcome.next ((judgeAcknowledge sender.originator choice s).after.foldl _ _) = _
    rw [← h]
    cases choice <;> rfl
  have plainly {u : State} {r : CommandResult} {items : List Byte}
      (h : judgeAcknowledge sender.originator choice s = { state := u, result := r, items := items, after := [] }) :
      exec (.acknowledge sender choice) s = .next (u.replied sender 15 (encodeCommand (.acknowledge choice)).form r items) := answered h
  have carries {rs : List (Fin 400)} (once : rs.Nodup) (which : ∀ r, reached r ↔ r ∈ rs) {n : Nat} {items : List Byte}
      (h : judgeAcknowledge sender.originator choice s =
        { state := ({ s with freeCount := n } : State).acknowledgeAll rs, result := .done, items := items
          after := [.clears (s.latchedOf rs)] }) : carriedOut (encodeCommand (.acknowledge choice)).form items := by
    obtain ⟨told, law, members, fresh, all, reports, records, frame⟩ :=
      s.acknowledge_told sender n (encodeCommand (.acknowledge choice)).form items once
    exact ⟨_, told, answered h, law, fun r inside => ⟨(which r).mpr (members r inside).1, (members r inside).2⟩, fresh,
      all.imp_left fun all r own => all r ((which r).mp own), reports, fun r =>
      ⟨fun own => (records r).1 ((which r).mp own), fun own => (records r).2.1 ((which r).mp own),
        fun other => (records r).2.2 fun h => other ⟨(which r).mpr h.1, h.2⟩⟩, frame⟩
  refine ⟨?_, ?_⟩
  · rintro index rfl answers
    refine ⟨fun none => plainly (if_pos (not_holds none)), fun right beyond => plainly ?_, fun right r number => ?_⟩
    · change acknowledgeOne sender.originator index s = refuse s .badValue
      rw [acknowledgeOne, if_neg (holds right), below_none beyond]
    · have judged := acknowledgeOne_right right number
      refine ⟨fun other => plainly (judged.trans (if_neg fun h => ?_)), fun stands => ?_⟩
      · have known := (AlarmRecord.acknowledgeable_iff _).mp h
        revert other known
        cases s.alarms.records[r].state <;> simp
      · refine carries (rs := [r]) (List.nodup_singleton r) (fun q => ?_) (n := s.freeCount)
          (judged.trans (if_pos ((AlarmRecord.acknowledgeable_iff _).mpr stands)))
        change q.val = index.toNat ↔ _
        rw [number, List.mem_singleton, Fin.ext_iff]
  · rintro kind selection rfl
    refine ⟨fun none filled => ?_, fun right beyond => ?_, fun right known => ?_⟩
    · obtain ⟨p, member, lowest⟩ := lowest_selected filled
      exact ⟨p, member, lowest, plainly ((acknowledgeGroup_noRight none kind filled).trans (judgeGroup_noRight member lowest s))⟩
    · obtain ⟨n, fill, reply⟩ := groupReply_whole s (if may then .badValue else .noRight)
      refine ⟨fill, n, plainly ((acknowledgeGroup_kind right).trans ?_)⟩
      rw [below_none beyond]
      exact reply
    · obtain ⟨k, number⟩ := exists_fin known
      obtain ⟨n, fill, group⟩ := judgeGroup_done selection s
      refine ⟨fill, carries (acknowledged_nodup k selection) (fun r => ?_) (n := n) ((acknowledgeGroup_kind right).trans ?_)⟩
      · change (recordKind r).val = kind.toNat ∧ (∃ p : Fin 16, selection.getLsbD p.val = true ∧ concerns r p) ↔ _
        simp only [List.mem_flatMap, mem_selected, mem_acknowledgeRecords, number]
        exact ⟨fun ⟨own, p, member, of⟩ => ⟨p, member, own, of⟩, fun ⟨p, member, own, of⟩ => ⟨own, p, member, of⟩⟩
      · rw [below_eq number, group]

end Sys2Proof.Machine
end

