-- ==== Sys2Proof/Proofs/Transfers.lean ====
section
/-! SUPPORT. Transfer steps, and LOG READ, LOG CANCEL and LOG STATUS (R145 to R149). -/

namespace Sys2Proof.Machine

/-! ### The entries of a step (R146) -/

/-- The entry `e`, with `d` entries delivered once it is taken, stops a step (R146). -/
def Transfer.Stops (t : Transfer) (d : Nat) (e : LogEntry) : Prop := (t.count ≠ 0 ∧ d = t.count) ∨ (t.stopOnAlarm = true ∧ e.alarm = true)

theorem bump_min (m n : Nat) : bump m n = min (n + 1) m := by
  unfold bump
  split <;> omega

theorem stepEntries_cons (t : Transfer) (d room : Nat) (e : LogEntry) (es : List LogEntry) [Decidable (t.Stops (min (d + 1) 4294967295) e)] :
    stepEntries t d (room + 1) (e :: es) =
      if t.Stops (min (d + 1) 4294967295) e then [e] else e :: stepEntries t (min (d + 1) 4294967295) room es := by
  rw [stepEntries, bump_min]
  exact if_congr Iff.rfl rfl rfl

/-- What a step takes from the head of the ring (R146). -/
structure Transfer.Takes (t : Transfer) (d room : Nat) (ring taken rest : List LogEntry) : Prop where
  split : ring = taken ++ rest
  few   : taken.length ≤ room
  goes  : ∀ i e, taken[i]? = some e → i + 1 < taken.length → ¬ t.Stops (min (d + i + 1) 4294967295) e
  stops : taken.length < room → rest = [] ∨ ∃ e, taken.getLast? = some e ∧ t.Stops (min (d + taken.length) 4294967295) e
  some  : ring ≠ [] → 0 < room → taken ≠ []

theorem stepEntries_takes (t : Transfer) (d room : Nat) (ring : List LogEntry) :
    t.Takes d room ring (stepEntries t d room ring) (ring.drop (stepEntries t d room ring).length) := by
  induction room generalizing d ring with
  | zero =>
    have none : stepEntries t d 0 ring = [] := by cases ring <;> rfl
    rw [none]
    exact ⟨rfl, Nat.le_refl 0, nofun, fun h => absurd h (Nat.lt_irrefl 0), fun _ h => absurd h (Nat.lt_irrefl 0)⟩
  | succ room ih =>
    cases ring with
    | nil => exact ⟨rfl, Nat.zero_le _, nofun, fun _ => .inl rfl, fun h => absurd rfl h⟩
    | cons e es =>
      classical
      rw [stepEntries_cons]
      by_cases last : t.Stops (min (d + 1) 4294967295) e
      · rw [if_pos last]
        refine ⟨rfl, Nat.succ_le_succ (Nat.zero_le _), fun i x _ h => absurd h (by simp), fun _ => .inr ⟨e, rfl, last⟩, nofun⟩
      · rw [if_neg last]
        obtain ⟨split, few, goes, stops, some⟩ := ih (min (d + 1) 4294967295) es
        have later (k : Nat) : min (min (d + 1) 4294967295 + k) 4294967295 = min (d + (k + 1)) 4294967295 := by omega
        refine ⟨congrArg (e :: ·) split, Nat.succ_le_succ few, fun i x here more => ?_, fun short => ?_, nofun⟩
        · cases i with
          | zero => cases here; exact last
          | succ i =>
            have inside := goes i x here (Nat.lt_of_succ_lt_succ more)
            rwa [Nat.add_assoc, later] at inside
        · obtain none | ⟨x, final, ends⟩ := stops (Nat.lt_of_succ_lt_succ short)
          · exact .inl none
          · refine .inr ⟨x, ?_, ?_⟩
            · rw [List.getLast?_cons, final]
              rfl
            · rwa [later] at ends

theorem stepCause_eq (t : Transfer) (delivered : Nat) (taken rest : List LogEntry)
    [Decidable (t.stopOnAlarm = true ∧ ∃ e, taken.getLast? = some e ∧ e.alarm = true)] :
    stepCause t delivered taken rest =
      if t.stopOnAlarm = true ∧ ∃ e, taken.getLast? = some e ∧ e.alarm = true then some .matched
      else if t.count ≠ 0 ∧ delivered = t.count then some .count
      else if t.mode = .single ∧ rest = [] then some .empty
      else none := by
  unfold stepCause
  refine if_congr (and_congr_right fun _ => ?_) rfl rfl
  cases taken.getLast? <;> simp

/-! ### A transfer step (R146, R147) -/

/-- A transfer step can be taken. -/
def State.CanStep (s : State) : Prop :=
  s.log.transfer.state = .active ∧ s.processor.reports.length < 32 ∧ (s.log.ring ≠ [] ∨ s.log.transfer.mode = .single)

theorem State.canStep_iff (s : State) : s.canStep = true ↔ s.CanStep := by
  unfold State.canStep State.CanStep State.reportRoom
  simp only [Bool.and_eq_true, Bool.or_eq_true, beq_iff_eq, decide_eq_true_eq, Bool.not_eq_true', List.isEmpty_eq_false_iff, and_assoc]

/-- The entries that a step from `s` takes. -/
def State.stepTaken (s : State) : List LogEntry := stepEntries s.log.transfer s.log.transfer.delivered 4 s.log.ring

/-- The report that a step from `s` forms. -/
def State.stepReport (s : State) : LogReport :=
  { entries := s.stepTaken, overrun := s.log.transfer.overrun
    delivered := min (s.log.transfer.delivered + s.stepTaken.length) 4294967295
    cause := stepCause s.log.transfer (min (s.log.transfer.delivered + s.stepTaken.length) 4294967295) s.stepTaken
      (s.log.ring.drop s.stepTaken.length) }

/-- The state after a step that brings the entries delivered to `d`. -/
def State.steppedTo (s : State) (d : Nat) : State :=
  let cause := stepCause s.log.transfer d s.stepTaken (s.log.ring.drop s.stepTaken.length)
  { s with
    log := { s.log with
      ring := s.log.ring.drop s.stepTaken.length
      transfer := { s.log.transfer with
        delivered := d, state := if cause.isSome then .ended else s.log.transfer.state, cause := cause } }
    processor := { s.processor with
      reports := s.processor.reports ++ [.log { entries := s.stepTaken, overrun := s.log.transfer.overrun, delivered := d, cause := cause }] } }

theorem State.transferStep_eq {s : State} (can : s.CanStep) :
    s.transferStep =
      { s with
        log := { s.log with
          ring := s.log.ring.drop s.stepTaken.length
          transfer := { s.log.transfer with
            delivered := s.stepReport.delivered, state := if s.stepReport.cause.isSome then .ended else .active
            cause := s.stepReport.cause } }
        processor := { s.processor with reports := s.processor.reports ++ [.log s.stepReport] } } := by
  have delivered : clampNat 0 4294967295 (s.log.transfer.delivered + s.stepTaken.length) = s.stepReport.delivered := by
    rw [clampNat_eq_within (by decide)]
    change min _ (max 0 _) = min _ _
    omega
  have formed : s.transferStep = s.steppedTo (clampNat 0 4294967295 (s.log.transfer.delivered + s.stepTaken.length)) := rfl
  rw [formed, delivered, State.steppedTo, can.1]
  rfl

theorem exec_transferStep {s : State} (can : s.CanStep) : exec .transferStep s = .next s.transferStep :=
  congrArg Host.Outcome.next (if_pos ((s.canStep_iff).mpr can))

/-- Settles O33: a step takes what R146 lets it from the head of the ring and ends the transfer on the first cause of R147. -/
theorem transferStepTakesEntries : Obligations.TransferStepTakesEntries := by
  intro s x can
  refine ⟨fun cannot => congrArg Host.Outcome.next (if_neg (mt (s.canStep_iff).mp cannot)), fun ready => ?_⟩
  obtain ⟨split, few, goes, stops, some⟩ := stepEntries_takes x x.delivered 4 s.log.ring
  refine ⟨s.stepTaken, s.log.ring.drop s.stepTaken.length, s.stepReport.cause, ?_⟩
  intro delivered stopping
  refine ⟨split, few, goes, stops, fun filled => some filled (by decide), ?_, ?_⟩
  · exact (stepCause_eq x delivered s.stepTaken _).trans (if_congr Iff.rfl rfl rfl)
  · rw [exec_transferStep ready, State.transferStep_eq ready]
    rfl

/-! ### A run of transfer steps (R146) -/

/-- What the log keeps over a run of transfer steps. -/
structure SameTransfer (s t : State) : Prop where
  overflow    : t.log.overflow = s.log.overflow
  mode        : t.log.transfer.mode = s.log.transfer.mode
  count       : t.log.transfer.count = s.log.transfer.count
  stopOnAlarm : t.log.transfer.stopOnAlarm = s.log.transfer.stopOnAlarm
  overrun     : t.log.transfer.overrun = s.log.transfer.overrun
  beside      : t = { s with log := t.log, processor := { s.processor with reports := t.processor.reports } }

/-- The reports `ls` of a run of transfer steps from `s` to `t`. -/
structure Transferred (s t : State) (ls : List LogReport) : Prop where
  same      : SameTransfer s t
  reports   : t.processor.reports = s.processor.reports ++ ls.map .log
  ring      : s.log.ring = ls.flatMap LogReport.entries ++ t.log.ring
  each      : ∀ l ∈ ls, l.entries.length ≤ 4 ∧ l.overrun = s.log.transfer.overrun
  delivered : t.log.transfer.delivered = min (s.log.transfer.delivered + (ls.flatMap LogReport.entries).length) 4294967295

theorem Transferred.refl {s : State} (small : s.log.transfer.delivered ≤ 4294967295) : Transferred s s [] :=
  ⟨⟨rfl, rfl, rfl, rfl, rfl, rfl⟩, (List.append_nil _).symm, rfl, nofun, (Nat.min_eq_left small).symm⟩

theorem Transferred.step {s t : State} {ls : List LogReport} (h : Transferred s t ls) (can : t.CanStep) :
    Transferred s t.transferStep (ls ++ [t.stepReport]) := by
  obtain ⟨⟨overflow, mode, count, stopOnAlarm, overrun, beside⟩, reports, ring, each, delivered⟩ := h
  obtain ⟨split, few, -, -, -⟩ := stepEntries_takes t.log.transfer t.log.transfer.delivered 4 t.log.ring
  have entries : (ls ++ [t.stepReport]).flatMap LogReport.entries = ls.flatMap LogReport.entries ++ t.stepTaken := by
    rw [List.flatMap_append, List.flatMap_singleton]
    rfl
  rw [State.transferStep_eq can]
  refine ⟨⟨overflow, mode, count, stopOnAlarm, overrun, ?_⟩, ?_, ?_, fun l member => ?_, ?_⟩
  · rw [beside]
  · rw [List.map_append, ← List.append_assoc, ← reports]
    rfl
  · rw [entries, List.append_assoc, ring]
    exact congrArg (ls.flatMap LogReport.entries ++ ·) split
  · obtain inside | last := List.mem_append.mp member
    · exact each l inside
    · rw [List.mem_singleton.mp last]
      exact ⟨few, overrun⟩
  · change min (t.log.transfer.delivered + t.stepTaken.length) 4294967295 = _
    rw [entries, List.length_append, delivered]
    omega

/-- A chain of transfer steps delivers one report a step. -/
theorem transferred_chain {chain : Nat → State} {n : Nat} (small : (chain 0).log.transfer.delivered ≤ 4294967295)
    (steps : ∀ i < n, (chain i).CanStep ∧ chain (i + 1) = (chain i).transferStep) :
    ∃ ls : List LogReport, ls.length = n ∧ Transferred (chain 0) (chain n) ls := by
  induction n with
  | zero => exact ⟨[], rfl, .refl small⟩
  | succ n ih =>
    obtain ⟨ls, length, done⟩ := ih fun i h => steps i (Nat.lt_succ_of_lt h)
    obtain ⟨can, next⟩ := steps n (Nat.lt_succ_self n)
    exact ⟨ls ++ [(chain n).stepReport], by rw [List.length_append, length, List.length_singleton], next ▸ done.step can⟩

theorem length_flatMap_entries_le {ls : List LogReport} (few : ∀ l ∈ ls, l.entries.length ≤ 4) :
    (ls.flatMap LogReport.entries).length ≤ 4 * ls.length := by
  induction ls with
  | nil => exact Nat.le_refl 0
  | cons l ls ih =>
    have rest := ih fun x h => few x (List.mem_cons_of_mem l h)
    have first := few l List.mem_cons_self
    rw [List.flatMap_cons, List.length_append, List.length_cons]
    omega

/-! ### The log commands (R145, R148, R149) -/

theorem transferModeOf_eq {x : Byte} (h : x.toNat < 2) : transferModeOf x.toNat = some (if x = 0 then .single else .continuous) := by
  have value : x = 0 ∨ x = 1 := by
    rcases Nat.lt_succ_iff_lt_or_eq.mp h with h | h
    · exact .inl (BitVec.eq_of_toNat_eq (Nat.lt_one_iff.mp h))
    · exact .inr (BitVec.eq_of_toNat_eq h)
  rcases value with rfl | rfl <;> rfl

theorem flagOf_eq {x : Byte} (h : x.toNat < 2) : flagOf x.toNat = some (decide (x = 1)) := by
  obtain ⟨b, flag⟩ := Option.isSome_iff_exists.mp (flagOf_isSome.mpr h)
  rw [flag, flagOf_val flag]
  congr 2
  exact propext ⟨fun e => BitVec.eq_of_toNat_eq e, fun e => e ▸ rfl⟩

section LogRead

variable {s : State} {o mode stop : Byte} {count : BitVec 16}

theorem judgeLogRead_noRight (may : s.holdsRight o .log = false) : judgeLogRead o mode count stop s = refuse s .noRight :=
  if_pos (not_holds may)

theorem judgeLogRead_badValue (may : s.holdsRight o .log = true) (bad : 2 ≤ mode.toNat ∨ 2 ≤ stop.toNat) :
    judgeLogRead o mode count stop s = refuse s .badValue := by
  rw [judgeLogRead, if_neg (holds may)]
  split
  · rename_i m f hm hf
    have modes : mode.toNat < 2 := by
      by_contra high
      rw [transferModeOf, List.getElem?_eq_none (Nat.not_lt.mp high)] at hm
      cases hm
    have flags := flagOf_isSome.mp (by rw [hf]; rfl : (flagOf stop.toNat).isSome = true)
    omega
  · rfl

theorem judgeLogRead_valid (may : s.holdsRight o .log = true) (modes : mode.toNat < 2) (flags : stop.toNat < 2) :
    judgeLogRead o mode count stop s =
      if s.log.transfer.state = .active then refuse s .busy
      else
        { state := s.setTransfer (Transfer.opened (if mode = 0 then .single else .continuous) count.toNat (decide (stop = 1)))
          result := .done, items := [], after := [.transferSteps] } := by
  rw [judgeLogRead, if_neg (holds may), transferModeOf_eq modes, flagOf_eq flags]

theorem judgeLogCancel_noRight (may : s.holdsRight o .log = false) : judgeLogCancel o s = refuse s .noRight := if_pos (not_holds may)

theorem judgeLogCancel_busy (may : s.holdsRight o .log = true) (idle : s.log.transfer.state ≠ .active) :
    judgeLogCancel o s = refuse s .busy := by
  rw [judgeLogCancel, if_neg (holds may), if_pos idle]

theorem judgeLogCancel_active (may : s.holdsRight o .log = true) (active : s.log.transfer.state = .active) :
    judgeLogCancel o s =
      { state := s.setTransfer s.log.transfer.aborted, result := .done, items := terminationItems s.log.transfer.aborted
        after := [.abortedLog] } := by
  rw [judgeLogCancel, if_neg (holds may), if_neg (not_not_intro active)]

end LogRead

theorem logStatusItems_eq (l : LoudnessLog) :
    logStatusItems l =
      item l.ring.length ++
        (match l.ring with
         | e :: _ => 1 :: item e.time.toNat ++ item e.programme.val
         | [] => [0, 0, 0, 0, 0] ++ item 4294967295) ++
        item (codeOf l.overflow) ++ item l.transfer.state.code ++ item l.transfer.mode.code ++ item l.transfer.count ++
        item (codeOf l.transfer.stopOnAlarm) ++ item l.transfer.delivered ++ item (codeOf l.transfer.overrun) ++
        item (match l.transfer.cause with
          | some .count => 0
          | some .empty => 1
          | some .matched => 2
          | some .aborted => 3
          | none => 4294967295) := by
  have cause : itemOption (l.transfer.cause.map EndCause.code) =
      item (match l.transfer.cause with
        | some .count => 0
        | some .empty => 1
        | some .matched => 2
        | some .aborted => 3
        | none => 4294967295) := by
    rcases l.transfer.cause with _ | c
    · rfl
    · cases c <;> rfl
  rw [logStatusItems, transferItems, cause]
  cases l.ring with
  | nil => simp only [List.append_assoc]; rfl
  | cons e es =>
    have first : itemPresence (some e.time) = 1 :: item e.time.toNat := congrArg (1 :: ·) (itemWord_eq e.time)
    change item _ ++ itemPresence (some e.time) ++ item e.programme.val ++ _ ++ _ = _
    rw [first]
    simp only [List.append_assoc]
    rfl

/-- Settles O53: an accepted LOG READ opens the transfer and is followed by a chain of transfer steps, one report each. -/
theorem logCommandsOpenAndEndTransfers : Obligations.LogCommandsOpenAndEndTransfers := by
  intro sender mode count stop s idle x may reads cancels
  have read {j : Judged} (h : judgeLogRead sender.originator mode count stop s = j) :
      exec (.logRead sender mode count stop) s = .next (j.after.foldl (fun t d => d.run t) (j.state.replied sender 17 0 j.result j.items)) := by
    rw [exec_idle (c := .logRead mode count stop) rfl rfl idle, State.answered_eq]
    change Host.Outcome.next ((judgeLogRead sender.originator mode count stop s).after.foldl _ _) = _
    rw [← h]
    rfl
  have refusedRead {r : CommandResult} (h : judgeLogRead sender.originator mode count stop s = refuse s r) : reads r :=
    exec_plain (c := .logRead mode count stop) rfl rfl idle h
  have refusedCancel {r : CommandResult} (h : judgeLogCancel sender.originator s = refuse s r) : cancels r :=
    exec_plain (c := .logCancel) rfl rfl idle h
  refine ⟨fun none => ⟨refusedRead (judgeLogRead_noRight none), refusedCancel (judgeLogCancel_noRight none)⟩,
    fun right bad => refusedRead (judgeLogRead_badValue right bad),
    fun right modes flags active => refusedRead ((judgeLogRead_valid right modes flags).trans (if_pos active)),
    fun right modes flags ended => ?_, fun right ended => refusedCancel (judgeLogCancel_busy right ended), fun right active => ?_, ?_⟩
  · intro opened can
    have answer : exec (.logRead sender mode count stop) s = .next (State.transferSteps 33 opened) :=
      read ((judgeLogRead_valid right modes flags).trans (if_neg ended))
    refine ⟨fun cannot => ?_, ?_⟩
    · have stays : State.transferSteps 33 opened = opened := if_neg (mt opened.canStep_iff.mp cannot)
      rw [answer, stays]
    · obtain ⟨n, chain, first, last, halts, steps⟩ := State.transferSteps_chain 33 opened (by omega)
      have each (i : Nat) (h : i < n) : (chain i).CanStep ∧ chain (i + 1) = (chain i).transferStep :=
        ⟨(State.canStep_iff _).mp (steps i h).1, (steps i h).2⟩
      have start : (chain 0).log.transfer.delivered ≤ 4294967295 := by
        rw [first]
        exact Nat.zero_le _
      obtain ⟨ls, length, done⟩ := transferred_chain start each
      have few : n ≤ 32 := by
        rcases n with _ | n
        · exact Nat.zero_le _
        · obtain ⟨ls', length', done'⟩ := transferred_chain (n := n) start fun i h => each i (Nat.lt_succ_of_lt h)
          have room := (each n (Nat.lt_succ_self n)).1.2.1
          rw [done'.reports, List.length_append, List.length_map, length'] at room
          omega
      have total := length_flatMap_entries_le fun l h => (done.each l h).1
      obtain ⟨⟨overflow, modeKept, countKept, stopKept, overrunKept, beside⟩, reports, ring, report, delivered⟩ := done
      rw [first] at overflow modeKept countKept stopKept overrunKept beside reports ring report delivered
      refine ⟨n, chain, ls, answer.trans (congrArg _ last.symm), fun h => ?_, first,
        fun i h => ⟨(each i h).1, (exec_transferStep (each i h).1).trans (congrArg _ (each i h).2.symm)⟩, length, reports, ring, report, overflow,
        modeKept, countKept, stopKept, overrunKept, ?_, beside⟩
      · exact Bool.false_ne_true (halts.symm.trans ((State.canStep_iff _).mpr h))
      · rw [delivered]
        change min (0 + _) _ = _
        omega
  · intro ended answered
    rw [exec_idle (c := .logCancel) rfl rfl idle, State.answered_eq]
    change Host.Outcome.next ((judgeLogCancel sender.originator s).after.foldl _ _) = _
    have judged : judge sender.originator .logCancel s = _ := judgeLogCancel_active right active
    rw [judged, judgeLogCancel_active right active]
    change Host.Outcome.next (State.offerAborted answered) = _
    have length : answered.processor.reports.length = s.processor.reports.length + 1 := List.length_append
    rw [State.offerAborted, State.reportRoom, length]
    simp only [decide_eq_true_eq]
    rfl
  · refine exec_plain (c := .logStatus) rfl rfl idle ?_
    change accept _ (logStatusItems s.log) = _
    rw [logStatusItems_eq]
    rfl

end Sys2Proof.Machine
end

