-- ==== Sys2Proof/Proofs/UnknownCommands.lean ====
section
/-! SUPPORT. RESTART, unknown commands, wrong lengths, and commands that wait (R167, R168, R181, R184, R185). -/

namespace Sys2Proof.Machine

/-! ### Codes and lengths (R184) -/

/-- A code and form that no row of R184 lists. -/
theorem decodeCommand_unknown {code form : Byte} (params : List Byte)
    (h : code.toNat = 0 ∨ 21 < code.toNat ∨ 2 ≤ form.toNat ∨ (form.toNat = 1 ∧ code.toNat ≠ 6 ∧ code.toNat ≠ 14 ∧ code.toNat ≠ 15)) :
    decodeCommand code form params = .error .unknown := by
  unfold decodeCommand
  split
  all_goals first | rfl | omega

theorem wholeCodes_false {table : Byte} {codes : List Byte} (known : table.toNat < 7)
    (bad : codes = [] ∨ codes.length % [3, 2, 10, 3, 1, 2, 3].getD table.toNat 1 ≠ 0) : wholeCodes table codes = false := by
  have width : tableWidth table = some ([3, 2, 10, 3, 1, 2, 3].getD table.toNat 1) := by
    rw [tableWidth, List.getD_eq_getElem?_getD, List.getElem?_eq_getElem known, Option.getD_some]
  rw [wholeCodes, width]
  dsimp only
  obtain rfl | partly := bad
  · rfl
  · rw [beq_false_of_ne partly, Bool.and_false]

/-- A LOAD whose codes are not whole (R185). -/
theorem decodeCommand_load {params : List Byte}
    (h : params.length < 3 ∨ ((params.headD 0).toNat < 7 ∧
      (params.length = 3 ∨ (params.length - 3) % [3, 2, 10, 3, 1, 2, 3].getD (params.headD 0).toNat 1 ≠ 0))) :
    decodeCommand 4 0 params = .error .badLength := by
  match params, h with
  | [], _ | [_], _ | [_, _], _ => rfl
  | t :: a :: b :: codes, h =>
    obtain short | ⟨known, bad⟩ := h
    · exact absurd short (by simp)
    · have partly := wholeCodes_false (table := t) (codes := codes) known (bad.imp_left fun none => List.eq_nil_of_length_eq_zero (by simpa using none))
      change withLength (if wholeCodes t codes then _ else none) = _
      rw [if_neg (by rw [partly]; decide)]
      rfl

/-- A TAKE whose position records do not number as it says. -/
theorem decodeCommand_take {params : List Byte} (h : params.length < 8 ∨ params.length ≠ 8 + 4 * (params.getD 7 0).toNat) :
    decodeCommand 5 0 params = .error .badLength := by
  match params, h with
  | [], _ | [_], _ | [_, _], _ | [_, _, _], _ | [_, _, _, _], _ | [_, _, _, _, _], _ | [_, _, _, _, _, _], _ | [_, _, _, _, _, _, _], _ => rfl
  | p :: i :: a :: b :: c :: d :: r :: n :: rest, h =>
    have wrong : rest.length ≠ 4 * n.toNat := fun e => by
      rcases h with h | h
      · exact absurd h (by simp)
      · refine h ?_
        change rest.length + 8 = 8 + 4 * n.toNat
        omega
    change withLength (if rest.length = 4 * n.toNat then _ else none) = _
    rw [if_neg wrong]
    rfl

/-- The parameter octets of a row of a fixed length do not number as it says. -/
theorem decodeCommand_fixed {code form : Byte} {params : List Byte}
    (h : (form.toNat = 0 ∧
        ((code.toNat ∈ [1, 2] ∧ params.length ≠ 7) ∨ (code.toNat = 3 ∧ params.length ≠ 6) ∨ (code.toNat ∈ [6, 8, 14] ∧ params.length ≠ 1) ∨
          (code.toNat = 7 ∧ params.length ≠ 5) ∨ (code.toNat ∈ [9, 10, 15, 16] ∧ params.length ≠ 2) ∨
          (code.toNat ∈ [12, 13, 17] ∧ params.length ≠ 4) ∨ (code.toNat ∈ [11, 18, 19, 20, 21] ∧ params.length ≠ 0))) ∨
      (form.toNat = 1 ∧ ((code.toNat ∈ [6, 14] ∧ params.length ≠ 2) ∨ (code.toNat = 15 ∧ params.length ≠ 3)))) :
    decodeCommand code form params = .error .badLength := by
  simp only [List.mem_cons, List.not_mem_nil, or_false] at h
  rcases h with ⟨hf, ⟨hc | hc, wrong⟩ | ⟨hc, wrong⟩ | ⟨hc | hc | hc, wrong⟩ | ⟨hc, wrong⟩ | ⟨hc | hc | hc | hc, wrong⟩ |
      ⟨hc | hc | hc, wrong⟩ | ⟨hc | hc | hc | hc | hc, wrong⟩⟩ | ⟨hf, ⟨hc | hc, wrong⟩ | ⟨hc, wrong⟩⟩
  all_goals
    simp only [decodeCommand, hc, hf]
    split
    · exact absurd rfl wrong
    · rfl

/-! ### Commands answered without a judgement (R168) -/

theorem exec_unknown {s : State} (idle : s.Idle) (sender : Sender) {code form : Byte} {params : List Byte}
    (decoded : decodeCommand code form params = .error .unknown) :
    exec (.unknownCommand sender code form params) s = .next (s.replied sender code form .unknown []) := by
  change Host.Outcome.next (s.intake _) = _
  have judged : judgeBurstCommand (s.commandBurst sender { code := code, form := form, params := params }) s = refuse s .unknown := by
    change (match decodeCommand code form params with | .ok c => judge _ c s | .error .unknown => _ | .error .badLength => _) = _
    rw [decoded]
  rw [State.intake_idle idle, State.takeCommand, judged]
  rfl

/-- A burst whose parameter octets do not number as its row says. -/
theorem takeCommand_badLength {s : State} (idle : s.Idle) (sender : Sender) {e : Encoded}
    (decoded : decodeCommand e.code e.form e.params = .error .badLength) :
    s.intake (s.commandBurst sender e) = s.replied sender e.code e.form .badValue [] := by
  have judged : judgeBurstCommand (s.commandBurst sender e) s = refuse s .badValue := by
    change (match decodeCommand e.code e.form e.params with | .ok c => judge _ c s | .error .unknown => _ | .error .badLength => _) = _
    rw [decoded]
  rw [State.intake_idle idle, State.takeCommand, judged]
  rfl

/-! ### Commands that wait (R167) -/

/-- While the processor takes no command the queue stays as it is. -/
theorem State.drain_waits {s : State} (waits : s.takesNow = false) : s.drain = s := by
  rw [State.drain]
  cases rounds : s.processor.commands.length with
  | zero => rfl
  | succ n =>
    rw [State.drainRounds]
    split
    · rfl
    · rw [if_neg (by rw [waits]; decide)]

theorem State.intake_waits {s : State} (waits : s.takesNow = false) (b : ControlBurst) :
    s.intake b =
      if s.processor.commands.length < 8 then
        { s with processor := { s.processor with commands := s.processor.commands ++ [b] } }
      else { s with alarms := { s.alarms with commandOverrun := true } } := by
  have still : (s.enqueue b).takesNow = false := by
    unfold State.enqueue
    split <;> exact waits
  rw [State.intake, State.drain_waits still]
  rfl

/-- Settles O54: RESTART from originator 0 alone; a code, a form or a length that names no command; and the wait of R167. -/
theorem restartAndUnknownAreAnswered : Obligations.RestartAndUnknownAreAnswered := by
  intro sender s
  refine ⟨fun idle => ⟨fun other => exec_plain (c := .restart) rfl rfl idle (if_pos other),
    fun first => exec_plain (c := .restart) rfl rfl idle (if_neg (not_not_intro first))⟩,
    fun code form params h idle => exec_unknown idle sender (decodeCommand_unknown params ?_), fun code form params => ?_,
    fun table start codes known bad idle => ?_, fun i e row waits => ?_⟩
  · rcases h with rfl | beyond | high | ⟨rfl, other⟩
    · exact .inl rfl
    · exact .inr (.inl beyond)
    · exact .inr (.inr (.inl high))
    · simp only [List.mem_cons, List.not_mem_nil, or_false, not_or] at other
      exact .inr (.inr (.inr ⟨rfl, other⟩))
  · intro c n table wrong idle
    have decoded : decodeCommand code form params = .error .badLength := by
      have load (hc : c = 4) (h0 : form = 0)
          (h : n < 3 ∨ (table < 7 ∧ (n = 3 ∨ (n - 3) % [3, 2, 10, 3, 1, 2, 3].getD table 1 ≠ 0))) :
          decodeCommand code form params = .error .badLength := by
        have code4 : code = 4 := BitVec.eq_of_toNat_eq hc
        subst code4 h0
        exact decodeCommand_load h
      have take (hc : c = 5) (h0 : form = 0) (h : n < 8 ∨ n ≠ 8 + 4 * (params.getD 7 0).toNat) :
          decodeCommand code form params = .error .badLength := by
        have code5 : code = 5 := BitVec.eq_of_toNat_eq hc
        subst code5 h0
        exact decodeCommand_take h
      rcases wrong with ⟨h0, h | h | ⟨hc, h⟩ | ⟨hc, h⟩ | h | h | h | h | h⟩ | ⟨h1, h⟩
      · exact decodeCommand_fixed (.inl ⟨congrArg BitVec.toNat h0, .inl h⟩)
      · exact decodeCommand_fixed (.inl ⟨congrArg BitVec.toNat h0, .inr (.inl h)⟩)
      · exact load hc h0 h
      · exact take hc h0 h
      · exact decodeCommand_fixed (.inl ⟨congrArg BitVec.toNat h0, .inr (.inr (.inl h))⟩)
      · exact decodeCommand_fixed (.inl ⟨congrArg BitVec.toNat h0, .inr (.inr (.inr (.inl h)))⟩)
      · exact decodeCommand_fixed (.inl ⟨congrArg BitVec.toNat h0, .inr (.inr (.inr (.inr (.inl h))))⟩)
      · exact decodeCommand_fixed (.inl ⟨congrArg BitVec.toNat h0, .inr (.inr (.inr (.inr (.inr (.inl h)))))⟩)
      · exact decodeCommand_fixed (.inl ⟨congrArg BitVec.toNat h0, .inr (.inr (.inr (.inr (.inr (.inr h)))))⟩)
      · exact decodeCommand_fixed (.inr ⟨congrArg BitVec.toNat h1, h⟩)
    exact congrArg Host.Outcome.next (takeCommand_badLength idle sender (e := { code := code, form := form, params := params }) decoded)
  · rw [exec_management (c := .load table start codes) rfl]
    refine congrArg Host.Outcome.next (takeCommand_badLength idle sender (e := encodeCommand (.load table start codes)) ?_)
    refine decodeCommand_load (params := [table] ++ octets16 start ++ codes) (.inr ⟨known, bad.imp (fun none => ?_) fun partly => ?_⟩)
    · rw [none]
      rfl
    · exact partly
  · have intake : exec i s = .next (s.intake (s.commandBurst sender e)) := by
      obtain rfl | ⟨c, row, rfl⟩ := row
      · rfl
      · exact exec_management row s
    rw [intake, State.intake_waits waits]
    rfl

end Sys2Proof.Machine
end

