-- ==== Sys2Proof/Proofs/Reading.lean ====
section
/-! SUPPORT. READ and STATUS (R61, R80, R102, R117, R139, R166, R178, R180, R184). -/

namespace Sys2Proof.Machine

/-! ### Items (R184) -/

theorem itemInt_eq (x : Int) : itemInt x = item (BitVec.ofInt 32 x).toNat := itemWord_eq _

theorem item_length (x : Nat) : (item x).length = 4 := rfl

theorem itemList_eq {α : Type} (xs : List α) (f : α → List Byte) : itemList (xs.map f) = item xs.length ++ xs.flatMap f := by
  rw [itemList, List.length_map, List.flatMap_def]

theorem takeItems_eq (t : Option TakeRecord) (free : Word32) :
    takeItems t free =
      match t with
      | none => item 0 ++ item 0 ++ item 0 ++ item 0 ++ item 0
      | some k => item 1 ++ item (codeOf k.time.isNone) ++ item (k.time.getD free).toNat ++ item (codeOf k.restart) ++ layoutItems k.layout := by
  cases t with
  | none => rfl
  | some k =>
    rw [takeItems, itemWord_eq]
    rfl

theorem tapItem_eq (x : BitVec 18) :
    itemInt (tapValue x) = if x = 131072 then item 131072 else octetsOf 4 (BitVec.ofInt 32 x.toInt).toNat := by
  rw [itemInt_eq, tapValue]
  split <;> rfl

/-! ### Runs (R178) -/

/-- The first whole members of a run of members of one length. -/
theorem flatten_take {α : Type} {w : Nat} {xs : List (List α)} (same : ∀ x ∈ xs, x.length = w) (k : Nat) :
    xs.flatten.take (w * k) = (xs.take k).flatten := by
  induction xs generalizing k with
  | nil => simp
  | cons x xs ih =>
    cases k with
    | zero => simp
    | succ k =>
      have first := same x List.mem_cons_self
      rw [List.take_succ_cons, List.flatten_cons, List.flatten_cons, List.take_append, first, Nat.mul_succ, Nat.add_sub_cancel,
        List.take_of_length_le (by omega), ih fun y h => same y (List.mem_cons_of_mem x h)]

/-- A run whose members are all of `w` octets. -/
theorem readRun178_eq {entries : List (List Byte)} {w : Nat} (same : ∀ x ∈ entries, x.length = w) {start : Nat} (inside : start < entries.length)
    (count : Nat) :
    readRun178 entries start count =
      some (item (min ((entries.drop start).take count).length (4084 / w)) ++ ((entries.drop start).take count).flatten.take 4084) := by
  have width : (entries.head?.map List.length).getD 1 = w := by
    cases entries with
    | nil => nomatch inside
    | cons x xs => exact same x List.mem_cons_self
  rw [readRun178, if_pos inside, runItems, width]
  rfl

theorem readRun178_none {entries : List (List Byte)} {start : Nat} (beyond : entries.length ≤ start) (count : Nat) :
    readRun178 entries start count = none := if_neg (Nat.not_lt.mpr beyond)

/-- A run of items of 4 octets is cut after the last whole item (R184). -/
theorem readRun178_items (xs : List Nat) {start : Nat} (inside : start < xs.length) (count : Nat) :
    readRun178 (xs.map item) start count =
      let n := min (min count (xs.length - start)) 1021
      some (item n ++ ((xs.drop start).take n).flatMap item) := by
  have four : ∀ x ∈ xs.map item, x.length = 4 := fun x member => by
    obtain ⟨y, -, rfl⟩ := List.mem_map.mp member
    rfl
  rw [readRun178_eq four (by rwa [List.length_map])]
  have run : ((xs.map item).drop start).take count = ((xs.drop start).take count).map item := by rw [List.map_take, List.map_drop]
  have cut : (((xs.drop start).take count).map item).flatten.take 4084 =
      ((xs.drop start).take (min (min count (xs.length - start)) 1021)).flatMap item := by
    refine (flatten_take (w := 4) (k := 1021) fun x member => ?_).trans ?_
    · obtain ⟨y, -, rfl⟩ := List.mem_map.mp member
      rfl
    · rw [← List.map_take, List.take_take, ← List.flatMap_def, List.take_eq_take_min (i := min 1021 count), List.length_drop,
        show min (min 1021 count) (xs.length - start) = min (min count (xs.length - start)) 1021 by omega]
  rw [run, cut, List.length_map, List.length_take, List.length_drop]

/-! ### The answer to a READ -/

section Read

variable {s : State} {group object : Nat}

theorem readsImmediate_other (other : group ≠ 3) : readsImmediate s group object = false := by
  rw [readsImmediate, beq_false_of_ne other, Bool.false_and]

theorem judgeRead_some (other : group ≠ 3) {start count : Nat} {items : List Byte} (given : readItems s group object start count 0 = some items) :
    judgeRead group object start count s = accept s items := by
  rw [judgeRead, readsImmediate_other other]
  change (match readItems s group object start count 0 with | some items => accept s items | none => refuse s .badValue) = _
  rw [given]

theorem judgeRead_none {start count : Nat} (none : ∀ free, readItems s group object start count free = none) :
    judgeRead group object start count s = refuse s .badValue := by
  rw [judgeRead]
  split
  rw [none]

/-- Whatever a READ answers, it changes nothing but the count of free values, and that for a programme record alone (log entry 4). -/
theorem judgeRead_plain (s : State) (group object start count : Nat) :
    ∃ (n : Nat) (result : CommandResult) (items : List Byte),
      judgeRead group object start count s = { state := { s with freeCount := n }, result := result, items := items, after := [] } ∧
      (group ≠ 3 → n = s.freeCount) := by
  by_cases immediate : readsImmediate s group object = true
  · have programme : group = 3 := by
      by_contra other
      rw [readsImmediate_other other] at immediate
      cases immediate
    rw [judgeRead, if_pos immediate]
    change ∃ n result items, (match readItems s group object start count s.free.1 with
      | some items => accept s.free.2 items | none => refuse s .badValue) = _ ∧ _
    cases readItems s group object start count s.free.1 with
    | none => exact ⟨s.freeCount, .badValue, [], rfl, fun _ => rfl⟩
    | some items => exact ⟨s.freeCount + 1, .done, items, rfl, fun other => absurd programme other⟩
  · rw [judgeRead, if_neg immediate]
    change ∃ n result items, (match readItems s group object start count 0 with
      | some items => accept s items | none => refuse s .badValue) = _ ∧ _
    cases readItems s group object start count 0 with
    | none => exact ⟨s.freeCount, .badValue, [], rfl, fun _ => rfl⟩
    | some items => exact ⟨s.freeCount, .done, items, rfl, fun _ => rfl⟩

/-- A READ of a programme record: the take time of an immediate take takes a free value (log entry 4). -/
theorem judgeRead_programme (s : State) {object : Nat} {p : Fin 16} (number : object = p.val) (start count : Nat) :
    ∃ (free : Word32) (n : Nat), ((∀ k, s.programmes[p].take = some k → k.time ≠ none) → n = s.freeCount) ∧
      judgeRead 3 object start count s = accept { s with freeCount := n } (programmeItems s.programmes[p] free) := by
  have items (free : Word32) : readItems s 3 object start count free = some (programmeItems s.programmes[p] free) := by
    change (below 16 object).map _ = _
    rw [below_eq number]
    rfl
  by_cases immediate : readsImmediate s 3 object = true
  · refine ⟨s.free.1, s.freeCount + 1, fun timed => ?_, ?_⟩
    · rw [readsImmediate, below_eq number] at immediate
      obtain ⟨k, take, none⟩ := (Option.any_eq_true ..).mp (show (s.programmes[p].take).any (fun t => t.time.isNone) = true from immediate)
      exact absurd (Option.isNone_iff_eq_none.mp none) (timed k take)
    · rw [judgeRead, if_pos immediate]
      change (match readItems s 3 object start count s.free.1 with | some items => accept s.free.2 items | none => refuse s .badValue) = _
      rw [items]
      rfl
  · refine ⟨0, s.freeCount, fun _ => rfl, ?_⟩
    rw [judgeRead, if_neg immediate]
    change (match readItems s 3 object start count 0 with | some items => accept s items | none => refuse s .badValue) = _
    rw [items]

end Read

/-! ### The items of the groups (R178, R184) -/

theorem layoutItems_eq (l : Layout) :
    layoutItems l = item l.length ++ l.flatMap fun y =>
      [BitVec.ofNat 8 y.role.code, BitVec.ofNat 8 y.feed.val, BitVec.ofNat 8 y.channel.val, BitVec.ofNat 8 y.weight.val] := itemList_eq l _

theorem storeItems_eq (s : State) :
    storeItems s =
      item s.store.freeList.length ++ item s.parkedCount ++ item s.store.retired.length ++
        (s.store.retired.flatMap fun n => octetsOf 2 n.val ++
          (match s.ownerOf n with
           | some p => [0, BitVec.ofNat 8 p.val]
           | none => [1, 255])) ++
        item (codeOf s.store.fault.valid) ++ item s.store.fault.page.val ++ item s.store.fault.offset.toNat ++
        item s.store.fault.programme.val ++ item s.store.fault.time.toNat ++ item s.store.fault.further := by
  rw [storeItems, itemList_eq, faultItems_eq]
  simp only [List.append_assoc]
  rfl

theorem riderItems_eq (p : Programme) :
    riderItems p =
      item p.rider.gain ++ item p.rider.latched ++ item p.rider.rise ++ item p.rider.fall ++
        (match p.rider.aim with
         | some a => 1 :: octetsOf 4 (BitVec.ofInt 32 a).toNat
         | none => [0, 0, 0, 0, 0]) ++
        item (codeOf p.rider.limit) ++ p.clips.toList.flatMap item := by
  have aim : itemPresence (p.rider.aim.map fun a => BitVec.ofInt 32 a) =
      match p.rider.aim with
      | some a => 1 :: octetsOf 4 (BitVec.ofInt 32 a).toNat
      | none => [0, 0, 0, 0, 0] := by
    cases p.rider.aim with
    | none => rfl
    | some a => exact congrArg (1 :: ·) (itemWord_eq _)
  rw [riderItems, aim]
  rfl

theorem outputItems_eq (x : OutputTrunk) :
    outputItems x =
      item x.map.stream.val ++ item x.map.count ++ item (codeOf x.map.captureTime) ++
        (x.map.entries.toList.flatMap fun e =>
          match e with
          | none => item 4294967295
          | some (p, q) => item (65536 * p.val + q.val)) ++
        item x.forward.length ++ item (if x.lastServed = .forward then 0 else 1) := by
  have entry : (fun e : MapEntry => item e.code) = fun e =>
      match e with
      | none => item 4294967295
      | some (p, q) => item (65536 * p.val + q.val) := by
    funext e
    rcases e with _ | ⟨p, q⟩ <;> rfl
  rw [outputItems, entry]
  cases x.lastServed <;> rfl

theorem recordItems_eq (x : AlarmRecord) :
    recordItems x =
      item x.state.code ++ item x.count ++ item x.repeatCount ++ item x.repeatsDue ++ item (codeOf x.acknowledged) ++
        item (codeOf x.unreported) ++ item x.timeOfRaise.toNat := by
  rw [recordItems, itemWord_eq]
  rfl

/-- The entries of a table as the statement of READ lists them. -/
def listedEntries (t : Tables) (table : Fin 7) : List (List Byte) :=
  if table = 0 then t.taps.map fun x => if x = 131072 then item 131072 else octetsOf 4 (BitVec.ofInt 32 x.toInt).toNat
  else if table = 1 then t.latencies.map fun x => item x.toNat
  else if table = 2 then t.levels.map fun e => octetsOf 5 e.threshold.toNat ++ octetsOf 5 e.power.toNat
  else if table = 3 then t.gains.map fun x => item x.toNat
  else if table = 4 then [item t.unity.toNat]
  else if table = 5 then t.weights.map fun x => item x.toNat
  else t.filters.map fun x => octetsOf 4 (BitVec.ofInt 32 x.toInt).toNat

theorem tableEntries_eq (t : Tables) (table : Fin 7) : tableEntries t table.val = listedEntries t table := by
  have taps : (fun x : BitVec 18 => itemInt (tapValue x)) = fun x =>
      if x = 131072 then item 131072 else octetsOf 4 (BitVec.ofInt 32 x.toInt).toNat := funext tapItem_eq
  have coefficients : (fun x : BitVec 24 => itemInt x.toInt) = fun x => octetsOf 4 (BitVec.ofInt 32 x.toInt).toNat :=
    funext fun x => itemInt_eq x.toInt
  fin_cases table
  · exact congrArg (t.taps.map ·) taps
  · rfl
  · rfl
  · rfl
  · rfl
  · rfl
  · exact congrArg (t.filters.map ·) coefficients

theorem tableEntries_length (t : Tables) (table : Fin 7) : ∀ x ∈ tableEntries t table.val, x.length = if table = 2 then 10 else 4 := by
  fin_cases table
  all_goals
    intro x member
    first
    | obtain ⟨y, -, rfl⟩ := List.mem_map.mp member; rfl
    | rw [List.mem_singleton.mp member]; rfl

/-- The body of STATUS of a part whose command queue is empty. -/
theorem statusItems_eq {s : State} (empty : s.processor.commands = []) :
    statusItems s =
      item (codeOf s.alarms.major) ++ item (codeOf s.alarms.minor) ++
        item (codeOf (decide (∃ r : Fin 400, s.alarms.records[r].unreported = true))) ++ item (codeOf (!s.log.ring.isEmpty)) ++
        item (codeOf (decide (s.log.transfer.state = .active))) ++ item (codeOf s.store.fault.valid) ++
        item (codeOf (decide (s.time.reference = .present))) ++ item 0 ++
        item s.processor.station.toNat ++ item s.processor.replyTrunk.val ++ item s.time.houseTime.toNat ++
        ((List.finRange 8).flatMap fun f => item s.feeds[f].context.state.code) ++
        ((List.finRange 16).flatMap fun p => item s.programmes[p].store.state.code ++
          item (codeOf (decide (s.programmes[p].eIn ≠ s.programmes[p].eOut))) ++ item (codeOf s.programmes[p].take.isSome)) ++
        ((List.finRange 4).flatMap fun n => item s.inputs[n].receiver.state.code) ++
        item s.store.freeList.length ++ item s.parkedCount ++ item 0 ++ item s.processor.reports.length ++
        item s.processor.alarmReports := by
  have unreported : ((List.finRange 400).any fun r => s.alarms.records[r].unreported) =
      decide (∃ r : Fin 400, s.alarms.records[r].unreported = true) := by
    rw [Bool.eq_iff_iff, List.any_eq_true, decide_eq_true_iff]
    exact ⟨fun ⟨r, _, h⟩ => ⟨r, h⟩, fun ⟨r, h⟩ => ⟨r, List.mem_finRange r, h⟩⟩
  have differ (p : Fin 16) : (s.programmes[p].eIn != s.programmes[p].eOut) = decide (s.programmes[p].eIn ≠ s.programmes[p].eOut) := by
    rw [Bool.eq_iff_iff, bne_iff_ne, decide_eq_true_iff]
  have active : (s.log.transfer.state == .active) = decide (s.log.transfer.state = .active) := by
    rw [Bool.eq_iff_iff, beq_iff_eq, decide_eq_true_iff]
  have present : (s.time.reference == .present) = decide (s.time.reference = .present) := by
    rw [Bool.eq_iff_iff, beq_iff_eq, decide_eq_true_iff]
  have digest : s.indications.flatMap itemFlag =
      item (codeOf s.alarms.major) ++ item (codeOf s.alarms.minor) ++
        item (codeOf (decide (∃ r : Fin 400, s.alarms.records[r].unreported = true))) ++ item (codeOf (!s.log.ring.isEmpty)) ++
        item (codeOf (decide (s.log.transfer.state = .active))) ++ item (codeOf s.store.fault.valid) ++
        item (codeOf (decide (s.time.reference = .present))) ++ item 0 := by
    rw [State.indications, unreported, active, present, empty]
    simp only [List.flatMap_cons, List.flatMap_nil, List.append_nil, List.append_assoc]
    rfl
  rw [statusItems, digest, itemWord_eq, empty]
  simp only [differ]
  rfl

theorem readItems_noGroup (s : State) {group : Nat} (beyond : 18 ≤ group) (object start count : Nat) (free : Word32) :
    readItems s group object start count free = none := by
  unfold readItems
  split
  all_goals first | rfl | omega

theorem partGroup_none {object : Byte} (other : object ≠ 0) (items : List Byte) : partGroup object.toNat items = none :=
  if_neg fun e => other (BitVec.eq_of_toNat_eq e)

/-- Settles O43: the groups and objects that are refused, and the items of each group as they stand. -/
theorem readAndStatusReturnItems : Obligations.ReadAndStatusReturnItems := by
  intro sender group object start count s idle answers bad
  have read {u : State} {r : CommandResult} {items : List Byte}
      (h : judgeRead group.toNat object.toNat start.toNat count.toNat s = { state := u, result := r, items := items, after := [] }) :
      exec (.read sender group object start count) s = .next (u.replied sender 3 0 r items) :=
    exec_plain (c := .read group object start count) rfl rfl idle h
  have refused {g : Nat} (here : group.toNat = g)
      (none : ∀ free, readItems s g object.toNat start.toNat count.toNat free = none) : bad := by
    subst here
    exact read (judgeRead_none none)
  have given {g : Nat} {items : List Byte} (here : group.toNat = g) (other : g ≠ 3)
      (some : readItems s g object.toNat start.toNat count.toNat 0 = some items) : answers items := by
    subst here
    exact read (judgeRead_some other some)
  have place {b : Byte} {k : Nat} (h : b = BitVec.ofNat 8 k) (small : k < 256) : b.toNat = k := by
    rw [h, BitVec.toNat_ofNat]
    exact Nat.mod_eq_of_lt small
  have numbered {n k : Nat} (f : Fin n → List Byte) (h : n ≤ k) : (below n k).map f = none := by rw [below_none h]; rfl
  have item1 {n : Nat} (f : Fin n → List Byte) {i : Fin n} {k : Nat} (h : k = i.val) : (below n k).map f = some (f i) := by
    rw [below_eq h]
    rfl
  refine ⟨?_, fun h => ?_, fun h other => ?_, fun h beyond => ?_, fun h beyond => ?_, fun h beyond => refused h fun _ => numbered _ beyond,
    fun h beyond => refused h fun _ => numbered _ beyond, fun h beyond => refused h fun _ => numbered _ beyond, fun h beyond => ?_,
    fun h zero => ?_, fun h zero => ?_, fun h f number => ?_, fun h zero => ?_, fun h p number => ?_, fun h p number => ?_,
    fun h p number => ?_, fun h p number => ?_, fun h p number => ?_, fun h p number => ?_, fun h n number => ?_, fun h k number => ?_,
    fun h zero => ?_, fun h k number => ?_, fun h zero => ?_, fun h p number => ?_, fun h n number => ?_, fun h table number => ?_, ?_⟩
  · obtain ⟨n, r, items, judged, same⟩ := judgeRead_plain s group.toNat object.toNat start.toNat count.toNat
    exact ⟨n, r, items, read judged, fun other => same fun e => other (BitVec.eq_of_toNat_eq e)⟩
  · exact refused rfl fun free => readItems_noGroup s h _ _ _ free
  · have filled : object.toNat ≠ 0 := fun e => other (BitVec.eq_of_toNat_eq e)
    simp only [List.mem_cons, List.not_mem_nil, or_false] at h
    rcases h with h | h | h | h | h
    · exact refused h fun _ => partGroup_none other _
    · exact refused h fun _ => partGroup_none other _
    · exact refused h fun _ => partGroup_none other _
    · exact refused h fun _ => if_neg filled
    · exact refused h fun _ => partGroup_none other _
  · simp only [List.mem_cons, List.not_mem_nil, or_false] at h
    rcases h with h | h
    · exact refused h fun _ => numbered _ beyond
    · exact refused h fun _ => numbered _ beyond
  · simp only [List.mem_cons, List.not_mem_nil, or_false] at h
    rcases h with h | h | h | h | h | h | h
    · exact refused h fun _ => numbered _ beyond
    · exact refused h fun _ => numbered _ beyond
    · exact refused h fun _ => numbered _ beyond
    · exact refused h fun _ => numbered _ beyond
    · refine refused h fun _ => ?_
      change (below 16 object.toNat).bind _ = none
      rw [below_none beyond]
      rfl
    · exact refused h fun _ => numbered _ beyond
    · exact refused h fun _ => numbered _ beyond
  · refine refused h fun _ => ?_
    change (below 7 object.toNat).bind _ = none
    rw [below_none beyond]
    rfl
  · refine given (place h (by decide)) (by decide) ((if_pos (congrArg BitVec.toNat zero)).trans ?_)
    rw [itemWord_eq, itemWord_eq]
    cases s.time.reference <;> rfl
  · exact given (place h (by decide)) (by decide) (if_pos (congrArg BitVec.toNat zero))
  · exact given (place h (by decide)) (by decide) (item1 _ number)
  · refine given (place h (by decide)) (by decide) ((if_pos (congrArg BitVec.toNat zero)).trans ?_)
    exact congrArg some (storeItems_eq s)
  · exact given (place h (by decide)) (by decide) (item1 _ number)
  · intro q l layout
    have here : group.toNat = 3 := place h (by decide)
    obtain ⟨free, n, timed, judged⟩ := judgeRead_programme s number start.toNat count.toNat
    refine ⟨free, n, timed, ?_⟩
    rw [← here] at judged
    refine (read judged).trans (congrArg (fun items => Host.Outcome.next (State.replied _ sender 3 0 .done items)) ?_)
    change programmeItems q free = _
    rw [programmeItems, takeItems_eq, timingItems, levelItems]
    simp only [layoutItems_eq, List.append_assoc]
    rfl
  · exact given (place h (by decide)) (by decide) (item1 _ number)
  · exact given (place h (by decide)) (by decide) (item1 _ number)
  · intro histogram
    have run (free : Word32) : readItems s 8 object.toNat start.toNat count.toNat free =
        readRun178 (histogram.map item) start.toNat count.toNat := by
      change (below 16 object.toNat).bind _ = _
      rw [below_eq number]
      rfl
    refine ⟨fun beyond => refused (place h (by decide)) fun free => (run free).trans (readRun178_none (by rwa [List.length_map]) _),
      fun inside => given (place h (by decide)) (by decide) ((run 0).trans (readRun178_items histogram inside _))⟩
  · refine given (place h (by decide)) (by decide) ((item1 _ number).trans ?_)
    exact congrArg some (riderItems_eq _)
  · exact given (place h (by decide)) (by decide) (item1 _ number)
  · refine given (place h (by decide)) (by decide) ((item1 _ number).trans ?_)
    exact congrArg some (outputItems_eq _)
  · have run (free : Word32) : readItems s 12 object.toNat start.toNat count.toNat free =
        readRun178 (s.alarms.records.toList.map recordItems) start.toNat count.toNat := if_pos (congrArg BitVec.toNat zero)
    have size : (s.alarms.records.toList.map recordItems).length = 400 := by rw [List.length_map, Vector.length_toList]
    have whole : ∀ x ∈ s.alarms.records.toList.map recordItems, x.length = 28 := fun x member => by
      obtain ⟨y, -, rfl⟩ := List.mem_map.mp member
      rfl
    refine ⟨fun beyond => refused (place h (by decide)) fun free => (run free).trans (readRun178_none (by rwa [size]) _), fun inside => ?_⟩
    intro n
    refine given (place h (by decide)) (by decide) ((run 0).trans ((readRun178_eq whole (by rwa [size]) _).trans ?_))
    have length : (((s.alarms.records.toList.map recordItems).drop start.toNat).take count.toNat).length = n := by
      rw [List.length_take, List.length_drop, size]
    have same : ((s.alarms.records.toList.map recordItems).drop start.toNat).take count.toNat =
        ((s.alarms.records.toList.drop start.toNat).take n).map recordItems := by
      rw [List.map_take, List.map_drop, List.take_eq_take_min, List.length_drop, size]
    rw [length, same, ← List.flatMap_def, funext recordItems_eq]
  · exact given (place h (by decide)) (by decide) (item1 _ number)
  · exact given (place h (by decide)) (by decide) (if_pos (congrArg BitVec.toNat zero))
  · exact given (place h (by decide)) (by decide) (item1 _ number)
  · exact given (place h (by decide)) (by decide) (item1 _ number)
  · intro entries
    have run (free : Word32) : readItems s 17 object.toNat start.toNat count.toNat free = readRun178 entries start.toNat count.toNat := by
      change (below 7 object.toNat).bind _ = _
      rw [below_eq number]
      change readRun178 (tableEntries s.tables table.val) _ _ = _
      rw [tableEntries_eq]
      rfl
    have listed : entries = tableEntries s.tables table.val := (tableEntries_eq s.tables table).symm
    have whole : ∀ x ∈ entries, x.length = if table = 2 then 10 else 4 := listed ▸ tableEntries_length s.tables table
    refine ⟨fun beyond => refused (place h (by decide)) fun free => (run free).trans (readRun178_none beyond _), fun inside => ?_⟩
    intro cut
    refine given (place h (by decide)) (by decide) ((run 0).trans ((readRun178_eq whole inside _).trans ?_))
    by_cases level : table = 2
    · rw [if_pos level, if_pos level]
    · rw [if_neg level, if_neg level]
  · refine exec_plain (c := .status) rfl rfl idle ?_
    change accept s (statusItems s) = _
    rw [statusItems_eq idle.2]
    rfl

end Sys2Proof.Machine
end

