-- ==== Sys2Proof/Proofs/Reference.lean ====
section
/-! SUPPORT. The reference monitor (R67), and the acts of a restart on house time (R182). -/

namespace Sys2Proof.Machine

/-! ### A restart keeps house time (R182) -/

theorem State.offerClears_time (s : State) (rs : List (Fin 400)) (once : rs.Nodup) : (s.offerClears rs).time = s.time := by
  obtain ⟨w, told, -⟩ := s.offerClears_told rs once
  rw [told, State.withTold_time]

theorem State.standingOf_nodup (s : State) {rs : List (Fin 400)} (once : rs.Nodup) : (s.standingOf rs).Nodup := once.filter _

theorem State.clearAlarms_time (s : State) : s.clearAlarms.time = s.time := by
  rw [State.clearAlarms, State.formLines_time, State.offerClears_time _ _ (s.standingOf_nodup (List.nodup_finRange 400)), State.forceAll_time]

theorem State.endLog_time (s : State) : s.endLog.time = s.time := by
  unfold State.endLog State.offerAborted
  dsimp only
  repeat' split
  all_goals rfl

theorem State.restartActs_time (s : State) : s.restartActs.time = s.time :=
  (State.endLog_time _).trans (State.clearAlarms_time _)

/-! ### The reference monitor (R67) -/

section Edge

variable {t : Timebase}

theorem Timebase.edge_present (h : t.reference = .present) : t.edge = { t with gapCount := 0 } := by
  rw [Timebase.edge, h]

theorem Timebase.edge_absent (h : t.reference = .absent) :
    t.edge =
      if t.edgeCount < 47 then { t with gapCount := 0, edgeCount := t.edgeCount + 1 }
      else { t with gapCount := 0, edgeCount := 48, reference := .present } := by
  rw [Timebase.edge, h, bump_min]
  dsimp only
  by_cases early : t.edgeCount < 47
  · rw [if_pos early, if_neg (by omega), Nat.min_eq_left (by omega)]
  · rw [if_neg early, if_pos (by omega), Nat.min_eq_right (by omega)]

theorem Timebase.nearsPresent_iff : t.nearsPresent = true ↔ t.reference = .absent ∧ 47 ≤ t.edgeCount := by
  rw [Timebase.nearsPresent, Bool.and_eq_true, beq_iff_eq, decide_eq_true_iff]

theorem Timebase.nearsAbsent_iff : t.nearsAbsent = true ↔ t.gapCount = 95 ∧ t.gapTaken = false := by
  rw [Timebase.nearsAbsent, Bool.and_eq_true, decide_eq_true_iff, Bool.not_eq_true']

theorem Timebase.gapTick_eq (t : Timebase) :
    t.gapTick =
      if t.gapCount < 95 then { t with gapCount := t.gapCount + 1 }
      else { t with gapCount := 96, edgeCount := 0, reference := .absent } := by
  unfold Timebase.gapTick
  rw [bump_min]
  dsimp only
  by_cases early : t.gapCount < 95
  · rw [if_pos early, if_neg (by omega), Nat.min_eq_left (by omega)]
  · rw [if_neg early, if_pos (by omega), Nat.min_eq_right (by omega)]

/-- An oscillator period counts the gap, and the gap of 96 takes the reference to ABSENT. -/
theorem Timebase.gapTick_facts (t : Timebase) :
    t.gapTick.gapTaken = t.gapTaken ∧ t.gapTick.gapCount = min (t.gapCount + 1) 96 ∧
      (t.gapTick.gapCount < 96 → t.gapTick.edgeCount = t.edgeCount ∧ t.gapTick.reference = t.reference) ∧
      (t.gapTick.gapCount = 96 → t.gapTick.edgeCount = 0 ∧ t.gapTick.reference = .absent) := by
  rw [t.gapTick_eq]
  by_cases early : t.gapCount < 95
  · rw [if_pos early]
    dsimp only
    exact ⟨rfl, by omega, fun _ => ⟨rfl, rfl⟩, fun h => absurd h (by omega)⟩
  · rw [if_neg early]
    dsimp only
    exact ⟨rfl, by omega, fun h => absurd h (by omega), fun _ => ⟨rfl, rfl⟩⟩

end Edge

/-- Settles O24: edges, oscillator periods and the two rows that complete a run and a gap. -/
theorem referenceMonitorCountsEdgesAndGaps : Obligations.ReferenceMonitorCountsEdgesAndGaps := by
  refine ⟨⟨rfl, rfl, rfl⟩, fun s => ⟨s.restartActs_time, fun present => ?_, fun absent early => ⟨?_, ?_⟩, fun absent late => ⟨?_, ?_⟩,
    fun present => ?_, fun gap fresh => ?_, fun other => ?_, fun order nothing slots => ?_⟩⟩
  · exact congrArg (fun t => Host.Outcome.next { s with time := t }) (Timebase.edge_present present)
  · exact congrArg (fun t => Host.Outcome.next { s with time := t }) ((Timebase.edge_absent absent).trans (if_pos early))
  · exact congrArg Host.Outcome.next (if_neg fun h => by have := (Timebase.nearsPresent_iff.mp h).2; omega)
  · exact congrArg (fun t => Host.Outcome.next { s with time := t }) ((Timebase.edge_absent absent).trans (if_neg (Nat.not_lt.mpr late)))
  · exact congrArg Host.Outcome.next (if_pos (Timebase.nearsPresent_iff.mpr ⟨absent, late⟩))
  · exact congrArg Host.Outcome.next (if_neg fun h => by have := (Timebase.nearsPresent_iff.mp h).1; rw [present] at this; cases this)
  · refine congrArg Host.Outcome.next ((if_pos (Timebase.nearsAbsent_iff.mpr ⟨gap, fresh⟩)).trans ?_)
    rw [Timebase.gapTick_eq, if_neg (by omega)]
  · exact congrArg Host.Outcome.next (if_neg (mt Timebase.nearsAbsent_iff.mp other))
  · refine ⟨_, exec_houseFrame nothing slots order, ?_⟩
    rw [State.frame_time]
    cases taken : s.time.gapTaken with
    | true =>
      have kept : s.time.frame.oscillate = { s.time.frame with gapTaken := false } := if_pos taken
      rw [kept]
      exact ⟨rfl, fun _ => ⟨rfl, rfl, rfl⟩, nofun⟩
    | false =>
      have ticks : s.time.frame.oscillate = s.time.frame.gapTick := if_neg (by rw [show s.time.frame.gapTaken = s.time.gapTaken from rfl, taken]; decide)
      rw [ticks]
      obtain ⟨same, count, early, late⟩ := s.time.frame.gapTick_facts
      exact ⟨same.trans taken, nofun, fun _ => ⟨count, early, late⟩⟩

end Sys2Proof.Machine
end

