-- ==== Sys2Proof/Proofs/Servo.lean ====
section
/-! SUPPORT. The rows that take a larger event when it brings their consequence about (log entry 15), and the servo event (R23, R24). -/

namespace Sys2Proof.Machine

/-! ### Rows that take a larger event -/

/-- An event that is not due is not taken by the row of a consequence of it. -/
theorem State.takeWhen_rest {s : State} {due : Bool} (rest : due = false) (t : State) (brings : Bool) : s.takeWhen due t brings = s := by
  rw [State.takeWhen, rest, Bool.false_and]
  exact if_neg Bool.false_ne_true

/-- An event that is due is taken by the row of its consequence exactly when it brings the consequence about. -/
theorem State.takeWhen_due {s : State} {due : Bool} (ready : due = true) (t : State) {brings : Bool} {P : Prop} [Decidable P]
    (when_ : brings = true ↔ P) : s.takeWhen due t brings = if P then t else s := by
  rw [State.takeWhen, ready, Bool.true_and]
  exact if_congr when_ rfl rfl

theorem State.feedEnters_iff {s t : State} {f : Fin 8} {x : FeedState} :
    s.feedEnters t f x = true ↔ s.feeds[f].context.state ≠ x ∧ t.feeds[f].context.state = x := by
  rw [State.feedEnters, Bool.and_eq_true, bne_iff_ne, beq_iff_eq]

/-! ### The servo event (R23, R24) -/

theorem State.servo_feed (s : State) (f : Fin 8) : s.servo.feeds[f] = { s.feeds[f] with context := s.feeds[f].servo } := by
  simp only [State.servo, Fin.getElem_fin, mapAll_getElem]

section Steer

variable {x : Feed}

theorem Feed.servo_resting (acquiring : x.context.state ≠ .acquiring) (locked : x.context.state ≠ .locked) : x.servo = x.context :=
  if_neg fun h => h.elim acquiring locked

/-- A clamp between limits in order, read as an integer. -/
theorem FeedRecord.clampRatioInt_eq {r : FeedRecord} (order : r.rmin ≤ r.rmax) (v : Int) :
    (r.clampRatioInt v : Int) = max (r.rmin : Int) (min (r.rmax : Int) v) := by
  unfold FeedRecord.clampRatioInt clampInt
  repeat' split
  all_goals omega

/-- The lock count a fill error leaves (R24). -/
def Feed.lockAfter (x : Feed) : Nat := if x.fillError.natAbs ≤ x.record.lockWindow then min (x.context.lockCount + 1) 8 else 0

theorem Feed.lockAfter_full : x.lockAfter = 8 ↔ x.fillError.natAbs ≤ x.record.lockWindow ∧ 7 ≤ x.context.lockCount := by
  unfold Feed.lockAfter
  split <;> omega

/-- What a servo event makes of a feed that is ACQUIRING or LOCKED. -/
theorem Feed.servo_steers (steers : x.context.state = .acquiring ∨ x.context.state = .locked) :
    x.servo =
      { x.context with
        rbase := x.record.clampRatioInt (x.context.rbase + 16 * x.fillError)
        ratio := x.record.clampRatioInt (x.record.clampRatioInt (x.context.rbase + 16 * x.fillError) + 1024 * x.fillError)
        lockCount := x.lockAfter
        state :=
          if x.context.state = .acquiring ∧ x.lockAfter = 8 then .locked
          else if x.context.state = .locked ∧ 4 * x.record.lockWindow < x.fillError.natAbs then .acquiring
          else x.context.state } := by
  rw [Feed.servo, if_pos steers, bump_min]
  rfl

/-- A servo event brings a feed into LOCKED exactly when it is ACQUIRING and the lock count fills. -/
theorem Feed.servo_locks :
    (x.context.state ≠ .locked ∧ x.servo.state = .locked) ↔
      x.context.state = .acquiring ∧ x.fillError.natAbs ≤ x.record.lockWindow ∧ 7 ≤ x.context.lockCount := by
  rw [← Feed.lockAfter_full]
  by_cases acquiring : x.context.state = .acquiring
  · rw [Feed.servo_steers (.inl acquiring)]
    by_cases full : x.lockAfter = 8 <;> simp [acquiring, full]
  · refine iff_of_false (fun ⟨other, locked⟩ => ?_) fun h => acquiring h.1
    rw [Feed.servo_resting acquiring other] at locked
    exact other locked

end Steer

/-- Settles O17: feed by feed, as `Feed.servo_steers` and `Feed.servo_locks` say. -/
theorem servoSteersAndLocksFeeds : Obligations.ServoSteersAndLocksFeeds := by
  refine fun s => ⟨fun rest => ⟨?_, fun f => congrArg Host.Outcome.next (State.takeWhen_rest rest _ _)⟩, fun due => ⟨s.servo, ?_, rfl, ?_⟩⟩
  · exact congrArg Host.Outcome.next (if_neg (by rw [rest]; exact Bool.false_ne_true))
  · exact congrArg Host.Outcome.next (if_pos due)
  intro f x c u e
  have steered : s.servo.feeds[f] = { x with context := x.servo } := s.servo_feed f
  have after : u = x.servo := congrArg Feed.context steered
  have locks : s.feedEnters s.servo f .locked = true ↔ c.state = .acquiring ∧ e.natAbs ≤ x.record.lockWindow ∧ 7 ≤ c.lockCount := by
    rw [State.feedEnters_iff, steered]
    exact Feed.servo_locks
  refine ⟨by rw [steered], fun acquiring locked => after.trans (Feed.servo_resting acquiring locked), fun order steers => ?_,
    congrArg Host.Outcome.next (State.takeWhen_due due _ locks)⟩
  rw [after, Feed.servo_steers steers]
  exact ⟨FeedRecord.clampRatioInt_eq order _, FeedRecord.clampRatioInt_eq order _, rfl, rfl, rfl⟩

end Sys2Proof.Machine
end

