-- ==== Sys2Proof/Proofs/Boundary.lean ====
section
/-! SUPPORT. The burst boundary (R63): silence timers, clearing, realignments, and the output side. -/

namespace Sys2Proof.Machine

/-! ### The boundary once its windows have opened -/

theorem State.lateWindow_opened {s : State} {k : Fin 2} (opened : s.outputs[k].windowDue = false) : s.lateWindow k = s :=
  if_neg (by rw [opened]; exact Bool.false_ne_true)

theorem State.boundary_opened {s : State} (opened : s.WindowsOpened) : s.boundary = s.closePeriod := by
  rw [State.boundary, State.lateWindow_opened (opened 0), State.lateWindow_opened (opened 1)]

theorem exec_burstBoundary_rest {s : State} (rest : s.time.boundaryDue = false) : exec .burstBoundary s = .next s :=
  congrArg Host.Outcome.next (if_neg (by rw [rest]; exact Bool.false_ne_true))

theorem exec_burstBoundary_due {s : State} (due : s.time.boundaryDue = true) : exec .burstBoundary s = .next s.boundary :=
  congrArg Host.Outcome.next (if_pos due)

theorem exec_burstBoundary_opened {s : State} (due : s.time.boundaryDue = true) (opened : s.WindowsOpened) :
    exec .burstBoundary s = .next s.closePeriod := by
  rw [exec_burstBoundary_due due, State.boundary_opened opened]

theorem State.closePeriod_feed (s : State) (f : Fin 8) :
    s.closePeriod.feeds[f] = { s.feeds[f] with context := s.feeds[f].silenceTick } := by
  simp only [State.closePeriod, Fin.getElem_fin, mapAll_getElem]

theorem State.closePeriod_programme (s : State) (p : Fin 16) : s.closePeriod.programmes[p] = s.programmes[p].boundary := by
  simp only [State.closePeriod, Fin.getElem_fin, mapAll_getElem]

theorem State.closePeriod_output (s : State) (k : Fin 2) : s.closePeriod.outputs[k] = s.outputs[k].handOver := by
  simp only [State.closePeriod, Fin.getElem_fin, mapAll_getElem]

/-! ### Silence timers (R8, R11) -/

section Silence

variable {x : Feed}

/-- The count that the silence timer of a feed reaches at a boundary. -/
def Feed.nextSilence (x : Feed) : Nat := min (x.context.silence + 1) 255

/-- The feed states whose silence takes a feed to HOLDOVER. -/
abbrev FeedState.hears (x : FeedState) : Prop := x ∈ [FeedState.priming, .acquiring, .locked]

theorem Feed.silenceTick_hears (hears : x.context.state.hears) :
    x.silenceTick =
      if 4 ≤ x.nextSilence then { x.context with silence := x.nextSilence, state := .holdover }
      else { x.context with silence := x.nextSilence } := by
  rw [Feed.nextSilence, ← bump_min]
  unfold Feed.silenceTick
  dsimp only
  cases state : x.context.state with
  | priming | acquiring | locked => rfl
  | off | waiting | holdover | lost => rw [state] at hears; exact absurd hears (by decide)

theorem Feed.silenceTick_holdover (holdover : x.context.state = .holdover) :
    x.silenceTick =
      if x.record.timeout ≤ x.nextSilence then
        { x.context with state := .lost, silence := 0, frames := [], oldest := 0, started := false, anchors := [] }
      else { x.context with silence := x.nextSilence } := by
  rw [Feed.nextSilence, ← bump_min]
  unfold Feed.silenceTick
  dsimp only
  rw [holdover]
  rfl

theorem Feed.silenceTick_rests (hears : ¬ x.context.state.hears) (holdover : x.context.state ≠ .holdover) : x.silenceTick = x.context := by
  unfold Feed.silenceTick
  dsimp only
  cases state : x.context.state with
  | priming | acquiring | locked => rw [state] at hears; exact absurd (by decide) hears
  | holdover => exact absurd state holdover
  | off | waiting | lost => rfl

/-- A boundary brings a feed into HOLDOVER exactly when it hears and its silence reaches 4. -/
theorem Feed.silenceTick_enters_holdover :
    (x.context.state ≠ .holdover ∧ x.silenceTick.state = .holdover) ↔ x.context.state.hears ∧ 4 ≤ x.nextSilence := by
  by_cases hears : x.context.state.hears
  · have other : x.context.state ≠ .holdover := fun h => by rw [h] at hears; exact absurd hears (by decide)
    rw [Feed.silenceTick_hears hears]
    by_cases four : 4 ≤ x.nextSilence <;> simp [hears, four, other]
  · refine iff_of_false (fun ⟨other, enters⟩ => ?_) fun h => hears h.1
    rw [Feed.silenceTick_rests hears other] at enters
    exact other enters

/-- A boundary brings a feed into LOST exactly when it is in HOLDOVER and its silence reaches the timeout. -/
theorem Feed.silenceTick_enters_lost :
    (x.context.state ≠ .lost ∧ x.silenceTick.state = .lost) ↔ x.context.state = .holdover ∧ x.record.timeout ≤ x.nextSilence := by
  by_cases holdover : x.context.state = .holdover
  · rw [Feed.silenceTick_holdover holdover]
    by_cases long : x.record.timeout ≤ x.nextSilence <;> simp [holdover, long]
  · refine iff_of_false (fun ⟨other, enters⟩ => ?_) fun h => holdover h.1
    by_cases hears : x.context.state.hears
    · rw [Feed.silenceTick_hears hears] at enters
      split at enters
      · cases enters
      · exact other enters
    · rw [Feed.silenceTick_rests hears holdover] at enters
      exact other enters

end Silence

/-- Settles O13: feed by feed, along the branches of the silence timer. -/
theorem boundaryCountsSilenceTimers : Obligations.BoundaryCountsSilenceTimers := by
  refine fun s => ⟨fun rest => ⟨exec_burstBoundary_rest rest, fun f => ?_⟩, fun due opened =>
    ⟨s.closePeriod, exec_burstBoundary_opened due opened, ?_⟩⟩
  · exact ⟨congrArg Host.Outcome.next (State.takeWhen_rest rest _ _), congrArg Host.Outcome.next (State.takeWhen_rest rest _ _)⟩
  intro f x n
  have ticked : s.closePeriod.feeds[f] = { x with context := x.silenceTick } := s.closePeriod_feed f
  refine ⟨by rw [ticked], ?_, ?_, ?_⟩
  · rw [ticked]
    change x.silenceTick = _
    cases state : x.context.state with
    | priming | acquiring | locked => exact Feed.silenceTick_hears (by rw [FeedState.hears, state]; decide)
    | holdover => exact Feed.silenceTick_holdover state
    | off | waiting | lost => exact Feed.silenceTick_rests (by rw [FeedState.hears, state]; decide) (by rw [state]; decide)
  · have enters : s.feedEnters s.closePeriod f .holdover = true ↔ x.context.state.hears ∧ 4 ≤ n := by
      rw [State.feedEnters_iff, ticked]
      exact Feed.silenceTick_enters_holdover
    rw [← State.boundary_opened opened] at enters ⊢
    exact congrArg Host.Outcome.next (State.takeWhen_due due _ enters)
  · have enters : s.feedEnters s.closePeriod f .lost = true ↔ x.context.state = .holdover ∧ x.record.timeout ≤ n := by
      rw [State.feedEnters_iff, ticked]
      exact Feed.silenceTick_enters_lost
    rw [← State.boundary_opened opened] at enters ⊢
    exact congrArg Host.Outcome.next (State.takeWhen_due due _ enters)

/-! ### Clearing and realignments (R49, R50, R74) -/

section Line

variable {p : Programme}

theorem Programme.boundary_unallocated (state : p.store.state = .unallocated) : p.boundary = p := by
  unfold Programme.boundary
  rw [state]

theorem Programme.boundary_clearing (state : p.store.state = .clearing) :
    p.boundary = if p.store.pages.length ≤ p.store.cleared + 32 then p.complete
      else { p with store := { p.store with cleared := p.store.cleared + 32 } } := by
  unfold Programme.boundary
  rw [state]
  exact if_congr decide_eq_true_iff rfl rfl

theorem Programme.boundary_running (state : p.store.state = .running) : p.boundary = { p with align := p.align.boundary } := by
  unfold Programme.boundary
  rw [state]

theorem AlignContext.realigns_iff {a : AlignContext} : a.realigns = true ↔ ∃ d, a.pending = some d ∧ d ≠ a.delay := by
  unfold AlignContext.realigns
  cases a.pending with
  | none => exact iff_of_false Bool.false_ne_true nofun
  | some d =>
    rw [bne_iff_ne]
    exact ⟨fun h => ⟨d, rfl, h⟩, fun ⟨e, same, h⟩ => Option.some.inj same ▸ h⟩

/-- A boundary completes the clearing of a programme exactly when the pages left are at most 32 (R50). -/
theorem Programme.boundary_completes :
    (p.store.state = .clearing ∧ p.boundary.store.state = .running) ↔
      p.store.state = .clearing ∧ p.store.pages.length ≤ p.store.cleared + 32 := by
  refine and_congr_right fun clearing => ?_
  rw [Programme.boundary_clearing clearing]
  by_cases last : p.store.pages.length ≤ p.store.cleared + 32
  · rw [if_pos last]
    exact iff_of_true rfl last
  · rw [if_neg last]
    exact iff_of_false (fun h => by rw [show p.store.state = .running from h] at clearing; cases clearing) last

end Line

/-- Settles O14: programme by programme, along its store state. -/
theorem boundaryClearsAndRealignsProgrammes : Obligations.BoundaryClearsAndRealignsProgrammes := by
  refine fun s => ⟨fun rest p => ?_, fun due opened => ⟨s.closePeriod, exec_burstBoundary_opened due opened, ?_⟩⟩
  · exact ⟨congrArg Host.Outcome.next (State.takeWhen_rest rest _ _), congrArg Host.Outcome.next (State.takeWhen_rest rest _ _)⟩
  intro p q
  refine ⟨?_, ?_, ?_⟩
  · rw [s.closePeriod_programme p]
    change q.boundary = _
    cases state : q.store.state with
    | unallocated => exact Programme.boundary_unallocated state
    | clearing =>
      rw [Programme.boundary_clearing state, Programme.complete, Programme.alignStart, Programme.clampDelay_eq]
      rfl
    | running =>
      rw [Programme.boundary_running state, AlignContext.boundary]
      dsimp only
      cases q.align.pending with
      | none => rfl
      | some d => exact apply_ite (fun a => ({ q with align := a } : Programme)) _ _ _
  · have completes : (s.programmes[p].store.state == .clearing && s.boundary.programmes[p].store.state == .running) = true ↔
        q.store.state = .clearing ∧ q.store.pages.length ≤ q.store.cleared + 32 := by
      rw [State.boundary_opened opened, s.closePeriod_programme p, Bool.and_eq_true, beq_iff_eq, beq_iff_eq]
      exact Programme.boundary_completes
    rw [← State.boundary_opened opened]
    exact congrArg Host.Outcome.next (State.takeWhen_due due _ completes)
  · have realigns : (s.programmes[p].running && s.programmes[p].align.realigns) = true ↔
        q.store.state = .running ∧ ∃ d, q.align.pending = some d ∧ d ≠ q.align.delay := by
      rw [Bool.and_eq_true, AlignContext.realigns_iff, Programme.running_iff]
    rw [← State.boundary_opened opened]
    exact congrArg Host.Outcome.next (State.takeWhen_due due _ realigns)

end Sys2Proof.Machine
end

