-- ==== Sys2Proof/Proofs/Clearing.lean ====
section
/-! SUPPORT. What page clearing writes in the delay store (R49). -/

namespace Sys2Proof.Machine

/-- The delay word that clearing writes (R49). -/
def clearWord (epoch : BitVec 2) : Word32 := packWord { sample := 0, epoch := epoch, substituted := true }

/-- Every frame of a page reads as eight words `w`. -/
def PageReads (m : List Host.Cell) (n : Page) (w : Word32) : Prop := ∀ k < 128, readFrame m n k = List.replicate 8 w

theorem octets_const_length (w : Word32) (n : Nat) : ((List.range n).flatMap fun _ => wordOctets w).length = n * 4 := by
  rw [length_flatMap_const fun _ => wordOctets_length w, List.length_range]

/-- Clearing a page leaves every octet outside it. -/
theorem readOctet_clearPage {m : List Host.Cell} {e : BitVec 2} {n : Page} {a : Nat} (h : a < 4096 * n.val ∨ 4096 * n.val + 4096 ≤ a) :
    readOctet (clearPage m e n) a = readOctet m a :=
  readOctet_writeRun_outside _ _ _ _ (by rw [octets_const_length, frameAddress]; omega)

/-- Clearing a page leaves every frame of another page. -/
theorem readFrame_clearPage_other {m : List Host.Cell} {e : BitVec 2} {n page : Page} {k : Nat} (h : k < 128) (other : page ≠ n) :
    readFrame (clearPage m e n) page k = readFrame m page k := by
  have apart : page.val ≠ n.val := fun same => other (Fin.ext same)
  exact congrArg octetWords (readRun_writeRun_apart _ _ _ _ _ (by rw [octets_const_length, frameAddress, frameAddress]; omega))

/-- Every frame of a cleared page reads as eight clear words. -/
theorem clearPage_reads (m : List Host.Cell) (e : BitVec 2) (n : Page) : PageReads (clearPage m e n) n (clearWord e) := by
  intro k h
  have octets : readRun (clearPage m e n) (frameAddress n k) 32 = (List.range 8).flatMap fun _ => wordOctets (clearWord e) := by
    refine List.ext_getElem (by rw [readRun_length, octets_const_length]) fun i inRun inWords => ?_
    rw [readRun_length] at inRun
    have place : frameAddress n k + i = frameAddress n 0 + ((8 * k + i / 4) * 4 + i % 4) := by unfold frameAddress; omega
    have inside : (8 * k + i / 4) * 4 + i % 4 < ((List.range 1024).flatMap fun _ => wordOctets (clearWord e)).length := by
      rw [octets_const_length]; omega
    have four : i % 4 < 4 := Nat.mod_lt _ (by decide)
    have read : readOctet (clearPage m e n) (frameAddress n 0 + ((8 * k + i / 4) * 4 + i % 4)) = _ :=
      readOctet_writeRun_inside _ _ _ _ inside
    rw [readRun_getElem, place, read]
    refine Option.some.inj ((List.getElem?_eq_getElem inside).symm.trans (Eq.trans ?_ (List.getElem?_eq_getElem inWords)))
    rw [getElem?_flatMap_const (fun _ => wordOctets_length _) _ four, List.getElem?_range (by omega), Option.bind_some]
    have split_ : i = i / 4 * 4 + i % 4 := by omega
    rw [split_, getElem?_flatMap_const (fun _ => wordOctets_length _) _ (by omega), List.getElem?_range (by omega), Option.bind_some]
    congr 1
    omega
  rw [readFrame, octets]
  exact octetWords_flatMap (List.replicate 8 (clearWord e))

theorem PageReads.clearPage_other {m : List Host.Cell} {e : BitVec 2} {n page : Page} {w : Word32} (h : PageReads m page w)
    (other : page ≠ n) : PageReads (clearPage m e n) page w :=
  fun k inPage => (readFrame_clearPage_other inPage other).trans (h k inPage)

/-- Pages cleared one after another under one epoch: each reads clear from then on. -/
theorem clearAll_reads (e : BitVec 2) (page : Page) (ns : List Page) (m : List Host.Cell)
    (h : PageReads m page (clearWord e) ∨ page ∈ ns) : PageReads (ns.foldl (fun m n => clearPage m e n) m) page (clearWord e) := by
  induction ns generalizing m with
  | nil => exact h.elim id fun none_ => absurd none_ List.not_mem_nil
  | cons n ns ih =>
    refine ih _ ?_
    by_cases same : page = n
    · exact .inl (same ▸ clearPage_reads m e page)
    · exact h.imp (·.clearPage_other same) fun listed => (List.mem_cons.mp listed).resolve_left same

theorem clearAll_other {e : BitVec 2} {page : Page} {w : Word32} {ns : List Page} {m : List Host.Cell} (h : PageReads m page w)
    (other : page ∉ ns) : PageReads (ns.foldl (fun m n => clearPage m e n) m) page w := by
  induction ns generalizing m with
  | nil => exact h
  | cons n ns ih =>
    obtain ⟨differs, rest⟩ := not_or.mp (mt List.mem_cons.mpr other)
    exact ih (h.clearPage_other differs) rest

theorem readOctet_clearAll {e : BitVec 2} {a : Nat} {ns : List Page} {m : List Host.Cell}
    (h : ∀ n ∈ ns, a < 4096 * n.val ∨ 4096 * n.val + 4096 ≤ a) :
    readOctet (ns.foldl (fun m n => clearPage m e n) m) a = readOctet m a := by
  induction ns generalizing m with
  | nil => rfl
  | cons n ns ih =>
    exact (ih fun n' listed => h n' (List.mem_cons_of_mem _ listed)).trans (readOctet_clearPage (h n List.mem_cons_self))

/-- Outside the pages that the programmes' clearing comes to, a boundary leaves every octet (R49). -/
theorem State.clearedMemory_outside {s : State} {a : Nat}
    (h : ∀ p : Fin 16, s.programmes[p].store.state = .clearing →
      ∀ n ∈ s.programmes[p].store.nextPages, a < 4096 * n.val ∨ 4096 * n.val + 4096 ≤ a) :
    readOctet s.clearedMemory a = readOctet s.store.memory a := by
  unfold State.clearedMemory
  generalize s.store.memory = m, List.finRange 16 = ps
  induction ps generalizing m with
  | nil => rfl
  | cons p ps ih =>
    refine (ih _).trans ?_
    dsimp only [clearPages]
    split
    · exact readOctet_clearAll (h p ‹_›)
    · rfl

/-- Under the page law a boundary leaves the pages that it clears for a programme reading as clear words of its e_in (R49). -/
theorem State.clearedMemory_reads {s : State} (law : s.PageLaw) {p : Fin 16} (clearing : s.programmes[p].store.state = .clearing) {n : Page}
    (next : n ∈ s.programmes[p].store.nextPages) : PageReads s.clearedMemory n (clearWord s.programmes[p].eIn) := by
  have owns {q : Fin 16} (listed : n ∈ s.programmes[q].store.nextPages) : n ∈ (s.book.share q).pages :=
    List.mem_of_mem_drop (List.mem_of_mem_take listed)
  have one {q : Fin 16} (listed : n ∈ s.programmes[q].store.nextPages) : q = p :=
    (s.pageLaw_iff.mp law).oneOwner q p n (owns listed) (owns next)
  have fold (ps : List (Fin 16)) (m : List Host.Cell) (h : PageReads m n (clearWord s.programmes[p].eIn) ∨ p ∈ ps) :
      PageReads (ps.foldl (fun m i => clearPages s.programmes[i] m) m) n (clearWord s.programmes[p].eIn) := by
    induction ps generalizing m with
    | nil => exact h.elim id fun none_ => absurd none_ List.not_mem_nil
    | cons q ps ih =>
      refine ih _ ?_
      by_cases same : p = q
      · refine .inl ?_
        dsimp only [clearPages]
        rw [← same, if_pos clearing]
        exact clearAll_reads _ _ _ _ (.inr next)
      · refine h.imp (fun reads => ?_) fun listed => (List.mem_cons.mp listed).resolve_left same
        dsimp only [clearPages]
        split
        · exact clearAll_other reads fun listed => same (one listed).symm
        · exact reads
  exact fold _ _ (.inr (List.mem_finRange p))

/-- Settles O15: page by page, in the order in which the clearing writes them. -/
theorem boundaryWritesClearedPages : Obligations.BoundaryWritesClearedPages :=
  fun s due opened => ⟨s.closePeriod, exec_burstBoundary_opened due opened, fun _ outside => s.clearedMemory_outside outside,
    fun law _ clearing _ next => State.clearedMemory_reads law clearing next⟩

end Sys2Proof.Machine
end

