-- ==== Sys2Proof/Proofs/Windows.lean ====
section
/-! SUPPORT. What a management window leaves as it was: which events are due, and which windows have opened (R63, R163). -/

namespace Sys2Proof.Machine

/-! ### No command moves a burst boundary -/

/-- The house time commands alone touch the timebase, and they touch the coming house time alone (R64, R65). -/
structure SameClock (s t : State) : Prop where
  eq : t.time = { s.time with nextTime := t.time.nextTime }

namespace SameClock

theorem of_eq {s t : State} (h : t.time = s.time) : SameClock s t := ⟨by rw [h]⟩

theorem refl (s : State) : SameClock s s := of_eq rfl

theorem trans {s t u : State} (h : SameClock s t) (k : SameClock t u) : SameClock s u := ⟨by rw [k.eq, h.eq]⟩

theorem boundaryDue {s t : State} (h : SameClock s t) : t.time.boundaryDue = s.time.boundaryDue := by rw [h.eq]

theorem foldl {α : Type} {g : State → α → State} (h : ∀ s a, (g s a).time = s.time) (as : List α) (s : State) :
    (as.foldl g s).time = s.time := by
  induction as generalizing s with
  | nil => rfl
  | cons a as ih => exact (ih _).trans (h s a)

end SameClock

theorem State.afterReceiver_time (s before : State) (n : Fin 4) : (s.afterReceiver before n).time = s.time := by
  unfold State.afterReceiver
  split
  · exact s.trunkUnframed_time n
  · rfl

theorem State.writeProgramme_time (s : State) (o : Byte) (cls : RightClass) (field v : Nat) (p : Fin 16) :
    (s.writeProgramme o cls field v p).state.time = s.time := by
  unfold State.writeProgramme
  repeat' split
  all_goals rfl

theorem judgeSet_time (o target object field : Byte) (value : Word32) (s : State) :
    (judgeSet o target object field value s).state.time = s.time := by
  unfold judgeSet
  split
  · unfold setFeed refuse
    repeat' split
    all_goals rfl
  · unfold setProgramme refuse
    repeat' split
    · rfl
    · rfl
    · rfl
    · dsimp only
      split
      · exact s.writeProgramme_time ..
      · rfl
  · unfold setMap refuse
    repeat' split
    all_goals rfl
  · unfold setTrunk refuse
    repeat' split
    · rfl
    · rfl
    · rfl
    · rfl
    · exact State.afterReceiver_time ..
  · unfold setPolicy refuse
    repeat' split
    · rfl
    · rfl
    · rfl
    · rfl
    · exact (State.formLines_time _).trans ((State.forceKind_time ..).trans (State.writePolicy_time ..))
    · exact (State.formLines_time _).trans (State.writePolicy_time ..)
  · unfold setOriginator refuse
    repeat' split
    all_goals rfl
  · unfold setPart refuse accept
    repeat' split
    all_goals rfl
  · rfl

section Group

variable {one : State → Fin 16 → State × CommandResult} (alone : ∀ s p, (one s p).1.time = s.time)

include alone

theorem judgeEach_time (ps : List (Fin 16)) (s : State) (g : GroupTally) : (judgeEach one ps s g).1.time = s.time := by
  induction ps generalizing s g with
  | nil => rfl
  | cons p ps ih => exact (ih _ _).trans (alone s p)

omit alone in
theorem groupReply_time (s : State) (g : GroupTally) (whole : Option CommandResult) : (groupReply s g whole).state.time = s.time := by
  obtain ⟨n, same⟩ := groupReply_state s g whole
  rw [same]

theorem judgeGroup_time (selection : BitVec 16) (s : State) : (judgeGroup selection one s).state.time = s.time :=
  (groupReply_time ..).trans (judgeEach_time alone ..)

theorem judgeChoice_time (o : Byte) (cls : RightClass) (choice : ProgrammeChoice) (s : State) :
    (judgeChoice o cls choice one s).state.time = s.time := by
  unfold judgeChoice refuse
  split
  · repeat' split
    · rfl
    · rfl
    · exact alone s _
  · exact judgeGroup_time alone _ s

end Group

theorem cancelTake_time (o : Byte) (s : State) (p : Fin 16) : (cancelTake o s p).1.time = s.time := by
  unfold cancelTake
  repeat' split
  all_goals rfl

theorem restartMeter_time (o : Byte) (s : State) (p : Fin 16) : (restartMeter o s p).1.time = s.time := by
  unfold restartMeter
  split <;> rfl

theorem State.acknowledgeAll_time (s : State) (rs : List (Fin 400)) : (s.acknowledgeAll rs).time = s.time :=
  (State.formLines_time _).trans (SameClock.foldl (g := fun t r => t.updRecord r AlarmRecord.acknowledge) (fun _ _ => rfl) rs s)

theorem judgeAcknowledge_time (o : Byte) (choice : AcknowledgeChoice) (s : State) : (judgeAcknowledge o choice s).state.time = s.time := by
  unfold judgeAcknowledge
  split
  · unfold acknowledgeOne refuse
    repeat' split
    · rfl
    · rfl
    · exact s.acknowledgeAll_time _
    · rfl
  · unfold acknowledgeGroup
    split
    · exact judgeGroup_time (one := fun t _ => (t, .noRight)) (fun _ _ => rfl) _ s
    · split
      · exact groupReply_time ..
      · exact (State.acknowledgeAll_time ..).trans (judgeGroup_time (one := fun t _ => (t, .done)) (fun _ _ => rfl) _ s)

theorem judgeGroupSet_time (o : Byte) (selection : BitVec 16) (field : Byte) (value : Word32) (s : State) :
    (judgeGroupSet o selection field value s).state.time = s.time := by
  unfold judgeGroupSet
  repeat' split
  · exact groupReply_time ..
  · exact groupReply_time ..
  · exact judgeGroup_time (fun t p => t.writeProgramme_time ..) _ s

theorem judge_clock (o : Byte) (c : Command) (s : State) : SameClock s (judge o c s).state := by
  cases c with
  | set t ob f v => exact .of_eq (judgeSet_time ..)
  | groupSet m f v => exact .of_eq (judgeGroupSet_time ..)
  | takeCancel c => exact .of_eq (judgeChoice_time (cancelTake_time o) ..)
  | restartMeasurement c => exact .of_eq (judgeChoice_time (restartMeter_time o) ..)
  | acknowledge c => exact .of_eq (judgeAcknowledge_time ..)
  | timeSet v =>
    change SameClock s (judgeTimeSet o v s).state
    unfold judgeTimeSet refuse accept
    split
    · exact .refl s
    · exact ⟨State.timeJump_time _⟩
  | timeAdjust v =>
    change SameClock s (judgeTimeAdjust o v s).state
    unfold judgeTimeAdjust refuse
    split
    · exact .refl s
    · exact ⟨State.timeJump_time _⟩
  | logStatus => exact .of_eq rfl
  | status => exact .refl s
  | read g ob a n =>
    change SameClock s (judgeRead g.toNat ob.toNat a.toNat n.toNat s).state
    unfold judgeRead refuse accept
    cases readsImmediate s g.toNat ob.toNat
    all_goals
      dsimp only [Bool.false_eq_true, if_true, if_false]
      split <;> exact .of_eq rfl
  | load t a cs =>
    refine .of_eq (show (judgeLoad o t a cs s).state.time = s.time from ?_)
    unfold judgeLoad refuse accept
    repeat' split
    all_goals first | rfl | (dsimp only; split <;> rfl)
  | allocate p f =>
    refine .of_eq (show (judgeAllocate o p f s).state.time = s.time from ?_)
    unfold judgeAllocate refuse
    repeat' split
    · rfl
    · rfl
    · rfl
    · dsimp only
      split <;> rfl
  | take p i t r l =>
    refine .of_eq (show (judgeTake o p i t r l s).state.time = s.time from ?_)
    unfold judgeTake refuse accept
    repeat' split
    all_goals rfl
  | release p =>
    refine .of_eq (show (judgeRelease o p s).state.time = s.time from ?_)
    unfold judgeRelease refuse accept
    repeat' split
    all_goals rfl
  | retire n =>
    refine .of_eq (show (judgeRetire o n s).state.time = s.time from ?_)
    unfold judgeRetire refuse accept
    repeat' split
    all_goals rfl
  | restore n =>
    refine .of_eq (show (judgeRestore o n s).state.time = s.time from ?_)
    unfold judgeRestore refuse accept
    repeat' split
    all_goals rfl
  | readFault =>
    refine .of_eq (show (judgeReadFault o s).state.time = s.time from ?_)
    unfold judgeReadFault refuse accept
    split <;> rfl
  | releaseHold p c =>
    refine .of_eq (show (judgeReleaseHold o p c s).state.time = s.time from ?_)
    unfold judgeReleaseHold refuse accept
    repeat' split
    all_goals rfl
  | logRead m n f =>
    refine .of_eq (show (judgeLogRead o m n f s).state.time = s.time from ?_)
    unfold judgeLogRead refuse
    repeat' split
    all_goals rfl
  | logCancel =>
    refine .of_eq (show (judgeLogCancel o s).state.time = s.time from ?_)
    unfold judgeLogCancel refuse
    repeat' split
    all_goals rfl
  | restart =>
    refine .of_eq (show (judgeRestart o s).state.time = s.time from ?_)
    unfold judgeRestart refuse accept
    split <;> rfl

/-! ### What is due through a management window -/

/-- The burst boundary that is due and the windows that have opened are the same in two states. -/
structure State.SameDue (s t : State) : Prop where
  boundary : t.time.boundaryDue = s.time.boundaryDue
  windows  : ∀ k : Fin 2, t.outputs[k].windowDue = s.outputs[k].windowDue

/-- The feeds alone act when a receiver leaves FRAMED. -/
theorem State.afterReceiver_outputs (s before : State) (n : Fin 4) : (s.afterReceiver before n).outputs = s.outputs := by
  unfold State.afterReceiver
  split
  · exact s.trunkUnframed_outputs n
  · rfl

namespace State.SameDue

theorem refl (s : State) : s.SameDue s := ⟨rfl, fun _ => rfl⟩

theorem trans {s t u : State} (h : s.SameDue t) (k : t.SameDue u) : s.SameDue u :=
  ⟨k.boundary.trans h.boundary, fun o => (k.windows o).trans (h.windows o)⟩

theorem of_eq {s t : State} (time : t.time = s.time) (outputs : t.outputs = s.outputs) : s.SameDue t :=
  ⟨by rw [time], fun _ => by rw [outputs]⟩

theorem of_steady {s t : State} (clock : SameClock s t) (h : Steady s t) : s.SameDue t := ⟨clock.boundaryDue, fun _ => by rw [h.outputs]⟩

theorem foldl {α : Type} {g : State → α → State} (h : ∀ (s : State) (a : α), s.SameDue (g s a)) (as : List α) (s : State) :
    s.SameDue (as.foldl g s) := by
  induction as generalizing s with
  | nil => exact refl s
  | cons a as ih => exact (h s a).trans (ih _)

theorem ite {s t u : State} (c : Prop) [Decidable c] (a : s.SameDue t) (b : s.SameDue u) : s.SameDue (if c then t else u) := by
  split <;> assumption

/-- A change of an output trunk that is not its window's. -/
theorem updOutput (s : State) (k : Fin 2) {g : OutputTrunk → OutputTrunk} (h : ∀ t : OutputTrunk, (g t).windowDue = t.windowDue) :
    s.SameDue (s.updOutput k g) := by
  refine ⟨rfl, fun j => ?_⟩
  rw [State.updOutput_outputs, Fin.getElem_fin, updAt_getElem]
  split
  · exact h _
  · rfl

theorem mapOutputs (s : State) {g : Fin 2 → OutputTrunk → OutputTrunk} (h : ∀ (k : Fin 2) (t : OutputTrunk), (g k t).windowDue = t.windowDue) :
    s.SameDue { s with outputs := mapAll g s.outputs } := by
  refine ⟨rfl, fun j => ?_⟩
  dsimp only
  rw [Fin.getElem_fin, mapAll_getElem]
  exact h _ _

/-! #### Commands, and the reports they cause -/

theorem judge (o : Byte) (c : Command) (s : State) : s.SameDue (judge o c s).state := by
  have clock := judge_clock o c s
  have moves := judge_moves o c s
  generalize (Machine.judge o c s).state = t at clock moves
  have same (h : t.outputs = s.outputs) : s.SameDue t := ⟨clock.boundaryDue, fun _ => by rw [h]⟩
  cases moves with
  | steady h => exact same h.outputs
  | feed object field value =>
    refine same ?_
    unfold setFeed refuse
    repeat' split
    all_goals rfl
  | map object field value =>
    unfold setMap refuse
    repeat' split
    · exact .refl s
    · exact .refl s
    · exact .refl s
    · exact .refl s
    · exact .updOutput s _ fun _ => rfl
  | trunk object field value =>
    refine same ?_
    unfold setTrunk refuse
    repeat' split
    · rfl
    · rfl
    · rfl
    · rfl
    · exact afterReceiver_outputs ..
  | load table start codes =>
    refine same ?_
    unfold judgeLoad refuse accept
    repeat' split
    all_goals first | rfl | (dsimp only; split <;> rfl)
  | retire page =>
    refine same ?_
    unfold judgeRetire refuse accept
    repeat' split
    all_goals rfl
  | restore page =>
    refine same ?_
    unfold judgeRestore refuse accept
    repeat' split
    all_goals rfl
  | jump t => exact same (State.timeJump_outputs _)

theorem judgeBurst (b : ControlBurst) (s : State) : s.SameDue (judgeBurstCommand b s).state := by
  unfold judgeBurstCommand
  split
  · exact judge ..
  · exact .refl s
  · exact .refl s

theorem offerAlarm (s : State) (type : AlarmReportType) (r : Fin 400) : s.SameDue (s.offerAlarm type r) := by
  unfold State.offerAlarm
  repeat' split
  all_goals exact .of_eq rfl rfl

theorem offerClears (s : State) (rs : List (Fin 400)) : s.SameDue (s.offerClears rs) := .foldl (fun t r => offerAlarm t .clear r) rs s

theorem offerAborted (s : State) : s.SameDue s.offerAborted := .ite _ (.of_eq rfl rfl) (.refl s)

theorem transferSteps (fuel : Nat) (s : State) : s.SameDue (State.transferSteps fuel s) := by
  induction fuel generalizing s with
  | zero => exact .refl s
  | succ n ih => exact .ite _ (.trans (t := s.transferStep) (.of_eq rfl rfl) (ih _)) (.refl s)

theorem deferred (d : Deferred) (s : State) : s.SameDue (d.run s) := by
  cases d with
  | clears rs => exact offerClears s rs
  | abortedLog => exact offerAborted s
  | transferSteps => exact transferSteps 33 s

theorem takeCommand (s : State) (b : ControlBurst) : s.SameDue (s.takeCommand b) :=
  (judgeBurst b s).trans (.trans (t := (judgeBurstCommand b s).state.pushReport _) (.of_eq rfl rfl) (.foldl (fun t d => deferred d t) _ _))

theorem drainRounds (n : Nat) (s : State) : s.SameDue (State.drainRounds n s) := by
  induction n generalizing s with
  | zero => exact .refl s
  | succ n ih =>
    unfold State.drainRounds
    split
    · exact .refl s
    · rename_i b rest _
      exact .ite _ (.trans (t := s.setCommands rest) (.of_eq rfl rfl) ((takeCommand _ b).trans (ih _))) (.refl s)

theorem intake (s : State) (b : ControlBurst) : s.SameDue (s.intake b) := by
  refine .trans (t := s.enqueue b) ?_ (drainRounds _ _)
  unfold State.enqueue
  exact .ite _ (.of_eq rfl rfl) (.of_eq rfl rfl)

/-! #### Bursts and symbols -/

theorem forwardBurst (s : State) (n : Fin 4) (b : Burst) : s.SameDue (s.forwardBurst n b) := by
  unfold State.forwardBurst
  split
  · exact .updOutput s _ fun t => by unfold OutputTrunk.offer; split <;> rfl
  · exact .refl s

theorem handOn (s : State) (n : Fin 4) (b : Burst) : s.SameDue (s.handOn n b) := by
  unfold State.handOn
  split
  · unfold State.deliverSample
    split
    · exact .of_eq rfl rfl
    · exact .refl s
  · exact .ite _ (intake ..) (.ite _ ((forwardBurst ..).trans (intake ..)) (forwardBurst ..))
  · exact forwardBurst ..

theorem afterReceiver (s before : State) (n : Fin 4) : s.SameDue (s.afterReceiver before n) :=
  .of_eq (s.afterReceiver_time before n) (s.afterReceiver_outputs before n)

theorem goodBurst (s : State) (n : Fin 4) (b : Burst) : s.SameDue (s.goodBurst n b) :=
  .trans (t := s.updReceiver n Receiver.good) (.of_eq rfl rfl) (.ite _ (handOn ..) (.refl _))

theorem badBurst (s : State) (n : Fin 4) : s.SameDue (s.badBurst n) :=
  .trans (t := s.updReceiver n Receiver.bad) (.of_eq rfl rfl) (afterReceiver ..)

theorem setAssembly (s : State) (n : Fin 4) (a : Option (List Byte)) : s.SameDue (s.setAssembly n a) := .of_eq rfl rfl

theorem symbolInside (s : State) (n : Fin 4) (octets : List Byte) (x : LineSymbol) : s.SameDue (s.symbolInside n octets x) := by
  have drop : s.SameDue (s.setAssembly n none) := setAssembly ..
  unfold State.symbolInside
  cases x with
  | data b => exact .ite _ (drop.trans (badBurst ..)) (setAssembly ..)
  | closeBurst =>
    dsimp only
    split
    · exact drop.trans (goodBurst ..)
    · exact drop.trans (badBurst ..)
  | abandon => exact drop
  | openBurst => exact drop.trans ((badBurst ..).trans (setAssembly ..))
  | idle => exact drop.trans (badBurst ..)

theorem receive (s : State) (n : Fin 4) (x : LineSymbol) : s.SameDue (s.receive n x) := by
  refine .trans (t := s.updReceiver n Receiver.wake) (.of_eq rfl rfl) ?_
  unfold State.receive
  dsimp only
  split
  · exact symbolInside ..
  · exact .ite _ (setAssembly ..) (.refl _)

theorem sendLooped (s : State) (k : Fin 2) (xs : List LineSymbol) : s.SameDue (s.sendLooped k xs) :=
  .foldl (fun t _ => .foldl (fun t _ => .ite _ (receive ..) (.refl t)) _ t) xs s

/-! #### A departure and a restart -/

theorem restartActs (s : State) : s.SameDue s.restartActs := by
  refine ⟨congrArg Timebase.boundaryDue s.restartActs_time, fun k => ?_⟩
  have queues : s.SameDue s.emptyQueues := 
    .trans (t := { s with processor := { s.processor with commands := [], reports := [] } }) (.of_eq rfl rfl)
      (mapOutputs (g := fun _ t => { t with forward := [], lastServed := .forward }) _ fun _ _ => rfl)
  have released : s.emptyQueues.SameDue s.emptyQueues.releaseAll := .of_eq (State.releaseAll_time _) (State.releaseAll_outputs _)
  have cleared : s.emptyQueues.releaseAll.SameDue s.emptyQueues.releaseAll.clearAlarms :=
    .trans (.of_eq (State.forceAll_time _) (State.forceAll_outputs _))
      ((offerClears ..).trans (.of_eq (State.formLines_time _) (State.formLines_outputs _)))
  have ended (t : State) : t.SameDue t.endLog := by
    unfold State.endLog
    exact .trans (.ite _ (.trans (t := t.setTransfer t.log.transfer.aborted) (.of_eq rfl rfl) (offerAborted _)) (.refl t)) (.of_eq rfl rfl)
  exact ((queues.trans (released.trans (cleared.trans (ended _)))).trans (.of_eq rfl rfl)).windows k

theorem depart (s : State) (k : Fin 2) (first : Bool) (r : Report) (rest : List Report) : s.SameDue (s.depart k first r rest) := by
  unfold State.depart State.afterDeparture
  refine .trans (t := State.updOutput { s with processor := { s.processor with reports := rest } } k fun t =>
    { t with management := some (.report (s.formReport r)), lastServed := .report }) ?_ ?_
  · exact .trans (t := { s with processor := { s.processor with reports := rest } }) (.of_eq rfl rfl) (.updOutput _ k fun _ => rfl)
  · refine .trans (.ite (s.restartActsAt r = true) (restartActs _) (.refl _)) ?_
    exact .ite _ ((transferSteps ..).trans (drainRounds ..)) ((drainRounds ..).trans (transferSteps ..))

theorem serve (s : State) (k : Fin 2) (first : Bool) : s.SameDue (s.serve k first) := by
  unfold State.serve
  split
  · exact .updOutput s k fun _ => rfl
  · exact depart ..
  · exact .updOutput s k fun _ => rfl

theorem sendManagement (s : State) (k : Fin 2) : s.SameDue (s.sendManagement k) := by
  unfold State.sendManagement
  split
  · exact sendLooped ..
  · exact .refl s

theorem sendSample (s : State) (k : Fin 2) : s.SameDue (s.sendSample k) := by
  unfold State.sendSample
  split
  · exact sendLooped ..
  · exact .refl s

end State.SameDue

/-! ### The windows that a boundary opens first (log entry 8) -/

/-- A window that opens marks itself as opened, and changes nothing else of what is due. -/
theorem State.window_due (s : State) (k : Fin 2) (first : Bool) :
    (s.updOutput k fun t => { t with windowDue := false }).SameDue (s.window k first) :=
  (State.SameDue.sendSample ..).trans ((State.SameDue.serve ..).trans (State.SameDue.sendManagement ..))

theorem State.lateWindow_boundaryDue (s : State) (k : Fin 2) : (s.lateWindow k).time.boundaryDue = s.time.boundaryDue := by
  unfold State.lateWindow
  split
  · exact (s.window_due k false).boundary
  · rfl

theorem State.lateWindow_windowDue (s : State) (k j : Fin 2) :
    (s.lateWindow k).outputs[j].windowDue = if j = k then false else s.outputs[j].windowDue := by
  unfold State.lateWindow
  by_cases due : s.outputs[k].windowDue = true
  · rw [if_pos due, (s.window_due k false).windows j, State.updOutput_outputs]
    by_cases same : j = k
    · rw [if_pos same, same, updAt_same]
    · rw [if_neg same, updAt_other _ _ _ _ (Ne.symm same)]
  · rw [if_neg due]
    by_cases same : j = k
    · rw [if_pos same, same]
      exact Bool.eq_false_iff.mpr due
    · rw [if_neg same]

theorem exec_managementWindow_late (s : State) (k : Fin 2) : exec (.managementWindow k false) s = .next (s.lateWindow k) := rfl

/-- Settles O16: what a boundary makes of the output trunks, and the late windows it opens before. -/
theorem boundaryHandsOverOutputBursts : Obligations.BoundaryHandsOverOutputBursts := by
  refine fun s due => ⟨fun opened => ⟨s.closePeriod, exec_burstBoundary_opened due opened, s.closePeriod_output, rfl⟩,
    s.lateWindow 0, (s.lateWindow 0).lateWindow 1, exec_managementWindow_late s 0, exec_managementWindow_late _ 1, ?_, ?_⟩
  · intro k
    rw [State.lateWindow_windowDue, State.lateWindow_windowDue]
    fin_cases k <;> rfl
  · have opened : ((s.lateWindow 0).lateWindow 1).WindowsOpened := by
      intro k
      rw [State.lateWindow_windowDue, State.lateWindow_windowDue]
      fin_cases k <;> rfl
    have still : ((s.lateWindow 0).lateWindow 1).time.boundaryDue = true := by
      rw [State.lateWindow_boundaryDue, State.lateWindow_boundaryDue, due]
    rw [exec_burstBoundary_due due, exec_burstBoundary_opened still opened]
    rfl

end Sys2Proof.Machine
end

