-- ==== Sys2Proof/Proofs/Receivers.lean ====
section
/-! SUPPORT. The trunk receivers: symbols, whole bursts, and the runs of good and bad bursts (R150, R154, R155). -/

namespace Sys2Proof.Machine

/-! ### A receiver changed -/

theorem State.receiver_updReceiver (s : State) (n : Fin 4) (g : Receiver → Receiver) :
    (s.updReceiver n g).inputs[n].receiver = g s.inputs[n].receiver := by
  rw [State.updReceiver_inputs, updAt_same]

theorem State.updReceiver_updReceiver (s : State) (n : Fin 4) (g h : Receiver → Receiver) :
    (s.updReceiver n g).updReceiver n h = s.updReceiver n fun r => h (g r) := by
  unfold State.updReceiver State.updInput
  dsimp only
  rw [updAt_updAt]

/-- A change of a receiver, by what it makes of the receiver as it stands. -/
theorem State.updReceiver_to {s : State} {n : Fin 4} {g : Receiver → Receiver} {r : Receiver} (h : g s.inputs[n].receiver = r) :
    s.updReceiver n g = s.updReceiver n fun _ => r := by
  unfold State.updReceiver State.updInput updAt
  dsimp only
  rw [h]

theorem State.updReceiver_self (s : State) (n : Fin 4) : (s.updReceiver n fun r => r) = s := by
  unfold State.updReceiver State.updInput
  rw [updAt_id]

theorem State.framed_iff {s : State} {n : Fin 4} : s.framed n = true ↔ s.inputs[n].receiver.state = .framed := beq_iff_eq

theorem State.hunting_iff {s : State} {n : Fin 4} : s.hunting n = true ↔ s.inputs[n].receiver.state = .hunt := beq_iff_eq

theorem State.listens_iff {s : State} {n : Fin 4} : s.listens n = true ↔ s.inputs[n].enabled = true ∧ s.inputs[n].loopback = false := by
  rw [State.listens, Bool.and_eq_true, Bool.not_eq_true']

theorem State.findsBursts_iff {s : State} {n : Fin 4} :
    s.findsBursts n = true ↔ s.listens n = true ∧ s.inputs[n].receiver.state ≠ .down := by
  rw [State.findsBursts, Bool.and_eq_true, bne_iff_ne]

theorem State.not_listens {s : State} {n : Fin 4} (h : s.inputs[n].enabled = false ∨ s.inputs[n].loopback = true) : ¬ s.listens n = true := by
  rw [State.listens_iff]
  rintro ⟨enabled, line⟩
  obtain off | loop := h
  · exact Bool.false_ne_true (off.symm.trans enabled)
  · exact Bool.false_ne_true (line.symm.trans loop)

/-- The feeds stay when the receiver was not FRAMED before. -/
theorem State.afterReceiver_unframed {s before : State} {n : Fin 4} (h : before.inputs[n].receiver.state ≠ .framed) :
    s.afterReceiver before n = s :=
  if_neg fun ⟨framed, _⟩ => h (State.framed_iff.mp framed)

/-- The feeds stay when the receiver is FRAMED after. -/
theorem State.afterReceiver_framed {s before : State} {n : Fin 4} (h : s.inputs[n].receiver.state = .framed) :
    s.afterReceiver before n = s :=
  if_neg fun ⟨_, unframed⟩ => unframed (State.framed_iff.mpr h)

theorem State.afterReceiver_leaves {s before : State} {n : Fin 4} (was : before.inputs[n].receiver.state = .framed)
    (is_ : s.inputs[n].receiver.state ≠ .framed) : s.afterReceiver before n = s.trunkUnframed n :=
  if_pos ⟨State.framed_iff.mpr was, fun framed => is_ (State.framed_iff.mp framed)⟩

/-! ### Bad bursts (R155) -/

section Counts

variable {r : Receiver}

theorem Receiver.bad_hunt (h : r.state = .hunt) : r.bad = { r with goodRun := 0 } := by
  cases r; cases h; rfl

theorem Receiver.bad_early (h : r.state = .framed) (early : r.badRun < 3) : r.bad = { r with badRun := r.badRun + 1 } := by
  cases r; cases h; exact if_neg (Nat.not_le.mpr (Nat.succ_lt_succ early))

theorem Receiver.bad_late (h : r.state = .framed) (late : 3 ≤ r.badRun) : r.bad = r.enter .hunt := by
  cases r; cases h; exact if_pos (Nat.succ_le_succ late)

theorem Receiver.good_first (h : r.state = .hunt) (first : r.goodRun = 0) : r.good = { r with goodRun := 1 } := by
  cases r; cases h; cases first; rfl

theorem Receiver.good_second (h : r.state = .hunt) (second : r.goodRun ≠ 0) : r.good = r.enter .framed := by
  cases r; cases h; exact if_pos (Nat.succ_le_succ (Nat.one_le_iff_ne_zero.mpr second))

theorem Receiver.good_framed (h : r.state = .framed) : r.good = { r with badRun := 0 } := by
  cases r; cases h; rfl

end Counts

section Bad

variable {s : State} {n : Fin 4}

theorem State.badBurst_hunt (h : s.inputs[n].receiver.state = .hunt) :
    s.badBurst n = s.updReceiver n fun _ => { s.inputs[n].receiver with goodRun := 0 } := by
  rw [State.badBurst, State.afterReceiver_unframed (by rw [h]; decide)]
  exact State.updReceiver_to (Receiver.bad_hunt h)

theorem State.badBurst_early (h : s.inputs[n].receiver.state = .framed) (early : s.inputs[n].receiver.badRun < 3) :
    s.badBurst n = s.updReceiver n fun _ => { s.inputs[n].receiver with badRun := s.inputs[n].receiver.badRun + 1 } := by
  have counted := Receiver.bad_early h early
  rw [State.badBurst, State.afterReceiver_framed (by rw [State.receiver_updReceiver, counted, h])]
  exact State.updReceiver_to counted

/-- The fourth bad burst in a row takes a FRAMED receiver to HUNT, and its feeds act. -/
theorem State.badBurst_late (h : s.inputs[n].receiver.state = .framed) (late : 3 ≤ s.inputs[n].receiver.badRun) :
    s.badBurst n = (s.updReceiver n fun _ => s.inputs[n].receiver.enter .hunt).trunkUnframed n := by
  have counted := Receiver.bad_late h late
  rw [State.badBurst, State.afterReceiver_leaves h (by rw [State.receiver_updReceiver, counted]; exact nofun)]
  exact congrArg (State.trunkUnframed · n) (State.updReceiver_to counted)

end Bad

/-! ### A burst that the line carried whole (R151, R155) -/

/-- The receiver of a burst that the line carried whole. -/
def Receiver.ended (r : Receiver) : Receiver := { r with silence := 0, assembly := none }

theorem State.afterWholeBurst_eq (s : State) (n : Fin 4) : s.afterWholeBurst n = s.updReceiver n fun _ => s.inputs[n].receiver.ended :=
  State.updReceiver_to rfl

theorem State.afterWholeBurst_receiver (s : State) (n : Fin 4) : (s.afterWholeBurst n).inputs[n].receiver = s.inputs[n].receiver.ended :=
  s.receiver_updReceiver n _

theorem State.afterWholeBurst_updReceiver (s : State) (n : Fin 4) (r : Receiver) :
    ((s.afterWholeBurst n).updReceiver n fun _ => r) = s.updReceiver n fun _ => r :=
  s.updReceiver_updReceiver n _ _

section Rows

variable {s : State} {n : Fin 4}

theorem exec_badBurst_finds (h : s.findsBursts n = true) : exec (.badBurst n) s = .next ((s.afterWholeBurst n).badBurst n) :=
  congrArg Host.Outcome.next (if_pos h)

theorem exec_badBurst_rests (h : ¬ s.findsBursts n = true) : exec (.badBurst n) s = .next s := congrArg Host.Outcome.next (if_neg h)

theorem exec_trunkUnframed_rests (h : ¬ (s.listens n = true ∧ s.framed n = true ∧ s.inputs[n].receiver.badRun = 3)) :
    exec (.trunkUnframed n) s = .next s :=
  congrArg Host.Outcome.next (if_neg fun all => h (by simpa [and_assoc] using all))

theorem exec_trunkFramed_rests (h : ¬ (s.listens n = true ∧ s.hunting n = true ∧ s.inputs[n].receiver.goodRun = 1)) :
    exec (.trunkFramed n) s = .next s :=
  congrArg Host.Outcome.next (if_neg fun all => h (by simpa [and_assoc] using all))

end Rows

/-- Settles O26: the runs of a HUNT and of a FRAMED receiver, and the two rows that complete them. -/
theorem burstRunsFrameTheReceiver : Obligations.BurstRunsFrameTheReceiver := by
  intro s n r ended
  have other : s.findsBursts n = true → r.state ≠ .down := fun finds => (State.findsBursts_iff.mp finds).2
  refine ⟨fun rests => ?_, fun enabled line => ?_⟩
  · have deaf : s.listens n = true → r.state = .down := fun listens =>
      (or_assoc.mpr rests).resolve_left fun off => State.not_listens off listens
    refine ⟨exec_badBurst_rests fun finds => other finds (deaf (State.findsBursts_iff.mp finds).1),
      exec_trunkUnframed_rests fun ⟨listens, framed, _⟩ => ?_, exec_trunkFramed_rests fun ⟨listens, hunts, _⟩ => ?_⟩
    · have := (State.framed_iff.mp framed).symm.trans (deaf listens)
      cases this
    · have := (State.hunting_iff.mp hunts).symm.trans (deaf listens)
      cases this
  have listens : s.listens n = true := State.listens_iff.mpr ⟨enabled, line⟩
  have whole := s.afterWholeBurst_receiver n
  refine ⟨fun hunt => ?_, fun framed => ?_⟩
  · have finds : s.findsBursts n = true := State.findsBursts_iff.mpr ⟨listens, by rw [hunt]; decide⟩
    have still : (s.afterWholeBurst n).inputs[n].receiver.state = .hunt := by rw [whole]; exact hunt
    refine ⟨?_, exec_trunkUnframed_rests fun ⟨_, framed, _⟩ => ?_, ?_⟩
    · rw [exec_badBurst_finds finds, State.badBurst_hunt still, whole, State.afterWholeBurst_updReceiver]
      rfl
    · have := (State.framed_iff.mp framed).symm.trans hunt
      cases this
    · by_cases second : r.goodRun = 1
      · rw [if_pos second]
        have row : (s.listens n && s.hunting n && decide (s.inputs[n].receiver.goodRun = 1)) = true := by
          rw [listens, State.hunting_iff.mpr hunt, decide_eq_true second]; rfl
        refine congrArg Host.Outcome.next ((if_pos row).trans ?_)
        have counted : r.ended.good = r.ended.enter .framed := Receiver.good_second hunt (by rw [show r.ended.goodRun = 1 from second]; decide)
        exact (s.updReceiver_updReceiver n _ _).trans (State.updReceiver_to counted)
      · rw [if_neg second]
        exact exec_trunkFramed_rests fun h => second h.2.2
  · have finds : s.findsBursts n = true := State.findsBursts_iff.mpr ⟨listens, by rw [framed]; decide⟩
    have still : (s.afterWholeBurst n).inputs[n].receiver.state = .framed := by rw [whole]; exact framed
    have bad : (s.afterWholeBurst n).inputs[n].receiver.badRun = r.badRun := by rw [whole]; rfl
    refine ⟨exec_trunkFramed_rests fun ⟨_, hunts, _⟩ => ?_, fun early => ⟨?_, exec_trunkUnframed_rests fun h => ?_⟩, fun late => ?_⟩
    · have := (State.hunting_iff.mp hunts).symm.trans framed
      cases this
    · rw [exec_badBurst_finds finds, State.badBurst_early still (bad ▸ early), whole, State.afterWholeBurst_updReceiver]
      rfl
    · have : r.badRun = 3 := h.2.2
      omega
    · have fourth : (s.afterWholeBurst n).badBurst n = (s.updReceiver n fun _ => r.ended.enter .hunt).trunkUnframed n := by
        rw [State.badBurst_late still (bad ▸ late), whole, State.afterWholeBurst_updReceiver]
      have put : ((s.updReceiver n fun _ => r.ended.enter .hunt).trunkUnframed n).inputs[n].receiver = r.ended.enter .hunt := by
        rw [State.trunkUnframed_inputs, State.receiver_updReceiver]
      refine ⟨_, (exec_badBurst_finds finds).trans (congrArg Host.Outcome.next fourth), put, ?_, fun f => ?_, fun three => ?_⟩
      · rw [put]
        rfl
      · exact State.trunkUnframed_feeds _ n f
      · have row : (s.listens n && s.framed n && decide (s.inputs[n].receiver.badRun = 3)) = true := by
          rw [listens, State.framed_iff.mpr framed, decide_eq_true three]; rfl
        exact congrArg Host.Outcome.next ((if_pos row).trans fourth)

end Sys2Proof.Machine
end

