-- ==== Sys2Proof/Proofs/Symbols.lean ====
section
/-! SUPPORT. Symbols of the line, outside and inside a burst (R150, R154). -/

namespace Sys2Proof.Machine

theorem Receiver.wake_down {r : Receiver} (h : r.state = .down) : r.wake = { r with silence := 0 }.enter .hunt := if_pos h

theorem Receiver.wake_up {r : Receiver} (h : r.state ≠ .down) : r.wake = { r with silence := 0 } := if_neg h

section Receive

variable {s : State} {n : Fin 4}

theorem exec_symbolReceived_listens (h : s.listens n = true) (symbol : LineSymbol) :
    exec (.symbolReceived n symbol) s = .next (s.receive n symbol) :=
  congrArg Host.Outcome.next (if_pos h)

/-- Outside a burst OPEN begins one, and any other symbol is passed over. -/
theorem State.receive_outside (h : s.inputs[n].receiver.wake.assembly = none) (symbol : LineSymbol) :
    s.receive n symbol = s.updReceiver n fun _ =>
      { s.inputs[n].receiver.wake with assembly := if symbol = .openBurst then some [] else none } := by
  unfold State.receive
  dsimp only
  rw [State.receiver_updReceiver, h]
  dsimp only
  split
  · exact (s.updReceiver_updReceiver n _ _).trans (State.updReceiver_to rfl)
  · exact State.updReceiver_to (by rw [← h])

/-- Inside a burst a symbol acts on the octets collected. -/
theorem State.receive_inside (up : s.inputs[n].receiver.state ≠ .down) {octets : List Byte}
    (inside : s.inputs[n].receiver.assembly = some octets) (symbol : LineSymbol) :
    s.receive n symbol = (s.updReceiver n fun _ => { s.inputs[n].receiver with silence := 0 }).symbolInside n octets symbol := by
  unfold State.receive
  dsimp only
  rw [State.updReceiver_to (Receiver.wake_up up), State.receiver_updReceiver, show ({ s.inputs[n].receiver with silence := 0 } : Receiver).assembly = some octets from inside]

/-- The octets of a burst dropped: the receiver stands as after a whole burst. -/
theorem State.setAssembly_none (s : State) (n : Fin 4) :
    (s.updReceiver n fun _ => { s.inputs[n].receiver with silence := 0 }).setAssembly n none = s.afterWholeBurst n :=
  (s.updReceiver_updReceiver n _ _).trans (s.afterWholeBurst_eq n).symm

theorem exec_burst_good {b : Burst} (finds : s.findsBursts n = true) (good : burstGood b = true) :
    s.burstArrives n b = (s.afterWholeBurst n).goodBurst n b := by
  rw [State.burstArrives, if_pos finds, if_pos good]

end Receive

/-- What CLOSE judges good meets the structural points of its kind (R151). -/
theorem judgeBurst_good {octets : List Byte} {b : Burst} (h : judgeBurst octets = some b) : burstGood b = true := by
  unfold judgeBurst at h
  dsimp only at h
  split at h
  · cases h
  · split at h
    · cases h
    · split at h
      · cases h
      · split at h
        · split at h
          · rename_i good
            cases h
            exact good
          · cases h
        · cases h

/-- Settles O25: a symbol outside a burst, and then inside one, symbol by symbol. -/
theorem symbolsAssembleBursts : Obligations.SymbolsAssembleBursts := by
  intro s n symbol r
  refine ⟨fun deaf => congrArg Host.Outcome.next (if_neg (State.not_listens deaf)), fun enabled line => ?_⟩
  have listens : s.listens n = true := State.listens_iff.mpr ⟨enabled, line⟩
  have received (x : LineSymbol) : exec (.symbolReceived n x) s = .next (s.receive n x) := exec_symbolReceived_listens listens x
  refine ⟨fun down => ?_, fun up outside => ?_, fun up octets inside => ?_⟩
  · have woken : r.wake = { r with silence := 0 }.enter .hunt := Receiver.wake_down down
    rw [received, State.receive_outside (by rw [woken]; rfl), woken]
    rfl
  · have woken : r.wake = { r with silence := 0 } := Receiver.wake_up up
    rw [received, State.receive_outside (by rw [woken]; exact outside), woken]
  have finds : s.findsBursts n = true := State.findsBursts_iff.mpr ⟨listens, up⟩
  have bad : exec (.badBurst n) s = .next ((s.afterWholeBurst n).badBurst n) := exec_badBurst_finds finds
  have taken (x : LineSymbol) : exec (.symbolReceived n x) s =
      .next ((s.updReceiver n fun _ => { r with silence := 0 }).symbolInside n octets x) :=
    (received x).trans (congrArg Host.Outcome.next (State.receive_inside up inside x))
  have dropped : (s.updReceiver n fun _ => { r with silence := 0 }).setAssembly n none = s.afterWholeBurst n := s.setAssembly_none n
  have closed {b : Burst} (judged : judgeBurst octets.reverse = some b) :
      exec (.symbolReceived n .closeBurst) s = .next (s.burstArrives n b) := by
    rw [taken, State.symbolInside]
    rw [judged, exec_burst_good finds (judgeBurst_good judged)]
    dsimp only
    rw [dropped]
  refine ⟨?_, fun b room => ?_, fun b full => ?_, ?_, ⟨_, bad, ?_⟩, fun judged => ?_, fun b => closed, fun b => closed, fun b => closed⟩
  · rw [taken, State.symbolInside]
    exact congrArg Host.Outcome.next (dropped.trans (s.afterWholeBurst_eq n))
  · rw [taken, State.symbolInside]
    exact congrArg Host.Outcome.next ((if_neg (Nat.not_le.mpr room)).trans (s.updReceiver_updReceiver n _ _))
  · rw [taken, State.symbolInside, bad]
    exact congrArg Host.Outcome.next ((if_pos full).trans (congrArg (State.badBurst · n) dropped))
  · rw [taken, State.symbolInside, bad]
    exact congrArg Host.Outcome.next (congrArg (State.badBurst · n) dropped)
  · rw [taken, State.symbolInside]
    exact congrArg (fun t : State => Host.Outcome.next ((t.badBurst n).setAssembly n (some []))) dropped
  · rw [taken, State.symbolInside]
    rw [judged, bad]
    dsimp only
    rw [dropped]

end Sys2Proof.Machine
end

