-- ==== Sys2Proof/Proofs/HouseFrame.lean ====
section
/-! SUPPORT. The parts of a house frame (R62): what stands before the delay lines run, and what the delay lines make of each programme. -/

namespace Sys2Proof.Machine

/-! ### The parts -/

/-- The part after the takes and the gain latch of a house frame (R32, R112). -/
def State.latched (s : State) : State := { s with time := s.time.frame }.fireTakes.latchGains

/-- The output frames of the feeds at a house frame (R17, R19). -/
def State.feedOutputs (s : State) : Vector FeedOutput 8 := mapAll (fun _ c => c.output) s.latched.conversions

/-- The part before the delay lines run: feeds converted, age samples delivered (R17 to R21, R70). -/
def State.converted (s : State) : State := s.latched.convertFeeds

/-- The part after the delay lines of a house frame (R55, R56). -/
def State.ran (s : State) (order : List (Fin 16)) : State := s.converted.runProgrammes s.feedOutputs order

/-- The part before the trunk receivers' share of a house frame (R116). -/
def State.assembled (s : State) (order : List (Fin 16)) : State := (s.ran order).assembleOutputs

theorem State.frame_eq (s : State) (order : List (Fin 16)) :
    s.frame order =
      { (s.assembled order).idleFill.tickReceivers with time := (s.assembled order).idleFill.tickReceivers.time.oscillate } := rfl

theorem State.frame_received (s : State) (order : List (Fin 16)) : (s.assembled order).Received (s.assembled order).idleFill.tickReceivers :=
  (State.Received.idleFill _).trans (State.Received.tickReceivers _)

theorem State.frame_programmes (s : State) (order : List (Fin 16)) : (s.frame order).programmes = (s.ran order).programmes := by
  rw [State.frame_eq, s.frame_received order]
  rfl

theorem State.frame_store (s : State) (order : List (Fin 16)) : (s.frame order).store = (s.ran order).store := by
  rw [State.frame_eq, s.frame_received order]
  rfl

theorem State.frame_outputs (s : State) (order : List (Fin 16)) : (s.frame order).outputs = (s.assembled order).outputs := by
  rw [State.frame_eq, s.frame_received order]

theorem State.frame_inputs (s : State) (order : List (Fin 16)) :
    (s.frame order).inputs = (s.assembled order).idleFill.tickReceivers.inputs := by
  rw [State.frame_eq]

theorem State.frame_feeds (s : State) (order : List (Fin 16)) :
    (s.frame order).feeds = (s.assembled order).idleFill.tickReceivers.feeds := by
  rw [State.frame_eq]

/-! ### Takes and the gain latch (R32, R33, R112) -/

theorem Programme.fire_running {p : Programme} (h : p.store.state = .running) (t : TakeRecord) :
    p.fire t =
      { p with
        slots := p.slots.set (slotOf (p.eIn + 1)) t.layout, marks := p.marks.set (slotOf (p.eIn + 1)) t.restart, eIn := p.eIn + 1
        take := none } :=
  if_pos (p.running_iff.mpr h)

theorem Programme.fire_resting {p : Programme} (h : p.store.state ≠ .running) (t : TakeRecord) :
    p.fire t = { p with slots := p.slots.set (slotOf p.eIn) t.layout, marks := p.marks.set (slotOf p.eIn) false, take := none } :=
  if_neg (mt p.running_iff.mp h)

theorem Programme.fireDue_none {p : Programme} (h : p.take = none) (now : Word32) : p.fireDue now = p := by
  rw [Programme.fireDue, h]

theorem Programme.fireDue_some {p : Programme} {t : TakeRecord} (h : p.take = some t) (now : Word32) :
    p.fireDue now = if t.due now = true then p.fire t else p := by
  rw [Programme.fireDue, h]

/-- A take that fires moves the layouts, the restart marks, e_in and the take alone. -/
theorem Programme.fireDue_eq (p : Programme) (now : Word32) :
    p.fireDue now = { p with
      slots := (p.fireDue now).slots, marks := (p.fireDue now).marks, eIn := (p.fireDue now).eIn, take := (p.fireDue now).take } := by
  unfold Programme.fireDue Programme.fire
  dsimp only
  repeat' split
  all_goals rfl

/-- The gain index that a programme's assembler holds after the latch of a house frame (R112). -/
def Timebase.latch (t : Timebase) (r : RiderContext) : Nat := if t.nextFrame.toNat % 48 = 0 then r.gain else r.latched

theorem State.fireTakes_programme (s : State) (p : Fin 16) : s.fireTakes.programmes[p] = s.programmes[p].fireDue s.time.houseTime := by
  simp only [State.fireTakes, Fin.getElem_fin, mapAll_getElem]

theorem State.latchGains_programme (s : State) (p : Fin 16) :
    s.latchGains.programmes[p] =
      { s.programmes[p] with rider := { s.programmes[p].rider with
        latched := if s.time.frameCounter.toNat % 48 = 0 then s.programmes[p].rider.gain else s.programmes[p].rider.latched } } := by
  unfold State.latchGains
  split
  · simp only [Fin.getElem_fin, mapAll_getElem]
  · rfl

theorem State.latched_programme (s : State) (p : Fin 16) :
    s.latched.programmes[p] =
      { s.programmes[p].fireDue s.time.nextTime with
        rider := { s.programmes[p].rider with latched := s.time.latch s.programmes[p].rider } } := by
  have rider : (s.programmes[p].fireDue s.time.nextTime).rider = s.programmes[p].rider := by rw [Programme.fireDue_eq]
  have time : ({ s with time := s.time.frame } : State).fireTakes.time = s.time.frame := State.fireTakes_time _
  have fired : ({ s with time := s.time.frame } : State).fireTakes.programmes[p] = s.programmes[p].fireDue s.time.nextTime :=
    State.fireTakes_programme _ p
  rw [State.latched, State.latchGains_programme, fired, rider, time]
  rfl

/-- Nothing but the time and the programmes has moved before the feeds convert. -/
theorem State.latched_eq (s : State) : s.latched = { s with time := s.time.frame, programmes := s.latched.programmes } := by
  unfold State.latched State.latchGains
  split <;> rfl

/-! ### Feeds at a house frame (R17 to R21) -/

theorem FeedContext.converting_iff {c : FeedContext} :
    c.converting = true ↔ c.state = .acquiring ∨ c.state = .locked ∨ (c.state = .holdover ∧ c.started = true) := by
  unfold FeedContext.converting
  cases c.state <;> simp

theorem Feed.yields_eq (x : Feed) : x.yields = (x.context.converting && !x.context.starved) := by
  unfold Feed.yields FeedContext.starved
  dsimp only
  rw [Bool.not_not]
  exact congrArg (· && _) (Bool.eq_iff_iff.mpr (decide_eq_true_iff.trans x.context.converting_iff.symm))

theorem Feed.convert_resting {x : Feed} (h : ¬ x.context.converting = true) (t : Tables) (now : Word32) :
    x.convert t now = { context := x.context, output := FeedOutput.silent x.record.channels, ages := [] } := if_neg h

theorem Feed.convert_starved {x : Feed} (h : x.context.converting = true) (starved : x.context.starved = true) (t : Tables) (now : Word32) :
    x.convert t now =
      { context := { x.context with starve := true }, output := FeedOutput.silent x.record.channels, ages := [] } :=
  (if_pos h).trans (if_pos starved)

theorem Feed.convert_yields {x : Feed} (h : x.yields = true) (t : Tables) (now : Word32) :
    x.convert t now =
      { context := x.context.advance, output := interpolate t x.record x.context, ages := x.ages t now } := by
  have both := h
  rw [Feed.yields_eq, Bool.and_eq_true, Bool.not_eq_true'] at both
  refine (if_pos both.1).trans ((if_neg (by rw [both.2]; exact Bool.false_ne_true)).trans ?_)
  unfold Feed.ages
  dsimp only
  rw [if_pos h]
  rfl

theorem Feed.yields_iff {x : Feed} : x.yields = true ↔ x.context.converting = true ∧ ¬ x.context.starved = true := by
  rw [Feed.yields_eq, Bool.and_eq_true, Bool.not_eq_true', Bool.not_eq_true]

/-- The age samples that a feed's conversion delivers (R21). -/
theorem Feed.convert_ages (x : Feed) (t : Tables) (now : Word32) : (x.convert t now).ages = x.ages t now := by
  by_cases yields : x.yields = true
  · rw [Feed.convert_yields yields]
  · have none : x.ages t now = [] := if_neg yields
    rw [none]
    by_cases converts : x.context.converting = true
    · rw [Feed.convert_starved converts (by by_contra h; exact yields (Feed.yields_iff.mpr ⟨converts, h⟩))]
    · rw [Feed.convert_resting converts]

/-- A house frame leaves the feed state of every feed but through its trunk. -/
theorem Feed.convert_state (x : Feed) (t : Tables) (now : Word32) : (x.convert t now).context.state = x.context.state := by
  unfold Feed.convert
  dsimp only
  repeat' split
  all_goals rfl

theorem State.latched_tables (s : State) : s.latched.tables = s.tables := by rw [State.latched_eq]

theorem State.conversions_latched (s : State) (f : Fin 8) :
    s.latched.conversions[f] = s.feeds[f].convert s.tables s.time.nextTime := by
  rw [State.latched_eq]
  simp only [State.conversions, Fin.getElem_fin, mapAll_getElem]
  rfl

theorem State.converted_feed (s : State) (f : Fin 8) :
    s.converted.feeds[f] = { s.feeds[f] with context := (s.feeds[f].convert s.tables s.time.nextTime).context } := by
  have conversion := s.conversions_latched f
  have feed : s.latched.feeds[f] = s.feeds[f] := by rw [State.latched_eq]
  rw [← conversion, ← feed]
  simp only [State.converted, State.convertFeeds, Fin.getElem_fin, mapAll_getElem]

/-! ### Age samples (R70 to R72) -/

/-- An age sample moves the alignment context alone. -/
theorem Programme.ageSample_eq (p : Programme) (a : AlignContext) (age : Int) :
    ({ p with align := a } : Programme).ageSample age = { p with align := p.afterAge a age } := by
  unfold Programme.ageSample Programme.wantedFlags Programme.candidate AlignContext.judge AlignContext.order AlignContext.committed
    Programme.afterAge StoreContext.ringLength
  dsimp only
  have clamp : (clampInt 0 (((128 * p.store.pages.length : Nat) : Int) - 1) (p.timing.offset - age)).toNat =
      (max 0 (min (128 * (p.store.pages.length : Int) - 1) (p.timing.offset - age))).toNat := by
    unfold clampInt
    repeat' split
    all_goals omega
  rw [clamp]
  generalize (max 0 (min (128 * (p.store.pages.length : Int) - 1) (p.timing.offset - age))).toNat = target
  cases aligned : a.aligned with
  | false => simp
  | true =>
    by_cases near : ((target : Int) - (a.pending.getD a.delay)).natAbs ≤ p.timing.tolerance
    · simp [near]
    · by_cases third : a.misses < 2
      · simp [near, third]
      · simp [near, third, Nat.not_lt.mp third]

theorem Programme.ageSamples_eq (p : Programme) (ages : List Int) (a : AlignContext) :
    ages.foldl Programme.ageSample { p with align := a } = { p with align := ages.foldl p.afterAge a } := by
  induction ages generalizing a with
  | nil => rfl
  | cons age ages ih => rw [List.foldl_cons, Programme.ageSample_eq, ih, List.foldl_cons]

theorem Programme.receivesAges_iff {p : Programme} {f : Fin 8} :
    p.receivesAges f = true ↔ (p.store.state = .running ∧ p.timing.mode = .tracked) ∧ p.timing.feed = f := by
  rw [Programme.receivesAges, Bool.and_eq_true, Bool.and_eq_true, beq_iff_eq, beq_iff_eq, p.running_iff]
  tauto

/-- The alignment context after the age samples `g` of the feeds at a house frame (R70). -/
def Programme.alignAfter (p : Programme) (g : Fin 8 → List Int) : AlignContext :=
  if p.store.state = .running ∧ p.timing.mode = .tracked then (g p.timing.feed).foldl p.afterAge p.align else p.align

theorem Programme.alignAfter_congr {p q : Programme} (store : p.store = q.store) (timing : p.timing = q.timing) (align : p.align = q.align)
    (g : Fin 8 → List Int) : p.alignAfter g = q.alignAfter g := by
  have ages : p.afterAge = q.afterAge := by
    funext a age
    unfold Programme.afterAge
    rw [store, timing]
  unfold Programme.alignAfter
  rw [store, timing, align, ages]

/-- Of the feeds whose age samples are delivered, its timing feed alone moves a programme. -/
theorem Programme.takeAges_foldl (p : Programme) (g : Fin 8 → List Int) (fs : List (Fin 8)) (once : fs.Nodup) :
    fs.foldl (fun q f => q.takeAges f (g f)) p = if p.timing.feed ∈ fs then { p with align := p.alignAfter g } else p := by
  induction fs generalizing p with
  | nil => rfl
  | cons f fs ih =>
    obtain ⟨fresh, rest⟩ := List.nodup_cons.mp once
    rw [List.foldl_cons]
    by_cases own : p.timing.feed = f
    · have taken : p.takeAges f (g f) = { p with align := p.alignAfter g } := by
        unfold Programme.takeAges Programme.alignAfter
        by_cases tracks : p.store.state = .running ∧ p.timing.mode = .tracked
        · rw [if_pos (Programme.receivesAges_iff.mpr ⟨tracks, own⟩), if_pos tracks, own]
          exact p.ageSamples_eq (g f) p.align
        · rw [if_neg fun h => tracks (Programme.receivesAges_iff.mp h).1, if_neg tracks]
      rw [taken, ih _ rest, if_pos (own.symm ▸ List.mem_cons_self : p.timing.feed ∈ f :: fs)]
      exact if_neg (own ▸ fresh)
    · have passed : p.takeAges f (g f) = p := if_neg fun h => own (Programme.receivesAges_iff.mp h).2
      rw [passed, ih _ rest]
      exact if_congr ⟨List.mem_cons_of_mem _, fun h => (List.mem_cons.mp h).resolve_left own⟩ rfl rfl

/-- The age samples that feed `f` gives at the coming house frame. -/
def State.agesOf (s : State) (f : Fin 8) : List Int := s.feeds[f].ages s.tables s.time.nextTime

/-- A programme as its delay line finds it at a house frame: takes, latch and age samples done. -/
def State.readied (s : State) (p : Fin 16) : Programme :=
  { s.programmes[p].fireDue s.time.nextTime with
    rider := { s.programmes[p].rider with latched := s.time.latch s.programmes[p].rider }
    align := s.programmes[p].alignAfter s.agesOf }

theorem State.converted_programme (s : State) (p : Fin 16) : s.converted.programmes[p] = s.readied p := by
  have folded : s.converted.programmes[p] =
      (List.finRange 8).foldl (fun q f => q.takeAges f (s.agesOf f)) s.latched.programmes[p] := by
    have same (f : Fin 8) : s.latched.conversions[f].ages = s.agesOf f := by
      rw [State.conversions_latched, Feed.convert_ages]
      rfl
    simp only [State.converted, State.convertFeeds, Fin.getElem_fin, mapAll_getElem]
    exact congrArg (fun g : Fin 8 → List Int => (List.finRange 8).foldl (fun q f => q.takeAges f (g f)) s.latched.programmes[p]) (funext same)
  have fired := s.programmes[p].fireDue_eq s.time.nextTime
  rw [folded, Programme.takeAges_foldl _ _ _ (List.nodup_finRange 8), if_pos (List.mem_finRange _), State.latched_programme]
  exact congrArg
    (fun a : AlignContext => ({ s.programmes[p].fireDue s.time.nextTime with
      rider := { s.programmes[p].rider with latched := s.time.latch s.programmes[p].rider }, align := a } : Programme))
    (Programme.alignAfter_congr (by rw [fired]) (by rw [fired]) (by rw [fired]) _)

end Sys2Proof.Machine
end

