-- ==== Sys2Proof/Proofs/DelayLines.lean ====
section
/-! SUPPORT. The delay lines of a house frame run one after another (R55 to R59): what each fetches, what it writes, and the faults found. -/

namespace Sys2Proof.Machine

/-! ### Places in the store -/

theorem StoreContext.place_mem {c : StoreContext} {slot : Nat} {page : Page} {k : Nat} (h : c.place slot = some (page, k)) :
    page ∈ c.pages ∧ k < 128 := by
  simp only [StoreContext.place, Option.map_eq_some_iff, Prod.mk.injEq] at h
  obtain ⟨n, found, rfl, rfl⟩ := h
  exact ⟨List.mem_of_getElem? found, Nat.mod_lt _ (by decide)⟩

theorem frameOctets_length (words : List DelayWord) : (words.flatMap fun x => wordOctets (packWord x)).length = words.length * 4 :=
  length_flatMap_const (fun _ => wordOctets_length _) words

theorem readFrame_writeFrame_same (m : List Host.Cell) (page : Page) (k : Nat) {words : List DelayWord} (eight : words.length = 8) :
    readFrame (writeFrame m page k words) page k = words.map packWord := by
  have all : readRun (writeFrame m page k words) (frameAddress page k) 32 = words.flatMap fun x => wordOctets (packWord x) := by
    have h := readRun_writeRun_same m (frameAddress page k) (words.flatMap fun x => wordOctets (packWord x))
    rw [frameOctets_length, eight] at h
    exact h
  have octets : (words.flatMap fun x => wordOctets (packWord x)) = (words.map packWord).flatMap wordOctets := by
    rw [List.flatMap_map]
  rw [readFrame, all, octets, octetWords_flatMap]

theorem readFrame_writeFrame_other (m : List Host.Cell) {page n : Page} {k j : Nat} (inPage : k < 128) (inOther : j < 128)
    {words : List DelayWord} (eight : words.length = 8) (other : n ≠ page) :
    readFrame (writeFrame m page k words) n j = readFrame m n j := by
  have apart : n.val ≠ page.val := fun same => other (Fin.ext same)
  exact congrArg octetWords (readRun_writeRun_apart _ _ _ _ _ (by rw [frameOctets_length, eight, frameAddress, frameAddress]; omega))

theorem readOctet_writeFrame (m : List Host.Cell) {page : Page} {k a : Nat} {words : List DelayWord} (eight : words.length = 8)
    (outside : ¬ (frameAddress page k ≤ a ∧ a < frameAddress page k + 32)) :
    readOctet (writeFrame m page k words) a = readOctet m a :=
  readOctet_writeRun_outside _ _ _ _ (by rw [frameOctets_length, eight]; omega)

/-! ### One delay line -/

theorem Programme.passFrame_store (p : Programme) (t : Tables) (threshold : Nat) (words : List Word32) :
    (p.passFrame t threshold words).store.pages = p.store.pages ∧ (p.passFrame t threshold words).store.state = p.store.state := by
  unfold Programme.passFrame Programme.judgeEpoch
  dsimp only
  split <;> exact ⟨rfl, rfl⟩

/-- The delay line of programme `p` at a house frame of house time `now`. -/
theorem DelayStore.serve_memory (d : DelayStore) (i : Fin 16) (now : Word32) (outputs : Vector FeedOutput 8) (p : Programme) :
    (d.serve i now outputs p).memory =
      match p.store.place p.store.write with
      | some (page, k) => writeFrame d.memory page k (p.formFrame outputs)
      | none => d.memory := by
  have same := d.foldl_fault1_memory (frameFaults i now (p.store.place p.fetchSlot) (d.readSlot p.store p.fetchSlot))
  unfold DelayStore.serve DelayStore.writeSlot
  dsimp only
  cases p.store.place p.store.write with
  | none => exact same
  | some at_ => exact congrArg (fun m => writeFrame m at_.1 at_.2 (p.formFrame outputs)) same

section Line

variable {outputs : Vector FeedOutput 8} {s : State} {i : Fin 16}

theorem State.runProgramme_rests (h : ¬ s.programmes[i].running = true) : s.runProgramme outputs i = s := if_neg h

/-- The words that programme `p` fetches as the state stands (R56). -/
def State.fetched (s : State) (p : Fin 16) : List Word32 := s.store.readSlot s.programmes[p].store s.programmes[p].fetchSlot

theorem State.runProgramme_runs (h : s.programmes[i].running = true) :
    s.runProgramme outputs i =
      { s with store := s.store.serve i s.time.houseTime outputs s.programmes[i] }.updProgramme i
        (Programme.passFrame s.tables s.phaseThreshold (s.fetched i)) := if_pos h

/-- A delay line moves the programmes and the store alone. -/
theorem State.runProgramme_eq (outputs : Vector FeedOutput 8) (s : State) (i : Fin 16) :
    s.runProgramme outputs i = { s with
      programmes := (s.runProgramme outputs i).programmes, store := (s.runProgramme outputs i).store } := by
  by_cases run : s.programmes[i].running = true
  · rw [State.runProgramme_runs run]
    rfl
  · rw [State.runProgramme_rests run]

theorem State.runProgramme_own (outputs : Vector FeedOutput 8) (s : State) (i : Fin 16) :
    (s.runProgramme outputs i).programmes[i] =
      if s.programmes[i].running = true then s.programmes[i].passFrame s.tables s.phaseThreshold (s.fetched i) else s.programmes[i] := by
  by_cases run : s.programmes[i].running = true
  · rw [State.runProgramme_runs run, if_pos run]
    exact updAt_same ..
  · rw [State.runProgramme_rests run, if_neg run]

theorem State.runProgramme_other (outputs : Vector FeedOutput 8) (s : State) {i p : Fin 16} (other : p ≠ i) :
    (s.runProgramme outputs i).programmes[p] = s.programmes[p] := by
  by_cases run : s.programmes[i].running = true
  · rw [State.runProgramme_runs run]
    exact updAt_other _ _ _ _ other.symm
  · rw [State.runProgramme_rests run]

/-- A delay line leaves every frame of a page that its programme does not own. -/
theorem State.runProgramme_frame {n : Page} {j : Nat} (inPage : j < 128) (other : n ∉ s.programmes[i].store.pages) :
    readFrame (s.runProgramme outputs i).store.memory n j = readFrame s.store.memory n j := by
  by_cases run : s.programmes[i].running = true
  · rw [State.runProgramme_runs run]
    change readFrame (s.store.serve i s.time.houseTime outputs s.programmes[i]).memory n j = _
    rw [DelayStore.serve_memory]
    cases place : s.programmes[i].store.place s.programmes[i].store.write with
    | none => rfl
    | some at_ =>
      obtain ⟨page, k⟩ := at_
      obtain ⟨owned, within_⟩ := StoreContext.place_mem place
      exact readFrame_writeFrame_other _ within_ inPage (Programme.formFrame_length ..) fun same => other (same ▸ owned)
  · rw [State.runProgramme_rests run]

/-- Outside the slot that it writes a delay line leaves every octet. -/
theorem State.runProgramme_octet {a : Nat}
    (outside : s.programmes[i].running = true → ¬ s.programmes[i].store.slotCovers s.programmes[i].store.write a) :
    readOctet (s.runProgramme outputs i).store.memory a = readOctet s.store.memory a := by
  by_cases run : s.programmes[i].running = true
  · rw [State.runProgramme_runs run]
    change readOctet (s.store.serve i s.time.houseTime outputs s.programmes[i]).memory a = _
    rw [DelayStore.serve_memory]
    cases place : s.programmes[i].store.place s.programmes[i].store.write with
    | none => rfl
    | some at_ =>
      obtain ⟨page, k⟩ := at_
      exact readOctet_writeFrame _ (Programme.formFrame_length ..) fun inside => outside run ⟨page, k, place, inside⟩
  · rw [State.runProgramme_rests run]

theorem State.runProgramme_writes (run : s.programmes[i].running = true) {page : Page} {k : Nat}
    (place : s.programmes[i].store.place s.programmes[i].store.write = some (page, k)) :
    readFrame (s.runProgramme outputs i).store.memory page k = (s.programmes[i].formFrame outputs).map packWord := by
  rw [State.runProgramme_runs run]
  change readFrame (s.store.serve i s.time.houseTime outputs s.programmes[i]).memory page k = _
  rw [DelayStore.serve_memory, place]
  exact readFrame_writeFrame_same _ _ _ (Programme.formFrame_length ..)

end Line

/-! ### The delay lines one after another -/

/-- No page is owned by two programmes. -/
def State.PagesApart (s : State) : Prop :=
  ∀ (p q : Fin 16) (n : Page), n ∈ s.programmes[p].store.pages → n ∈ s.programmes[q].store.pages → p = q

theorem State.PageLaw.apart {s : State} (law : s.PageLaw) : s.PagesApart := (s.pageLaw_iff.mp law).oneOwner

theorem State.PagesApart.of_pages {s t : State} (h : s.PagesApart)
    (same : ∀ p : Fin 16, t.programmes[p].store.pages = s.programmes[p].store.pages) : t.PagesApart :=
  fun p q n inP inQ => h p q n (same p ▸ inP) (same q ▸ inQ)

section Lines

variable {outputs : Vector FeedOutput 8}

theorem State.runProgramme_pages (s : State) (i p : Fin 16) :
    (s.runProgramme outputs i).programmes[p].store.pages = s.programmes[p].store.pages := by
  by_cases own : p = i
  · rw [own, State.runProgramme_own]
    split
    · exact (Programme.passFrame_store ..).1
    · rfl
  · rw [State.runProgramme_other _ _ own]

theorem State.runProgramme_apart {s : State} (h : s.PagesApart) (i : Fin 16) : (s.runProgramme outputs i).PagesApart :=
  h.of_pages (s.runProgramme_pages i)

/-- Another programme's delay line leaves what programme `p` fetches. -/
theorem State.runProgramme_fetched {s : State} (h : s.PagesApart) {i p : Fin 16} (other : p ≠ i) :
    (s.runProgramme outputs i).fetched p = s.fetched p := by
  unfold State.fetched DelayStore.readSlot
  rw [State.runProgramme_other _ _ other]
  cases place : s.programmes[p].store.place s.programmes[p].fetchSlot with
  | none => rfl
  | some at_ =>
    obtain ⟨page, k⟩ := at_
    obtain ⟨owned, within_⟩ := StoreContext.place_mem place
    exact State.runProgramme_frame within_ fun mine => other (h p i page owned mine)

theorem State.runFold_eq (ps : List (Fin 16)) (s : State) :
    ps.foldl (State.runProgramme outputs) s = { s with
      programmes := (ps.foldl (State.runProgramme outputs) s).programmes, store := (ps.foldl (State.runProgramme outputs) s).store } := by
  induction ps generalizing s with
  | nil => rfl
  | cons i ps ih =>
    have step := s.runProgramme_eq outputs i
    rw [List.foldl_cons]
    generalize s.runProgramme outputs i = t at step
    rw [ih t, step]

theorem State.runFold_other {ps : List (Fin 16)} {s : State} {p : Fin 16} (other : p ∉ ps) :
    (ps.foldl (State.runProgramme outputs) s).programmes[p] = s.programmes[p] := by
  induction ps generalizing s with
  | nil => rfl
  | cons i ps ih =>
    obtain ⟨ne, rest⟩ := not_or.mp (mt List.mem_cons.mpr other)
    exact (ih rest).trans (State.runProgramme_other _ _ ne)

theorem State.runProgramme_tables (s : State) (i : Fin 16) : (s.runProgramme outputs i).tables = s.tables := by
  rw [State.runProgramme_eq]

theorem State.runProgramme_alarms (s : State) (i : Fin 16) : (s.runProgramme outputs i).alarms = s.alarms := by
  rw [State.runProgramme_eq]

theorem State.runProgramme_time (s : State) (i : Fin 16) : (s.runProgramme outputs i).time = s.time := by
  rw [State.runProgramme_eq]

/-- What the delay lines make of each programme: a RUNNING one passes the frame that it fetched at its turn. While no page has two owners that
is the frame that stood before the first of them ran. -/
theorem State.runFold_programmes (ps : List (Fin 16)) (once : ps.Nodup) (s : State) :
    ∃ words : Fin 16 → List Word32,
      (∀ p ∈ ps, (ps.foldl (State.runProgramme outputs) s).programmes[p] =
        if s.programmes[p].running = true then s.programmes[p].passFrame s.tables s.phaseThreshold (words p) else s.programmes[p]) ∧
      (s.PagesApart → ∀ p ∈ ps, words p = s.fetched p) := by
  induction ps generalizing s with
  | nil => exact ⟨fun _ => [], nofun, fun _ => nofun⟩
  | cons i ps ih =>
    obtain ⟨fresh, rest⟩ := List.nodup_cons.mp once
    obtain ⟨words, passed, read⟩ := ih rest (s.runProgramme outputs i)
    refine ⟨Function.update words i (s.fetched i), fun p mem => ?_, fun apart p mem => ?_⟩
    · rw [List.foldl_cons]
      by_cases own : p = i
      · rw [own, Function.update_self, State.runFold_other fresh, State.runProgramme_own]
      · rw [Function.update_of_ne own, passed p ((List.mem_cons.mp mem).resolve_left own), State.runProgramme_other _ _ own,
          State.runProgramme_tables, State.phaseThreshold, State.runProgramme_alarms]
        rfl
    · by_cases own : p = i
      · rw [own, Function.update_self]
      · rw [Function.update_of_ne own, read (State.runProgramme_apart apart i) p ((List.mem_cons.mp mem).resolve_left own),
          State.runProgramme_fetched apart own]

/-- The delay lines leave every frame of a page that none of their programmes owns. -/
theorem State.runFold_frame {ps : List (Fin 16)} {s : State} {n : Page} {j : Nat} (inPage : j < 128)
    (other : ∀ q ∈ ps, n ∉ s.programmes[q].store.pages) :
    readFrame (ps.foldl (State.runProgramme outputs) s).store.memory n j = readFrame s.store.memory n j := by
  induction ps generalizing s with
  | nil => rfl
  | cons i ps ih =>
    refine (ih fun q mem => ?_).trans (State.runProgramme_frame inPage (other i List.mem_cons_self))
    rw [State.runProgramme_pages]
    exact other q (List.mem_cons_of_mem _ mem)

/-- Outside the slots that they write the delay lines leave every octet. -/
theorem State.runFold_octet {ps : List (Fin 16)} (once : ps.Nodup) {s : State} {a : Nat}
    (outside : ∀ p ∈ ps, s.programmes[p].running = true → ¬ s.programmes[p].store.slotCovers s.programmes[p].store.write a) :
    readOctet (ps.foldl (State.runProgramme outputs) s).store.memory a = readOctet s.store.memory a := by
  induction ps generalizing s with
  | nil => rfl
  | cons i ps ih =>
    obtain ⟨fresh, rest⟩ := List.nodup_cons.mp once
    refine (ih rest fun p mem => ?_).trans (State.runProgramme_octet (outside i List.mem_cons_self))
    have other : p ≠ i := fun own => fresh (own ▸ mem)
    rw [State.runProgramme_other outputs s other]
    exact outside p (List.mem_cons_of_mem _ mem)

/-- Each RUNNING programme leaves its delay frame in the slot of its write index (R55). -/
theorem State.runFold_writes {ps : List (Fin 16)} (once : ps.Nodup) {s : State} (apart : s.PagesApart) {p : Fin 16} (mem : p ∈ ps)
    (run : s.programmes[p].running = true) {page : Page} {k : Nat}
    (place : s.programmes[p].store.place s.programmes[p].store.write = some (page, k)) :
    readFrame (ps.foldl (State.runProgramme outputs) s).store.memory page k = (s.programmes[p].formFrame outputs).map packWord := by
  obtain ⟨owned, within_⟩ := StoreContext.place_mem place
  induction ps generalizing s with
  | nil => cases mem
  | cons i ps ih =>
    obtain ⟨fresh, rest⟩ := List.nodup_cons.mp once
    by_cases own : p = i
    · subst own
      rw [List.foldl_cons, State.runFold_frame within_ fun q later mine => ?_]
      · exact State.runProgramme_writes run place
      rw [State.runProgramme_pages] at mine
      have same : p = q := apart p q page owned mine
      exact fresh (same ▸ later)
    · have same := State.runProgramme_other outputs s own
      have h := ih rest (State.runProgramme_apart apart i) ((List.mem_cons.mp mem).resolve_left own) (by rw [same]; exact run)
        (by rw [same]; exact place) (by rw [same]; exact owned)
      rw [same] at h
      exact h

end Lines

/-! ### The delay lines of a house frame -/

theorem nodup_eraseDups {α : Type} [DecidableEq α] : ∀ as : List α, as.eraseDups.Nodup
  | [] => List.nodup_nil
  | a :: as => by
    rw [List.eraseDups_cons]
    refine List.nodup_cons.mpr ⟨fun again => ?_, nodup_eraseDups _⟩
    have kept := (List.mem_filter.mp (List.mem_eraseDups.mp again)).2
    simp at kept
termination_by as => as.length
decreasing_by exact Nat.lt_succ_of_le (List.length_filter_le _ _)

theorem programmeOrder_nodup (order : List (Fin 16)) : (programmeOrder order).Nodup := by
  refine List.nodup_append'.mpr ⟨nodup_eraseDups order, (List.nodup_finRange 16).filter _, fun p listed rest => ?_⟩
  have absent := (List.mem_filter.mp rest).2
  have present : p ∈ order := List.mem_eraseDups.mp listed
  simp [present] at absent

theorem mem_programmeOrder (order : List (Fin 16)) (p : Fin 16) : p ∈ programmeOrder order := by
  by_cases listed : p ∈ order
  · exact List.mem_append_left _ (List.mem_eraseDups.mpr listed)
  · exact List.mem_append_right _ (List.mem_filter.mpr ⟨List.mem_finRange p, by simpa using listed⟩)

theorem State.converted_eq (s : State) :
    s.converted = { s with time := s.time.frame, feeds := s.converted.feeds, programmes := s.converted.programmes } := by
  have before := s.latched_eq
  have same (t : State) : t.convertFeeds = { t with feeds := t.convertFeeds.feeds, programmes := t.convertFeeds.programmes } := rfl
  rw [State.converted, same s.latched]
  generalize s.latched.convertFeeds.feeds = feeds, s.latched.convertFeeds.programmes = programmes
  rw [before]

theorem Programme.ages_foldl_line (p : Programme) (ages : List Int) (a : AlignContext) :
    (ages.foldl p.afterAge a).delay = a.delay ∧ (ages.foldl p.afterAge a).muted = a.muted ∧
      (ages.foldl p.afterAge a).realigned = a.realigned := by
  induction ages generalizing a with
  | nil => exact ⟨rfl, rfl, rfl⟩
  | cons age ages ih => exact ih (p.afterAge a age)

/-- Age samples leave the applied delay, the mute and the REALIGNED mark. -/
theorem Programme.alignAfter_line (p : Programme) (g : Fin 8 → List Int) :
    (p.alignAfter g).delay = p.align.delay ∧ (p.alignAfter g).muted = p.align.muted ∧ (p.alignAfter g).realigned = p.align.realigned := by
  unfold Programme.alignAfter
  split
  · exact p.ages_foldl_line _ _
  · exact ⟨rfl, rfl, rfl⟩

theorem State.readied_store (s : State) (p : Fin 16) : (s.readied p).store = s.programmes[p].store := by
  rw [State.readied, Programme.fireDue_eq]

theorem State.readied_fetchSlot (s : State) (p : Fin 16) : (s.readied p).fetchSlot = s.programmes[p].fetchSlot := by
  have delay : (s.readied p).align.delay = s.programmes[p].align.delay := (Programme.alignAfter_line ..).1
  rw [Programme.fetchSlot, Programme.fetchSlot, s.readied_store p, delay]

theorem State.readied_running (s : State) (p : Fin 16) : (s.readied p).running = s.programmes[p].running := by
  rw [Programme.running, s.readied_store p]
  rfl

theorem State.converted_fetched (s : State) (p : Fin 16) : s.converted.fetched p = s.fetched p := by
  have store : s.converted.store = s.store := by rw [s.converted_eq]
  rw [State.fetched, State.fetched, store, State.converted_programme, s.readied_fetchSlot p, s.readied_store p]

theorem State.converted_apart {s : State} (h : s.PagesApart) : s.converted.PagesApart :=
  h.of_pages fun p => by rw [State.converted_programme, s.readied_store p]

/-- What a house frame leaves of each programme: a RUNNING one passes the frame fetched. Under the law of pages that is the frame that stood in
the store before the house frame. -/
theorem State.ran_programmes (s : State) (order : List (Fin 16)) :
    ∃ words : Fin 16 → List Word32,
      (∀ p : Fin 16, (s.ran order).programmes[p] =
        if s.programmes[p].running = true then (s.readied p).passFrame s.tables s.phaseThreshold (words p) else s.readied p) ∧
      (s.PageLaw → ∀ p, words p = s.fetched p) := by
  obtain ⟨words, passed, read⟩ := s.converted.runFold_programmes (outputs := s.feedOutputs) (programmeOrder order) (programmeOrder_nodup order)
  refine ⟨words, fun p => ?_, fun law p => ?_⟩
  · have tables : s.converted.tables = s.tables := by rw [s.converted_eq]
    have alarms : s.converted.alarms = s.alarms := by rw [s.converted_eq]
    have threshold : s.converted.phaseThreshold = s.phaseThreshold := by rw [State.phaseThreshold, alarms]; rfl
    have h := passed p (mem_programmeOrder order p)
    rw [State.converted_programme, s.readied_running p, tables, threshold] at h
    exact h
  · rw [read (State.converted_apart law.apart) p (mem_programmeOrder order p), State.converted_fetched]

theorem State.ran_eq (s : State) (order : List (Fin 16)) :
    s.ran order = { s with
      time := s.time.frame, feeds := s.converted.feeds, programmes := (s.ran order).programmes, store := (s.ran order).store } := by
  have run : s.ran order = { s.converted with programmes := (s.ran order).programmes, store := (s.ran order).store } :=
    s.converted.runFold_eq (programmeOrder order)
  have before := s.converted_eq
  rw [run]
  generalize (s.ran order).programmes = programmes, (s.ran order).store = store
  rw [before]

end Sys2Proof.Machine
end

