-- ==== Sys2Proof/Proofs/FrameWrites.lean ====
section
/-! SUPPORT. What a house frame writes in the delay store (R19, R22, R30, R55). -/

namespace Sys2Proof.Machine

/-! ### Interpolation (R19, R22) -/

/-- A sum of products that stops at the shorter list is the sum over any range that covers the lists, absent items counting as 0. -/
theorem tapSum_eq (taps : List (BitVec 18)) (xs : List Int) (n : Nat) (short : taps.length ≤ n) :
    tapSum taps xs = ((List.range n).map fun k => tapValue (taps.getD k 0) * xs.getD k 0).sum := by
  induction taps generalizing xs n with
  | nil =>
    have zero : ∀ k, tapValue (([] : List (BitVec 18)).getD k 0) * xs.getD k 0 = 0 := fun k => by
      rw [List.getD_nil, show tapValue 0 = 0 from rfl, Int.zero_mul]
    rw [tapSum, List.map_congr_left fun k _ => zero k]
    · simp
    · exact nofun
  | cons t ts ih =>
    obtain ⟨m, rfl⟩ : ∃ m, n = m + 1 := ⟨n - 1, by rw [List.length_cons] at short; omega⟩
    rw [List.range_succ_eq_map, List.map_cons, List.sum_cons, List.map_map]
    cases xs with
    | nil =>
      have zero : ∀ k, ((fun k => tapValue ((t :: ts).getD k 0) * ([] : List Int).getD k 0) ∘ Nat.succ) k = 0 := fun k => by
        rw [Function.comp_apply, List.getD_nil, Int.mul_zero]
      rw [tapSum, List.map_congr_left fun k _ => zero k, List.getD_nil, Int.mul_zero]
      · simp
      · exact nofun
    | cons x xs =>
      rw [tapSum, ih xs m (Nat.le_of_succ_le_succ short)]
      rfl

theorem getD_take_drop {α : Type} (xs : List α) (a k : Nat) (d : α) (h : k < 16) : ((xs.drop a).take 16).getD k d = xs.getD (a + k) d := by
  rw [List.getD_eq_getElem?_getD, List.getElem?_take_of_lt h, List.getElem?_drop, ← List.getD_eq_getElem?_getD]

/-- The output frame of a feed that yields, channel by channel (R19). -/
theorem interpolate_sample (t : Tables) (x : Feed) (ch : Nat) :
    (interpolate t x.record x.context).samples[ch]? = if ch < x.record.channels then some (x.interpolated t ch) else none := by
  unfold interpolate
  dsimp only
  rw [List.getElem?_map]
  by_cases inside : ch < x.record.channels
  · rw [List.getElem?_range inside, if_pos inside, Option.map_some]
    refine congrArg some ?_
    have products : tapSum (t.branch x.record.kernel (x.context.fraction.toNat / 2097152))
        (x.context.window.map fun frame => (frame.getD ch 0).toInt) =
        ((List.range 16).map fun k =>
          (if t.taps.getD (2048 * x.record.kernel.val + 16 * (x.context.fraction.toNat / 2097152) + k) 0 = 131072 then (131072 : Int)
            else (t.taps.getD (2048 * x.record.kernel.val + 16 * (x.context.fraction.toNat / 2097152) + k) 0).toInt) *
          ((x.context.frames.getD ((x.context.phase - 7 - x.context.oldest).toNat + k) []).getD ch 0).toInt).sum := by
      rw [tapSum_eq _ _ 16 (by rw [Tables.branch]; exact List.length_take_le _ _)]
      refine congrArg List.sum (List.map_congr_left fun k mem => ?_)
      have inRange : k < 16 := List.mem_range.mp mem
      have stored : (x.context.window.map fun frame => (frame.getD ch 0).toInt).getD k 0 =
          ((x.context.frames.getD ((x.context.phase - 7 - x.context.oldest).toNat + k) []).getD ch 0).toInt := by
        rw [← getD_take_drop _ _ _ _ inRange]
        exact List.getD_map _ [] fun frame : List Sample => (frame.getD ch 0).toInt
      rw [stored, Tables.branch, getD_take_drop _ _ _ _ inRange]
      rfl
    rw [products]
    rfl
  · rw [if_neg inside, List.getElem?_eq_none (by rw [List.length_range]; omega)]
    rfl

/-! ### The delay frame formed (R17, R18, R30) -/

theorem FeedOutput.silent_sample (channels ch : Nat) : (FeedOutput.silent channels).samples[ch]? = if ch < channels then some 0 else none := by
  unfold FeedOutput.silent
  dsimp only
  rw [List.getElem?_replicate]

theorem State.feedOutputs_feed (s : State) (f : Fin 8) :
    s.feedOutputs[f] = if s.feeds[f].yields = true then interpolate s.tables s.feeds[f].record s.feeds[f].context
      else FeedOutput.silent s.feeds[f].record.channels := by
  have output : s.feedOutputs[f] = (s.feeds[f].convert s.tables s.time.nextTime).output := by
    rw [← s.conversions_latched f]
    simp only [State.feedOutputs, Fin.getElem_fin, mapAll_getElem]
  rw [output]
  by_cases yields : s.feeds[f].yields = true
  · rw [Feed.convert_yields yields, if_pos yields]
  · rw [if_neg yields]
    by_cases converts : s.feeds[f].context.converting = true
    · rw [Feed.convert_starved converts (by by_contra h; exact yields (Feed.yields_iff.mpr ⟨converts, h⟩))]
    · rw [Feed.convert_resting converts]

/-- The delay word that a programme forms for a position from the feeds as they stand before the house frame (R30). -/
def State.wordFor (s : State) (q : Programme) (i : Nat) : DelayWord :=
  match q.inLayout[i]? with
  | none => { sample := 0, epoch := q.eIn, substituted := false }
  | some pos =>
    let x := s.feeds[pos.feed]
    if pos.channel.val < x.record.channels ∧ x.yields = true then
      { sample := x.interpolated s.tables pos.channel.val, epoch := q.eIn, substituted := false }
    else { sample := 0, epoch := q.eIn, substituted := true }

theorem State.formWord_eq (s : State) (q : Programme) (i : Nat) : q.formWord s.feedOutputs i = s.wordFor q i := by
  unfold Programme.formWord State.wordFor
  cases q.inLayout[i]? with
  | none => rfl
  | some pos =>
    dsimp only
    rw [s.feedOutputs_feed pos.feed]
    by_cases yields : s.feeds[pos.feed].yields = true
    · rw [if_pos yields, interpolate_sample]
      by_cases inside : pos.channel.val < s.feeds[pos.feed].record.channels
      · rw [if_pos inside, if_pos ⟨inside, yields⟩]
        rfl
      · rw [if_neg inside, if_neg fun h => inside h.1]
    · have silent : ¬ (pos.channel.val < s.feeds[pos.feed].record.channels ∧ s.feeds[pos.feed].yields = true) := fun h => yields h.2
      rw [if_neg yields, FeedOutput.silent_sample, if_neg silent]
      by_cases inside : pos.channel.val < s.feeds[pos.feed].record.channels
      · rw [if_pos inside]
        rfl
      · rw [if_neg inside]

theorem Programme.passFrame_write (p : Programme) (t : Tables) (threshold : Nat) (words : List Word32) :
    (p.passFrame t threshold words).store.write = (p.store.write + 1) % p.store.ringLength := by
  unfold Programme.passFrame Programme.judgeEpoch
  dsimp only
  split <;> rfl

/-- Settles O9: the slot of each write index, and what the delay lines leave of the rest. -/
theorem houseFrameWritesDelayFrames : Obligations.HouseFrameWritesDelayFrames := by
  intro s order nothing slots
  refine ⟨_, exec_houseFrame nothing slots order, ?_⟩
  rw [State.frame_store, State.frame_programmes]
  obtain ⟨words, passed, -⟩ := s.ran_programmes order
  have store : s.converted.store = s.store := by rw [s.converted_eq]
  have ready (p : Fin 16) : s.converted.programmes[p].store = s.programmes[p].store := by
    rw [State.converted_programme, s.readied_store p]
  have runs (p : Fin 16) : s.converted.programmes[p].running = s.programmes[p].running := by
    rw [State.converted_programme, s.readied_running p]
  refine ⟨fun a outside => ?_, fun p run => ?_, fun p rests => ?_, fun law p page k run place => ?_⟩
  · rw [← store]
    refine State.runFold_octet (programmeOrder_nodup order) fun p _ run => ?_
    rw [ready p]
    exact outside p (runs p ▸ run)
  · rw [passed p, if_pos run, Programme.passFrame_write, s.readied_store p]
    rfl
  · rw [passed p, if_neg (by rw [rests]; exact Bool.false_ne_true), s.readied_store p]
  · have written := State.runFold_writes (outputs := s.feedOutputs) (programmeOrder_nodup order) (State.converted_apart law.apart)
      (mem_programmeOrder order p) (by rw [runs p]; exact run) (by rw [ready p]; exact place)
    refine written.trans ?_
    rw [State.converted_programme, Programme.formFrame, List.map_map]
    refine List.map_congr_left fun i _ => ?_
    rw [Function.comp_apply, State.formWord_eq]
    rfl

end Sys2Proof.Machine
end

