-- ==== Sys2Proof/Proofs/Silence.lean ====
section
/-! SUPPORT. The silence counts of a house frame, trunk by trunk (R154, R155), and the IDLE fill that looped receivers take (R157). -/

namespace Sys2Proof.Machine

/-! ### One trunk's share -/

/-- Input trunk `n` and the feeds that take from it are the same in two states. -/
structure State.SameTrunk (n : Fin 4) (s t : State) : Prop where
  input   : t.inputs[n] = s.inputs[n]
  records : ∀ f : Fin 8, t.feeds[f].record = s.feeds[f].record
  feeds   : ∀ f : Fin 8, s.feeds[f].record.trunk = n → t.feeds[f] = s.feeds[f]

namespace State.SameTrunk

variable {n : Fin 4} {s t u : State}

theorem refl (n : Fin 4) (s : State) : s.SameTrunk n s := ⟨rfl, fun _ => rfl, fun _ _ => rfl⟩

theorem trans (h : s.SameTrunk n t) (k : t.SameTrunk n u) : s.SameTrunk n u :=
  ⟨k.input.trans h.input, fun f => (k.records f).trans (h.records f),
    fun f own => (k.feeds f (by rw [h.records f]; exact own)).trans (h.feeds f own)⟩

theorem ite (c : Prop) [Decidable c] (h : s.SameTrunk n t) (k : s.SameTrunk n u) : s.SameTrunk n (if c then t else u) := by
  split <;> assumption

theorem updReceiver (s : State) {m : Fin 4} (other : m ≠ n) (g : Receiver → Receiver) : s.SameTrunk n (s.updReceiver m g) :=
  ⟨updAt_other _ _ _ _ other, fun _ => rfl, fun _ _ => rfl⟩

theorem trunkUnframed (s : State) {m : Fin 4} (other : m ≠ n) : s.SameTrunk n (s.trunkUnframed m) := by
  refine ⟨by rw [State.trunkUnframed_inputs], fun f => ?_, fun f own => ?_⟩
  · rw [State.trunkUnframed_feeds]
    split <;> rfl
  · rw [State.trunkUnframed_feeds, if_neg fun h => other (h.1.symm.trans own)]

theorem afterReceiver (s before : State) {m : Fin 4} (other : m ≠ n) : s.SameTrunk n (s.afterReceiver before m) :=
  ite _ (trunkUnframed s other) (refl n s)

theorem badBurst (s : State) {m : Fin 4} (other : m ≠ n) : s.SameTrunk n (s.badBurst m) :=
  (updReceiver s other _).trans (afterReceiver _ s other)

theorem receive_idle (s : State) {m : Fin 4} (other : m ≠ n) : s.SameTrunk n (s.receive m .idle) := by
  unfold State.receive
  dsimp only
  cases (s.updReceiver m Receiver.wake).inputs[m].receiver.assembly with
  | none => exact updReceiver s other _
  | some octets => exact (updReceiver s other _).trans ((updReceiver _ other _).trans (badBurst _ other))

theorem tickReceiver (s : State) {m : Fin 4} (other : m ≠ n) : s.SameTrunk n (s.tickReceiver m) :=
  ite _ ((updReceiver s other _).trans (afterReceiver _ s other)) (refl n s)

theorem loops (h : s.SameTrunk n t) (k : Fin 2) : t.loops n k = s.loops n k := by
  rw [State.loops, State.loops, h.input]

end State.SameTrunk

/-- Trunks served in turn, each without touching another's share: trunk `n`'s share stands still before and after its own turn. -/
theorem fold_turn {g : State → Fin 4 → State} {n : Fin 4} (apart : ∀ (s : State) (m : Fin 4), m ≠ n → s.SameTrunk n (g s m)) (ns : List (Fin 4)) (once : ns.Nodup)
    (mem : n ∈ ns) (s : State) : ∃ u, s.SameTrunk n u ∧ (g u n).SameTrunk n (ns.foldl g s) := by
  have rest (ms : List (Fin 4)) (absent : n ∉ ms) (s : State) : s.SameTrunk n (ms.foldl g s) := by
    induction ms generalizing s with
    | nil => exact .refl n s
    | cons m ms ih =>
      obtain ⟨ne, later⟩ := not_or.mp (mt List.mem_cons.mpr absent)
      exact (apart s m (Ne.symm ne)).trans (ih later _)
  induction ns generalizing s with
  | nil => cases mem
  | cons m ms ih =>
    obtain ⟨fresh, later⟩ := List.nodup_cons.mp once
    by_cases own : n = m
    · subst own
      exact ⟨s, .refl n s, rest ms fresh _⟩
    · obtain ⟨u, before, after⟩ := ih later ((List.mem_cons.mp mem).resolve_left own) (g s m)
      exact ⟨u, (apart s m (Ne.symm own)).trans before, after⟩

/-! ### A silence count (R154) -/

/-- A receiver that a silence count of 96 takes to DOWN. -/
def Receiver.silenced (r : Receiver) : Receiver := { r with state := .down, silence := 96, goodRun := 0, badRun := 0, assembly := none }

theorem Receiver.tick_eq (r : Receiver) :
    r.tick = if r.state ≠ .down ∧ 95 ≤ r.silence then r.silenced else { r with silence := min (r.silence + 1) 96 } := by
  unfold Receiver.tick
  rw [bump_min]
  dsimp only
  by_cases late : 95 ≤ r.silence
  · have full : min (r.silence + 1) 96 = 96 := by omega
    rw [full]
    exact if_congr (and_congr_right fun _ => iff_of_true (Nat.le_refl 96) late) rfl rfl
  · rw [if_neg fun h => by omega, if_neg fun h => late h.2]

section Count

variable {s : State} {n : Fin 4}

theorem State.tickReceiver_off (off : s.inputs[n].enabled = false) : s.tickReceiver n = s :=
  if_neg (by rw [off]; exact Bool.false_ne_true)

/-- A count that does not end the silence leaves the feeds. -/
theorem State.tickReceiver_early (enabled : s.inputs[n].enabled = true)
    (early : ¬ (s.inputs[n].receiver.state ≠ .down ∧ 95 ≤ s.inputs[n].receiver.silence)) :
    s.tickReceiver n =
      s.updReceiver n fun _ => { s.inputs[n].receiver with silence := min (s.inputs[n].receiver.silence + 1) 96 } := by
  have ticked : s.inputs[n].receiver.tick = { s.inputs[n].receiver with silence := min (s.inputs[n].receiver.silence + 1) 96 } := by
    rw [Receiver.tick_eq, if_neg early]
  rw [State.tickReceiver, if_pos enabled, State.updReceiver_to ticked]
  by_cases framed : s.inputs[n].receiver.state = .framed
  · exact State.afterReceiver_framed (by rw [State.receiver_updReceiver]; exact framed)
  · exact State.afterReceiver_unframed framed

/-- The count of 96 takes a receiver to DOWN, and the feeds of one that was FRAMED to HOLDOVER. -/
theorem State.tickReceiver_late (enabled : s.inputs[n].enabled = true)
    (late : s.inputs[n].receiver.state ≠ .down ∧ 95 ≤ s.inputs[n].receiver.silence) :
    ∃ feeds : Vector Feed 8,
      s.tickReceiver n = { s with feeds := feeds }.updReceiver n (fun _ => s.inputs[n].receiver.silenced) ∧
      ∀ f : Fin 8, feeds[f] =
        if s.inputs[n].receiver.state = .framed ∧ s.feeds[f].record.trunk = n ∧ s.feeds[f].context.state ∈ [.priming, .acquiring, .locked] then
          { s.feeds[f] with context := { s.feeds[f].context with state := .holdover } }
        else s.feeds[f] := by
  have put (t : State) (same : t.inputs[n] = s.inputs[n]) :
      (t.updReceiver n fun _ => s.inputs[n].receiver.silenced) =
        t.updInput n fun _ => { s.inputs[n] with receiver := s.inputs[n].receiver.silenced } := by
    unfold State.updReceiver State.updInput updAt
    rw [same]
  obtain ⟨feeds, after, each⟩ := s.afterReceiver_put n (u := { s.inputs[n] with receiver := s.inputs[n].receiver.silenced }) nofun
  refine ⟨feeds, ?_, each⟩
  have ticked : s.inputs[n].receiver.tick = s.inputs[n].receiver.silenced := by rw [Receiver.tick_eq, if_pos late]
  rw [State.tickReceiver, if_pos enabled, State.updReceiver_to ticked, put s rfl, after]
  exact (put { s with feeds := feeds } rfl).symm

end Count

/-! ### The counts of a house frame (R154) -/

/-- A trunk's own turn in the silence counts of a house frame (log entry 9). -/
def State.countSilence (s : State) (n : Fin 4) : State :=
  if s.inputs[n].receiver.ticked then s.updReceiver n fun r => { r with ticked := false } else s.tickReceiver n

theorem State.tickReceivers_eq (s : State) : s.tickReceivers = (List.finRange 4).foldl State.countSilence s := rfl

theorem State.countSilence_other {n : Fin 4} (s : State) (m : Fin 4) (other : m ≠ n) : s.SameTrunk n (s.countSilence m) :=
  .ite _ (.updReceiver s other _) (.tickReceiver s other)

/-- The receiver of an input trunk after the silence count of a house frame. -/
def InputTrunk.counted (x : InputTrunk) : Receiver :=
  let r := x.receiver
  if r.ticked = true then { r with ticked := false }
  else if x.enabled = false then r
  else if r.state ≠ .down ∧ 95 ≤ r.silence then r.silenced
  else { r with silence := min (r.silence + 1) 96 }

/-- The house frame's count ends the silence of a FRAMED receiver. -/
def InputTrunk.unframes (x : InputTrunk) : Prop :=
  x.enabled = true ∧ x.receiver.ticked = false ∧ x.receiver.state = .framed ∧ 95 ≤ x.receiver.silence

theorem State.input_updReceiver (s : State) (n : Fin 4) (g : Receiver → Receiver) :
    (s.updReceiver n g).inputs[n] = { s.inputs[n] with receiver := g s.inputs[n].receiver } := by
  rw [State.updReceiver_inputs, updAt_same]

theorem State.countSilence_own (s : State) (n : Fin 4) :
    (s.countSilence n).inputs[n] = { s.inputs[n] with receiver := s.inputs[n].counted } ∧
      ∀ f : Fin 8, (s.inputs[n].unframes → s.feeds[f].record.trunk = n → s.feeds[f].context.state ∈ [.priming, .acquiring, .locked] →
          (s.countSilence n).feeds[f] = { s.feeds[f] with context := { s.feeds[f].context with state := .holdover } }) ∧
        (¬ (s.inputs[n].unframes ∧ s.feeds[f].record.trunk = n ∧ s.feeds[f].context.state ∈ [.priming, .acquiring, .locked]) →
          (s.countSilence n).feeds[f] = s.feeds[f]) := by
  by_cases ticked : s.inputs[n].receiver.ticked = true
  · have turn : s.countSilence n = s.updReceiver n fun r => { r with ticked := false } := if_pos ticked
    have counted : s.inputs[n].counted = { s.inputs[n].receiver with ticked := false } := if_pos ticked
    rw [turn, counted, State.input_updReceiver]
    exact ⟨rfl, fun f => ⟨fun h => absurd ticked (by rw [h.2.1]; decide), fun _ => rfl⟩⟩
  have turn : s.countSilence n = s.tickReceiver n := if_neg ticked
  rw [turn]
  by_cases off : s.inputs[n].enabled = false
  · have counted : s.inputs[n].counted = s.inputs[n].receiver := (if_neg ticked).trans (if_pos off)
    rw [State.tickReceiver_off off, counted]
    exact ⟨rfl, fun f => ⟨fun h => absurd off (by rw [h.1]; decide), fun _ => rfl⟩⟩
  have enabled : s.inputs[n].enabled = true := (Bool.not_eq_false _).mp off
  by_cases late : s.inputs[n].receiver.state ≠ .down ∧ 95 ≤ s.inputs[n].receiver.silence
  · have counted : s.inputs[n].counted = s.inputs[n].receiver.silenced := (if_neg ticked).trans ((if_neg off).trans (if_pos late))
    obtain ⟨feeds, after, each⟩ := State.tickReceiver_late enabled late
    rw [after, counted, State.input_updReceiver]
    refine ⟨rfl, fun f => ⟨fun h own moves => ?_, fun stays => ?_⟩⟩
    · exact (each f).trans (if_pos ⟨h.2.2.1, own, moves⟩)
    · exact (each f).trans (if_neg fun h => stays ⟨⟨enabled, Bool.eq_false_iff.mpr ticked, h.1, late.2⟩, h.2⟩)
  · have counted : s.inputs[n].counted = { s.inputs[n].receiver with silence := min (s.inputs[n].receiver.silence + 1) 96 } :=
      (if_neg ticked).trans ((if_neg off).trans (if_neg late))
    rw [State.tickReceiver_early enabled late, counted, State.input_updReceiver]
    refine ⟨rfl, fun f => ⟨fun h _ _ => absurd ⟨?_, h.2.2.2⟩ late, fun _ => rfl⟩⟩
    rw [h.2.2.1]
    decide

/-- The silence counts of a house frame, at trunk `n` (R154). -/
theorem State.tickReceivers_trunk (s : State) (n : Fin 4) :
    s.tickReceivers.inputs[n] = { s.inputs[n] with receiver := s.inputs[n].counted } ∧
      ∀ f : Fin 8, s.feeds[f].record.trunk = n →
        (s.inputs[n].unframes → s.feeds[f].context.state ∈ [.priming, .acquiring, .locked] →
          s.tickReceivers.feeds[f] = { s.feeds[f] with context := { s.feeds[f].context with state := .holdover } }) ∧
        (¬ (s.inputs[n].unframes ∧ s.feeds[f].context.state ∈ [.priming, .acquiring, .locked]) →
          s.tickReceivers.feeds[f] = s.feeds[f]) := by
  obtain ⟨u, before, after⟩ := fold_turn (g := State.countSilence) State.countSilence_other _ (List.nodup_finRange 4) (List.mem_finRange n) s
  rw [← s.tickReceivers_eq] at after
  obtain ⟨input, feeds⟩ := u.countSilence_own n
  refine ⟨by rw [after.input, input, before.input], fun f own => ?_⟩
  have same : u.feeds[f] = s.feeds[f] := before.feeds f own
  obtain ⟨moves, stays⟩ := feeds f
  rw [same, before.input] at moves stays
  have final (x : Feed) (h : (u.countSilence n).feeds[f] = x) (trunk : x.record.trunk = n) : s.tickReceivers.feeds[f] = x :=
    (after.feeds f (by rw [h]; exact trunk)).trans h
  exact ⟨fun h state => final _ (moves h own state) own, fun h => final _ (stays fun all => h ⟨all.1, all.2.2⟩) own⟩

/-! ### The IDLE fill (R157) -/

theorem State.loopIdle_other {n : Fin 4} (k : Fin 2) (s : State) (m : Fin 4) (other : m ≠ n) :
    s.SameTrunk n (if s.loops m k then s.receive m .idle else s) :=
  .ite _ (.receive_idle s other) (.refl n s)

/-- A trunk that is not looped takes no part in the IDLE fill. -/
theorem State.loopIdle_line {n : Fin 4} {k : Fin 2} {s : State} (line : s.loops n k = false) : s.SameTrunk n (State.loopSymbol k s .idle) := by
  obtain ⟨u, before, after⟩ := fold_turn (g := fun t m => if t.loops m k then t.receive m .idle else t) (State.loopIdle_other k) _
    (List.nodup_finRange 4) (List.mem_finRange n) s
  have own : (if u.loops n k then u.receive n .idle else u) = u := if_neg (by rw [before.loops k, line]; exact Bool.false_ne_true)
  rw [own] at after
  exact before.trans after

theorem State.idleFill_eq (s : State) : s.idleFill = State.loopSymbol 1 (State.loopSymbol 0 s .idle) .idle := by
  have both : List.finRange 2 = [0, 1] := by decide
  rw [State.idleFill, both]
  simp only [List.foldl_cons, List.foldl_nil, State.sendLooped]

theorem State.idleFill_line {n : Fin 4} {s : State} (line : ∀ k, s.loops n k = false) : s.SameTrunk n s.idleFill := by
  have first := State.loopIdle_line (line 0)
  rw [State.idleFill_eq]
  exact first.trans (State.loopIdle_line (by rw [first.loops]; exact line 1))

/-- An IDLE leaves a receiver outside a burst, with its silence count 0 and not DOWN. -/
def Receiver.idled (r : Receiver) : Prop := r.state ≠ .down ∧ r.silence = 0 ∧ r.assembly = none ∧ r.ticked = false

theorem Receiver.wake_up_state (r : Receiver) : r.wake.state ≠ .down ∧ r.wake.silence = 0 ∧ r.wake.ticked = r.ticked := by
  by_cases down : r.state = .down
  · rw [Receiver.wake_down down]
    exact ⟨nofun, rfl, rfl⟩
  · rw [Receiver.wake_up down]
    exact ⟨down, rfl, rfl⟩

theorem Receiver.bad_idled {r : Receiver} (h : r.idled) : r.bad.idled := by
  obtain ⟨up, silence, outside, ticked⟩ := h
  cases state : r.state with
  | down => exact absurd state up
  | hunt =>
    rw [Receiver.bad_hunt state]
    exact ⟨up, silence, outside, ticked⟩
  | framed =>
    by_cases early : r.badRun < 3
    · rw [Receiver.bad_early state early]
      exact ⟨up, silence, outside, ticked⟩
    · rw [Receiver.bad_late state (Nat.not_lt.mp early)]
      exact ⟨nofun, silence, rfl, ticked⟩

theorem State.afterReceiver_inputs (s before : State) (n : Fin 4) : (s.afterReceiver before n).inputs = s.inputs := by
  unfold State.afterReceiver
  split
  · exact s.trunkUnframed_inputs n
  · rfl

theorem State.badBurst_input (s : State) (n : Fin 4) : (s.badBurst n).inputs[n] = { s.inputs[n] with receiver := s.inputs[n].receiver.bad } := by
  rw [State.badBurst, State.afterReceiver_inputs, State.input_updReceiver]

theorem State.receive_idled (s : State) (n : Fin 4) (fresh : s.inputs[n].receiver.ticked = false) :
    ∃ r : Receiver, r.idled ∧ (s.receive n .idle).inputs[n] = { s.inputs[n] with receiver := r } := by
  obtain ⟨up, silence, ticked⟩ := s.inputs[n].receiver.wake_up_state
  have woken := s.input_updReceiver n Receiver.wake
  unfold State.receive
  dsimp only
  cases inside : (s.updReceiver n Receiver.wake).inputs[n].receiver.assembly with
  | none =>
    rw [woken] at inside
    exact ⟨s.inputs[n].receiver.wake, ⟨up, silence, inside, ticked.trans fresh⟩, woken⟩
  | some octets =>
    refine ⟨Receiver.bad { s.inputs[n].receiver.wake with assembly := none }, Receiver.bad_idled ⟨up, silence, rfl, ticked.trans fresh⟩, ?_⟩
    change (State.badBurst ((s.updReceiver n Receiver.wake).setAssembly n none) n).inputs[n] = _
    rw [State.badBurst_input, State.setAssembly, State.input_updReceiver, woken]

/-- A looped receiver takes the IDLE of its transmitter. -/
theorem State.loopIdle_looped {n : Fin 4} {k : Fin 2} {s : State} (looped : s.loops n k = true)
    (fresh : s.inputs[n].receiver.ticked = false) :
    ∃ r : Receiver, r.idled ∧ (State.loopSymbol k s .idle).inputs[n] = { s.inputs[n] with receiver := r } := by
  obtain ⟨u, before, after⟩ := fold_turn (g := fun t m => if t.loops m k then t.receive m .idle else t) (State.loopIdle_other k) _
    (List.nodup_finRange 4) (List.mem_finRange n) s
  have own : (if u.loops n k then u.receive n .idle else u) = u.receive n .idle := if_pos (by rw [before.loops k, looped])
  rw [own] at after
  obtain ⟨r, idled, input⟩ := u.receive_idled n (by rw [before.input, fresh])
  refine ⟨r, idled, ?_⟩
  rw [← before.input, ← input]
  exact after.input

theorem State.loops_iff {s : State} {n : Fin 4} {k : Fin 2} :
    s.loops n k = true ↔ s.inputs[n].enabled = true ∧ s.inputs[n].loopback = true ∧ n.val % 2 = k.val := by
  rw [State.loops, Bool.and_eq_true, Bool.and_eq_true, decide_eq_true_iff, and_assoc]

theorem State.idleFill_looped {n : Fin 4} {s : State} (enabled : s.inputs[n].enabled = true) (looped : s.inputs[n].loopback = true)
    (fresh : s.inputs[n].receiver.ticked = false) :
    ∃ r : Receiver, r.idled ∧ s.idleFill.inputs[n] = { s.inputs[n] with receiver := r } := by
  rw [State.idleFill_eq]
  have sides : n.val % 2 = 0 ∨ n.val % 2 = 1 := by omega
  obtain even | odd := sides
  · obtain ⟨r, idled, input⟩ := State.loopIdle_looped (k := 0) (State.loops_iff.mpr ⟨enabled, looped, even⟩) fresh
    refine ⟨r, idled, ?_⟩
    have line : (State.loopSymbol 0 s .idle).loops n 1 = false := by
      rw [← Bool.not_eq_true, State.loops_iff]
      exact fun h => absurd (even.symm.trans h.2.2) (by decide)
    rw [(State.loopIdle_line line).input, input]
  · have first : s.SameTrunk n (State.loopSymbol 0 s .idle) := by
      refine State.loopIdle_line ?_
      rw [← Bool.not_eq_true, State.loops_iff]
      exact fun h => absurd (odd.symm.trans h.2.2) (by decide)
    obtain ⟨r, idled, input⟩ := State.loopIdle_looped (s := State.loopSymbol 0 s .idle) (n := n) (k := 1)
      (by rw [first.loops, State.loops_iff]; exact ⟨enabled, looped, odd⟩) (by rw [first.input]; exact fresh)
    exact ⟨r, idled, by rw [input, first.input]⟩

/-! ### The trunks at a house frame -/

theorem State.assembled_inputs (s : State) (order : List (Fin 16)) : (s.assembled order).inputs = s.inputs := by
  have same : (s.assembled order).inputs = (s.ran order).inputs := by rw [State.assembled, State.assembleOutputs]
  rw [same, State.ran_eq]

theorem State.assembled_feed (s : State) (order : List (Fin 16)) (f : Fin 8) :
    (s.assembled order).feeds[f] = { s.feeds[f] with context := (s.feeds[f].convert s.tables s.time.nextTime).context } := by
  have same : (s.assembled order).feeds = (s.ran order).feeds := by rw [State.assembled, State.assembleOutputs]
  rw [same, State.ran_eq]
  exact s.converted_feed f

theorem State.assembled_feedState (s : State) (order : List (Fin 16)) (f : Fin 8) :
    (s.assembled order).feeds[f].record = s.feeds[f].record ∧ (s.assembled order).feeds[f].context.state = s.feeds[f].context.state := by
  rw [State.assembled_feed]
  exact ⟨rfl, Feed.convert_state ..⟩

theorem Receiver.ticked_counted {x : InputTrunk} (ticked : x.receiver.ticked = true) : x.counted = { x.receiver with ticked := false } :=
  if_pos ticked

/-- Settles O27: the row that makes the last count, and the counts of a house frame, trunk by trunk. -/
theorem silenceTakesTheReceiverDown : Obligations.SilenceTakesTheReceiverDown := by
  intro s n r
  refine ⟨fun enabled up late fresh => ?_, fun rests => ?_, fun order nothing slots => ?_⟩
  · have ends : s.silenceEnds n = true := by
      rw [State.silenceEnds]
      simp only [Bool.and_eq_true, bne_iff_ne, decide_eq_true_iff, Bool.not_eq_true']
      exact ⟨⟨⟨enabled, up⟩, late⟩, fresh⟩
    obtain ⟨feeds, after, each⟩ := State.tickReceiver_late enabled ⟨up, late⟩
    have row : exec (.trunkSilenceDown n) s =
        .next ((s.tickReceiver n).updReceiver n fun r => { r with ticked := true }) := congrArg Host.Outcome.next (if_pos ends)
    rw [after, State.updReceiver_updReceiver] at row
    exact ⟨_, row, rfl, each⟩
  · refine congrArg Host.Outcome.next (if_neg fun ends => ?_)
    simp only [State.silenceEnds, Bool.and_eq_true, bne_iff_ne, decide_eq_true_iff, Bool.not_eq_true'] at ends
    obtain ⟨⟨⟨enabled, up⟩, late⟩, fresh⟩ := ends
    obtain off | down | early | ticked := rests
    · exact Bool.false_ne_true (off.symm.trans enabled)
    · exact up down
    · exact absurd late (Nat.not_le.mpr early)
    · exact Bool.false_ne_true (fresh.symm.trans ticked)
  · refine ⟨_, exec_houseFrame nothing slots order, ?_⟩
    rw [State.frame_inputs, State.frame_feeds]
    have before : (s.assembled order).inputs[n] = s.inputs[n] := by rw [s.assembled_inputs order]
    have converted := s.assembled_feedState order
    generalize s.assembled order = u at before converted ⊢
    obtain ⟨input, feeds⟩ := u.idleFill.tickReceivers_trunk n
    refine ⟨fun line => ?_, fun enabled looped fresh => ?_⟩
    · have idle : u.SameTrunk n u.idleFill := by
        refine State.idleFill_line fun k => ?_
        rw [← Bool.not_eq_true, State.loops_iff, before]
        rintro ⟨enabled, looped, -⟩
        obtain off | off := line
        · exact Bool.false_ne_true (off.symm.trans enabled)
        · exact Bool.false_ne_true (off.symm.trans looped)
      have same : u.idleFill.inputs[n] = s.inputs[n] := idle.input.trans before
      have fills := idle.feeds
      generalize u.idleFill = v at same fills input feeds ⊢
      rw [same] at input feeds
      refine ⟨input, fun f own => ?_⟩
      obtain ⟨record, state⟩ := converted f
      have trunk : u.feeds[f].record.trunk = n := by rw [record]; exact own
      have filled : v.feeds[f] = u.feeds[f] := fills f trunk
      obtain ⟨moves, stays⟩ := feeds f (by rw [filled]; exact trunk)
      rw [filled] at moves stays
      rw [state] at moves stays
      by_cases unframes : s.inputs[n].unframes ∧ s.feeds[f].context.state ∈ [.priming, .acquiring, .locked]
      · rw [moves unframes.1 unframes.2]
        obtain ⟨⟨enabled, fresh, framed, late⟩, member⟩ := unframes
        exact (if_pos ⟨enabled, fresh, framed, late, member⟩).symm
      · rw [stays unframes, state]
        exact (if_neg fun h => unframes ⟨⟨h.1, h.2.1, h.2.2.1, h.2.2.2.1⟩, h.2.2.2.2⟩).symm
    · obtain ⟨x, ⟨up, silence, outside, ticked⟩, filled⟩ := State.idleFill_looped (s := u) (n := n)
        (by rw [before]; exact enabled) (by rw [before]; exact looped) (by rw [before]; exact fresh)
      have counted : (u.idleFill.inputs[n]).counted = { x with silence := 1 } := by
        rw [filled, before]
        unfold InputTrunk.counted
        dsimp only
        rw [ticked, enabled, silence, if_neg Bool.false_ne_true, if_neg (by decide), if_neg fun h => absurd h.2 (by decide)]
        rfl
      rw [input, counted]
      exact ⟨up, rfl, outside⟩

end Sys2Proof.Machine
end

