-- ==== Sys2Proof/Proofs/FrameFeeds.lean ====
section
/-! SUPPORT. What a house frame does to the feeds, and to the alignment contexts through their age samples (R17 to R21, R70 to R72). -/

namespace Sys2Proof.Machine

/-- A house frame that ends no silence leaves every feed as its conversion does (R154). -/
theorem State.frame_feed {s : State} (loose : s.NoLoop) (quiet : ∀ n, s.silenceEnds n = false) (order : List (Fin 16)) (f : Fin 8) :
    (s.frame order).feeds[f] = { s.feeds[f] with context := (s.feeds[f].convert s.tables s.time.nextTime).context } := by
  rw [State.frame_feeds]
  have inputs := s.assembled_inputs order
  have converted := s.assembled_feed order f
  generalize s.assembled order = u at inputs converted ⊢
  have trunk : u.feeds[f].record.trunk = s.feeds[f].record.trunk := by rw [converted]
  generalize own : s.feeds[f].record.trunk = n at trunk
  have idle : u.SameTrunk n u.idleFill := by
    refine State.idleFill_line fun k => ?_
    rw [← Bool.not_eq_true, State.loops_iff, inputs]
    exact fun h => Bool.false_ne_true ((loose n).symm.trans h.2.1)
  have input := idle.input
  have filled := idle.feeds f trunk
  obtain ⟨-, counted⟩ := u.idleFill.tickReceivers_trunk n
  generalize u.idleFill = v at input filled counted ⊢
  refine ((counted f (by rw [filled]; exact trunk)).2 fun h => ?_).trans (filled.trans converted)
  obtain ⟨⟨enabled, fresh, framed, late⟩, -⟩ := h
  rw [input, inputs] at enabled fresh framed late
  have ends : s.silenceEnds n = true := by
    rw [State.silenceEnds]
    simp only [Bool.and_eq_true, bne_iff_ne, decide_eq_true_iff, Bool.not_eq_true']
    exact ⟨⟨⟨enabled, by rw [framed]; decide⟩, late⟩, fresh⟩
  exact Bool.false_ne_true ((quiet n).symm.trans ends)

/-- The context that conversion leaves (R17, R18, R20). -/
theorem Feed.convert_context (x : Feed) (t : Tables) (now : Word32) :
    (x.convert t now).context =
      if x.context.converting = true then
        if x.context.starved = true then { x.context with starve := true } else x.context.advance
      else x.context := by
  unfold Feed.convert
  dsimp only
  repeat' split
  all_goals rfl

theorem Programme.judgeEpoch_align (words : List Word32) (p : Programme) : (p.judgeEpoch words).align = p.align := by
  unfold Programme.judgeEpoch
  split <;> rfl

theorem Programme.passFrame_align (p : Programme) (t : Tables) (threshold : Nat) (words : List Word32) :
    (p.passFrame t threshold words).align = p.align := p.judgeEpoch_align words

/-- Settles O8: feed by feed along the branches of its conversion, and programme by programme through its timing feed. -/
theorem houseFrameMovesConvertingFeeds : Obligations.HouseFrameMovesConvertingFeeds := by
  intro s order nothing slots loose quiet
  refine ⟨_, exec_houseFrame nothing slots order, fun f => ?_, fun p => ?_⟩
  · intro c sum i
    rw [State.frame_feed loose quiet order f]
    refine ⟨rfl, ?_⟩
    change (s.feeds[f].convert s.tables s.time.nextTime).context = _
    rw [Feed.convert_context]
    refine if_congr FeedContext.converting_iff ?_ rfl
    have starved : c.starved = true ↔ ¬ 0 ≤ timeDiff c.newest (c.phase + 8) := by
      rw [FeedContext.starved, Bool.not_eq_true', atOrAfter, decide_eq_false_iff_not]
    by_cases reaches : 0 ≤ timeDiff c.newest (c.phase + 8)
    · rw [if_pos reaches, if_neg fun h => starved.mp h reaches]
      rfl
    · rw [if_neg reaches, if_pos (starved.mpr reaches)]
  · intro q
    obtain ⟨words, passed, -⟩ := s.ran_programmes order
    have align : (s.frame order).programmes[p].align = (s.readied p).align := by
      rw [State.frame_programmes, passed p]
      split
      · rw [Programme.passFrame_align]
      · rfl
    exact align

end Sys2Proof.Machine
end

