-- ==== Sys2Proof/Proofs/FrameTakes.lean ====
section
/-! SUPPORT. Takes at a house frame (R32, R33), and the output epoch switch that the same frame can make (R37). -/

namespace Sys2Proof.Machine

theorem State.updProgramme_to {s : State} {p : Fin 16} {g : Programme → Programme} {q : Programme} (h : g s.programmes[p] = q) :
    s.updProgramme p g = s.updProgramme p fun _ => q := by
  unfold State.updProgramme updAt
  dsimp only
  rw [h]

theorem TakeRecord.due_iff {t : TakeRecord} {now : Word32} :
    t.due now = true ↔ ∀ time : Word32, t.time = some time → 0 ≤ timeDiff now time := by
  unfold TakeRecord.due
  cases t.time with
  | none => exact iff_of_true rfl nofun
  | some time => exact decide_eq_true_iff.trans ⟨fun h _ same => Option.some.inj same ▸ h, fun h => h time rfl⟩

theorem BitVec2.succ_ne (e : BitVec 2) : e + 1 ≠ e := by decide +revert

/-- What passing a frame leaves of the epochs, the layouts and the restart marks (R37, R38). -/
theorem Programme.passFrame_epochs {p : Programme} {e : BitVec 2} {marks : Vector Bool 2} (out : p.eOut = e) (marked : p.marks = marks)
    (t : Tables) (threshold : Nat) (words : List Word32) :
    (p.passFrame t threshold words).take = p.take ∧ (p.passFrame t threshold words).eIn = p.eIn ∧
      (p.passFrame t threshold words).slots = p.slots ∧
      (((p.passFrame t threshold words).eOut = e ∧ (p.passFrame t threshold words).marks = marks) ∨
        ((p.passFrame t threshold words).eOut = e + 1 ∧ (p.passFrame t threshold words).marks = marks.set (slotOf (e + 1)) false)) := by
  subst out marked
  unfold Programme.passFrame Programme.judgeEpoch
  dsimp only
  split
  · exact ⟨rfl, rfl, rfl, .inr ⟨rfl, rfl⟩⟩
  · exact ⟨rfl, rfl, rfl, .inl ⟨rfl, rfl⟩⟩

/-- What a house frame leaves of a programme's take, epochs, layouts and restart marks (R32, R37). -/
theorem State.frame_takes (s : State) (order : List (Fin 16)) (p : Fin 16) :
    let q := s.programmes[p]
    let d := q.fireDue s.time.nextTime
    let u := (s.frame order).programmes[p]
    u.take = d.take ∧ u.eIn = d.eIn ∧ u.slots = d.slots ∧ (u.eOut = q.eOut → u.marks = d.marks) ∧
      (u.eOut ≠ q.eOut → q.running = true ∧ u.eOut = q.eOut + 1 ∧ u.marks = d.marks.set (slotOf (q.eOut + 1)) false) := by
  intro q d u
  obtain ⟨words, passed, -⟩ := s.ran_programmes order
  have result : u = if q.running = true then (s.readied p).passFrame s.tables s.phaseThreshold (words p) else s.readied p := by
    rw [← passed p, ← s.frame_programmes order]
  have out : (s.readied p).eOut = q.eOut := by rw [State.readied, Programme.fireDue_eq]
  have still : (s.readied p).take = d.take ∧ (s.readied p).eIn = d.eIn ∧ (s.readied p).slots = d.slots ∧ (s.readied p).marks = d.marks :=
    ⟨rfl, rfl, rfl, rfl⟩
  generalize s.readied p = v at result out still
  obtain ⟨take, eIn, slots, marks⟩ := still
  by_cases run : q.running = true
  · rw [if_pos run] at result
    obtain ⟨take', eIn', slots', epochs⟩ := Programme.passFrame_epochs out marks s.tables s.phaseThreshold (words p)
    rw [result]
    refine ⟨take'.trans take, eIn'.trans eIn, slots'.trans slots, ?_⟩
    obtain ⟨stays, kept⟩ | ⟨switched, cleared⟩ := epochs
    · exact ⟨fun _ => kept, fun moved => absurd stays moved⟩
    · exact ⟨fun stays => absurd (switched.symm.trans stays) (BitVec2.succ_ne _), fun _ => ⟨run, switched, cleared⟩⟩
  · rw [if_neg run] at result
    rw [result]
    exact ⟨take, eIn, slots, fun _ => marks, fun moved => absurd out moved⟩

/-- Settles O30: the take of one programme, by whether it is due and whether the programme is RUNNING. -/
theorem takesFireAtTheirTime : Obligations.TakesFireAtTheirTime := by
  intro s p q frames
  have framed {d : Programme} (fired : q.fireDue s.time.nextTime = d) : frames d.take d.eIn d.slots d.marks := by
    subst fired
    exact fun order nothing slots => ⟨_, exec_houseFrame nothing slots order, s.frame_takes order p⟩
  have row {d : Programme} (fired : q.fireDue s.time.nextTime = d) : exec (.takeFires p) s = .next (s.updProgramme p fun _ => d) :=
    congrArg Host.Outcome.next (State.updProgramme_to fired)
  have rests (fired : q.fireDue s.time.nextTime = q) : exec (.takeFires p) s = .next s :=
    (row fired).trans (congrArg Host.Outcome.next ((State.updProgramme_to rfl).symm.trans (s.updProgramme_self p)))
  refine ⟨fun none_ => ?_, fun k pending => ?_⟩
  · have still := Programme.fireDue_none none_ s.time.nextTime
    have h := framed still
    rw [none_] at h
    exact ⟨rests still, h⟩
  intro due
  refine ⟨fun early => ?_, fun late run => ?_, fun late rest => ?_⟩
  · have still : q.fireDue s.time.nextTime = q := by
      rw [Programme.fireDue_some pending, if_neg (mt TakeRecord.due_iff.mp early)]
    have h := framed still
    rw [pending] at h
    exact ⟨rests still, h⟩
  · have fires : q.fireDue s.time.nextTime = _ :=
      (Programme.fireDue_some pending s.time.nextTime).trans ((if_pos (TakeRecord.due_iff.mpr late)).trans (Programme.fire_running run k))
    exact ⟨row fires, framed fires⟩
  · have fires : q.fireDue s.time.nextTime = _ :=
      (Programme.fireDue_some pending s.time.nextTime).trans ((if_pos (TakeRecord.due_iff.mpr late)).trans (Programme.fire_resting rest k))
    exact ⟨row fires, framed fires⟩

end Sys2Proof.Machine
end

