-- ==== Sys2Proof/Proofs/FrameState.lean ====
section
/-! SUPPORT. What a house frame moves, and what it leaves (R62, R63, R112); and the events that are taken before it. -/

namespace Sys2Proof.Machine

/-! ### The time of a slice end -/

theorem State.sweep_time (h : SliceHandover) (s : State) : (s.sweep h).time = s.time := by
  obtain ⟨w, told, -⟩ := s.sweep_told h
  rw [told, State.formLines_time, State.clearOverruns_time, State.withTold_time]

theorem State.logProgramme_time (s : State) (p : Fin 16) : (s.logProgramme p).time = s.time := by
  unfold State.logProgramme State.logAppend
  repeat' split
  all_goals rfl

theorem State.logPass_time (h : SliceHandover) (s : State) : (s.logPass h).time = s.time :=
  SameClock.foldl State.logProgramme_time _ s

theorem State.transferSteps_time (fuel : Nat) (s : State) : (State.transferSteps fuel s).time = s.time := by
  induction fuel generalizing s with
  | zero => rfl
  | succ n ih =>
    unfold State.transferSteps
    split
    · exact (ih _).trans (State.transferStep_time s)
    · rfl

theorem State.closeSlice_time (s : State) (order : SliceOrder) (h : SliceHandover) : (s.closeSlice order h).time = s.time := by
  cases order with
  | writeStepSweep => exact (State.sweep_time ..).trans ((State.transferSteps_time ..).trans (State.logPass_time ..))
  | writeSweepStep => exact (State.transferSteps_time ..).trans ((State.sweep_time ..).trans (State.logPass_time ..))
  | sweepWriteStep => exact (State.transferSteps_time ..).trans ((State.logPass_time ..).trans (State.sweep_time ..))

theorem State.slice_time (s : State) (order : SliceOrder) : (s.slice order).time = { s.time with sliceDue := false, sliceFrames := 0 } := by
  unfold State.slice
  dsimp only
  rw [State.closeSlice_time, State.formSlices_time]

/-! ### What is due is taken before the frame (log entry 6) -/

theorem State.boundaryIfDue_rests (s : State) : s.boundaryIfDue.time.boundaryDue = false := by
  unfold State.boundaryIfDue
  split
  · rfl
  · exact Bool.eq_false_iff.mpr ‹_›

theorem State.servoIfDue_rests (s : State) :
    s.servoIfDue.time.servoDue = false ∧ s.servoIfDue.time.boundaryDue = s.time.boundaryDue := by
  unfold State.servoIfDue
  split
  · exact ⟨rfl, rfl⟩
  · exact ⟨Bool.eq_false_iff.mpr ‹_›, rfl⟩

theorem State.sliceIfDue_rests (s : State) (order : SliceOrder) :
    (s.sliceIfDue order).time.sliceDue = false ∧ (s.sliceIfDue order).time.servoDue = s.time.servoDue ∧
      (s.sliceIfDue order).time.boundaryDue = s.time.boundaryDue := by
  unfold State.sliceIfDue
  split
  · rw [State.slice_time]
    exact ⟨rfl, rfl, rfl⟩
  · exact ⟨Bool.eq_false_iff.mpr ‹_›, rfl, rfl⟩

theorem State.catchUp_nothingDue (s : State) : s.catchUp.NothingDue := by
  obtain ⟨slice, servo, boundary⟩ := s.boundaryIfDue.servoIfDue.sliceIfDue_rests .writeStepSweep
  obtain ⟨servo', boundary'⟩ := s.boundaryIfDue.servoIfDue_rests
  exact ⟨boundary.trans (boundary'.trans s.boundaryIfDue_rests), servo.trans servo', slice⟩

/-! ### The trunks' share of a house frame -/

/-- Of the trunks the receivers alone, and of the feeds their contexts. -/
structure State.Heard (s t : State) : Prop where
  inputs  : ∀ n : Fin 4, t.inputs[n] = { s.inputs[n] with receiver := t.inputs[n].receiver }
  records : ∀ f : Fin 8, t.feeds[f].record = s.feeds[f].record

namespace State.Heard

variable {s t u : State}

theorem refl (s : State) : s.Heard s := ⟨fun _ => rfl, fun _ => rfl⟩

theorem trans (h : s.Heard t) (k : t.Heard u) : s.Heard u :=
  ⟨fun n => (k.inputs n).trans (congrArg (fun x : InputTrunk => { x with receiver := u.inputs[n].receiver }) (h.inputs n)),
    fun f => (k.records f).trans (h.records f)⟩

theorem ite (c : Prop) [Decidable c] (h : s.Heard t) (k : s.Heard u) : s.Heard (if c then t else u) := by
  split <;> assumption

theorem foldl {α : Type} {g : State → α → State} (h : ∀ (s : State) (a : α), s.Heard (g s a)) (as : List α) (s : State) :
    s.Heard (as.foldl g s) := by
  induction as generalizing s with
  | nil => exact refl s
  | cons a as ih => exact (h s a).trans (ih _)

theorem updReceiver (s : State) (n : Fin 4) (g : Receiver → Receiver) : s.Heard (s.updReceiver n g) := by
  refine ⟨fun m => ?_, fun _ => rfl⟩
  by_cases own : n = m
  · subst own
    rw [State.input_updReceiver]
  · have same : (s.updReceiver n g).inputs[m] = s.inputs[m] := updAt_other _ _ _ _ own
    rw [same]

theorem trunkUnframed (s : State) (n : Fin 4) : s.Heard (s.trunkUnframed n) := by
  refine ⟨fun m => by rw [State.trunkUnframed_inputs], fun f => ?_⟩
  rw [State.trunkUnframed_feeds]
  split <;> rfl

theorem afterReceiver (s before : State) (n : Fin 4) : s.Heard (s.afterReceiver before n) := ite _ (trunkUnframed s n) (refl s)

theorem badBurst (s : State) (n : Fin 4) : s.Heard (s.badBurst n) := (updReceiver s n _).trans (afterReceiver _ s n)

theorem receive_idle (s : State) (n : Fin 4) : s.Heard (s.receive n .idle) := by
  unfold State.receive
  dsimp only
  cases (s.updReceiver n Receiver.wake).inputs[n].receiver.assembly with
  | none => exact updReceiver s n _
  | some octets => exact (updReceiver s n _).trans ((updReceiver _ n _).trans (badBurst _ n))

theorem idleFill (s : State) : s.Heard s.idleFill := by
  have loop (k : Fin 2) (s : State) : s.Heard (State.loopSymbol k s .idle) :=
    foldl (fun t n => ite _ (receive_idle t n) (refl t)) _ s
  rw [State.idleFill_eq]
  exact (loop 0 s).trans (loop 1 _)

theorem tickReceivers (s : State) : s.Heard s.tickReceivers :=
  foldl (fun t n => ite _ (updReceiver t n _) (ite _ ((updReceiver t n _).trans (afterReceiver _ t n)) (refl t))) _ s

end State.Heard

theorem State.frame_heard (s : State) (order : List (Fin 16)) : s.Heard (s.frame order) := by
  have before : s.Heard (s.assembled order) :=
    ⟨fun n => by rw [s.assembled_inputs order], fun f => (s.assembled_feedState order f).1⟩
  have after := (before.trans (.idleFill _)).trans (.tickReceivers _)
  exact ⟨fun n => by rw [State.frame_inputs]; exact after.inputs n, fun f => by rw [State.frame_feeds]; exact after.records f⟩

theorem State.assembled_output (s : State) (order : List (Fin 16)) (k : Fin 2) :
    (s.assembled order).outputs[k] =
      { s.outputs[k] with
        assembly := s.outputs[k].assembly ++ [(s.ran order).outputFrame s.outputs[k].copy]
        firstTime := if s.outputs[k].assembly.isEmpty then s.time.nextTime else s.outputs[k].firstTime } := by
  have outputs : (s.ran order).outputs = s.outputs := by rw [s.ran_eq order]
  have time : (s.ran order).time.houseTime = s.time.nextTime := by rw [s.ran_eq order]; rfl
  rw [← outputs, ← time]
  simp only [State.assembled, State.assembleOutputs, Fin.getElem_fin, mapAll_getElem]

/-! ### The programmes' share of a house frame -/

/-- Passing a frame leaves the layouts, the operands and the pages of a programme. -/
theorem Programme.passFrame_eq (p : Programme) (t : Tables) (threshold : Nat) (words : List Word32) :
    p.passFrame t threshold words = { p with
      slots := (p.passFrame t threshold words).slots, take := (p.passFrame t threshold words).take
      eIn := (p.passFrame t threshold words).eIn, align := (p.passFrame t threshold words).align
      rider := (p.passFrame t threshold words).rider, eOut := (p.passFrame t threshold words).eOut, marks := (p.passFrame t threshold words).marks
      meter := (p.passFrame t threshold words).meter, outputs := (p.passFrame t threshold words).outputs
      clips := (p.passFrame t threshold words).clips, tally := (p.passFrame t threshold words).tally
      log := { p.log with epoch := (p.passFrame t threshold words).log.epoch }
      store := { p.store with
        write := (p.passFrame t threshold words).store.write, holds := (p.passFrame t threshold words).store.holds } } := by
  unfold Programme.passFrame Programme.judgeEpoch
  dsimp only
  split <;> rfl

theorem Programme.passFrame_rider (p : Programme) (t : Tables) (threshold : Nat) (words : List Word32) :
    (p.passFrame t threshold words).rider = p.rider := by
  unfold Programme.passFrame Programme.judgeEpoch
  dsimp only
  split <;> rfl

theorem State.readied_eq (s : State) (p : Fin 16) :
    s.readied p = { s.programmes[p] with
      slots := (s.readied p).slots, take := (s.readied p).take, eIn := (s.readied p).eIn, marks := (s.readied p).marks
      align := (s.readied p).align, rider := (s.readied p).rider } := by
  have fired := s.programmes[p].fireDue_eq s.time.nextTime
  unfold State.readied
  dsimp only
  generalize s.programmes[p].fireDue s.time.nextTime = d at fired ⊢
  rw [fired]

/-- A programme that is not RUNNING changes by a take that fires and by the latch alone (R33). -/
theorem State.readied_resting (s : State) (p : Fin 16) (rests : s.programmes[p].store.state ≠ .running) :
    s.readied p = { s.programmes[p] with
      slots := (s.readied p).slots, take := (s.readied p).take, marks := (s.readied p).marks, rider := (s.readied p).rider } := by
  have align : s.programmes[p].alignAfter s.agesOf = s.programmes[p].align := if_neg fun h => rests h.1
  have eIn : (s.programmes[p].fireDue s.time.nextTime).eIn = s.programmes[p].eIn := by
    unfold Programme.fireDue
    split
    · split
      · rw [Programme.fire_resting rests]
      · rfl
    · rfl
  have fired := s.programmes[p].fireDue_eq s.time.nextTime
  rw [eIn] at fired
  unfold State.readied
  dsimp only
  rw [align]
  generalize s.programmes[p].fireDue s.time.nextTime = d at fired ⊢
  rw [fired]

/-- What a house frame leaves of a programme (R62). -/
theorem State.frame_programme (s : State) (order : List (Fin 16)) (p : Fin 16) :
    let q := s.programmes[p]
    let u := (s.frame order).programmes[p]
    u.rider = { q.rider with latched := if s.time.nextFrame.toNat % 48 = 0 then q.rider.gain else q.rider.latched } ∧
      u =
        { q with
          slots := u.slots, take := u.take, eIn := u.eIn, eOut := u.eOut, marks := u.marks, align := u.align, meter := u.meter
          rider := u.rider, outputs := u.outputs, clips := u.clips, tally := u.tally, log := { q.log with epoch := u.log.epoch }
          store := { q.store with write := u.store.write, holds := u.store.holds } } ∧
      (q.running = false → u = { q with slots := u.slots, take := u.take, marks := u.marks, rider := u.rider }) := by
  intro q u
  obtain ⟨words, passed, -⟩ := s.ran_programmes order
  have result : u = if q.running = true then (s.readied p).passFrame s.tables s.phaseThreshold (words p) else s.readied p := by
    rw [← passed p, ← s.frame_programmes order]
  have rider : (s.readied p).rider =
      { q.rider with latched := if s.time.nextFrame.toNat % 48 = 0 then q.rider.gain else q.rider.latched } := rfl
  have ready : s.readied p = { q with
      slots := (s.readied p).slots, take := (s.readied p).take, eIn := (s.readied p).eIn, marks := (s.readied p).marks
      align := (s.readied p).align, rider := (s.readied p).rider } := s.readied_eq p
  have resting (rests : q.store.state ≠ .running) : s.readied p = { q with
      slots := (s.readied p).slots, take := (s.readied p).take, marks := (s.readied p).marks, rider := (s.readied p).rider } :=
    s.readied_resting p rests
  generalize s.readied p = v at result rider ready resting
  clear_value u q
  by_cases run : q.running = true
  · rw [if_pos run] at result
    have pass := v.passFrame_eq s.tables s.phaseThreshold (words p)
    rw [← result] at pass
    refine ⟨?_, ?_, fun rests => absurd run (by rw [rests]; exact Bool.false_ne_true)⟩
    · rw [result, Programme.passFrame_rider]
      exact rider
    · rw [ready] at pass
      exact pass
  · rw [if_neg run] at result
    rw [result]
    exact ⟨rider, by rw [ready], fun _ => resting (mt q.running_iff.mpr run)⟩

theorem State.frame_output (s : State) (order : List (Fin 16)) (k : Fin 2) :
    (s.frame order).outputs[k] =
      { s.outputs[k] with assembly := (s.frame order).outputs[k].assembly, firstTime := (s.frame order).outputs[k].firstTime } := by
  rw [State.frame_outputs, State.assembled_output]

/-- Settles O7: time, the trunks, the feeds and the programmes of a frame, and the events taken before it. -/
theorem houseFrameAdvancesTimeAndLatchesGains : Obligations.HouseFrameAdvancesTimeAndLatchesGains := by
  refine fun s order => ⟨fun nothing slots => ?_, fun nothing stops => ?_,
    s.boundaryIfDue, s.boundaryIfDue.servoIfDue, s.catchUp, rfl, rfl, rfl, s.catchUp_nothingDue, ?_⟩
  · have row := exec_houseFrame nothing slots order
    have heard := s.frame_heard order
    have beside := (s.frame_beside order).eq
    have time := (s.frame_time order).trans (Timebase.oscillate_eq _)
    have outputs := s.frame_output order
    have programmes := s.frame_programme order
    generalize s.frame order = t at row heard beside time outputs programmes
    refine ⟨t, row, ?_, ?_, ?_, ?_, ?_, ?_, ?_, ?_, beside, heard.records, heard.inputs, outputs, programmes⟩
    all_goals rw [time]
    · rfl
    · rfl
    · rfl
    · rfl
    · simp only [Timebase.frame, Bool.or_eq_true, decide_eq_true_iff]
    · exact decide_eq_true_iff
    · exact decide_eq_true_iff
    · rfl
  · change execHouseFrame order s = _
    rw [execHouseFrame, State.catchUp_of_nothingDue nothing, if_neg (by rw [stops]; exact Bool.false_ne_true)]
  · change execHouseFrame order s = execHouseFrame order s.catchUp
    rw [execHouseFrame, execHouseFrame, State.catchUp_of_nothingDue s.catchUp_nothingDue]

end Sys2Proof.Machine
end

