-- ==== Sys2Proof/Proofs/FrameReads.lean ====
section
/-! SUPPORT. What a RUNNING programme does with the frame that it fetches (R36 to R38, R56, R57, R75, R113). -/

namespace Sys2Proof.Machine

/-! ### The delay line under the law of pages -/

/-- The words that a RUNNING programme fetches at a house frame, and what it makes of them. -/
theorem State.frame_line {s : State} (law : s.PageLaw) (order : List (Fin 16)) {p : Fin 16} (run : s.programmes[p].running = true) :
    let q := s.programmes[p].fireDue s.time.nextTime
    let slot := (((q.store.write : Int) - 1 - q.align.delay) % ((128 * q.store.pages.length : Nat) : Int)).toNat
    ∃ (r : RiderContext) (a : AlignContext), a.muted = q.align.muted ∧
      (s.frame order).programmes[p] =
        ({ q with rider := r, align := a } : Programme).passFrame s.tables s.phaseThreshold (s.store.readSlot q.store slot) := by
  intro q slot
  obtain ⟨words, passed, read⟩ := s.ran_programmes order
  have fired : q = _ := s.programmes[p].fireDue_eq s.time.nextTime
  have store : q.store = s.programmes[p].store := by rw [fired]
  have align : q.align = s.programmes[p].align := by rw [fired]
  have fetched : s.fetched p = s.store.readSlot q.store slot := by
    rw [State.fetched, store]
    have same : slot = s.programmes[p].fetchSlot := by
      simp only [slot]
      rw [store, align]
      rfl
    rw [same]
  have line := passed p
  rw [if_pos run, read law p, fetched] at line
  refine ⟨_, s.programmes[p].alignAfter s.agesOf, ?_, (congrArg (·[p]) (s.frame_programmes order)).trans line⟩
  rw [align]
  exact (Programme.alignAfter_line ..).2.1

/-! ### One frame measured (R82) -/

/-- The measuring of a frame, position by position (R82). -/
def measurePositions (t : Tables) (set : Fin 4) (layout : Layout) (frame : Vector Handed 8) (fs : List (Fin 8)) (m : MeterContext) :
    MeterContext :=
  fs.foldl (fun m i =>
    match layout[i.val]? with
    | some pos => measurePosition t set pos.weight frame[i].sample i m
    | none => m) m

theorem MeterContext.measure_positions (t : Tables) (set : Fin 4) (layout : Layout) (frame : Vector Handed 8) (m : MeterContext) :
    m.measure t set layout frame =
      { measurePositions t set layout frame (List.finRange 8) m with
        measured := (measurePositions t set layout frame (List.finRange 8) m).measured + 1
        substituted :=
          if substitutedFrame layout frame then (measurePositions t set layout frame (List.finRange 8) m).substituted + 1
          else (measurePositions t set layout frame (List.finRange 8) m).substituted } := rfl

/-- Measuring positions moves filter states, peaks and the power sum alone. -/
theorem measurePositions_eq (t : Tables) (set : Fin 4) (layout : Layout) (frame : Vector Handed 8) (fs : List (Fin 8)) (m : MeterContext) :
    measurePositions t set layout frame fs m = { m with
      filter := (measurePositions t set layout frame fs m).filter, peaks := (measurePositions t set layout frame fs m).peaks
      powerSum := (measurePositions t set layout frame fs m).powerSum } := by
  unfold measurePositions
  induction fs generalizing m with
  | nil => rfl
  | cons i fs ih =>
    rw [List.foldl_cons]
    cases layout[i.val]? with
    | none => exact ih m
    | some pos => exact ih (measurePosition t set pos.weight frame[i].sample i m)

/-- Measuring a frame moves the accumulators, the filter states and the peaks alone. -/
theorem MeterContext.measure_eq (t : Tables) (set : Fin 4) (layout : Layout) (frame : Vector Handed 8) (m : MeterContext) :
    m.measure t set layout frame = { m with
      filter := (m.measure t set layout frame).filter, powerSum := (m.measure t set layout frame).powerSum
      measured := (m.measure t set layout frame).measured, substituted := (m.measure t set layout frame).substituted
      peaks := (m.measure t set layout frame).peaks } := by
  have positions := measurePositions_eq t set layout frame (List.finRange 8) m
  rw [MeterContext.measure_positions]
  dsimp only
  generalize measurePositions t set layout frame (List.finRange 8) m = n at positions
  rw [positions]

/-! ### The frame handed on (R56, R57, R75) -/

/-- The sample that a position of a programme hands on (R57, R75). -/
def Programme.handedSample (p : Programme) (words : List Word32) (i : Fin 8) : Sample :=
  if p.align.muted then 0
  else match words[i.val]?.bind unpackWord with
    | some x => x.sample
    | none => p.store.holds[i]

theorem Programme.handedFrame_sample (p : Programme) (words : List Word32) (i : Fin 8) :
    (p.handedFrame words)[i].sample = p.handedSample words i := by
  unfold Programme.handedFrame Programme.handedSample
  split
  · unfold mutedFrame
    simp only [Fin.getElem_fin, Vector.getElem_replicate]
  · unfold handFrame
    simp only [Fin.getElem_fin, Vector.getElem_ofFn]
    unfold handWord
    cases words[i.val]?.bind unpackWord <;> rfl

theorem filter_below {n : Nat} : (List.finRange 8).filter (fun i => decide (i.val < n)) = (List.finRange 8).take n := by
  by_cases whole : 8 ≤ n
  · rw [List.take_of_length_le (by rw [List.length_finRange]; exact whole), List.filter_eq_self]
    exact fun i _ => decide_eq_true (by omega)
  · have few : n < 8 := Nat.not_le.mp whole
    interval_cases n <;> rfl

/-- The output samples, one for each position of the out-layout (R113). -/
theorem Programme.outputSamples_getElem (p : Programme) (t : Tables) (frame : Vector Handed 8) {i : Fin 8} (inside : i.val < p.outLayout.length) :
    (p.outputSamples t frame)[i.val]? = some (ceilingTo p.level.ceiling (gained t p.rider.latched frame[i].sample)) := by
  unfold Programme.outputSamples
  rw [filter_below, List.getElem?_map, List.getElem?_take_of_lt inside, List.getElem?_eq_getElem (by rw [List.length_finRange]; exact i.isLt),
    List.getElem_finRange]
  rfl

/-! ### The output epoch switch (R36 to R38) -/

section Switch

variable {p : Programme} {words : List Word32}

theorem Programme.switches_iff {e : BitVec 2} : p.switches e = true ↔ e = p.eOut + 1 ∧ p.eOut ≠ p.eIn := by
  rw [Programme.switches, Bool.and_eq_true, beq_iff_eq, bne_iff_ne]

theorem Programme.judgeEpoch_switches (h : frameEpoch p.eOut words = p.eOut + 1 ∧ p.eOut ≠ p.eIn) : p.judgeEpoch words = p.switchEpoch :=
  if_pos (Programme.switches_iff.mpr h)

theorem Programme.judgeEpoch_stays (h : ¬ (frameEpoch p.eOut words = p.eOut + 1 ∧ p.eOut ≠ p.eIn)) : p.judgeEpoch words = p :=
  if_neg (mt Programme.switches_iff.mp h)

/-- An output epoch switch moves the output epoch, the meter, the restart marks and the EPOCH mark alone (R37). -/
theorem Programme.judgeEpoch_eq (p : Programme) (words : List Word32) :
    p.judgeEpoch words = { p with
      eOut := (p.judgeEpoch words).eOut, meter := (p.judgeEpoch words).meter, marks := (p.judgeEpoch words).marks
      log := (p.judgeEpoch words).log } := by
  unfold Programme.judgeEpoch
  split <;> rfl

theorem Programme.judgeEpoch_handed (p : Programme) (words : List Word32) (i : Fin 8) :
    (p.judgeEpoch words).handedSample words i = p.handedSample words i := by
  rw [Programme.judgeEpoch_eq]
  rfl

end Switch

theorem Programme.passFrame_switches {p : Programme} {words : List Word32}
    (h : frameEpoch p.eOut words = p.eOut + 1 ∧ p.eOut ≠ p.eIn) (t : Tables) (threshold : Nat) :
    p.passFrame t threshold words = (p.switchEpoch.takeFrame t threshold (p.switchEpoch.handedFrame words)).stepWrite := by
  rw [Programme.passFrame, Programme.judgeEpoch_switches h]

theorem Programme.passFrame_stays {p : Programme} {words : List Word32}
    (h : ¬ (frameEpoch p.eOut words = p.eOut + 1 ∧ p.eOut ≠ p.eIn)) (t : Tables) (threshold : Nat) :
    p.passFrame t threshold words = (p.takeFrame t threshold (p.handedFrame words)).stepWrite := by
  rw [Programme.passFrame, Programme.judgeEpoch_stays h]

theorem Programme.passFrame_holds (p : Programme) (t : Tables) (threshold : Nat) (words : List Word32) (i : Fin 8) :
    (p.passFrame t threshold words).store.holds[i] = p.handedSample words i := by
  rw [← p.judgeEpoch_handed, ← Programme.handedFrame_sample]
  unfold Programme.passFrame Programme.stepWrite Programme.takeFrame
  simp only [Fin.getElem_fin, Vector.getElem_ofFn]

theorem Programme.passFrame_outputs (p : Programme) (t : Tables) (threshold : Nat) (words : List Word32) {i : Fin 8}
    (inside : i.val < (p.passFrame t threshold words).outLayout.length) :
    (p.passFrame t threshold words).outputs[i.val]? =
      some (ceilingTo p.level.ceiling (gained t p.rider.latched ((p.passFrame t threshold words).store.holds[i]))) := by
  have operands : (p.judgeEpoch words).level = p.level ∧ (p.judgeEpoch words).rider = p.rider := by
    rw [Programme.judgeEpoch_eq]
    exact ⟨rfl, rfl⟩
  rw [Programme.passFrame_holds, ← p.judgeEpoch_handed, ← Programme.handedFrame_sample, ← operands.1, ← operands.2]
  exact Programme.outputSamples_getElem (p.judgeEpoch words) t _ inside

/-- Settles O10: the frame fetched, the epoch it brings, what it hands on, and the output samples. -/
theorem houseFrameReadsTheRing : Obligations.HouseFrameReadsTheRing := by
  intro s order nothing slots law
  refine ⟨_, exec_houseFrame nothing slots order, fun p run => ?_⟩
  intro q slot words epoch u counts
  obtain ⟨r, a, muted, line⟩ := State.frame_line law order run
  have passed : u = ({ q with rider := r, align := a } : Programme).passFrame s.tables s.phaseThreshold words := line
  have inEpoch : u.eIn = q.eIn := by
    rw [passed]
    exact (Programme.passFrame_epochs rfl rfl s.tables s.phaseThreshold words).2.1
  refine ⟨inEpoch, fun switches => ?_, fun stays => ?_, fun i => ?_, fun i inside => ?_⟩
  · have switched : u = _ := passed.trans (Programme.passFrame_switches (p := { q with rider := r, align := a }) switches _ _)
    have measured {m : MeterContext} (same : ({ q with rider := r, align := a } : Programme).switchEpoch.meter = m) : counts m := by
      simp only [counts]
      rw [switched, ← same]
      exact MeterContext.measure_eq ..
    have out : u.eOut = q.eOut + 1 := congrArg Programme.eOut switched
    have marks : u.marks = q.marks.set (slotOf (q.eOut + 1)) false := congrArg Programme.marks switched
    have log : u.log = { q.log with epoch := true } := congrArg Programme.log switched
    have restarted (marked : q.marks[slotOf (q.eOut + 1)] = true) : counts q.meter.zeroFilter.restart := measured (if_pos marked)
    have kept (unmarked : q.marks[slotOf (q.eOut + 1)] = false) : counts q.meter.zeroFilter :=
      measured (if_neg (by rw [unmarked]; exact Bool.false_ne_true))
    have finish (e : BitVec 2) (same : e = q.eOut + 1) :
        e = q.eOut + 1 ∧ u.marks = q.marks.set (slotOf e) false ∧ u.log = { q.log with epoch := true } ∧
          (q.marks[slotOf e] = true → counts q.meter.zeroFilter.restart) ∧ (q.marks[slotOf e] = false → counts q.meter.zeroFilter) := by
      cases same
      exact ⟨rfl, marks, log, restarted, kept⟩
    exact finish u.eOut out
  · have stayed : u = _ := passed.trans (Programme.passFrame_stays (p := { q with rider := r, align := a }) stays _ _)
    refine ⟨(congrArg Programme.eOut stayed :), (congrArg Programme.marks stayed :), (congrArg Programme.log stayed :), ?_⟩
    simp only [counts]
    rw [stayed]
    exact MeterContext.measure_eq ..
  · rw [passed, Programme.passFrame_holds, Programme.handedSample]
    dsimp only
    rw [muted] <;> rfl
  · have rider : u.rider = r := by rw [passed, Programme.passFrame_rider]
    rw [rider]
    rw [passed] at inside ⊢
    exact Programme.passFrame_outputs _ _ _ _ inside

end Sys2Proof.Machine
end

