-- ==== Sys2Proof/Proofs/FrameMeasures.lean ====
section
/-! SUPPORT. What the meter, the PHASE tally, the clip counts and the output frames take from a frame handed on (R42, R82 to R87, R114, R116,
R123). -/

namespace Sys2Proof.Machine

/-! ### The positions of a frame measured (R82, R84 to R87) -/

section Measure

variable (t : Tables) (set : Fin 4) (layout : Layout) (frame : Vector Handed 8)

/-- The filter of a position after it has passed the sample of its position (R84, R85). -/
def passedFilter (m : MeterContext) (i : Fin 8) : FilterState × Int := filterPosition t set m.filter[i] frame[i].sample.toInt

/-- The weighted power that a position adds (R86); none beyond the layout. -/
def positionPower (m : MeterContext) (i : Fin 8) : Nat :=
  match layout[i.val]? with
  | some pos => weightedPower t pos.weight (passedFilter t set frame m i).2
  | none => 0

theorem measurePosition_own (weight : Fin 16) (i : Fin 8) (m : MeterContext) :
    (measurePosition t set weight frame[i].sample i m).filter[i] = (passedFilter t set frame m i).1 ∧
      (measurePosition t set weight frame[i].sample i m).peaks[i] = max m.peaks[i] frame[i].sample.toInt.natAbs ∧
      (measurePosition t set weight frame[i].sample i m).powerSum = m.powerSum + weightedPower t weight (passedFilter t set frame m i).2 :=
  ⟨Vector.getElem_set_self i.isLt, updAt_same .., rfl⟩

theorem measurePosition_other (weight : Fin 16) (x : Sample) {i j : Fin 8} (other : i ≠ j) (m : MeterContext) :
    (measurePosition t set weight x i m).filter[j] = m.filter[j] ∧ (measurePosition t set weight x i m).peaks[j] = m.peaks[j] :=
  ⟨Vector.getElem_set_ne i.isLt j.isLt fun same => other (Fin.ext same), updAt_other _ _ _ _ other⟩

/-- Measuring positions leaves the others as they were. -/
theorem measurePositions_other {fs : List (Fin 8)} {i : Fin 8} (other : i ∉ fs) (m : MeterContext) :
    (measurePositions t set layout frame fs m).filter[i] = m.filter[i] ∧ (measurePositions t set layout frame fs m).peaks[i] = m.peaks[i] := by
  unfold measurePositions
  induction fs generalizing m with
  | nil => exact ⟨rfl, rfl⟩
  | cons j fs ih =>
    obtain ⟨ne, rest⟩ := not_or.mp (mt List.mem_cons.mpr other)
    rw [List.foldl_cons]
    cases layout[j.val]? with
    | none => exact ih rest m
    | some pos =>
      obtain ⟨filter, peaks⟩ := ih rest (measurePosition t set pos.weight frame[j].sample j m)
      obtain ⟨filter', peaks'⟩ := measurePosition_other t set pos.weight frame[j].sample (Ne.symm ne) m
      exact ⟨filter.trans filter', peaks.trans peaks'⟩

/-- What measuring positions makes of each, and of the power sum. -/
theorem measurePositions_spec (fs : List (Fin 8)) (once : fs.Nodup) (m : MeterContext) :
    (∀ i ∈ fs, layout[i.val]? = none →
      (measurePositions t set layout frame fs m).filter[i] = m.filter[i] ∧
        (measurePositions t set layout frame fs m).peaks[i] = m.peaks[i]) ∧
    (∀ i ∈ fs, ∀ pos, layout[i.val]? = some pos →
      (measurePositions t set layout frame fs m).filter[i] = (passedFilter t set frame m i).1 ∧
        (measurePositions t set layout frame fs m).peaks[i] = max m.peaks[i] frame[i].sample.toInt.natAbs) ∧
    (measurePositions t set layout frame fs m).powerSum = m.powerSum + (fs.map (positionPower t set layout frame m)).sum := by
  induction fs generalizing m with
  | nil => exact ⟨nofun, nofun, rfl⟩
  | cons j fs ih =>
    obtain ⟨fresh, rest⟩ := List.nodup_cons.mp once
    -- the position measured first, and then the others
    obtain ⟨n, step, same, power⟩ : ∃ n : MeterContext,
        measurePositions t set layout frame (j :: fs) m = measurePositions t set layout frame fs n ∧
        (∀ i : Fin 8, j ≠ i → n.filter[i] = m.filter[i] ∧ n.peaks[i] = m.peaks[i]) ∧
        n.powerSum = m.powerSum + positionPower t set layout frame m j ∧
        (layout[j.val]? = none → n.filter[j] = m.filter[j] ∧ n.peaks[j] = m.peaks[j]) ∧
        ∀ pos, layout[j.val]? = some pos →
          n.filter[j] = (passedFilter t set frame m j).1 ∧ n.peaks[j] = max m.peaks[j] frame[j].sample.toInt.natAbs := by
      unfold positionPower
      cases here : layout[j.val]? with
      | none =>
        refine ⟨m, ?_, fun _ _ => ⟨rfl, rfl⟩, rfl, fun _ => ⟨rfl, rfl⟩, nofun⟩
        unfold measurePositions
        rw [List.foldl_cons, here]
      | some pos =>
        obtain ⟨filter, peaks, power⟩ := measurePosition_own t set frame pos.weight j m
        refine ⟨measurePosition t set pos.weight frame[j].sample j m, ?_, fun i ne => measurePosition_other t set _ _ ne m, power, nofun,
          fun _ _ => ⟨filter, peaks⟩⟩
        unfold measurePositions
        rw [List.foldl_cons, here]
    obtain ⟨power, beyond, inside⟩ := power
    obtain ⟨ihBeyond, ihInside, ihPower⟩ := ih rest n
    have other {i : Fin 8} (mem : i ∈ fs) : j ≠ i := fun own => fresh (own ▸ mem)
    have first := measurePositions_other t set layout frame fresh n
    rw [step]
    refine ⟨fun i mem none_ => ?_, fun i mem pos some_ => ?_, ?_⟩
    · by_cases own : i = j
      · subst own
        obtain ⟨filter, peaks⟩ := beyond none_
        exact ⟨first.1.trans filter, first.2.trans peaks⟩
      · have later := (List.mem_cons.mp mem).resolve_left own
        obtain ⟨filter, peaks⟩ := same i (Ne.symm own)
        obtain ⟨filter', peaks'⟩ := ihBeyond i later none_
        exact ⟨filter'.trans filter, peaks'.trans peaks⟩
    · by_cases own : i = j
      · subst own
        obtain ⟨filter, peaks⟩ := inside pos some_
        exact ⟨first.1.trans filter, first.2.trans peaks⟩
      · have later := (List.mem_cons.mp mem).resolve_left own
        obtain ⟨filter, peaks⟩ := same i (Ne.symm own)
        obtain ⟨filter', peaks'⟩ := ihInside i later pos some_
        rw [passedFilter, filter] at filter'
        rw [peaks] at peaks'
        exact ⟨filter', peaks'⟩
    · have rest : fs.map (positionPower t set layout frame n) = fs.map (positionPower t set layout frame m) := by
        refine List.map_congr_left fun i mem => ?_
        unfold positionPower passedFilter
        rw [(same i (other mem)).1]
      rw [ihPower, power, rest, List.map_cons, List.sum_cons, Nat.add_assoc]

end Measure

theorem succ_ne_epoch (e : BitVec 2) : e + 1 ≠ e := by
  revert e
  decide

/-! ### What a programme hands on, and what it makes of its contexts -/

section Handed

variable (p : Programme) (t : Tables) (threshold : Nat) (words : List Word32)

/-- A position is handed on with the substituted mark when the frame is muted, its word fails parity, or its word bears the mark (R57, R75). -/
theorem Programme.handedFrame_substituted (i : Fin 8) :
    (p.handedFrame words)[i].substituted = true ↔
      p.align.muted = true ∨ words[i.val]?.bind unpackWord = none ∨
        ∃ x, words[i.val]?.bind unpackWord = some x ∧ x.substituted = true := by
  unfold Programme.handedFrame
  cases muted : p.align.muted with
  | true =>
    rw [if_pos rfl]
    unfold mutedFrame
    simp only [Fin.getElem_fin, Vector.getElem_replicate, true_or]
  | false =>
    rw [if_neg Bool.false_ne_true]
    unfold handFrame handWord
    simp only [Fin.getElem_fin, Vector.getElem_ofFn]
    cases words[i.val]?.bind unpackWord <;> simp

theorem substitutedFrame_iff (layout : Layout) (frame : Vector Handed 8) :
    substitutedFrame layout frame = true ↔ ∃ i : Fin 8, i.val < layout.length ∧ frame[i].substituted = true := by
  simp [substitutedFrame]

/-- The frame is taken after the epoch has been judged, with the layout that then stands (R56, R82, R114, R123). -/
theorem Programme.passFrame_takes :
    let u := p.passFrame t threshold words
    let frame := (p.judgeEpoch words).handedFrame words
    (p.judgeEpoch words).outLayout = u.outLayout ∧
      u.meter = (p.judgeEpoch words).meter.measure t p.level.filterSet u.outLayout frame ∧
      u.tally = (p.judgeEpoch words).countPhase threshold frame ∧ u.clips = (p.judgeEpoch words).countClips t frame := by
  have level : (p.judgeEpoch words).level = p.level := by rw [Programme.judgeEpoch_eq]
  refine ⟨rfl, ?_, rfl, rfl⟩
  rw [← level]
  rfl

/-- The meter that a frame is measured with: as it stood, or restarted and with its filter states at zero by an output epoch switch (R37,
R85, R96). -/
theorem Programme.judgeEpoch_meter {b : Programme} {e : BitVec 2} (judged : p.judgeEpoch words = b) (out : e = b.eOut) :
    let restarts := e ≠ p.eOut ∧ p.marks[slotOf e] = true
    b.meter.measured = (if restarts then 0 else p.meter.measured) ∧
      b.meter.substituted = (if restarts then 0 else p.meter.substituted) ∧
      b.meter.powerSum = (if restarts then 0 else p.meter.powerSum) ∧ b.meter.peaks = p.meter.peaks ∧
      ∀ i : Fin 8, b.meter.filter[i] = if e = p.eOut then p.meter.filter[i] else FilterState.initial := by
  subst out
  by_cases switches : frameEpoch p.eOut words = p.eOut + 1 ∧ p.eOut ≠ p.eIn
  · obtain rfl := (Programme.judgeEpoch_switches switches).symm.trans judged
    have moved : p.switchEpoch.eOut ≠ p.eOut := fun same => succ_ne_epoch p.eOut same
    have zero (i : Fin 8) : p.meter.zeroFilter.filter[i] = FilterState.initial := Vector.getElem_replicate ..
    have filter (m : MeterContext) (same : m.filter = p.meter.zeroFilter.filter) (i : Fin 8) :
        m.filter[i] = if p.switchEpoch.eOut = p.eOut then p.meter.filter[i] else FilterState.initial := by
      rw [same, if_neg moved]
      exact zero i
    intro restarts
    by_cases mark : p.marks[slotOf (p.eOut + 1)] = true
    · have yes : restarts := ⟨moved, mark⟩
      have made : p.switchEpoch.meter = p.meter.zeroFilter.restart := if_pos mark
      rw [if_pos yes, if_pos yes, if_pos yes, made]
      exact ⟨rfl, rfl, rfl, rfl, filter _ rfl⟩
    · have no : ¬ restarts := fun both => mark both.2
      have made : p.switchEpoch.meter = p.meter.zeroFilter := if_neg mark
      rw [if_neg no, if_neg no, if_neg no, made]
      exact ⟨rfl, rfl, rfl, rfl, filter _ rfl⟩
  · obtain rfl := (Programme.judgeEpoch_stays switches).symm.trans judged
    intro restarts
    have no : ¬ restarts := fun both => both.1 rfl
    rw [if_neg no, if_neg no, if_neg no]
    exact ⟨rfl, rfl, rfl, rfl, fun _ => (if_pos rfl).symm⟩

end Handed

/-- The clip counts of a frame: a position of the layout counts when its sample under gain lies beyond the ceiling (R114). -/
theorem Programme.countClips_getElem (p : Programme) (t : Tables) (frame : Vector Handed 8) (i : Fin 8) :
    let y := (frame[i].sample.toInt * ((t.gains.getD p.rider.latched 0).toNat : Int) + 524288) / 1048576
    (i.val < p.outLayout.length →
      (p.countClips t frame)[i] = if y < -(p.level.ceiling : Int) ∨ (p.level.ceiling : Int) < y then p.clips[i] + 1 else p.clips[i]) ∧
    (p.outLayout.length ≤ i.val → (p.countClips t frame)[i] = p.clips[i]) := by
  intro y
  have clip : isClip p.level.ceiling (gained t p.rider.latched frame[i].sample) = true ↔
      y < -(p.level.ceiling : Int) ∨ (p.level.ceiling : Int) < y := by
    unfold isClip
    rw [Bool.or_eq_true, decide_eq_true_iff, decide_eq_true_iff]
    exact Iff.rfl
  simp only [Programme.countClips, Fin.getElem_fin, mapAll_getElem] at *
  refine ⟨fun inside => if_congr ((and_iff_right inside).trans clip) rfl rfl, fun beyond => if_neg fun both => absurd both.1 beyond.not_gt⟩

/-- What the read side makes of the contexts of a programme in taking the frame of the words it fetches, read off the programme after it
(R82, R114, R123): `b` is the programme once the epoch has been judged. -/
theorem Programme.passFrame_contexts {p b u : Programme} {t : Tables} {threshold : Nat} {words : List Word32}
    (passed : u = p.passFrame t threshold words) (judged : p.judgeEpoch words = b) :
    let frame := b.handedFrame words
    u.eOut = b.eOut ∧ u.rider = p.rider ∧ u.meter = b.meter.measure t p.level.filterSet u.outLayout frame ∧
      (∀ i : Fin 8, frame[i].sample = u.store.holds[i]) ∧
      (∀ i : Fin 8, frame[i].substituted = true ↔ p.align.muted = true ∨ words[i.val]?.bind unpackWord = none ∨
        ∃ x, words[i.val]?.bind unpackWord = some x ∧ x.substituted = true) ∧
      u.clips = b.countClips t frame ∧ u.tally = b.countPhase threshold frame ∧
      b.outLayout = u.outLayout ∧ b.level = p.level ∧ b.rider = p.rider ∧ b.clips = p.clips ∧ b.tally = p.tally := by
  have kept := p.judgeEpoch_eq words
  have sampled := p.judgeEpoch_handed words
  have holds := p.passFrame_holds t threshold words
  have taken := p.passFrame_takes t threshold words
  have rider := p.passFrame_rider t threshold words
  have out : (p.passFrame t threshold words).eOut = (p.judgeEpoch words).eOut := rfl
  rw [← passed] at holds taken rider out
  rw [judged] at kept sampled taken out
  obtain ⟨layout, meter, tally, clips⟩ := taken
  have same : b.level = p.level ∧ b.rider = p.rider ∧ b.clips = p.clips ∧ b.tally = p.tally ∧ b.align = p.align := by
    rw [kept]
    exact ⟨rfl, rfl, rfl, rfl, rfl⟩
  obtain ⟨levels, riders, counts, tallies, aligns⟩ := same
  refine ⟨out, rider, meter, fun i => ?_, fun i => ?_, clips, tally, layout, levels, riders, counts, tallies⟩
  · exact (b.handedFrame_sample words i).trans ((sampled i).trans (holds i).symm)
  · rw [b.handedFrame_substituted, aligns]

/-- The filter states, the peaks and the power sum after a frame measured, position by position (R82, R84 to R87). -/
theorem MeterContext.measure_spec (t : Tables) (set : Fin 4) (layout : Layout) (frame : Vector Handed 8) (m : MeterContext) :
    let u := m.measure t set layout frame
    u.measured = m.measured + 1 ∧
      u.substituted = (if substitutedFrame layout frame then m.substituted + 1 else m.substituted) ∧
      (∀ i : Fin 8, (i.val < layout.length →
          u.filter[i] = (passedFilter t set frame m i).1 ∧ u.peaks[i] = max m.peaks[i] frame[i].sample.toInt.natAbs) ∧
        (layout.length ≤ i.val → u.filter[i] = m.filter[i] ∧ u.peaks[i] = m.peaks[i])) ∧
      u.powerSum = m.powerSum + ((List.finRange 8).map fun i =>
        match layout[i.val]? with
        | some pos => weightedPower t pos.weight u.filter[i].stage2.y1
        | none => 0).sum := by
  have kept := measurePositions_eq t set layout frame (List.finRange 8) m
  obtain ⟨beyond, inside, power⟩ := measurePositions_spec t set layout frame (List.finRange 8) (List.nodup_finRange 8) m
  rw [MeterContext.measure_positions]
  generalize measurePositions t set layout frame (List.finRange 8) m = n at kept beyond inside power
  have counts : n.measured = m.measured ∧ n.substituted = m.substituted := by
    rw [kept]
    exact ⟨rfl, rfl⟩
  dsimp only
  rw [counts.1, counts.2]
  refine ⟨rfl, rfl, fun i => ⟨fun under => ?_, fun past => ?_⟩, ?_⟩
  · exact inside i (List.mem_finRange i) _ (List.getElem?_eq_getElem under)
  · exact beyond i (List.mem_finRange i) (List.getElem?_eq_none past)
  · rw [power]
    congr 2
    refine List.map_congr_left fun i mem => ?_
    unfold positionPower
    cases here : layout[i.val]? with
    | none => rfl
    | some pos =>
      dsimp only
      rw [(inside i mem pos here).1]
      rfl

/-- Settles O11: the meter, the tally and the clip counts of each RUNNING programme, and the output bursts under assembly. -/
theorem houseFrameMeasuresAndAssembles : Obligations.HouseFrameMeasuresAndAssembles := by
  intro s order nothing slots law
  refine ⟨_, exec_houseFrame nothing slots order, fun p run => ?_, fun k => ?_⟩
  · obtain ⟨r, a, muted, line⟩ := State.frame_line law order run
    generalize s.frame order = after at line
    intro q slot words u restarts marked coefficient output
    obtain ⟨b, judged⟩ : ∃ b, ({ q with rider := r, align := a } : Programme).judgeEpoch words = b := ⟨_, rfl⟩
    obtain ⟨out, rider, meter, handed, bears, clips, tally, layout, sameLevel, sameRider, sameClips, sameTally⟩ :=
      Programme.passFrame_contexts (u := u) line judged
    obtain ⟨measured, substituted, power, peaks, filter⟩ := Programme.judgeEpoch_meter _ _ judged out
    generalize b.handedFrame words = frame at meter handed bears clips tally
    rw [muted] at bears
    have bearing : substitutedFrame u.outLayout frame = true ↔ ∃ i : Fin 8, i.val < u.outLayout.length ∧ marked i :=
      (substitutedFrame_iff ..).trans (exists_congr fun i => and_congr_right fun _ => bears i)
    have clipped := b.countClips_getElem s.tables frame
    rw [← clips, layout, sameLevel, sameClips, sameRider, ← rider] at clipped
    obtain ⟨mMeasured, mSubstituted, mPositions, mPower⟩ :=
      b.meter.measure_spec s.tables q.level.filterSet u.outLayout frame
    rw [← meter] at mMeasured mSubstituted mPositions mPower
    unfold Programme.countPhase at tally
    rw [layout, sameTally] at tally
    refine ⟨?_, fun some => ?_, fun none => ?_, ?_, fun i => ?_, fun missing => ?_, fun l r left right => ?_⟩
    · rw [mMeasured, measured]
    · rw [mSubstituted, substituted, if_pos (bearing.mpr some)]
    · rw [mSubstituted, substituted, if_neg (fun bears => by
        obtain ⟨i, under, mark⟩ := bearing.mp bears
        exact none i under mark)]
    · rw [mPower, power]
      rfl
    · obtain ⟨under, past⟩ := mPositions i
      obtain ⟨clip, unclipped⟩ := clipped i
      rw [filter i, peaks] at past
      rw [passedFilter, filter i, peaks, handed i] at under
      rw [handed i] at clip
      exact ⟨fun inside => ⟨(under inside).1, (under inside).2, clip inside⟩,
        fun beyond => ⟨(past beyond).1, (past beyond).2, unclipped beyond⟩⟩
    · rw [tally]
      split
      · next l r left right => exact absurd missing (by rw [left, right]; nofun)
      · rfl
    · rw [left, right] at tally
      dsimp only at tally
      rw [handed l, handed r] at tally
      exact tally
  · have output := s.assembled_output order k
    have frame : (s.ran order).outputFrame = (s.frame order).outputFrame := by
      funext m
      unfold State.outputFrame State.entrySample
      rw [← s.frame_programmes order]
    rw [frame, ← s.frame_outputs order] at output
    generalize s.frame order = after at output
    intro o
    rw [output]
    refine ⟨rfl, rfl, ?_, ?_⟩
    · exact if_congr List.isEmpty_iff rfl rfl
    · exact rfl

end Sys2Proof.Machine
end

