-- ==== Sys2Proof/Proofs/FrameFaults.lean ====
section
/-! SUPPORT. The parity faults of a house frame: which they are, and what the fault record and the retire table make of them (R57 to R59). -/

namespace Sys2Proof.Machine

/-! ### Faults offered one after another (R58, R59) -/

/-- A valid record counts what is offered to it, to at most 255. -/
theorem FaultRecord.offers_valid {r : FaultRecord} (valid : r.valid = true) (few : r.further ≤ 255) (fs : List ParityFault) :
    fs.foldl FaultRecord.offer r = { r with further := min 255 (r.further + fs.length) } := by
  induction fs generalizing r with
  | nil =>
    rw [List.foldl_nil, List.length_nil, Nat.add_zero, Nat.min_eq_right few]
  | cons f fs ih =>
    have step : r.offer f = { r with further := min (r.further + 1) 255 } := by
      rw [← bump_min]
      exact if_pos valid
    rw [List.foldl_cons, step, ih (r := { r with further := min (r.further + 1) 255 }) valid (Nat.min_le_right _ _), List.length_cons]
    congr 1
    dsimp only
    omega

/-- An empty record takes the first fault offered and counts the others. -/
theorem FaultRecord.offers_empty {r : FaultRecord} (empty : r.valid = false) {f : ParityFault} {fs : List ParityFault}
    (first : fs.head? = some f) :
    fs.foldl FaultRecord.offer r =
      { valid := true, page := f.page, offset := f.offset, programme := f.programme, time := f.time, further := min 255 (fs.length - 1) } := by
  obtain ⟨rest, rfl⟩ := List.head?_eq_some_iff.mp first
  have step : r.offer f = { valid := true, page := f.page, offset := f.offset, programme := f.programme, time := f.time, further := 0 } :=
    if_neg (by rw [empty]; exact Bool.false_ne_true)
  rw [List.foldl_cons, step, FaultRecord.offers_valid rfl (Nat.zero_le _), List.length_cons, Nat.zero_add, Nat.add_sub_cancel]

theorem retireEntry_again (retired : List Page) (page : Page) :
    retireEntry (retireEntry retired page) page = retireEntry retired page := by
  unfold retireEntry
  by_cases listed : retired.contains page = true
  · rw [if_pos listed, if_pos listed]
  · rw [if_neg listed]
    by_cases room : retired.length < 32
    · rw [if_pos room, if_pos (by simp)]
    · rw [if_neg room, if_neg listed, if_neg room]

/-- Faults of one page enter it once. -/
theorem retire_onePage {page : Page} {fs : List ParityFault} (same : ∀ f ∈ fs, f.page = page) (some_ : 0 < fs.length) (retired : List Page) :
    fs.foldl (fun r f => retireEntry r f.page) retired = retireEntry retired page := by
  induction fs generalizing retired with
  | nil => cases some_
  | cons f fs ih =>
    rw [List.foldl_cons, same f List.mem_cons_self]
    rcases Nat.eq_zero_or_pos fs.length with none_ | more
    · rw [List.eq_nil_of_length_eq_zero none_]
      rfl
    · rw [ih (fun g mem => same g (List.mem_cons_of_mem _ mem)) more, retireEntry_again]

/-- Pages offered to the retire table enter it at its end, as many as there is room for (R58). -/
theorem retire_pages {pages : List Page} (once : pages.Nodup) (retired : List Page) :
    pages.foldl retireEntry retired = retired ++ (pages.filter fun n => decide (n ∉ retired)).take (32 - retired.length) := by
  induction pages generalizing retired with
  | nil => simp
  | cons n pages ih =>
    obtain ⟨fresh, rest⟩ := List.nodup_cons.mp once
    rw [List.foldl_cons, ih rest]
    unfold retireEntry
    by_cases listed : n ∈ retired
    · rw [if_pos (List.contains_iff_mem.mpr listed), List.filter_cons_of_neg (by simpa using listed)]
    · rw [if_neg (mt List.contains_iff_mem.mp listed), List.filter_cons_of_pos (by simpa using listed)]
      by_cases room : retired.length < 32
      · rw [if_pos room]
        have later : (pages.filter fun m => decide (m ∉ retired ++ [n])) = pages.filter fun m => decide (m ∉ retired) := by
          refine List.filter_congr fun m mem => decide_eq_decide.mpr ?_
          have other : m ≠ n := fun same => fresh (same ▸ mem)
          simp [other]
        have more : 32 - retired.length = (32 - (retired ++ [n]).length) + 1 := by
          rw [List.length_append, List.length_singleton]
          omega
        rw [later, more, List.take_succ_cons, List.append_assoc]
        rfl
      · rw [if_neg room, Nat.sub_eq_zero_of_le (Nat.not_lt.mp room), List.take_zero, List.take_zero]

/-- Every page offered is in the table then, or the table is full. -/
theorem mem_retired_or_full {pages retired : List Page} {n : Page} (mem : n ∈ pages) :
    let after := retired ++ (pages.filter fun n => decide (n ∉ retired)).take (32 - retired.length)
    n ∈ after ∨ 32 ≤ after.length := by
  intro after
  by_cases listed : n ∈ retired
  · exact .inl (List.mem_append_left _ listed)
  · have offered : n ∈ pages.filter fun n => decide (n ∉ retired) := List.mem_filter.mpr ⟨mem, decide_eq_true listed⟩
    rcases Nat.le_total (pages.filter fun n => decide (n ∉ retired)).length (32 - retired.length) with whole | few
    · exact .inl (List.mem_append_right _ (by rwa [List.take_of_length_le whole]))
    · refine .inr ?_
      rw [List.length_append, List.length_take_of_le few]
      omega

theorem DelayStore.foldl_fault1_eq (d : DelayStore) (fs : List ParityFault) :
    fs.foldl DelayStore.fault1 d =
      { d with fault := fs.foldl FaultRecord.offer d.fault, retired := fs.foldl (fun r f => retireEntry r f.page) d.retired } := by
  induction fs generalizing d with
  | nil => rfl
  | cons f fs ih => exact ih (d.fault1 f)

/-! ### The faults of one fetched frame (R57) -/

theorem unpackWord_isNone (w : Word32) : (unpackWord w).isNone = decide (ones w % 2 = 1) := by
  rcases Nat.mod_two_eq_zero_or_one (ones w) with even | odd
  · rw [unpackWord_even even, even]
    rfl
  · rw [unpackWord_odd odd, odd]
    rfl

theorem frameFaults_length (p : Fin 16) (time : Word32) (page : Page) (k : Nat) (words : List Word32) :
    (frameFaults p time (some (page, k)) words).length = words.countP fun w => decide (ones w % 2 = 1) := by
  have byWord : (fun w : Word32 × Nat => (unpackWord w.1).isNone) = (fun w => decide (ones w % 2 = 1)) ∘ Prod.fst := by
    funext w
    exact unpackWord_isNone w.1
  unfold frameFaults
  rw [List.length_map, ← List.countP_eq_length_filter, byWord, ← List.countP_map, List.zipIdx_map_fst]

theorem frameFaults_samePage {p : Fin 16} {time : Word32} {page : Page} {k : Nat} {words : List Word32} {f : ParityFault}
    (mem : f ∈ frameFaults p time (some (page, k)) words) : f.page = page := by
  obtain ⟨w, -, rfl⟩ := List.mem_map.mp mem
  rfl

/-- The first fault of a frame is that of its lowest failing position. -/
theorem frameFaults_head (p : Fin 16) (time : Word32) (page : Page) (k : Nat) {words : List Word32} {i : Nat}
    (fails : ∃ w, words[i]? = some w ∧ ones w % 2 = 1) (lowest : ∀ j w, j < i → words[j]? = some w → ones w % 2 = 0) :
    (frameFaults p time (some (page, k)) words).head? =
      some { page := page, offset := BitVec.ofNat 10 (8 * k + i), programme := p, time := time } := by
  obtain ⟨w, here, odd⟩ := fails
  obtain ⟨inside, get⟩ := List.getElem?_eq_some_iff.mp here
  have first : (words.zipIdx.find? fun w => (unpackWord w.1).isNone) = some (w, i) := by
    refine List.find?_eq_some_iff_getElem.mpr ⟨by rw [unpackWord_isNone, odd]; rfl, i, by rwa [List.length_zipIdx], ?_, fun j before => ?_⟩
    · rw [List.getElem_zipIdx, get, Nat.zero_add]
    · rw [List.getElem_zipIdx, unpackWord_isNone, lowest j _ before (List.getElem?_eq_getElem (Nat.lt_trans before inside))]
      rfl
  unfold frameFaults
  rw [List.head?_map, List.head?_filter, first]
  rfl

/-! ### The faults of the delay lines, in turn -/

/-- The parity faults of the frame that a programme fetches; none while it is not RUNNING. -/
def State.faultsAt (s : State) (now : Word32) (p : Fin 16) : List ParityFault :=
  if s.programmes[p].running = true then
    frameFaults p now (s.programmes[p].store.place s.programmes[p].fetchSlot) (s.fetched p)
  else []

theorem State.faultsAt_length (s : State) (now : Word32) (p : Fin 16) :
    (s.faultsAt now p).length =
      if s.programmes[p].running = true then (s.fetched p).countP fun w => decide (ones w % 2 = 1) else 0 := by
  unfold State.faultsAt State.fetched DelayStore.readSlot
  split
  · cases s.programmes[p].store.place s.programmes[p].fetchSlot with
    | none => rfl
    | some at_ =>
      obtain ⟨page, k⟩ := at_
      exact frameFaults_length ..
  · rfl

theorem DelayStore.writeSlot_tables (d : DelayStore) (c : StoreContext) (slot : Nat) (words : List DelayWord) :
    (d.writeSlot c slot words).fault = d.fault ∧ (d.writeSlot c slot words).retired = d.retired ∧
      (d.writeSlot c slot words).freeList = d.freeList := by
  unfold DelayStore.writeSlot
  split <;> exact ⟨rfl, rfl, rfl⟩

section Lines

variable {outputs : Vector FeedOutput 8}

/-- A delay line offers its faults to the record and the table, and leaves the free-page list (R45, R57). -/
theorem State.runProgramme_faults (s : State) (i : Fin 16) :
    (s.runProgramme outputs i).store.fault = (s.faultsAt s.time.houseTime i).foldl FaultRecord.offer s.store.fault ∧
      (s.runProgramme outputs i).store.retired =
        (s.faultsAt s.time.houseTime i).foldl (fun r f => retireEntry r f.page) s.store.retired ∧
      (s.runProgramme outputs i).store.freeList = s.store.freeList := by
  unfold State.faultsAt
  by_cases run : s.programmes[i].running = true
  · rw [State.runProgramme_runs run, if_pos run]
    obtain ⟨fault, retired, free⟩ := DelayStore.writeSlot_tables
      ((frameFaults i s.time.houseTime (s.programmes[i].store.place s.programmes[i].fetchSlot) (s.fetched i)).foldl DelayStore.fault1 s.store)
      s.programmes[i].store s.programmes[i].store.write (s.programmes[i].formFrame outputs)
    have offered := s.store.foldl_fault1_eq
      (frameFaults i s.time.houseTime (s.programmes[i].store.place s.programmes[i].fetchSlot) (s.fetched i))
    exact ⟨fault.trans (congrArg DelayStore.fault offered :), retired.trans (congrArg DelayStore.retired offered :),
      free.trans (congrArg DelayStore.freeList offered :)⟩
  · rw [State.runProgramme_rests run, if_neg run]
    exact ⟨rfl, rfl, rfl⟩

theorem State.runProgramme_faultsAt {s : State} (apart : s.PagesApart) {i p : Fin 16} (other : p ≠ i) (now : Word32) :
    (s.runProgramme outputs i).faultsAt now p = s.faultsAt now p := by
  unfold State.faultsAt
  rw [State.runProgramme_other _ _ other, State.runProgramme_fetched apart other]

/-- While no page has two owners, the faults of a house frame are those of the frames that stood before it, in the order of the programmes
taken. -/
theorem State.runFold_faults {ps : List (Fin 16)} (once : ps.Nodup) {s : State} (apart : s.PagesApart) :
    (ps.foldl (State.runProgramme outputs) s).store.fault =
        (ps.flatMap (s.faultsAt s.time.houseTime)).foldl FaultRecord.offer s.store.fault ∧
      (ps.foldl (State.runProgramme outputs) s).store.retired =
        (ps.flatMap (s.faultsAt s.time.houseTime)).foldl (fun r f => retireEntry r f.page) s.store.retired ∧
      (ps.foldl (State.runProgramme outputs) s).store.freeList = s.store.freeList := by
  induction ps generalizing s with
  | nil => exact ⟨rfl, rfl, rfl⟩
  | cons i ps ih =>
    obtain ⟨fresh, rest⟩ := List.nodup_cons.mp once
    obtain ⟨fault, retired, free⟩ := ih rest (State.runProgramme_apart (outputs := outputs) apart i)
    obtain ⟨fault', retired', free'⟩ := s.runProgramme_faults (outputs := outputs) i
    have later : ps.flatMap ((s.runProgramme outputs i).faultsAt (s.runProgramme outputs i).time.houseTime) =
        ps.flatMap (s.faultsAt s.time.houseTime) := by
      rw [State.runProgramme_time]
      refine List.flatMap_congr fun p mem => State.runProgramme_faultsAt apart (fun own : p = i => fresh (own ▸ mem)) _
    rw [List.foldl_cons, List.flatMap_cons, List.foldl_append, List.foldl_append, ← fault', ← retired', ← later]
    exact ⟨fault, retired, free.trans free'⟩

end Lines

/-! ### The house frame -/

theorem State.converted_faultsAt (s : State) (now : Word32) (p : Fin 16) : s.converted.faultsAt now p = s.faultsAt now p := by
  unfold State.faultsAt
  rw [s.converted_fetched p, State.converted_programme, s.readied_running p, s.readied_fetchSlot p, s.readied_store p]

/-- The faults of a house frame (R57 to R59; log entry 14). -/
theorem State.frame_faults {s : State} (law : s.PageLaw) (order : List (Fin 16)) :
    let fs := (programmeOrder order).flatMap (s.faultsAt s.time.nextTime)
    (s.frame order).store.fault = fs.foldl FaultRecord.offer s.store.fault ∧
      (s.frame order).store.retired = fs.foldl (fun r f => retireEntry r f.page) s.store.retired ∧
      (s.frame order).store.freeList = s.store.freeList := by
  have ran := State.runFold_faults (outputs := s.feedOutputs) (programmeOrder_nodup order) (State.converted_apart law.apart)
  have store : s.converted.store = s.store := by rw [s.converted_eq]
  have time : s.converted.time.houseTime = s.time.nextTime := by
    rw [s.converted_eq]
    rfl
  have faults : s.converted.faultsAt s.converted.time.houseTime = s.faultsAt s.time.nextTime := by
    rw [time]
    exact funext (s.converted_faultsAt _)
  rw [store, faults] at ran
  rw [State.frame_store]
  exact ran

/-- The page of each failing programme enters the retire table once, in their order. -/
theorem State.retire_faults (s : State) (now : Word32) (ps : List (Fin 16)) (retired : List Page) :
    (ps.flatMap (s.faultsAt now)).foldl (fun r f => retireEntry r f.page) retired =
      ((ps.filter fun p => decide (0 < (s.faultsAt now p).length)).filterMap fun p =>
        (s.programmes[p].store.place s.programmes[p].fetchSlot).map Prod.fst).foldl retireEntry retired := by
  induction ps generalizing retired with
  | nil => rfl
  | cons p ps ih =>
    rw [List.flatMap_cons, List.foldl_append, ih]
    rcases Nat.eq_zero_or_pos (s.faultsAt now p).length with none_ | some_
    · rw [List.filter_cons_of_neg (by simpa using none_), List.eq_nil_of_length_eq_zero none_]
      rfl
    · rw [List.filter_cons_of_pos (by exact decide_eq_true some_), List.filterMap_cons]
      cases place : s.programmes[p].store.place s.programmes[p].fetchSlot with
      | none =>
        have none_ : s.faultsAt now p = [] := by
          unfold State.faultsAt
          rw [place]
          exact ite_self _
        rw [none_] at some_
        cases some_
      | some at_ =>
        obtain ⟨page, k⟩ := at_
        have ofPage : ∀ f ∈ s.faultsAt now p, f.page = page := by
          intro f mem
          unfold State.faultsAt at mem
          rw [place] at mem
          split at mem
          · exact frameFaults_samePage mem
          · cases mem
        rw [retire_onePage ofPage some_]
        rfl

theorem programmeOrder_perm (order : List (Fin 16)) : (programmeOrder order).Perm (List.finRange 16) :=
  (List.perm_ext_iff_of_nodup (programmeOrder_nodup order) (List.nodup_finRange 16)).mpr fun p =>
    ⟨fun _ => List.mem_finRange p, fun _ => mem_programmeOrder order p⟩

/-- The first fault of a list of programmes is the first of the first that has one. -/
theorem State.faults_head (s : State) (now : Word32) {ps : List (Fin 16)} {p : Fin 16}
    (first : (ps.filter fun p => decide (0 < (s.faultsAt now p).length)).head? = some p) :
    (ps.flatMap (s.faultsAt now)).head? = (s.faultsAt now p).head? := by
  rw [List.head?_filter, List.find?_eq_some_iff_append] at first
  obtain ⟨fails, before, after, rfl, clean⟩ := first
  have none_ : before.flatMap (s.faultsAt now) = [] := by
    refine List.flatMap_eq_nil_iff.mpr fun q mem => List.eq_nil_of_length_eq_zero ?_
    simpa using clean q mem
  rw [List.flatMap_append, none_, List.nil_append, List.flatMap_cons]
  exact List.head?_append_of_ne_nil _ (List.ne_nil_of_length_pos (of_decide_eq_true fails))

/-- Settles O12: the faults are those of the frames that stood before; the record and the table take them in turn. -/
theorem houseFrameRecordsParityFaults : Obligations.HouseFrameRecordsParityFaults := by
  intro s order nothing slots law words faults total failing pages
  obtain ⟨fault, retired, free⟩ := State.frame_faults law order
  have counted : faults = fun p => (s.faultsAt s.time.nextTime p).length := funext fun p => (s.faultsAt_length _ p).symm
  have totals : ((programmeOrder order).flatMap (s.faultsAt s.time.nextTime)).length = total := by
    rw [List.length_flatMap, ← counted]
    exact ((programmeOrder_perm order).map faults).sum_eq
  have failed : failing = (programmeOrder order).filter fun p => decide (0 < (s.faultsAt s.time.nextTime p).length) := by
    simp only [failing]
    rw [counted]
  have once : pages.Nodup := by
    refine List.Nodup.filterMap (fun p q n inP inQ => ?_) ((programmeOrder_nodup order).filter _)
    obtain ⟨⟨_, k⟩, placeP, rfl⟩ := Option.map_eq_some_iff.mp inP
    obtain ⟨⟨_, j⟩, placeQ, rfl⟩ := Option.map_eq_some_iff.mp inQ
    exact law.apart p q _ (StoreContext.place_mem placeP).1 (StoreContext.place_mem placeQ).1
  have table := s.retire_faults s.time.nextTime (programmeOrder order) s.store.retired
  rw [← failed, retire_pages once] at table
  rw [table] at retired
  refine ⟨_, exec_houseFrame nothing slots order, free, retired, fun p page k fails place => ?_, fun none => ?_, fun valid few => ?_,
    fun empty p page k i first place fails lowest => ?_⟩
  · rw [retired]
    refine mem_retired_or_full (List.mem_filterMap.mpr ⟨p, List.mem_filter.mpr ⟨mem_programmeOrder order p, decide_eq_true fails⟩, ?_⟩)
    rw [place]
    rfl
  · rw [none] at totals
    rw [List.eq_nil_of_length_eq_zero totals] at fault table
    exact ⟨fault, retired.trans table.symm⟩
  · rw [fault, FaultRecord.offers_valid valid few, totals]
  · rw [failed] at first
    have head := s.faults_head s.time.nextTime first
    have found : s.faultsAt s.time.nextTime p =
        frameFaults p s.time.nextTime (s.programmes[p].store.place s.programmes[p].fetchSlot) (s.fetched p) := by
      refine if_pos (Decidable.byContradiction fun rests => ?_)
      have none_ : s.faultsAt s.time.nextTime p = [] := if_neg rests
      have some_ := (List.mem_filter.mp (List.mem_of_head? first)).2
      rw [none_] at some_
      cases some_
    rw [found, place, frameFaults_head (words := s.fetched p) p _ page k fails lowest] at head
    rw [fault, FaultRecord.offers_empty empty head, totals]

end Sys2Proof.Machine
end

