-- ==== Sys2Proof/Proofs/SliceParts.lean ====
section
/-! SUPPORT. The parts of a slice end, one after another: what the write pass, the transfer steps and the sweep each move, and what a slice
end makes of the programmes, of the log and of the rest. -/

namespace Sys2Proof.Machine

/-! ### Entries appended to the log (R143, R144) -/

/-- Appending so many entries discards one. -/
def State.discards (s : State) (n : Nat) : Bool := decide (0 < n ∧ 512 < s.log.ring.length + n)

/-- An entry appended moves the log and the log overrun mark alone. -/
theorem State.logAppend_eq (s : State) (e : LogEntry) :
    s.logAppend e = { s with log := (s.logAppend e).log, alarms := { s.alarms with logOverrun := (s.logAppend e).alarms.logOverrun } } := by
  unfold State.logAppend
  dsimp only
  split <;> rfl

theorem State.logAppends_eq (es : List LogEntry) (s : State) :
    es.foldl State.logAppend s =
      { s with
        log := (es.foldl State.logAppend s).log
        alarms := { s.alarms with logOverrun := (es.foldl State.logAppend s).alarms.logOverrun } } := by
  induction es generalizing s with
  | nil => rfl
  | cons e es ih =>
    have step := s.logAppend_eq e
    rw [List.foldl_cons]
    generalize s.logAppend e = t at step
    rw [ih t, step]

theorem State.logAppend_with (s : State) (ps : Vector Programme 16) (e : LogEntry) :
    ({ s with programmes := ps } : State).logAppend e = { s.logAppend e with programmes := ps } := by
  unfold State.logAppend
  dsimp only
  split <;> rfl

theorem State.logAppends_with (es : List LogEntry) (s : State) (ps : Vector Programme 16) :
    es.foldl State.logAppend { s with programmes := ps } = { es.foldl State.logAppend s with programmes := ps } := by
  induction es generalizing s with
  | nil => rfl
  | cons e es ih =>
    rw [List.foldl_cons, State.logAppend_with]
    exact ih (s.logAppend e)

/-- What appending entries makes of the log and of the log overrun mark. -/
structure Appended (s t : State) (es : List LogEntry) : Prop where
  ring     : s.log.ring.length ≤ 512 → t.log.ring = (s.log.ring ++ es).drop (s.log.ring.length + es.length - 512)
  length   : t.log.ring.length = max s.log.ring.length (min 512 (s.log.ring.length + es.length))
  overflow : t.log.overflow = (s.log.overflow || s.discards es.length)
  mark     : t.alarms.logOverrun = (s.alarms.logOverrun || s.discards es.length)
  transfer : t.log.transfer =
    { s.log.transfer with
      overrun := s.log.transfer.overrun || (decide (s.log.transfer.state = .active) && s.discards es.length) }

theorem Appended.nil (s : State) : Appended s s [] := by
  have never : s.discards ([] : List LogEntry).length = false := decide_eq_false fun h => absurd h.1 (Nat.lt_irrefl 0)
  refine ⟨fun few => ?_, ?_, ?_, ?_, ?_⟩
  · rw [List.append_nil, List.length_nil, Nat.add_zero, Nat.sub_eq_zero_of_le few, List.drop_zero]
  · rw [List.length_nil]
    omega
  · rw [never, Bool.or_false]
  · rw [never, Bool.or_false]
  · rw [never, Bool.and_false, Bool.or_false]

/-- One entry is appended at the tail; a full ring loses its head (R144). -/
theorem State.logAppend_room {s : State} (room : s.log.ring.length < 512) (e : LogEntry) :
    s.logAppend e = { s with log := { s.log with ring := s.log.ring ++ [e] } } := by
  unfold State.logAppend
  dsimp only
  rw [if_pos room]

theorem State.logAppend_full {s : State} (full : 512 ≤ s.log.ring.length) (e : LogEntry) :
    s.logAppend e =
      { s with
        log := { s.log with
          ring := s.log.ring.drop 1 ++ [e], overflow := true
          transfer := { s.log.transfer with overrun := s.log.transfer.overrun || decide (s.log.transfer.state = .active) } }
        alarms := { s.alarms with logOverrun := true } } := by
  unfold State.logAppend State.logDiscard
  dsimp only
  rw [if_neg full.not_gt]
  by_cases active : s.log.transfer.state = .active
  · rw [if_pos active, decide_eq_true active, Bool.or_true]
  · rw [if_neg active, decide_eq_false active, Bool.or_false]

theorem Appended.cons {s t : State} {e : LogEntry} {es : List LogEntry} (h : Appended (s.logAppend e) t es) : Appended s t (e :: es) := by
  obtain ⟨ring, length, overflow, mark, transfer⟩ := h
  by_cases room : s.log.ring.length < 512
  · rw [State.logAppend_room room] at ring length overflow mark transfer
    have same : ({ s with log := { s.log with ring := s.log.ring ++ [e] } } : State).discards es.length = s.discards (e :: es).length := by
      unfold State.discards
      rw [List.length_append, List.length_singleton, List.length_cons]
      exact decide_eq_decide.mpr (by omega)
    rw [same] at overflow mark transfer
    rw [List.length_append, List.length_singleton] at ring length
    refine ⟨fun few => ?_, ?_, overflow, mark, transfer⟩
    · rw [ring room, List.append_assoc, List.length_cons, Nat.add_assoc, Nat.add_comm 1]
      rfl
    · rw [length, List.length_cons]
      omega
  · have full : 512 ≤ s.log.ring.length := Nat.not_lt.mp room
    have always : s.discards (e :: es).length = true := decide_eq_true (by rw [List.length_cons]; omega)
    rw [State.logAppend_full full] at ring length overflow mark transfer
    have same : (s.log.ring.drop 1 ++ [e]).length = s.log.ring.length := by
      rw [List.length_append, List.length_drop, List.length_singleton]
      omega
    dsimp only at ring length overflow mark transfer
    rw [same] at ring length
    rw [Bool.true_or] at overflow mark
    refine ⟨fun few => ?_, ?_, ?_, ?_, ?_⟩
    · have most : s.log.ring.length = 512 := by omega
      rw [ring few, most, List.length_cons]
      obtain ⟨head, tail, cut⟩ : ∃ head tail, s.log.ring = head :: tail := List.exists_cons_of_length_pos (by omega)
      rw [cut, List.drop_succ_cons, List.drop_zero, List.append_assoc, List.singleton_append,
        show 512 + (es.length + 1) - 512 = (512 + es.length - 512) + 1 by omega, List.cons_append, List.drop_succ_cons]
    · rw [length, List.length_cons]
      omega
    · rw [overflow, always, Bool.or_true]
    · rw [mark, always, Bool.or_true]
    · rw [transfer, always, Bool.and_true]
      cases s.log.transfer.overrun <;> cases decide (s.log.transfer.state = .active) <;> rfl

theorem appended (es : List LogEntry) (s : State) : Appended s (es.foldl State.logAppend s) es := by
  induction es generalizing s with
  | nil => exact .nil s
  | cons e es ih => exact .cons (ih (s.logAppend e))

/-! ### The write pass (R142, R143) -/

/-- What the write pass makes of a programme that formed a slice. -/
def Programme.logPassed (p : Programme) : Programme :=
  if p.logDue then p.logWritten
  else if p.logCounts then { p with log := { p.log with interval := p.log.interval + 1 } }
  else p

theorem updAt_congr {α : Type} {n : Nat} (v : Vector α n) (i : Fin n) {f g : α → α} (same : f v[i] = g v[i]) : updAt v i f = updAt v i g :=
  congrArg (v.set i ·) same

/-- The write pass for one programme: the entry it may append, and the programme itself. -/
theorem State.logProgramme_eq (s : State) (i : Fin 16) :
    ∃ a : State, (a = if s.programmes[i].logDue = true then s.logAppend (s.logEntry i) else s) ∧
      s.logProgramme i = { a with programmes := updAt s.programmes i Programme.logPassed } := by
  refine ⟨_, rfl, ?_⟩
  have kept : (s.logAppend (s.logEntry i)).programmes = s.programmes := by rw [State.logAppend_eq]
  have own {g : Programme → Programme} (same : s.programmes[i].logPassed = g s.programmes[i]) :
      updAt s.programmes i Programme.logPassed = updAt s.programmes i g := updAt_congr _ _ same
  unfold State.logProgramme
  by_cases due : s.programmes[i].logDue = true
  · rw [if_pos due, if_pos due, own (g := Programme.logWritten) (if_pos due), ← kept]
    rfl
  · rw [if_neg due, if_neg due]
    by_cases counts : s.programmes[i].logCounts = true
    · rw [if_pos counts,
        own (g := fun p => { p with log := { p.log with interval := p.log.interval + 1 } }) ((if_neg due).trans (if_pos counts))]
      rfl
    · rw [if_neg counts, own (g := fun p => p) ((if_neg due).trans (if_neg counts)), updAt_id]

theorem State.logProgramme_alarm (s : State) (i p : Fin 16) : (s.logProgramme i).alarms.programmeAlarm p = s.alarms.programmeAlarm p := by
  obtain ⟨a, entry, step⟩ := s.logProgramme_eq i
  rw [step, entry]
  split
  · rw [State.logAppend_eq]
    rfl
  · rfl

/-- The write pass over some programmes: the entries of those due, appended in order, and the counts of each. -/
theorem State.logProgrammes_eq (ps : List (Fin 16)) (once : ps.Nodup) (s : State) :
    ∃ v : Vector Programme 16,
      ps.foldl State.logProgramme s =
        { ((ps.filter fun i => s.programmes[i].logDue).map s.logEntry).foldl State.logAppend s with programmes := v } ∧
      ∀ p : Fin 16, v[p] = if p ∈ ps then s.programmes[p].logPassed else s.programmes[p] := by
  induction ps generalizing s with
  | nil => exact ⟨s.programmes, rfl, fun _ => (if_neg List.not_mem_nil).symm⟩
  | cons i ps ih =>
    obtain ⟨fresh, rest⟩ := List.nodup_cons.mp once
    obtain ⟨a, entry, step⟩ := s.logProgramme_eq i
    have other {p : Fin 16} (ne : p ≠ i) : (s.logProgramme i).programmes[p] = s.programmes[p] := by
      rw [step]
      exact updAt_other _ _ _ _ ne.symm
    have due : (ps.filter fun j => (s.logProgramme i).programmes[j].logDue) = ps.filter fun j => s.programmes[j].logDue :=
      List.filter_congr fun j mem => by rw [other fun own => fresh (own ▸ mem)]
    have entries : (ps.filter fun j => s.programmes[j].logDue).map (s.logProgramme i).logEntry =
        (ps.filter fun j => s.programmes[j].logDue).map s.logEntry := by
      refine List.map_congr_left fun j mem => ?_
      have ne : j ≠ i := fun own => fresh (own ▸ (List.mem_filter.mp mem).1)
      unfold State.logEntry
      rw [other ne, State.logProgramme_time, s.logProgramme_alarm i]
    obtain ⟨v, run, each⟩ := ih rest (s.logProgramme i)
    refine ⟨v, ?_, fun p => ?_⟩
    · rw [List.foldl_cons, run, due, entries, step, State.logAppends_with, entry]
      by_cases now : s.programmes[i].logDue = true
      · rw [List.filter_cons_of_pos (by exact now), if_pos now]
        rfl
      · rw [List.filter_cons_of_neg (by exact now), if_neg now]
    · rw [each p]
      by_cases own : p = i
      · subst own
        rw [if_neg fresh, if_pos List.mem_cons_self, step]
        exact updAt_same ..
      · rw [other own]
        exact if_congr (by rw [List.mem_cons, or_iff_right own]) rfl rfl

/-! ### The write pass of a slice end -/

/-- The programmes that formed a slice and are due for an entry (R142). -/
def State.passDue (h : SliceHandover) (s : State) : List (Fin 16) :=
  (List.finRange 16).filter fun i => (h.programmes[i]).isSome && s.programmes[i].logDue

theorem State.logPass_spec (h : SliceHandover) (s : State) :
    (∀ p : Fin 16, (s.logPass h).programmes[p] = if (h.programmes[p]).isSome = true then s.programmes[p].logPassed else s.programmes[p]) ∧
      Appended s (s.logPass h) ((s.passDue h).map s.logEntry) ∧
      s.logPass h =
        { s with
          programmes := (s.logPass h).programmes, log := (s.logPass h).log
          alarms := { s.alarms with logOverrun := (s.logPass h).alarms.logOverrun } } := by
  obtain ⟨v, run, each⟩ := s.logProgrammes_eq ((List.finRange 16).filter fun i => (h.programmes[i]).isSome)
    ((List.nodup_finRange 16).filter _)
  have due : (((List.finRange 16).filter fun i => (h.programmes[i]).isSome).filter fun i => s.programmes[i].logDue) = s.passDue h := by
    rw [List.filter_filter]
    exact List.filter_congr fun i _ => Bool.and_comm _ _
  rw [due] at run
  have pass : s.logPass h = _ := run
  have more := appended ((s.passDue h).map s.logEntry) s
  have same := s.logAppends_eq ((s.passDue h).map s.logEntry)
  rw [pass]
  refine ⟨fun p => (each p).trans (if_congr ?_ rfl rfl), ⟨more.ring, more.length, more.overflow, more.mark, more.transfer⟩, ?_⟩
  · rw [List.mem_filter, and_iff_right (List.mem_finRange p)]
  · generalize ((s.passDue h).map s.logEntry).foldl State.logAppend s = t at same
    rw [same]

/-! ### The transfer steps (R146) -/

/-- Transfer steps take entries from the head of the ring and queue LOG reports. -/
theorem State.transferSteps_spec (fuel : Nat) (s : State) :
    ∃ (logs : List LogReport) (taken : List LogEntry),
      (State.transferSteps fuel s).processor.reports = s.processor.reports ++ logs.map .log ∧
      s.log.ring = taken ++ (State.transferSteps fuel s).log.ring ∧
      (State.transferSteps fuel s).log.overflow = s.log.overflow ∧
      (State.transferSteps fuel s).log.transfer.overrun = s.log.transfer.overrun ∧
      (s.log.transfer.state ≠ .active → taken = []) ∧
      State.transferSteps fuel s =
        { s with
          log := (State.transferSteps fuel s).log
          processor := { s.processor with reports := (State.transferSteps fuel s).processor.reports } } := by
  induction fuel generalizing s with
  | zero => exact ⟨[], [], (List.append_nil _).symm, rfl, rfl, rfl, fun _ => rfl, rfl⟩
  | succ fuel ih =>
    unfold State.transferSteps
    by_cases can : s.canStep = true
    · rw [if_pos can]
      obtain ⟨split, -, -, -, -⟩ := stepEntries_takes s.log.transfer s.log.transfer.delivered 4 s.log.ring
      have step := State.transferStep_eq ((s.canStep_iff).mp can)
      obtain ⟨logs, taken, reports, ring, overflow, overrun, -, same⟩ := ih s.transferStep
      generalize State.transferSteps fuel s.transferStep = t at reports ring overflow overrun same
      rw [step] at reports ring overflow overrun same
      refine ⟨s.stepReport :: logs, s.stepTaken ++ taken, ?_, ?_, overflow, overrun, fun rests => absurd ((s.canStep_iff).mp can).1 rests, same⟩
      · rw [reports, List.map_cons, List.append_assoc]
        rfl
      · rw [List.append_assoc, ← ring]
        exact split
    · rw [if_neg can]
      exact ⟨[], [], (List.append_nil _).symm, rfl, rfl, rfl, fun _ => rfl, rfl⟩

theorem State.transferSteps_eq (fuel : Nat) (s : State) :
    State.transferSteps fuel s =
      { s with
        log := (State.transferSteps fuel s).log
        processor := { s.processor with reports := (State.transferSteps fuel s).processor.reports } } := by
  obtain ⟨logs, taken, -, -, -, -, -, same⟩ := State.transferSteps_spec fuel s
  exact same

/-! ### The sweep (R122) -/

/-- A sweep moves the records, the lines and the two overrun marks, which it clears, and the report queue (R122, R129, R133). -/
theorem State.sweep_eq (h : SliceHandover) (s : State) :
    (s.sweep h).alarms.policies = s.alarms.policies ∧ (s.sweep h).alarms.commandOverrun = false ∧
      (s.sweep h).alarms.logOverrun = false ∧
      s.sweep h = { s with alarms := (s.sweep h).alarms, processor := { s.processor with reports := (s.sweep h).processor.reports } } := by
  obtain ⟨w, told, -⟩ := s.sweep_told h
  rw [told]
  exact ⟨rfl, rfl, rfl, rfl⟩

end Sys2Proof.Machine
end

