-- ==== Sys2Proof/Proofs/SliceEnd.lean ====
section
/-! SUPPORT. What a slice end makes of the feeds, of the programmes' meters and riders, and of the rest of the part (R25, R88 to R95, R105 to
R109, R114, R133). -/

namespace Sys2Proof.Machine

/-! ### The slice end as a whole -/

theorem exec_sliceEnd_rest {s : State} (rest : s.time.sliceDue = false) (order : SliceOrder) : exec (.sliceEnd order) s = .next s :=
  congrArg Host.Outcome.next (if_neg (by rw [rest]; exact Bool.false_ne_true))

theorem exec_sliceEnd {s : State} (due : s.time.sliceDue = true) (order : SliceOrder) : exec (.sliceEnd order) s = .next (s.slice order) :=
  congrArg Host.Outcome.next (if_pos due)

section Close

variable (s : State) (h : SliceHandover)

theorem State.logPass_lineLaw {s : State} (law : s.LineLaw) : (s.logPass h).LineLaw := by
  unfold State.logPass State.writePass
  generalize (List.finRange 16).filter (fun i => (h.programmes[i]).isSome) = ps
  induction ps generalizing s with
  | nil => exact law
  | cons p ps ih => exact ih (law.logProgramme p)

/-- What the write pass, the transfer steps and the sweep leave as it was, in any order, and what they leave of the alarm unit. -/
theorem State.closeSlice_eq (order : SliceOrder) :
    let t := s.closeSlice order h
    t = { s with
      programmes := t.programmes, log := t.log, alarms := t.alarms, processor := { s.processor with reports := t.processor.reports } } ∧
    t.alarms.policies = s.alarms.policies ∧ t.alarms.commandOverrun = false ∧ t.LineLaw := by
  have pass (a : State) := (a.logPass_spec h).2.2
  have swept (a : State) := a.sweep_eq h
  have steps (a : State) := State.transferSteps_eq 33 a
  have formed (a : State) : (a.sweep h).LineLaw := State.formLines_lineLaw _
  cases order with
  | writeStepSweep =>
    have first := pass s
    have second := steps (s.logPass h)
    obtain ⟨policies, command, -, third⟩ := swept (State.transferSteps 33 (s.logPass h))
    refine ⟨?_, ?_, command, formed _⟩
    · unfold State.closeSlice
      dsimp only
      generalize (State.transferSteps 33 (s.logPass h)).sweep h = c at third
      generalize State.transferSteps 33 (s.logPass h) = b at second third
      generalize s.logPass h = a at first second
      rw [third, second, first]
    · refine policies.trans ?_
      rw [second, first]
  | writeSweepStep =>
    have first := pass s
    obtain ⟨policies, command, -, second⟩ := swept (s.logPass h)
    have third := steps ((s.logPass h).sweep h)
    have law := formed (s.logPass h)
    unfold State.closeSlice
    dsimp only
    generalize State.transferSteps 33 ((s.logPass h).sweep h) = c at third
    generalize (s.logPass h).sweep h = b at policies command second third law
    generalize s.logPass h = a at first second policies
    have alarms : c.alarms = b.alarms := by rw [third]
    refine ⟨?_, ?_, ?_, law.of_alarms alarms⟩
    · rw [third, second, first]
    · rw [alarms, policies, first]
    · rw [alarms, command]
  | sweepWriteStep =>
    obtain ⟨policies, command, -, first⟩ := swept s
    have second := pass (s.sweep h)
    have law := State.logPass_lineLaw h (formed s)
    have third := steps ((s.sweep h).logPass h)
    unfold State.closeSlice
    dsimp only
    generalize State.transferSteps 33 ((s.sweep h).logPass h) = c at third
    generalize (s.sweep h).logPass h = b at second third law
    generalize s.sweep h = a at policies command first second
    have alarms : c.alarms = b.alarms := by rw [third]
    refine ⟨?_, ?_, ?_, law.of_alarms alarms⟩
    · rw [third, second, first]
    · rw [alarms, second, ← policies]
    · rw [alarms, second, ← command]

theorem State.transferSteps_programmes (fuel : Nat) (s : State) : (State.transferSteps fuel s).programmes = s.programmes := by
  rw [State.transferSteps_eq]

theorem State.sweep_programmes (h : SliceHandover) (s : State) : (s.sweep h).programmes = s.programmes := by
  rw [(s.sweep_eq h).2.2.2]

/-- Of each programme the write pass alone moves something. -/
theorem State.closeSlice_programme (order : SliceOrder) (p : Fin 16) :
    (s.closeSlice order h).programmes[p] = if (h.programmes[p]).isSome = true then s.programmes[p].logPassed else s.programmes[p] := by
  have pass (a : State) := (a.logPass_spec h).1 p
  unfold State.closeSlice
  cases order with
  | writeStepSweep => rw [State.sweep_programmes, State.transferSteps_programmes, pass]
  | writeSweepStep => rw [State.transferSteps_programmes, State.sweep_programmes, pass]
  | sweepWriteStep => rw [State.transferSteps_programmes, pass, State.sweep_programmes]

end Close

theorem State.handover_formed (s : State) (p : Fin 16) : (s.handover.programmes[p]).isSome = s.programmes[p].running := by
  simp only [State.handover, Fin.getElem_fin, mapAll_getElem]
  split
  · exact (by assumption : _ = true).symm
  · exact (Bool.eq_false_iff.mpr ‹_›).symm

/-- A programme with its slice formed and its rider moved (R94, R105, R114, R123). -/
def State.sliced (s : State) (p : Fin 16) : Programme := s.programmes[p].slice s.tables.levels s.tables.unity s.time.sliceFrames

theorem State.formSlices_programme (s : State) (p : Fin 16) : s.formSlices.programmes[p] = s.sliced p := by
  simp only [State.formSlices, Fin.getElem_fin, mapAll_getElem]
  rfl

/-- What a slice end makes of a programme. -/
theorem State.slice_programme (s : State) (order : SliceOrder) (p : Fin 16) :
    (s.slice order).programmes[p] = if s.programmes[p].running = true then (s.sliced p).logPassed else s.sliced p := by
  have closed := s.formSlices.closeSlice_programme s.handover order p
  rw [s.handover_formed p, s.formSlices_programme p] at closed
  exact closed

/-- The write pass moves the log's counts and the three marks of an entry alone (R142, R143). -/
theorem Programme.logPassed_eq (p : Programme) :
    p.logPassed = { p with
      meter := { p.meter with voidMark := p.logPassed.meter.voidMark }
      align := { p.align with realigned := p.logPassed.align.realigned }, log := p.logPassed.log } := by
  unfold Programme.logPassed
  repeat' split
  all_goals rfl

/-- Forming the slice moves the meter, the rider, the clip counts and the tally alone. -/
theorem Programme.slice_eq (p : Programme) (levels : List LevelEntry) (unity : Byte) (n : Nat) :
    p.slice levels unity n = { p with
      meter := (p.slice levels unity n).meter, rider := (p.slice levels unity n).rider
      clips := Vector.replicate 8 0, tally := { both := 0, opposed := 0 } } := by
  unfold Programme.slice
  dsimp only
  split <;> rfl

theorem Programme.slice_runs {p : Programme} (run : p.running = true) (levels : List LevelEntry) (unity : Byte) (n : Nat) :
    (p.slice levels unity n).meter = p.meter.slice levels p.level.absoluteGate p.level.relativeOffset n ∧
      (p.slice levels unity n).rider =
        ({ p with meter := p.meter.slice levels p.level.absoluteGate p.level.relativeOffset n } : Programme).riderSlice unity := by
  unfold Programme.slice
  rw [if_pos run]
  exact ⟨rfl, rfl⟩

theorem Programme.slice_rests {p : Programme} (rest : p.running = false) (levels : List LevelEntry) (unity : Byte) (n : Nat) :
    (p.slice levels unity n).meter = p.meter ∧ (p.slice levels unity n).rider = p.rider := by
  unfold Programme.slice
  rw [if_neg (by rw [rest]; exact Bool.false_ne_true)]
  exact ⟨rfl, rfl⟩

/-- Settles O23: the parts of a slice end move what they are said to, and the sweep forms the lines. -/
theorem sliceEndOpensANewSlice : Obligations.SliceEndOpensANewSlice := by
  intro s order due
  refine ⟨_, exec_sliceEnd due order, fun f => ?_, fun p => ?_, ?_⟩
  · obtain ⟨closed, -⟩ := s.formSlices.closeSlice_eq s.handover order
    have feeds : (s.slice order).feeds = s.formSlices.feeds := by
      unfold State.slice
      dsimp only
      rw [closed]
    rw [feeds]
    simp only [State.formSlices, Fin.getElem_fin, mapAll_getElem]
    rfl
  · have made := s.slice_programme order p
    have formed : s.sliced p = _ := Programme.slice_eq ..
    have passed := (s.sliced p).logPassed_eq
    have log : (s.sliced p).log = s.programmes[p].log := by rw [formed]
    generalize (s.slice order).programmes[p] = u at made
    by_cases run : s.programmes[p].running = true
    · rw [if_pos run] at made
      rw [← made] at passed
      rw [passed, formed]
      exact ⟨rfl, rfl, rfl⟩
    · rw [if_neg run] at made
      rw [made, formed]
      exact ⟨rfl, rfl, rfl⟩
  · obtain ⟨closed, policies, command, law⟩ := s.formSlices.closeSlice_eq s.handover order
    refine ⟨command, policies, law.of_alarms rfl, s.slice_time order, ?_⟩
    unfold State.slice
    dsimp only
    generalize s.formSlices.closeSlice order s.handover = t at closed
    rw [closed]
    rfl

end Sys2Proof.Machine
end

