-- ==== Sys2Proof/Proofs/SliceMeters.lean ====
section
/-! SUPPORT. The meter and the rider of a programme at a slice end (R88 to R95, R105 to R109). -/

namespace Sys2Proof.Machine

/-- The void mark after a slice end at which the write pass wrote no entry. -/
theorem Programme.logPassed_idle {p : Programme} (idle : p.level.logInterval = 0) : p.logPassed = p := by
  have never : p.logCounts = false := decide_eq_false (by omega)
  unfold Programme.logPassed Programme.logDue
  rw [never, Bool.false_and]
  exact (if_neg Bool.false_ne_true).trans (if_neg Bool.false_ne_true)

/-- The meter and the rider that a slice end leaves a RUNNING programme: the VOID mark aside, those formed before the write pass. -/
theorem State.slice_runs {s : State} (order : SliceOrder) {p : Fin 16} (run : s.programmes[p].running = true) :
    let q := s.programmes[p]
    let m := q.meter.slice s.tables.levels q.level.absoluteGate q.level.relativeOffset s.time.sliceFrames
    let u := (s.slice order).programmes[p]
    u.meter = { m with voidMark := u.meter.voidMark } ∧ (q.level.logInterval = 0 → u.meter.voidMark = m.voidMark) ∧
      u.rider = ({ q with meter := m } : Programme).riderSlice s.tables.unity := by
  intro q m u
  have made := s.slice_programme order p
  rw [if_pos run] at made
  have formed : s.sliced p = _ := Programme.slice_eq ..
  obtain ⟨meter, rider⟩ : (s.sliced p).meter = m ∧ (s.sliced p).rider = _ := Programme.slice_runs run ..
  have passed := (s.sliced p).logPassed_eq
  rw [← made] at passed
  refine ⟨?_, fun idle => ?_, ?_⟩
  · refine (congrArg Programme.meter passed).trans ?_
    dsimp only
    rw [meter]
  · have still : (s.sliced p).level.logInterval = 0 := by
      rw [formed]
      exact idle
    rw [Programme.logPassed_idle still] at made
    rw [← meter, ← made]
  · exact (congrArg Programme.rider passed).trans rider

theorem State.slice_rests {s : State} (order : SliceOrder) {p : Fin 16} (rest : s.programmes[p].running = false) :
    (s.slice order).programmes[p].meter = s.programmes[p].meter ∧ (s.slice order).programmes[p].rider = s.programmes[p].rider := by
  have made := s.slice_programme order p
  rw [if_neg (by rw [rest]; exact Bool.false_ne_true)] at made
  rw [made]
  exact Programme.slice_rests rest ..

/-! ### The integrated measurement (R93) -/

theorem histogramTest_counts {gAbs j : Nat} {ring : List SliceEntry} (long : 4 ≤ ring.length) (above : gAbs ≤ j)
    (sound : ∀ e ∈ ring.drop (ring.length - 4), e.void = false) (h : List Nat) :
    histogramTest gAbs ring (some j) h = (if h.getD j 0 = 65535 then h.map (· / 2) else h).modify j (· + 1) :=
  if_pos ⟨long, List.all_eq_true.mpr fun e mem => by rw [sound e mem]; rfl, above⟩

theorem histogramTest_rests {gAbs : Nat} {ring : List SliceEntry} {level : Option Nat} (h : List Nat)
    (rests : level = none ∨ (∃ j, level = some j ∧ j < gAbs) ∨ ∃ e ∈ ring.drop (ring.length - 4), e.void = true) :
    histogramTest gAbs ring level h = h := by
  unfold histogramTest
  cases level with
  | none => rfl
  | some j =>
    refine if_neg fun ⟨_, sound, above⟩ => ?_
    obtain absent | ⟨k, same, below⟩ | ⟨e, mem, void⟩ := rests
    · cases absent
    · cases same
      omega
    · have clean := List.all_eq_true.mp sound e mem
      rw [void] at clean
      cases clean

theorem integrate_empty {levels : List LevelEntry} {gAbs offset : Nat} {h : List Nat} (empty : (h.drop gAbs).sum = 0) :
    integrate levels gAbs offset h = { power := none, level := none, nAbs := 0, gate := none } := if_pos empty

theorem integrate_some {levels : List LevelEntry} {gAbs offset : Nat} {h : List Nat} (some_ : (h.drop gAbs).sum ≠ 0) :
    let i := integrate levels gAbs offset h
    let energy := fun lowest : Nat => (((h.zip levels).drop lowest).map fun e => e.1 * e.2.power.toNat).sum
    let gRel := match bin levels (energy gAbs / (h.drop gAbs).sum) with
      | some b => b - offset
      | none => 0
    i.nAbs = (h.drop gAbs).sum ∧ i.gate = some (max gAbs gRel) ∧ ((h.drop (max gAbs gRel)).sum = 0 → i.power = none ∧ i.level = none) ∧
      ((h.drop (max gAbs gRel)).sum ≠ 0 →
        i.power = some (energy (max gAbs gRel) / (h.drop (max gAbs gRel)).sum) ∧ i.level = i.power.bind (bin levels)) := by
  intro i energy gRel
  have made : i =
      if (h.drop (max gAbs gRel)).sum = 0 then
        { power := none, level := none, nAbs := (h.drop gAbs).sum, gate := some (max gAbs gRel) }
      else
        { power := some (energy (max gAbs gRel) / (h.drop (max gAbs gRel)).sum)
          level := bin levels (energy (max gAbs gRel) / (h.drop (max gAbs gRel)).sum)
          nAbs := (h.drop gAbs).sum, gate := some (max gAbs gRel) } := if_neg some_
  generalize max gAbs gRel = gate at made
  by_cases none_ : (h.drop gate).sum = 0
  · rw [if_pos none_] at made
    rw [made]
    exact ⟨rfl, rfl, fun _ => ⟨rfl, rfl⟩, fun other => absurd none_ other⟩
  · rw [if_neg none_] at made
    rw [made]
    exact ⟨rfl, rfl, fun other => absurd other none_, fun _ => ⟨rfl, rfl⟩⟩

/-- The ring of slices after a slice end (R88, R89). -/
def MeterContext.ringAfter (m : MeterContext) (n : Nat) : List SliceEntry :=
  pushSlice m.ring { power := m.powerSum / n, void := m.sliceVoid n }

theorem MeterContext.slice_ring (m : MeterContext) (levels : List LevelEntry) (gAbs offset n : Nat) :
    (m.slice levels gAbs offset n).ring = m.ringAfter n := rfl

/-- Settles O19: the slice formed by a RUNNING programme's meter, and the write pass after it. -/
theorem sliceEndFormsMeasurements : Obligations.SliceEndFormsMeasurements := by
  refine fun s order => ⟨fun rest => exec_sliceEnd_rest rest order, fun due => ⟨_, exec_sliceEnd due order, fun p => ?_⟩⟩
  intro q m n u g
  refine ⟨fun rest => (State.slice_rests order rest).1, fun run => ?_⟩
  obtain ⟨formed, void, -⟩ := State.slice_runs order run
  have same : u = { m.slice s.tables.levels g q.level.relativeOffset n with voidMark := u.voidMark } := formed
  have mark : q.level.logInterval = 0 → u.voidMark = (m.voidMark || decide (n < 10 * (m.substituted + (n - m.measured)))) := void
  clear_value u
  generalize u.voidMark = v at same mark
  subst same
  refine ⟨rfl, mark, rfl, rfl, rfl, rfl, rfl, rfl, rfl, rfl, rfl, fun j level above sound => ?_, fun rests => ?_, ?_⟩
  · have long : 4 ≤ (m.ringAfter n).length := by
      by_contra short
      have none_ : momentaryOf (m.ringAfter n) = none := if_neg short
      have level : (momentaryOf (m.ringAfter n)).bind (bin s.tables.levels) = some j :=
        level
      rw [none_] at level
      cases level
    refine Eq.trans ?_ (histogramTest_counts long above sound m.histogram)
    exact congrArg (fun l => histogramTest g _ l m.histogram) level
  · exact histogramTest_rests m.histogram rests
  · obtain ⟨h, histogram⟩ : ∃ h, histogramTest g (m.ringAfter n)
        ((momentaryOf (m.ringAfter n)).bind (bin s.tables.levels)) m.histogram = h := ⟨_, rfl⟩
    unfold MeterContext.ringAfter at histogram
    unfold MeterContext.slice
    dsimp only
    rw [histogram]
    by_cases empty : (h.drop g).sum = 0
    · rw [integrate_empty empty]
      exact ⟨empty.symm, fun _ => ⟨rfl, rfl, rfl⟩, fun some_ => absurd rfl some_⟩
    · obtain ⟨count, gate, none_, some_⟩ := integrate_some (levels := s.tables.levels) (offset := q.level.relativeOffset) empty
      rw [count]
      exact ⟨rfl, fun none_ => absurd none_ empty, fun _ => ⟨gate, none_, some_⟩⟩

/-! ### The ride (R105 to R109) -/

/-- The ride holds while there is no control level, the newest slice is void, or the short-term level lies below the gate (R106). -/
theorem Programme.rideHolds_iff (p : Programme) :
    p.rideHolds = true ↔ p.controlLevel = none ∨ (∃ e, p.meter.ring.getLast? = some e ∧ e.void = true) ∨
      ∃ b, p.meter.shortTerm = some b ∧ b < p.level.absoluteGate := by
  unfold Programme.rideHolds MeterContext.newestVoid
  rw [Bool.or_eq_true, Bool.or_eq_true, Option.isNone_iff_eq_none, or_assoc]
  refine or_congr Iff.rfl (or_congr ?_ ?_)
  · cases p.meter.ring.getLast? <;> simp
  · cases p.meter.shortTerm <;> simp

/-- The clip guard and the limit mark, after the ride step of RIDE mode (R108, R109). -/
theorem RiderContext.guard_limitMark (w : RiderContext) {l : LevelFields} (ride : l.gainMode = .ride) (clipped : Bool) :
    let u := (w.guard l clipped).limitMark l
    let guards := l.clipGuard = true ∧ clipped = true
    (guards → u.gain = (if l.gMin < w.gain then w.gain - 1 else w.gain) ∧ u.rise = 0 ∧ u.fall = 0) ∧
      (¬ guards → u.gain = w.gain ∧ u.rise = w.rise ∧ u.fall = w.fall) ∧ u.aim = w.aim ∧ u.latched = w.latched ∧
      (u.limit = true ↔ ∃ aim : Int, w.aim = some aim ∧
        ((u.gain = l.gMax ∧ (l.gMax : Int) < aim) ∨ (u.gain = l.gMin ∧ aim < (l.gMin : Int)))) := by
  intro u guards
  have aim : (w.guard l clipped).aim = w.aim ∧ (w.guard l clipped).latched = w.latched := by
    unfold RiderContext.guard
    split <;> exact ⟨rfl, rfl⟩
  refine ⟨fun yes => ?_, fun no => ?_, aim.1, aim.2, ?_⟩
  · have made : w.guard l clipped = _ := if_pos ⟨ride, yes⟩
    exact ⟨(congrArg RiderContext.gain made :), (congrArg RiderContext.rise made :), (congrArg RiderContext.fall made :)⟩
  · have made : w.guard l clipped = w := if_neg fun h => no h.2
    exact ⟨(congrArg RiderContext.gain made :), (congrArg RiderContext.rise made :), (congrArg RiderContext.fall made :)⟩
  · rw [← aim.1]
    simp only [u, RiderContext.limitMark]
    rw [ride]
    cases (w.guard l clipped).aim <;> simp

section Modes

variable {p : Programme}

theorem Programme.riderSlice_fixed (fixed : p.level.gainMode = .fixed) (unity : Byte) :
    p.riderSlice unity = { p.rider with gain := p.level.fixedGain, rise := 0, fall := 0, aim := none, limit := false } := by
  have step : p.rideStep unity = { p.rider.hold with gain := p.level.fixedGain } := by
    unfold Programme.rideStep
    rw [fixed]
  have guard (w : RiderContext) : w.guard p.level p.clipped = w := if_neg fun h => absurd (h.1.symm.trans fixed) (by decide)
  unfold Programme.riderSlice
  rw [step, guard]
  unfold RiderContext.limitMark
  rw [fixed]
  rfl

theorem Programme.rideStep_holds (ride : p.level.gainMode = .ride) (holds : p.rideHolds = true) (unity : Byte) :
    p.rideStep unity = p.rider.hold := by
  unfold Programme.rideStep
  rw [ride]
  exact if_pos holds

theorem Programme.rideStep_moves (ride : p.level.gainMode = .ride) (moves : ¬ p.rideHolds = true) {c : Nat} (level : p.controlLevel = some c)
    (unity : Byte) : p.rideStep unity = p.rider.ride p.level (p.aimOf unity c) := by
  unfold Programme.rideStep
  rw [ride]
  dsimp only
  rw [if_neg moves, level]

theorem Programme.rideStep_latched (unity : Byte) : (p.rideStep unity).latched = p.rider.latched := by
  unfold Programme.rideStep RiderContext.ride
  dsimp only
  repeat' split
  all_goals rfl

end Modes

/-- Settles O20: the ride step, then the clip guard and the limit mark; RIDE_STEP is the slice end whose ride step moves g. -/
theorem sliceEndRidesTheGain : Obligations.SliceEndRidesTheGain := by
  refine fun s order => ⟨fun rest p => congrArg Host.Outcome.next (State.takeWhen_rest rest _ _), fun due => ⟨_, exec_sliceEnd due order, fun p => ?_⟩⟩
  intro q l r u control holds
  obtain ⟨m, meter⟩ : ∃ m, q.meter.slice s.tables.levels q.level.absoluteGate q.level.relativeOffset s.time.sliceFrames = m := ⟨_, rfl⟩
  have row {P : Prop} [Decidable P] (rides : q.rides s.tables.levels s.tables.unity s.time.sliceFrames = true ↔ P) :
      exec (.rideStep p order) s = .next (if P then s.slice order else s) :=
    congrArg Host.Outcome.next (State.takeWhen_due due _ rides)
  have rides : q.rides s.tables.levels s.tables.unity s.time.sliceFrames = true ↔
      q.running = true ∧ l.gainMode = .ride ∧ (({ q with meter := m } : Programme).rideStep s.tables.unity).gain ≠ r.gain := by
    unfold Programme.rides
    rw [meter]
    dsimp only
    rw [Bool.and_eq_true, Bool.and_eq_true, beq_iff_eq, bne_iff_ne, and_assoc]
  refine ⟨fun rest => ⟨(State.slice_rests order rest).2, ?_⟩, fun run fixed => ?_, fun run ride => ?_⟩
  · rw [row rides, if_neg fun h => absurd (h.1.symm.trans rest) (by decide)]
  · obtain ⟨-, -, rider⟩ := State.slice_runs order run
    rw [meter] at rider
    refine ⟨rider.trans ?_, ?_⟩
    · exact Programme.riderSlice_fixed (p := { q with meter := m }) fixed s.tables.unity
    · rw [row rides, if_neg fun h => absurd (h.2.1.symm.trans fixed) (by decide)]
  · obtain ⟨formed, -, rider⟩ := State.slice_runs order run
    rw [meter] at formed rider
    have same : ({ q with meter := m } : Programme).controlLevel = control := by
      have meters : u.meter = { m with voidMark := u.meter.voidMark } := formed
      simp only [control]
      rw [meters]
      rfl
    have held : ({ q with meter := m } : Programme).rideHolds = true ↔ holds := by
      have meters : u.meter = { m with voidMark := u.meter.voidMark } := formed
      rw [Programme.rideHolds_iff, same]
      simp only [holds]
      rw [meters]
    have clips : ({ q with meter := m } : Programme).clipped = true ↔ ∃ i : Fin 8, 0 < q.clips[i] := by
      unfold Programme.clipped
      simp only [List.any_eq_true, List.mem_finRange, true_and, decide_eq_true_eq]
    obtain ⟨guarded, unguarded, aim, latched, limit⟩ := RiderContext.guard_limitMark
      (({ q with meter := m } : Programme).rideStep s.tables.unity) ride ({ q with meter := m } : Programme).clipped
    have after : u.rider = _ := rider
    refine ⟨({ q with meter := m } : Programme).rideStep s.tables.unity, fun hold => ?_, fun moves c level => ?_, ?_, fun yes => ?_, fun no => ?_,
      ?_, ?_, ?_⟩
    · exact Programme.rideStep_holds (p := { q with meter := m }) ride (held.mpr hold) _
    · exact Programme.rideStep_moves (p := { q with meter := m }) ride (mt held.mp moves) (same.trans level) _
    · refine (row rides).trans ?_
      by_cases still : (({ q with meter := m } : Programme).rideStep s.tables.unity).gain = r.gain
      · rw [if_neg fun h => h.2.2 still, if_pos still]
      · rw [if_pos ⟨run, ride, still⟩, if_neg still]
    · rw [after]
      exact guarded ⟨yes.1, clips.mpr yes.2⟩
    · rw [after]
      exact unguarded fun h => no ⟨h.1, clips.mp h.2⟩
    · rw [after]
      exact aim
    · rw [after]
      exact latched.trans (Programme.rideStep_latched _)
    · rw [after]
      exact limit

end Sys2Proof.Machine
end

