-- ==== Sys2Proof/Proofs/SliceLog.lean ====
section
/-! SUPPORT. The loudness log at a slice end (R141 to R144). -/

namespace Sys2Proof.Machine

/-- Some record that concerns the programme stands (R141). -/
theorem AlarmUnit.programmeAlarm_iff (a : AlarmUnit) (p : Fin 16) :
    a.programmeAlarm p = true ↔ ∃ r : Fin 400, concerns r p ∧ a.records[r].state ∈ [AlarmState.active, .falling, .latched] := by
  have stands (r : Fin 400) : a.records[r].standing = true ↔ a.records[r].state ∈ [AlarmState.active, .falling, .latched] := by
    unfold AlarmRecord.standing
    cases a.records[r].state <;> simp
  unfold AlarmUnit.programmeAlarm
  simp only [Bool.or_eq_true, List.any_eq_true, List.mem_finRange, true_and, stands, concerns_iff]
  constructor
  · rintro (⟨q, first | second⟩ | ⟨k, own⟩)
    · exact ⟨_, .inl ⟨by simp only [positionRecord]; omega, by simp only [positionRecord]; omega⟩, first⟩
    · exact ⟨_, .inl ⟨by simp only [positionRecord]; omega, by simp only [positionRecord]; omega⟩, second⟩
    · exact ⟨_, .inr ⟨by simp only [programmeRecord]; omega, by simp only [programmeRecord]; omega, by simp only [programmeRecord]; omega⟩, own⟩
  · rintro ⟨r, ⟨low, own⟩ | ⟨high, low, own⟩, state⟩
    · have place (k : Fin 2) (odd : r.val % 2 = k.val) : r = positionRecord p ⟨r.val / 2 % 8, by omega⟩ k := by
        apply Fin.ext
        simp only [positionRecord]
        omega
      refine .inl ⟨⟨r.val / 2 % 8, by omega⟩, ?_⟩
      rcases Nat.mod_two_eq_zero_or_one r.val with even | odd
      · exact .inl ((place 0 even) ▸ state)
      · exact .inr ((place 1 odd) ▸ state)
    · have place : r = programmeRecord p ⟨(r.val - 256) % 6, by omega⟩ := by
        apply Fin.ext
        simp only [programmeRecord]
        omega
      exact .inr ⟨_, place ▸ state⟩

/-! ### The log of a slice end, in each order of its parts (log entry 16) -/

section Close

variable (s : State) (h : SliceHandover)

/-- The state on which the write pass is taken. -/
def State.atPass (order : SliceOrder) : State :=
  match order with
  | .writeStepSweep => s
  | .writeSweepStep => s
  | .sweepWriteStep => s.sweep h

theorem State.atPass_eq (order : SliceOrder) :
    s.atPass h order =
      { s with alarms := (s.atPass h order).alarms, processor := { s.processor with reports := (s.atPass h order).processor.reports } } := by
  cases order with
  | writeStepSweep => rfl
  | writeSweepStep => rfl
  | sweepWriteStep => exact (s.sweep_eq h).2.2.2

theorem State.sweep_log : (s.sweep h).log = s.log := by rw [(s.sweep_eq h).2.2.2]

theorem State.transferSteps_alarms (fuel : Nat) : (State.transferSteps fuel s).alarms = s.alarms := by rw [State.transferSteps_eq]

theorem State.logPass_records : (s.logPass h).alarms.records = s.alarms.records := by rw [(s.logPass_spec h).2.2]

/-- What the transfer steps and the sweep make of what the write pass leaves. -/
theorem State.closeSlice_log (order : SliceOrder) :
    let l := (s.atPass h order).logPass h
    let t := s.closeSlice order h
    (∃ taken : List LogEntry, l.log.ring = taken ++ t.log.ring ∧ (l.log.transfer.state ≠ .active → taken = [])) ∧
      t.log.overflow = l.log.overflow ∧ t.log.transfer.overrun = l.log.transfer.overrun ∧
      t.alarms.logOverrun = (decide (order = .sweepWriteStep) && l.alarms.logOverrun) ∧
      (order = .sweepWriteStep → t.alarms.records = (s.atPass h order).alarms.records) := by
  unfold State.closeSlice State.atPass
  cases order with
  | writeStepSweep =>
    obtain ⟨logs, taken, -, ring, overflow, overrun, idle, -⟩ := State.transferSteps_spec 33 (s.logPass h)
    obtain ⟨-, -, mark, -⟩ := (State.transferSteps 33 (s.logPass h)).sweep_eq h
    dsimp only
    rw [State.sweep_log]
    exact ⟨⟨taken, ring, idle⟩, overflow, overrun, mark, nofun⟩
  | writeSweepStep =>
    obtain ⟨logs, taken, -, ring, overflow, overrun, idle, -⟩ := State.transferSteps_spec 33 ((s.logPass h).sweep h)
    obtain ⟨-, -, mark, -⟩ := (s.logPass h).sweep_eq h
    rw [State.sweep_log] at ring overflow overrun idle
    dsimp only
    rw [State.transferSteps_alarms]
    exact ⟨⟨taken, ring, idle⟩, overflow, overrun, mark, nofun⟩
  | sweepWriteStep =>
    obtain ⟨logs, taken, -, ring, overflow, overrun, idle, -⟩ := State.transferSteps_spec 33 ((s.sweep h).logPass h)
    dsimp only
    rw [State.transferSteps_alarms, State.logPass_records]
    exact ⟨⟨taken, ring, idle⟩, overflow, overrun, (Bool.true_and _).symm, fun _ => rfl⟩

end Close

/-- The programmes that the write pass of a slice end serves are those due (R142, R143). -/
theorem State.passDue_slice (s : State) (order : SliceOrder) : (s.formSlices.atPass s.handover order).passDue s.handover = s.entriesDue := by
  refine List.filter_congr fun p _ => Bool.eq_iff_iff.mpr ?_
  have programmes : (s.formSlices.atPass s.handover order).programmes = s.formSlices.programmes := by rw [State.atPass_eq]
  have formed : s.sliced p = _ := Programme.slice_eq ..
  rw [s.handover_formed p, programmes, s.formSlices_programme p]
  unfold Programme.logDue Programme.logCounts Programme.entryDue
  rw [formed]
  simp only [Bool.and_eq_true, decide_eq_true_eq, Programme.running_iff]

theorem State.discards_entriesDue {b s : State} (log : b.log = s.log) : b.discards s.entriesDue.length = s.passDiscards := by
  unfold State.discards State.passDiscards
  rw [log]
  cases s.entriesDue with
  | nil => exact decide_eq_false fun some_ => Nat.lt_irrefl 0 some_.1
  | cons p ps => exact decide_eq_decide.mpr (and_iff_right (Nat.succ_pos _))

theorem Programme.gated_iff (p : Programme) : p.gated = true ↔ ∃ b, p.meter.shortTerm = some b ∧ b < p.level.absoluteGate := by
  unfold Programme.gated
  cases p.meter.shortTerm <;> simp

/-- Settles O21: the entries of the programmes due are appended in order; the transfer steps take from the head. -/
theorem sliceEndWritesDueLogEntries : Obligations.SliceEndWritesDueLogEntries := by
  refine fun s order => ⟨fun rest p => congrArg Host.Outcome.next (State.takeWhen_rest rest _ _), fun due => ?_⟩
  have base := s.formSlices.atPass_eq s.handover order
  have served := s.passDue_slice order
  obtain ⟨⟨taken, ring, idle⟩, overflow, overrun, mark, records⟩ := s.formSlices.closeSlice_log s.handover order
  have before : order ≠ .sweepWriteStep → (s.formSlices.atPass s.handover order).alarms = s.alarms := by
    intro other
    cases order with
    | writeStepSweep => exact s.formSlices_alarms
    | writeSweepStep => exact s.formSlices_alarms
    | sweepWriteStep => exact absurd rfl other
  have noMark : (s.formSlices.atPass s.handover order).alarms.logOverrun = false ∨ order ≠ .sweepWriteStep := by
    cases order with
    | writeStepSweep => exact .inr nofun
    | writeSweepStep => exact .inr nofun
    | sweepWriteStep => exact .inl (s.formSlices.sweep_eq s.handover).2.2.1
  obtain ⟨-, appended, -⟩ := (s.formSlices.atPass s.handover order).logPass_spec s.handover
  generalize s.formSlices.atPass s.handover order = b at base served ring idle overflow overrun mark records before noMark appended
  have log : b.log = s.log := by rw [base, State.formSlices_log]
  have time : b.time = s.time := by rw [base, State.formSlices_time]
  have programme (p : Fin 16) : b.programmes[p] = s.sliced p := by
    rw [base]
    exact s.formSlices_programme p
  have discards := State.discards_entriesDue log
  rw [served] at appended
  obtain ⟨appended, -, overflows, marks, transfers⟩ := appended
  rw [List.length_map, discards, log] at overflows transfers
  rw [List.length_map, discards] at marks
  rw [List.length_map, log] at appended
  rw [transfers] at idle overrun
  rw [overflows] at overflow
  rw [marks] at mark
  have afterLog : (s.formSlices.closeSlice order s.handover).log = (s.slice order).log := rfl
  have afterAlarms : (s.formSlices.closeSlice order s.handover).alarms = (s.slice order).alarms := rfl
  rw [afterLog] at ring overflow overrun
  rw [afterAlarms] at mark records
  refine ⟨_, s.entriesDue.map b.logEntry, exec_sliceEnd due order, ?_, fun e mem => ?_, fun few => ⟨taken, ?_, idle⟩, overflow, overrun, ?_,
    fun p => ?_⟩
  · rw [List.map_map]
    exact List.map_id _
  · obtain ⟨i, -, rfl⟩ := List.mem_map.mp mem
    refine (b.alarms.programmeAlarm_iff i).trans (exists_congr fun r => and_congr_right fun _ => ?_)
    by_cases last : order = .sweepWriteStep
    · rw [if_pos last, records last]
    · rw [if_neg last, before last]
  · rw [← ring, appended few, List.length_map]
  · rw [mark]
    obtain clear | other := noMark
    · rw [clear, Bool.false_or]
    · rw [decide_eq_false other, Bool.false_and, Bool.false_and]
  · intro q u void due_
    have made := s.slice_programme order p
    have formed : s.sliced p = _ := Programme.slice_eq ..
    have log_ : (s.sliced p).log = q.log := by rw [formed]
    have level : (s.sliced p).level = q.level := by rw [formed]
    have align : (s.sliced p).align = q.align := by rw [formed]
    have isDue : (q.running && q.logDue) = true ↔ due_ := by
      unfold Programme.logDue Programme.logCounts
      rw [Bool.and_eq_true, Bool.and_eq_true, decide_eq_true_iff, decide_eq_true_iff]
    have counts : (s.sliced p).logCounts = q.logCounts ∧ (s.sliced p).logDue = q.logDue := by
      unfold Programme.logDue Programme.logCounts
      rw [log_, level]
      exact ⟨rfl, rfl⟩
    have mark_ (run : q.running = true) : (s.sliced p).meter.voidMark = void :=
      congrArg MeterContext.voidMark (Programme.slice_runs run ..).1
    refine ⟨congrArg Host.Outcome.next (State.takeWhen_due due _ isDue), fun yes => ?_, fun run some_ wait => ?_, fun rests => ?_⟩
    · obtain ⟨run, now⟩ := Bool.and_eq_true_iff.mp (isDue.mpr yes)
      have same : u = (s.sliced p).logWritten := (made.trans (if_pos run)).trans (if_pos (counts.2.trans now))
      have member : b.logEntry p ∈ s.entriesDue.map b.logEntry :=
        List.mem_map_of_mem (List.mem_filter.mpr ⟨List.mem_finRange p, decide_eq_true ⟨q.running_iff.mp run, yes.2⟩⟩)
      have inside : s.log.transfer.state ≠ .active → s.log.ring.length ≤ 512 → b.logEntry p ∈ (s.slice order).log.ring := by
        intro resting few
        have kept := ring.symm.trans (appended few)
        have whole : (s.entriesDue.map b.logEntry).length ≤ 512 := by
          rw [List.length_map]
          exact (List.length_filter_le _ _).trans (by rw [List.length_finRange]; decide)
        rw [idle resting, List.nil_append, List.drop_append_of_le_length (by rw [List.length_map] at whole; omega)] at kept
        rw [kept]
        exact List.mem_append_right _ member
      clear_value u
      subst same
      refine ⟨rfl, rfl, rfl, b.logEntry p, member, ?_⟩
      have field {β : Type} (f : Programme → β) : f b.programmes[p] = f (s.sliced p) := congrArg f (programme p)
      refine ⟨congrArg Timebase.houseTime time, rfl, field (·.meter.momentary), field (·.meter.shortTerm), field (·.meter.integrated),
        field (·.rider.gain), (field (·.meter.voidMark)).trans (mark_ run), (field (·.align.realigned)).trans (congrArg _ align),
        (field (·.log.epoch)).trans (congrArg _ log_), inside, ?_⟩
      refine (iff_of_eq (congrArg (· = true) (field Programme.gated))).trans ((s.sliced p).gated_iff.trans ?_)
      rw [level]
      rfl
    · have now : ¬ (s.sliced p).logDue = true := fun now =>
        wait (isDue.mp (Bool.and_eq_true_iff.mpr ⟨run, counts.2.symm.trans now⟩)).2.2
      have counting : (s.sliced p).logCounts = true := counts.1.trans (decide_eq_true some_)
      have same : u = { s.sliced p with log := { (s.sliced p).log with interval := (s.sliced p).log.interval + 1 } } :=
        (made.trans (if_pos run)).trans ((if_neg now).trans (if_pos counting))
      rw [same, ← mark_ run, ← log_, ← align]
      exact ⟨rfl, rfl, rfl⟩
    · have same : u = s.sliced p := by
        refine made.trans ?_
        by_cases run : q.running = true
        · have idle : (s.sliced p).level.logInterval = 0 := by
            rw [level]
            exact rests.resolve_left fun rest => absurd (run.symm.trans rest) (by decide)
          rw [if_pos run, Programme.logPassed_idle idle]
        · exact if_neg run
      rw [same]
      exact ⟨log_, congrArg AlignContext.realigned align⟩

end Sys2Proof.Machine
end

