-- ==== Sys2Proof/Proofs/AlarmMoves.lean ====
section
/-! SUPPORT. What a sweep does with one alarm record, and the conditions it reads (R122 to R131). -/

namespace Sys2Proof.Machine

/-! ### The moves of a record (R130, R131) -/

section Moves

variable (x : AlarmRecord) (k : KindPolicy) (now : Word32) (c : Bool)

/-- The sweep raises the record. -/
def AlarmRecord.Raises : Prop :=
  k.enabled = true ∧ c = true ∧
    ((x.state = .clear ∧ k.raiseCount ≤ 1) ∨ (x.state = .rising ∧ k.raiseCount ≤ min (x.count + 1) 255))

/-- The sweep ends the record's fall. -/
def AlarmRecord.EndsFall : Prop :=
  k.enabled = true ∧ ¬ c = true ∧
    ((x.state = .active ∧ k.clearCount ≤ 1) ∨ (x.state = .falling ∧ k.clearCount ≤ min (x.count + 1) 255))

/-- The sweep makes a repeat of the record fall due. -/
def AlarmRecord.Repeats : Prop :=
  k.enabled = true ∧ c = true ∧ x.state = .active ∧ x.acknowledged = false ∧ 0 < k.repeatInterval ∧
    (if x.repeatsDue = 0 ∧ k.repeatDelay ≠ 0 then k.repeatDelay else k.repeatInterval) ≤ min (x.repeatCount + 1) 255

/-- What the sweep leaves of a record of an enabled kind that it neither raises, nor brings to the end of its fall, nor repeats. -/
def AlarmRecord.rested : AlarmRecord :=
  match x.state with
  | .clear => if c then { x with state := .rising, count := 1 } else { x with count := 0 }
  | .rising => if c then { x with count := min (x.count + 1) 255 } else { x with state := .clear, count := 0 }
  | .active =>
    if c then if x.acknowledged then x else { x with repeatCount := min (x.repeatCount + 1) 255 }
    else { x with state := .falling, count := 1, acknowledged := false }
  | .falling =>
    if c then { x with state := .active, count := 0, acknowledged := false } else { x with count := min (x.count + 1) 255 }
  | .latched => if c then { x with state := .active, count := 0, acknowledged := false } else x

/-- What a sweep does with a record: its move if its kind is enabled (R122). -/
def AlarmRecord.swept : RecordMove := if k.enabled then x.move k now c else { record := x, offer := none }

variable {x k now c}

/-- The move of a record of an enabled kind, by its state. -/
theorem AlarmRecord.swept_of {state : AlarmState} (on : k.enabled = true) (at_ : x.state = state) :
    x.swept k now c = ({ x with state := state } : AlarmRecord).move k now c := by
  rw [← at_]
  exact if_pos on

theorem AlarmRecord.swept_raises (h : x.Raises k c) : x.swept k now c = x.raised now := by
  obtain ⟨on, rfl, ⟨state, few⟩ | ⟨state, few⟩⟩ := h
  · rw [AlarmRecord.swept_of on state]
    exact if_pos few
  · rw [AlarmRecord.swept_of on state]
    exact if_pos (by rwa [bump_min])

theorem AlarmRecord.swept_endsFall (h : x.EndsFall k c) : x.swept k now c = x.endFall k.latching := by
  obtain ⟨on, off, ⟨state, few⟩ | ⟨state, few⟩⟩ := h
  · obtain rfl := Bool.eq_false_iff.mpr off
    rw [AlarmRecord.swept_of on state]
    exact if_pos few
  · obtain rfl := Bool.eq_false_iff.mpr off
    rw [AlarmRecord.swept_of on state]
    exact if_pos (by rwa [bump_min])

theorem AlarmRecord.stayActive_repeats (fresh : x.acknowledged = false) (some_ : 0 < k.repeatInterval)
    (due : k.repeatAt x ≤ min (x.repeatCount + 1) 255) :
    x.stayActive k = { record := { x with repeatCount := 0, repeatsDue := min (x.repeatsDue + 1) 255 }, offer := some .rpt } := by
  unfold AlarmRecord.stayActive
  rw [fresh, bump_min, bump_min]
  exact if_pos (And.intro some_ due)

theorem AlarmRecord.stayActive_waits (waits : ¬ (x.acknowledged = false ∧ 0 < k.repeatInterval ∧ k.repeatAt x ≤ min (x.repeatCount + 1) 255)) :
    x.stayActive k = { record := if x.acknowledged then x else { x with repeatCount := min (x.repeatCount + 1) 255 }, offer := none } := by
  unfold AlarmRecord.stayActive
  rw [bump_min, bump_min]
  by_cases told : x.acknowledged = true
  · rw [if_pos told, if_pos told]
  · rw [if_neg told, if_neg told]
    exact if_neg fun due => waits ⟨Bool.eq_false_iff.mpr told, due⟩

theorem AlarmRecord.swept_repeats (h : x.Repeats k c) :
    x.swept k now c = { record := { x with repeatCount := 0, repeatsDue := min (x.repeatsDue + 1) 255 }, offer := some .rpt } := by
  obtain ⟨on, rfl, state, fresh, some_, due⟩ := h
  refine Eq.trans ?_ (AlarmRecord.stayActive_repeats fresh some_ due)
  obtain ⟨_, count, repeatCount, repeatsDue, acknowledged, unreported, timeOfRaise⟩ := x
  cases state
  exact if_pos on

theorem AlarmRecord.swept_rests (raises : ¬ x.Raises k c) (falls : ¬ x.EndsFall k c) (repeats : ¬ x.Repeats k c) :
    x.swept k now c = { record := if k.enabled then x.rested c else x, offer := none } := by
  by_cases on : k.enabled = true
  · rw [AlarmRecord.swept_of on rfl, if_pos on]
    have first (idle : x.state = .clear) (few : k.raiseCount ≤ 1) : ¬ c = true := fun holds => raises ⟨on, holds, .inl ⟨idle, few⟩⟩
    have risen (rising : x.state = .rising) (few : k.raiseCount ≤ bump 255 x.count) : ¬ c = true := fun holds =>
      raises ⟨on, holds, .inr ⟨rising, by rwa [bump_min] at few⟩⟩
    have fallen (active : x.state = .active) (few : k.clearCount ≤ 1) : c = true := by
      by_contra off
      exact falls ⟨on, off, .inl ⟨active, few⟩⟩
    have ended (falling : x.state = .falling) (few : k.clearCount ≤ bump 255 x.count) : c = true := by
      by_contra off
      exact falls ⟨on, off, .inr ⟨falling, by rwa [bump_min] at few⟩⟩
    have waits (active : x.state = .active) (holds : c = true) := AlarmRecord.stayActive_waits (x := x) (k := k) fun due =>
      repeats ⟨on, holds, active, due⟩
    obtain ⟨state, count, repeatCount, repeatsDue, acknowledged, unreported, timeOfRaise⟩ := x
    unfold AlarmRecord.move AlarmRecord.rested
    simp only [bump_min] at *
    cases state with
    | clear =>
      cases c with
      | true => exact if_neg fun few => first rfl few rfl
      | false => rfl
    | rising =>
      cases c with
      | true => exact if_neg fun few => risen rfl few rfl
      | false => rfl
    | active =>
      cases c with
      | true => exact waits rfl rfl
      | false => exact if_neg fun few => Bool.false_ne_true (fallen rfl few)
    | falling =>
      cases c with
      | true => rfl
      | false => exact if_neg fun few => Bool.false_ne_true (ended rfl few)
    | latched => cases c <;> rfl
  · unfold AlarmRecord.swept
    rw [if_neg on, if_neg on]

/-- A record is raised, or ends its fall, or repeats, or none of these. -/
theorem AlarmRecord.swept_cases (x : AlarmRecord) (k : KindPolicy) (now : Word32) (c : Bool) :
    (x.Raises k c ∧ ¬ x.EndsFall k c ∧ ¬ x.Repeats k c ∧ x.swept k now c = x.raised now) ∨
      (¬ x.Raises k c ∧ x.EndsFall k c ∧ ¬ x.Repeats k c ∧ x.swept k now c = x.endFall k.latching) ∨
      (¬ x.Raises k c ∧ ¬ x.EndsFall k c ∧ x.Repeats k c ∧
        x.swept k now c = { record := { x with repeatCount := 0, repeatsDue := min (x.repeatsDue + 1) 255 }, offer := some .rpt }) ∨
      (¬ x.Raises k c ∧ ¬ x.EndsFall k c ∧ ¬ x.Repeats k c ∧
        x.swept k now c = { record := if k.enabled then x.rested c else x, offer := none }) := by
  by_cases raises : x.Raises k c
  · refine .inl ⟨raises, fun falls => falls.2.1 raises.2.1, fun repeats => ?_, AlarmRecord.swept_raises raises⟩
    obtain ⟨state, -⟩ | ⟨state, -⟩ := raises.2.2
    · exact absurd (state.symm.trans repeats.2.2.1) nofun
    · exact absurd (state.symm.trans repeats.2.2.1) nofun
  · by_cases falls : x.EndsFall k c
    · exact .inr (.inl ⟨raises, falls, fun repeats => falls.2.1 repeats.2.1, AlarmRecord.swept_endsFall falls⟩)
    · by_cases repeats : x.Repeats k c
      · exact .inr (.inr (.inl ⟨raises, falls, repeats, AlarmRecord.swept_repeats repeats⟩))
      · exact .inr (.inr (.inr ⟨raises, falls, repeats, AlarmRecord.swept_rests raises falls repeats⟩))

theorem AlarmRecord.swept_disabled {x : AlarmRecord} {k : KindPolicy} (off : k.enabled = false) (now : Word32) (c : Bool) :
    x.swept k now c = { record := x, offer := none } := if_neg (by rw [off]; exact Bool.false_ne_true)

/-! ### What a move offers, and what it shows of itself -/

section Signs

variable {x : AlarmRecord} {k : KindPolicy} {now : Word32} {c : Bool}

theorem AlarmRecord.endFall_offer (latching : Bool) (type : AlarmReportType) :
    (x.endFall latching).offer = some type ↔ type = .clear ∧ latching = false := by
  cases latching with
  | true => exact iff_of_false nofun nofun
  | false => exact ⟨fun same => ⟨(Option.some.inj same).symm, rfl⟩, fun both => congrArg some both.1.symm⟩

theorem AlarmRecord.endFall_record (x : AlarmRecord) (latching : Bool) :
    (x.endFall latching).record = { x with state := if latching then .latched else .clear, count := 0, acknowledged := false } := by
  cases latching <;> rfl

theorem AlarmRecord.offers_raise : (x.swept k now c).offer = some .raise ↔ x.Raises k c := by
  obtain ⟨raises, -, -, move⟩ | ⟨raises, -, -, move⟩ | ⟨raises, -, -, move⟩ | ⟨raises, -, -, move⟩ := x.swept_cases k now c
  · exact iff_of_true (congrArg RecordMove.offer move) raises
  · refine iff_of_false (fun same => ?_) raises
    rw [move, AlarmRecord.endFall_offer] at same
    cases same.1
  · exact iff_of_false (by rw [move]; nofun) raises
  · exact iff_of_false (by rw [move]; nofun) raises

theorem AlarmRecord.offers_clear : (x.swept k now c).offer = some .clear ↔ x.EndsFall k c ∧ k.latching = false := by
  obtain ⟨-, falls, -, move⟩ | ⟨-, falls, -, move⟩ | ⟨-, falls, -, move⟩ | ⟨-, falls, -, move⟩ := x.swept_cases k now c
  · exact iff_of_false (by rw [move]; nofun) fun both => falls both.1
  · rw [move, AlarmRecord.endFall_offer, and_iff_right rfl, and_iff_right falls]
  · exact iff_of_false (by rw [move]; nofun) fun both => falls both.1
  · exact iff_of_false (by rw [move]; nofun) fun both => falls both.1

theorem AlarmRecord.offers_rpt : (x.swept k now c).offer = some .rpt ↔ x.Repeats k c := by
  obtain ⟨-, -, repeats, move⟩ | ⟨-, -, repeats, move⟩ | ⟨-, -, repeats, move⟩ | ⟨-, -, repeats, move⟩ := x.swept_cases k now c
  · exact iff_of_false (by rw [move]; nofun) repeats
  · refine iff_of_false (fun same => ?_) repeats
    rw [move, AlarmRecord.endFall_offer] at same
    cases same.1
  · exact iff_of_true (congrArg RecordMove.offer move) repeats
  · exact iff_of_false (by rw [move]; nofun) repeats

/-- A record that the sweep neither raises nor brings to the end of its fall does not become ACTIVE from CLEAR or RISING, and from ACTIVE or
FALLING it becomes neither CLEAR nor LATCHED. -/
theorem AlarmRecord.rested_state (x : AlarmRecord) (c : Bool) :
    (x.state = .clear ∨ x.state = .rising → (x.rested c).state ≠ .active) ∧
      (x.state = .active ∨ x.state = .falling → (x.rested c).state ≠ .clear ∧ (x.rested c).state ≠ .latched) := by
  obtain ⟨state, count, repeatCount, repeatsDue, acknowledged, unreported, timeOfRaise⟩ := x
  unfold AlarmRecord.rested
  cases state <;> cases c <;> cases acknowledged <;> simp

/-- Between the two states of a record, a raise shows (R130). -/
theorem AlarmRecord.raises_iff :
    (x.state = .clear ∨ x.state = .rising) ∧ (x.swept k now c).record.state = .active ↔ x.Raises k c := by
  obtain ⟨raises, -, -, move⟩ | ⟨raises, falls, -, move⟩ | ⟨raises, -, repeats, move⟩ | ⟨raises, -, -, move⟩ := x.swept_cases k now c
  · refine iff_of_true ⟨raises.2.2.imp And.left And.left, ?_⟩ raises
    rw [move]
    rfl
  · refine iff_of_false (fun both => ?_) raises
    have fallen := falls.2.2.imp And.left And.left
    rcases both.1 with state | state <;> rcases fallen with other | other <;> exact absurd (state.symm.trans other) nofun
  · refine iff_of_false (fun both => ?_) raises
    rcases both.1 with state | state <;> exact absurd (state.symm.trans repeats.2.2.1) nofun
  · refine iff_of_false (fun both => ?_) raises
    obtain ⟨state, active⟩ := both
    rw [move] at active
    dsimp only at active
    split at active
    · exact (x.rested_state c).1 state active
    · rcases state with other | other <;> exact absurd (active.symm.trans other) nofun

/-- Between the two states of a record, the end of a fall shows (R130). -/
theorem AlarmRecord.endsFall_iff :
    (x.state = .active ∨ x.state = .falling) ∧ ((x.swept k now c).record.state = .clear ∨ (x.swept k now c).record.state = .latched) ↔
      x.EndsFall k c := by
  obtain ⟨raises, falls, -, move⟩ | ⟨-, falls, -, move⟩ | ⟨-, falls, repeats, move⟩ | ⟨-, falls, -, move⟩ := x.swept_cases k now c
  · refine iff_of_false (fun both => ?_) falls
    have risen := raises.2.2.imp And.left And.left
    rcases both.1 with state | state <;> rcases risen with other | other <;> exact absurd (state.symm.trans other) nofun
  · refine iff_of_true ⟨falls.2.2.imp And.left And.left, ?_⟩ falls
    rw [move]
    unfold AlarmRecord.endFall
    split
    · exact .inr rfl
    · exact .inl rfl
  · refine iff_of_false (fun both => ?_) falls
    have state : (x.swept k now c).record.state = .active := (congrArg (fun m : RecordMove => m.record.state) move).trans repeats.2.2.1
    rcases both.2 with other | other <;> exact absurd (state.symm.trans other) nofun
  · refine iff_of_false (fun both => ?_) falls
    obtain ⟨state, ended⟩ := both
    rw [move] at ended
    dsimp only at ended
    split at ended
    · obtain ⟨clear, latched⟩ := (x.rested_state c).2 state
      exact ended.elim clear latched
    · rcases state with own | own <;> rcases ended with other | other <;> exact absurd (own.symm.trans other) nofun

/-- Between the two states of a record, a repeat that falls due shows (R131). -/
theorem AlarmRecord.repeats_iff :
    k.enabled = true ∧ x.state = .active ∧ x.acknowledged = false ∧ (x.swept k now c).record.state = .active ∧
      (x.swept k now c).record.repeatCount = 0 ↔ x.Repeats k c := by
  obtain ⟨raises, -, repeats, move⟩ | ⟨-, falls, repeats, move⟩ | ⟨-, -, repeats, move⟩ | ⟨-, -, repeats, move⟩ := x.swept_cases k now c
  · refine iff_of_false (fun ⟨_, state, _⟩ => ?_) repeats
    rcases raises.2.2.imp And.left And.left with other | other <;> exact absurd (state.symm.trans other) nofun
  · refine iff_of_false (fun ⟨_, _, _, state, _⟩ => ?_) repeats
    rw [move] at state
    unfold AlarmRecord.endFall at state
    split at state <;> cases state
  · refine iff_of_true ⟨repeats.1, repeats.2.2.1, repeats.2.2.2.1, ?_, ?_⟩ repeats
    · rw [move]
      exact repeats.2.2.1
    · rw [move]
  · refine iff_of_false (fun ⟨on, state, fresh, stays, count⟩ => ?_) repeats
    rw [move, if_pos on] at stays count
    obtain ⟨_, n, repeatCount, repeatsDue, acknowledged, unreported, timeOfRaise⟩ := x
    cases state
    cases fresh
    cases c with
    | true =>
      have count : min (repeatCount + 1) 255 = 0 := count
      omega
    | false => cases stays

end Signs

theorem AlarmRecord.swept_unreported (x : AlarmRecord) (k : KindPolicy) (now : Word32) (c : Bool) :
    (x.swept k now c).record.unreported = x.unreported := by
  have same := AlarmRecord.move_unreported x k now c x.unreported
  unfold AlarmRecord.swept
  split
  · exact congrArg (fun m : RecordMove => m.record.unreported) same
  · rfl

end Moves

theorem sweepMove_eq (h : SliceHandover) (b : State) (r : Fin 400) (x : AlarmRecord) :
    sweepMove h b r x = x.swept (b.alarms.policyOf r) b.time.houseTime (condition h b r) := rfl

/-! ### The conditions (R122 to R129) -/

theorem filterMap_finRange {α : Type} (n : Nat) (l : List α) : ((List.finRange n).filterMap fun i => l[i.val]?) = l.take n := by
  induction n generalizing l with
  | zero => rfl
  | succ n ih =>
    rw [List.finRange_succ, List.filterMap_cons, List.filterMap_map]
    cases l with
    | nil => simp
    | cons a l => simpa using ih l

/-- A layout has a role once below position 8 (R123, R125). -/
theorem soleRole_isSome (layout : Layout) (role : Role) :
    (soleRole layout role).isSome = true ↔ (layout.take 8).countP (fun y => decide (y.role = role)) = 1 := by
  have count : ((List.finRange 8).filter fun i => (layout[i.val]?).any fun pos => pos.role == role).length =
      (layout.take 8).countP fun y => decide (y.role = role) := by
    rw [← List.countP_eq_length_filter, ← filterMap_finRange, List.countP_filterMap]
    refine List.countP_congr fun i _ => ?_
    cases layout[i.val]? <;> simp
  rw [← count]
  unfold soleRole
  generalize (List.finRange 8).filter (fun i => (layout[i.val]?).any fun pos => pos.role == role) = places
  match places with
  | [] => exact iff_of_false Bool.false_ne_true nofun
  | [_] => exact iff_of_true rfl rfl
  | _ :: _ :: _ => exact iff_of_false Bool.false_ne_true nofun

/-- The kinds of an object's records (R118). -/
def AlarmObject.OfKind (k : Nat) : AlarmObject → Prop
  | .position _ _ => k < 2
  | .programme _ => 2 ≤ k ∧ k < 8
  | .feed _ => 8 ≤ k ∧ k < 13
  | .trunk _ => k = 13
  | .part => 14 ≤ k

theorem recordObject_kind (r : Fin 400) : (recordObject r).OfKind (recordKind r).val := by
  rw [recordKind_val]
  unfold recordObject
  by_cases position : r.val < 256
  · rw [dif_pos position, if_pos position]
    exact Nat.mod_lt _ (by decide)
  rw [dif_neg position, if_neg position]
  by_cases programme : r.val < 352
  · rw [dif_pos programme, if_pos programme]
    change _ ∧ _
    omega
  rw [dif_neg programme, if_neg programme]
  by_cases feed : r.val < 392
  · rw [dif_pos feed, if_pos feed]
    change _ ∧ _
    omega
  rw [dif_neg feed, if_neg feed]
  by_cases trunk : r.val < 396
  · rw [dif_pos trunk, if_pos trunk]
    rfl
  · rw [dif_neg trunk, if_neg trunk]
    exact Nat.le_add_right _ _

/-- One programme as another, but for the marks and counts of its log entries. -/
def Programme.Alike (p q : Programme) : Prop :=
  q = { p with
    meter := { p.meter with voidMark := q.meter.voidMark }, align := { p.align with realigned := q.align.realigned }, log := q.log }

/-- The conditions of a programme's records, spelt out (R125 to R127). -/
theorem programmeCondition_iff {k : KindPolicy} {kind : Fin 18} (v : SliceValues) (p : Programme) (few : 2 ≤ kind.val ∧ kind.val < 8) :
    let sole := fun role : Role => (p.outLayout.take 8).countP (fun y => decide (y.role = role)) = 1
    programmeCondition k kind v p = true ↔
      (kind.val = 2 → ∃ b, p.meter.shortTerm = some b ∧ p.level.target + k.parameter1 < b) ∧
      (kind.val = 3 → ∃ b, p.meter.shortTerm = some b ∧ p.level.absoluteGate ≤ b ∧ (b : Int) < p.level.target - k.parameter1) ∧
      (kind.val = 4 → sole .l ∧ sole .r ∧ 480 ≤ v.tally.both ∧ k.parameter1 * v.tally.both < 256 * v.tally.opposed) ∧
      (kind.val = 5 → p.timing.mode = .tracked ∧ p.align.delayShort = true) ∧
      (kind.val = 6 → p.timing.mode = .tracked ∧ p.align.late = true) ∧ (kind.val = 7 → p.rider.limit = true) := by
  intro sole
  obtain ⟨kind, small⟩ := kind
  obtain ⟨low, high⟩ := few
  dsimp only at low high ⊢
  unfold programmeCondition
  dsimp only
  have loud : (p.meter.shortTerm.any fun b => decide (p.level.target + k.parameter1 < b)) = true ↔
      ∃ b, p.meter.shortTerm = some b ∧ p.level.target + k.parameter1 < b := by
    cases p.meter.shortTerm <;> simp
  have soft : (p.meter.shortTerm.any fun b => decide (p.level.absoluteGate ≤ b) && decide (b + k.parameter1 < p.level.target)) = true ↔
      ∃ b, p.meter.shortTerm = some b ∧ p.level.absoluteGate ≤ b ∧ (b : Int) < p.level.target - k.parameter1 := by
    cases p.meter.shortTerm with
    | none => exact iff_of_false Bool.false_ne_true nofun
    | some b =>
      simp only [Option.any_some, Bool.and_eq_true, decide_eq_true_eq, Option.some.injEq, exists_eq_left']
      omega
  have phase : phaseCondition k v p = true ↔
      sole .l ∧ sole .r ∧ 480 ≤ v.tally.both ∧ k.parameter1 * v.tally.both < 256 * v.tally.opposed := by
    unfold phaseCondition
    rw [Bool.and_eq_true, Bool.and_eq_true, Bool.and_eq_true, soleRole_isSome, soleRole_isSome, decide_eq_true_iff, decide_eq_true_iff,
      and_assoc, and_assoc]
  interval_cases kind
  · simpa using loud
  · simpa using soft
  · simpa using phase
  · simp
  · simp
  · simp

theorem feedCondition_iff {kind : Fin 18} (flags : FeedFlags) (x : Feed) (few : 8 ≤ kind.val ∧ kind.val < 13) :
    feedCondition kind flags x = true ↔
      (kind.val = 8 → x.record.enabled = true ∧ x.context.state ≠ .locked) ∧ (kind.val = 9 → x.context.state = .lost) ∧
        (kind.val = 10 → flags.starve = true) ∧ (kind.val = 11 → flags.slip = true) ∧ (kind.val = 12 → flags.format = true) := by
  obtain ⟨kind, small⟩ := kind
  obtain ⟨low, high⟩ := few
  dsimp only at low high ⊢
  unfold feedCondition
  dsimp only
  interval_cases kind <;> simp

theorem partCondition_iff {kind : Fin 18} (s : State) (few : 14 ≤ kind.val) :
    partCondition kind s = true ↔
      (kind.val = 14 → s.time.reference = .absent) ∧ (kind.val = 15 → s.store.fault.valid = true) ∧
        (kind.val = 16 → s.alarms.commandOverrun = true) ∧ (kind.val = 17 → s.alarms.logOverrun = true) := by
  obtain ⟨kind, small⟩ := kind
  dsimp only at few ⊢
  unfold partCondition
  dsimp only
  interval_cases kind <;> simp

theorem positionCondition_iff {k : KindPolicy} {kind : Fin 18} (v : SliceValues) (p : Programme) (q : Fin 8) (few : kind.val < 2) :
    positionCondition k kind v p q = true ↔
      q.val < p.outLayout.length ∧ (kind.val = 0 → v.peaks[q] < k.parameter1) ∧ (kind.val = 1 → k.parameter1 ≤ v.clips[q]) := by
  obtain ⟨kind, small⟩ := kind
  dsimp only at few ⊢
  unfold positionCondition
  interval_cases kind <;> simp

/-- What the sweep of a slice end reads, on `c`, beside the state `s` before the slice end and the state `t` after it. -/
structure State.SweptAt (s c t : State) (order : SliceOrder) : Prop where
  sweeps    : ∀ p : Fin 16, (s.sliced p).Alike c.programmes[p]
  leaves    : ∀ p : Fin 16, (s.sliced p).Alike t.programmes[p]
  feeds     : t.feeds = c.feeds
  inputs    : t.inputs = c.inputs
  reference : t.time.reference = c.time.reference
  store     : t.store = c.store
  policies  : c.alarms.policies = s.alarms.policies
  command   : c.alarms.commandOverrun = s.alarms.commandOverrun
  log       : c.alarms.logOverrun = true ↔ s.alarms.logOverrun = true ∨ (order ≠ .sweepWriteStep ∧ s.passDiscards = true)

/-- The values that a programme hands to the sweep are those of a RUNNING one (R122). -/
theorem State.handover_any (s : State) (p : Fin 16) (g : SliceValues → Bool) :
    (s.handover.programmes[p]).any g = true ↔
      s.programmes[p].store.state = .running ∧
        g { peaks := s.programmes[p].meter.peaks, clips := s.programmes[p].clips, tally := s.programmes[p].tally } = true := by
  rw [← Programme.running_iff]
  simp only [State.handover, Fin.getElem_fin, mapAll_getElem]
  split
  · exact (and_iff_right (by assumption)).symm
  · exact iff_of_false Bool.false_ne_true fun both => absurd both.1 (by assumption)

theorem State.SweptAt.condition_iff {s c t : State} {order : SliceOrder} (h : s.SweptAt c t order) (r : Fin 400) :
    condition s.handover c r = true ↔ s.alarmHolds t order r := by
  have kinds := recordObject_kind r
  have policy : c.alarms.policyOf r = s.alarms.policies[recordKind r] := by rw [AlarmUnit.policyOf, h.policies]
  unfold condition State.alarmHolds
  dsimp only
  rw [policy]
  generalize recordObject r = o at kinds
  cases o with
  | position p q =>
    rw [s.handover_any p, positionCondition_iff _ _ q kinds]
    have layout : c.programmes[p].outLayout = t.programmes[p].outLayout := by
      rw [h.sweeps p, h.leaves p]
      rfl
    rw [layout]
  | programme p =>
    refine (s.handover_any p _).trans (and_congr_right fun _ => (programmeCondition_iff _ _ kinds).trans ?_)
    have after := h.leaves p
    have before := h.sweeps p
    generalize c.programmes[p] = x at before
    generalize t.programmes[p] = y at after
    rw [before, after]
    rfl
  | feed f =>
    have flags : s.handover.feeds[f] =
        { starve := s.feeds[f].context.starve, slip := s.feeds[f].context.slip, format := s.feeds[f].context.format } := by
      simp only [State.handover, Fin.getElem_fin, mapAll_getElem]
    dsimp only
    rw [feedCondition_iff _ _ kinds, flags, h.feeds]
  | trunk n =>
    dsimp only
    rw [h.inputs, Bool.and_eq_true, bne_iff_ne]
  | part =>
    dsimp only
    rw [partCondition_iff _ kinds, h.reference, h.store, h.command, h.log]

end Sys2Proof.Machine
end

