-- ==== Sys2Proof/Proofs/SliceSweep.lean ====
section
/-! SUPPORT. The sweep of a slice end: its records, its reports, and the rows of its consequences (R122, R130, R131, R136, R137). -/

namespace Sys2Proof.Machine

/-! ### The state on which the sweep is taken, and what follows it (log entry 16) -/

theorem State.transferSteps_reports (fuel : Nat) (s : State) :
    ∃ logs : List LogReport, (State.transferSteps fuel s).processor.reports = s.processor.reports ++ logs.map .log := by
  obtain ⟨logs, -, reports, -⟩ := State.transferSteps_spec fuel s
  exact ⟨logs, reports⟩

theorem State.logPass_processor (h : SliceHandover) (s : State) : (s.logPass h).processor = s.processor := by rw [(s.logPass_spec h).2.2]

/-- The records are those that the sweep leaves, and LOG reports alone may follow its reports. -/
theorem State.slice_swept (s : State) (order : SliceOrder) :
    ∃ logs : List LogReport, (order = .writeStepSweep → logs = []) ∧
      (s.slice order).alarms.records = ((s.atSweep order).sweep s.handover).alarms.records ∧
      (s.slice order).processor.reports = ((s.atSweep order).sweep s.handover).processor.reports ++ logs.map .log := by
  have alarms : (s.slice order).alarms = (s.formSlices.closeSlice order s.handover).alarms := rfl
  have processor : (s.slice order).processor = (s.formSlices.closeSlice order s.handover).processor := rfl
  rw [alarms, processor]
  unfold State.closeSlice State.atSweep
  cases order with
  | writeStepSweep =>
    dsimp only
    exact ⟨[], fun _ => rfl, rfl, (List.append_nil _).symm⟩
  | writeSweepStep =>
    dsimp only
    rw [State.transferSteps_alarms]
    obtain ⟨logs, reports⟩ := State.transferSteps_reports 33 ((s.formSlices.logPass s.handover).sweep s.handover)
    exact ⟨logs, nofun, rfl, reports⟩
  | sweepWriteStep =>
    dsimp only
    rw [State.transferSteps_alarms, State.logPass_records]
    obtain ⟨logs, reports⟩ := State.transferSteps_reports 33 ((s.formSlices.sweep s.handover).logPass s.handover)
    rw [State.logPass_processor] at reports
    exact ⟨logs, nofun, rfl, reports⟩

/-- One state as another, but for what a write pass and transfer steps move. -/
def State.Passed (s t : State) : Prop :=
  t = { s with
    programmes := t.programmes, log := t.log, alarms := { s.alarms with logOverrun := t.alarms.logOverrun }
    processor := { s.processor with reports := t.processor.reports } }

theorem State.logPass_passed (h : SliceHandover) (s : State) : s.Passed (s.logPass h) := by
  have pass := (s.logPass_spec h).2.2
  generalize s.logPass h = t at pass
  unfold State.Passed
  rw [pass]

theorem State.Passed.steps {s t : State} (h : s.Passed t) (fuel : Nat) : s.Passed (State.transferSteps fuel t) := by
  have steps := State.transferSteps_eq fuel t
  generalize State.transferSteps fuel t = u at steps
  unfold State.Passed at h ⊢
  rw [steps, h]

theorem State.atSweep_passed (s : State) (order : SliceOrder) : s.formSlices.Passed (s.atSweep order) := by
  unfold State.atSweep
  cases order with
  | writeStepSweep => exact (State.logPass_passed ..).steps 33
  | writeSweepStep => exact State.logPass_passed ..
  | sweepWriteStep => exact rfl

theorem Programme.alike_logPassed (p : Programme) : p.Alike p.logPassed := p.logPassed_eq

theorem State.alike_of {p q : Programme} {c : Prop} [Decidable c] (h : q = if c then p.logPassed else p) : p.Alike q := by
  rw [h]
  split
  · exact p.alike_logPassed
  · rfl

theorem State.atSweep_alike (s : State) (order : SliceOrder) (p : Fin 16) : (s.sliced p).Alike (s.atSweep order).programmes[p] := by
  have pass := (s.formSlices.logPass_spec s.handover).1 p
  rw [s.formSlices_programme p] at pass
  unfold State.atSweep
  cases order with
  | writeStepSweep =>
    dsimp only
    rw [State.transferSteps_programmes]
    exact State.alike_of pass
  | writeSweepStep => exact State.alike_of pass
  | sweepWriteStep =>
    dsimp only
    rw [s.formSlices_programme p]
    rfl

/-- The log overrun mark that the sweep reads: the write pass has set it if it came first and discarded an entry (R129, R144). -/
theorem State.atSweep_logOverrun (s : State) (order : SliceOrder) :
    (s.atSweep order).alarms.logOverrun = true ↔ s.alarms.logOverrun = true ∨ (order ≠ .sweepWriteStep ∧ s.passDiscards = true) := by
  have pass : (s.formSlices.logPass s.handover).alarms.logOverrun = (s.alarms.logOverrun || s.passDiscards) := by
    have mark := (s.formSlices.logPass_spec s.handover).2.1.mark
    have served : s.formSlices.passDue s.handover = s.entriesDue := s.passDue_slice .writeSweepStep
    rw [List.length_map, served, State.discards_entriesDue s.formSlices_log, s.formSlices_alarms] at mark
    exact mark
  unfold State.atSweep
  cases order with
  | writeStepSweep =>
    dsimp only
    rw [State.transferSteps_alarms, pass, Bool.or_eq_true, and_iff_right (by exact nofun)]
  | writeSweepStep =>
    dsimp only
    rw [pass, Bool.or_eq_true, and_iff_right (by exact nofun)]
  | sweepWriteStep => exact (or_iff_left fun h => h.1 rfl).symm

theorem State.slice_sweptAt (s : State) (order : SliceOrder) : s.SweptAt (s.atSweep order) (s.slice order) order := by
  have same := s.atSweep_passed order
  have alike := s.atSweep_alike order
  have overrun := s.atSweep_logOverrun order
  obtain ⟨closed, -⟩ := s.formSlices.closeSlice_eq s.handover order
  have made : s.slice order =
      { s.formSlices.closeSlice order s.handover with
        time := { (s.formSlices.closeSlice order s.handover).time with sliceDue := false, sliceFrames := 0 } } := rfl
  have after (p : Fin 16) := State.alike_of (s.slice_programme order p)
  generalize s.formSlices.closeSlice order s.handover = t at closed made
  generalize s.slice order = u at made after
  generalize s.atSweep order = c at same alike overrun
  refine ⟨alike, after, ?_, ?_, ?_, ?_, ?_, ?_, overrun⟩
  · rw [made, closed, same]
  · rw [made, closed, same]
  · rw [made, closed, same]
  · rw [made, closed, same]
  · rw [same, s.formSlices_alarms]
  · rw [same, s.formSlices_alarms]

/-! ### The records and the reports of a sweep (R130, R131, R135 to R137) -/

/-- The state that a report of a type carries, of a record that stood as `x` before the sweep. -/
def AlarmRecord.toldState (x : AlarmRecord) (type : AlarmReportType) : AlarmState :=
  match type with
  | .raise => .active
  | .clear => .clear
  | .rpt => .active
  | .state => x.state

/-- The report that a sweep of `s` tells of a record: a STATE report of the record as it stood, or that of its move. -/
def State.sweepReport (s : State) (m : Fin 400 × AlarmReportType) : Report :=
  let x := s.alarms.records[m.1]
  .alarm
    { type := m.2, index := m.1, state := x.toldState m.2
      severity := (s.alarms.policyOf m.1).severity, acknowledged := decide (m.2 ≠ .clear) && x.acknowledged
      timeOfRaise := if m.2 = .raise then s.time.houseTime else x.timeOfRaise, houseTime := s.time.houseTime }

/-- The records that the sweep of `s` finds unreported, in index order. -/
def State.untold (s : State) : List (Fin 400) := (List.finRange 400).filter fun r => s.alarms.records[r].unreported

/-- The reports that the moves of a sweep offer, in index order. -/
def State.sweepMoves (h : SliceHandover) (s : State) : List (Fin 400 × AlarmReportType) :=
  offers (sweepMove h s) s.alarms.records (List.finRange 400)

/-- The reports that enter the report queue at a sweep. -/
def State.sweepTold (h : SliceHandover) (s : State) : List (Fin 400 × AlarmReportType) :=
  (s.untold.map (fun r => (r, AlarmReportType.state)) ++ s.sweepMoves h).take s.alarmSpace

section Sweep

variable (h : SliceHandover) (s : State)

theorem State.sweepTold_eq :
    s.sweepTold h = (s.untold.take s.alarmSpace).map (fun r => (r, AlarmReportType.state)) ++
      (s.sweepMoves h).take (s.alarmSpace - s.untold.length) := by
  rw [State.sweepTold, List.take_append, List.length_map, ← List.map_take]

theorem State.mem_sweepMoves {r : Fin 400} {type : AlarmReportType} :
    (r, type) ∈ s.sweepMoves h ↔ (s.alarms.records[r].swept (s.alarms.policyOf r) s.time.houseTime (condition h s r)).offer = some type :=
  mem_offers.trans (and_iff_right (List.mem_finRange r))

/-- The report of a move, and the record it leaves (R130, R131). -/
theorem AlarmRecord.swept_offer {x : AlarmRecord} {k : KindPolicy} {now : Word32} {c : Bool} {type : AlarmReportType}
    (offers : (x.swept k now c).offer = some type) :
    type ≠ .state ∧ (x.swept k now c).record.state = x.toldState type ∧
      (x.swept k now c).record.acknowledged = (decide (type ≠ .clear) && x.acknowledged) ∧
      (x.swept k now c).record.timeOfRaise = if type = .raise then now else x.timeOfRaise := by
  obtain ⟨-, -, -, move⟩ | ⟨-, -, -, move⟩ | ⟨-, -, repeats, move⟩ | ⟨-, -, -, move⟩ := x.swept_cases k now c
  · rw [move] at offers ⊢
    cases offers
    exact ⟨nofun, rfl, rfl, rfl⟩
  · rw [move] at offers ⊢
    unfold AlarmRecord.endFall at offers ⊢
    cases latching : k.latching with
    | true =>
      rw [latching] at offers
      cases offers
    | false =>
      rw [latching] at offers
      cases offers
      exact ⟨nofun, rfl, rfl, rfl⟩
  · rw [move] at offers ⊢
    cases offers
    exact ⟨nofun, repeats.2.2.1, rfl, rfl⟩
  · rw [move] at offers
    cases offers

/-- No move offers a STATE report. -/
theorem State.state_notMem_sweepMoves (r : Fin 400) : (r, AlarmReportType.state) ∉ s.sweepMoves h := fun mem =>
  (AlarmRecord.swept_offer ((s.mem_sweepMoves h).mp mem)).1 rfl

theorem State.sweepMoves_ordered : (s.sweepMoves h).Pairwise fun a b => a.1 < b.1 := by
  refine List.Pairwise.filterMap _ (fun a b before m offered n later => ?_) (List.pairwise_lt_finRange 400)
  obtain ⟨-, -, rfl⟩ := Option.map_eq_some_iff.mp offered
  obtain ⟨-, -, rfl⟩ := Option.map_eq_some_iff.mp later
  exact before

theorem State.state_mem_sweepTold {r : Fin 400} : (r, AlarmReportType.state) ∈ s.sweepTold h ↔ r ∈ s.untold.take s.alarmSpace := by
  rw [State.sweepTold_eq, List.mem_append]
  refine (or_iff_left fun mem => s.state_notMem_sweepMoves h r (List.mem_of_mem_take mem)).trans ?_
  rw [List.mem_map]
  exact ⟨fun ⟨_, mem, same⟩ => (Prod.mk.inj same).1 ▸ mem, fun mem => ⟨r, mem, rfl⟩⟩

theorem State.move_mem_sweepTold {r : Fin 400} {type : AlarmReportType} (moves : type ≠ .state) :
    (r, type) ∈ s.sweepTold h ↔ (r, type) ∈ (s.sweepMoves h).take (s.alarmSpace - s.untold.length) := by
  rw [State.sweepTold_eq, List.mem_append]
  refine or_iff_right fun mem => ?_
  obtain ⟨_, -, same⟩ := List.mem_map.mp mem
  exact moves (Prod.mk.inj same).2.symm

/-- The reports that a sweep adds to the queue. -/
theorem State.sweep_reports : (s.sweep h).processor.reports = s.processor.reports ++ (s.sweepTold h).map s.sweepReport := by
  obtain ⟨w, swept, -⟩ := s.sweep_told h
  have reports : (s.sweep h).processor.reports = _ := congrArg (fun t : State => t.processor.reports) swept
  refine reports.trans ?_
  rw [State.sweepTold_eq, List.map_append, List.map_map, ← List.append_assoc]
  have again : (s.untold.take s.alarmSpace).map (fun r => s.reportOf s.alarms.records (r, .state)) =
      (s.untold.take s.alarmSpace).map (s.sweepReport ∘ fun r => (r, AlarmReportType.state)) := by
    refine List.map_congr_left fun r _ => ?_
    unfold State.reportOf State.formAlarm State.sweepReport
    rfl
  have moved : ((s.sweepMoves h).take (s.alarmSpace - s.untold.length)).map
        (s.reportOf (mapAll (fun r x => (sweepMove h s r x).record) s.alarms.records)) =
      ((s.sweepMoves h).take (s.alarmSpace - s.untold.length)).map s.sweepReport := by
    refine List.map_congr_left fun (r, type) mem => ?_
    obtain ⟨-, state, acknowledged, raised⟩ := AlarmRecord.swept_offer ((s.mem_sweepMoves h).mp (List.mem_of_mem_take mem))
    unfold State.reportOf State.formAlarm State.sweepReport
    simp only [State.withTold_records, Fin.getElem_fin, mapAll_getElem, sweepMove_eq, State.withTold_policyOf, State.withTold_time]
    simp only [Fin.getElem_fin] at state acknowledged raised
    rw [state, acknowledged, raised]
  rw [← again, ← moved]
  rfl

/-- A RPT report enters only when every record that was unreported has been told (R136, R137). -/
theorem State.untold_told_of_move {m : Fin 400 × AlarmReportType} (mem : m ∈ (s.sweepMoves h).take (s.alarmSpace - s.untold.length)) :
    s.untold.take s.alarmSpace = s.untold := by
  refine List.take_of_length_le ?_
  by_contra more
  rw [Nat.sub_eq_zero_of_le (by omega), List.take_zero] at mem
  cases mem

/-- The record that a sweep leaves: that of its move, with the unreported flag that the reports leave (R122, R135, R136). -/
theorem State.sweep_record (r : Fin 400) :
    let x := s.alarms.records[r]
    let m := x.swept (s.alarms.policyOf r) s.time.houseTime (condition h s r)
    let y := (s.sweep h).alarms.records[r]
    { y with unreported := x.unreported } = m.record ∧
      (∀ type, m.offer = some type → type = .raise ∨ type = .clear → (y.unreported = true ↔ (r, type) ∉ s.sweepTold h)) ∧
      (m.offer = none ∨ m.offer = some .rpt → (y.unreported = true ↔ x.unreported = true ∧ (r, .state) ∉ s.sweepTold h)) := by
  intro x m y
  obtain ⟨w, swept, each⟩ := s.sweep_told h
  have each : w[r] =
      (sweepMove h s r (if r ∈ s.untold.take s.alarmSpace then { x with unreported := false } else x)).settled r
        ((s.sweepMoves h).take (s.alarmSpace - s.untold.length)) := each r
  have record : y = w[r] := congrArg (fun t : State => t.alarms.records[r]) swept
  have own : x.unreported = m.record.unreported := (x.swept_unreported ..).symm
  -- the flag before the move, and the move with it
  obtain ⟨c, start, flag⟩ : ∃ c : Bool,
      w[r] = ({ m with record := { m.record with unreported := c } } : RecordMove).settled r
        ((s.sweepMoves h).take (s.alarmSpace - s.untold.length)) ∧
      (c = true ↔ x.unreported = true ∧ (r, AlarmReportType.state) ∉ s.sweepTold h) := by
    rw [s.state_mem_sweepTold h, each]
    by_cases told : r ∈ s.untold.take s.alarmSpace
    · refine ⟨false, ?_, iff_of_false Bool.false_ne_true fun both => both.2 told⟩
      rw [if_pos told, sweepMove_unreported]
      rfl
    · refine ⟨x.unreported, ?_, (and_iff_left told).symm⟩
      rw [if_neg told, own]
      rfl
  rw [← record] at start
  clear_value y
  cases offer : m.offer with
  | none =>
    rw [RecordMove.settled_none (m := { m with record := { m.record with unreported := c } }) offer] at start
    subst start
    refine ⟨?_, nofun, fun _ => flag⟩
    dsimp only
    rw [own]
  | some type =>
    rw [RecordMove.settled_some (m := { m with record := { m.record with unreported := c } }) offer] at start
    have moves : type ≠ .state := (AlarmRecord.swept_offer offer).1
    have told := s.move_mem_sweepTold h (r := r) moves
    refine ⟨?_, fun type' same loud => ?_, fun quiet => ?_⟩
    · rw [start, own]
      repeat' split
      all_goals rfl
    · cases same
      rw [told, start]
      by_cases mem : (r, type) ∈ (s.sweepMoves h).take (s.alarmSpace - s.untold.length)
      · rw [if_pos mem]
        exact iff_of_false Bool.false_ne_true fun out => out mem
      · rw [if_neg mem, if_pos loud]
        exact iff_of_true rfl mem
    · have rpt : type = .rpt := by
        obtain none_ | same := quiet
        · cases none_
        · exact Option.some.inj same
      subst rpt
      rw [start, ← flag]
      by_cases mem : (r, AlarmReportType.rpt) ∈ (s.sweepMoves h).take (s.alarmSpace - s.untold.length)
      · rw [if_pos mem]
        refine iff_of_false Bool.false_ne_true fun on => ?_
        obtain ⟨unreported, untold⟩ := flag.mp on
        rw [s.state_mem_sweepTold h, s.untold_told_of_move h mem] at untold
        exact untold (List.mem_filter.mpr ⟨List.mem_finRange r, unreported⟩)
      · rw [if_neg mem, if_neg (by simp)]

end Sweep

/-! ### The rows of a sweep's consequences (log entry 15) -/

section Rows

variable {s t : State} {r : Fin 400}

theorem State.raises_iff' : s.raises t r = true ↔
    (s.alarms.records[r].state = .clear ∨ s.alarms.records[r].state = .rising) ∧ t.alarms.records[r].state = .active := by
  unfold State.raises
  rw [Bool.and_eq_true, Bool.or_eq_true, beq_iff_eq, beq_iff_eq, beq_iff_eq]

theorem State.endsFall_iff' : s.endsFall t r = true ↔
    (s.alarms.records[r].state = .active ∨ s.alarms.records[r].state = .falling) ∧
      (t.alarms.records[r].state = .clear ∨ t.alarms.records[r].state = .latched) := by
  unfold State.endsFall
  rw [Bool.and_eq_true, Bool.or_eq_true, Bool.or_eq_true, beq_iff_eq, beq_iff_eq, beq_iff_eq, beq_iff_eq]

theorem State.repeats_iff' : s.repeats t r = true ↔
    (s.alarms.policyOf r).enabled = true ∧ s.alarms.records[r].state = .active ∧ s.alarms.records[r].acknowledged = false ∧
      t.alarms.records[r].state = .active ∧ t.alarms.records[r].repeatCount = 0 := by
  unfold State.repeats
  rw [Bool.and_eq_true, Bool.and_eq_true, Bool.and_eq_true, Bool.and_eq_true, beq_iff_eq, beq_iff_eq, beq_iff_eq, Bool.not_eq_true',
    and_assoc, and_assoc, and_assoc]

end Rows

/-- Settles O22: the records and the reports that the sweep of a slice end leaves. -/
theorem sweepMovesAlarmRecords : Obligations.SweepMovesAlarmRecords := by
  refine fun s order => ⟨fun rest r => ⟨congrArg Host.Outcome.next (State.takeWhen_rest rest _ _),
    congrArg Host.Outcome.next (State.takeWhen_rest rest _ _), congrArg Host.Outcome.next (State.takeWhen_rest rest _ _)⟩, fun due => ?_⟩
  obtain ⟨logs, last, records, reports⟩ := s.slice_swept order
  have read := s.slice_sweptAt order
  have passed := s.atSweep_passed order
  have sameRecords : (s.atSweep order).alarms.records = s.alarms.records := by rw [passed, s.formSlices_alarms]
  have policies (r : Fin 400) : (s.atSweep order).alarms.policyOf r = s.alarms.policyOf r := by rw [passed, s.formSlices_alarms]; rfl
  have time : (s.atSweep order).time.houseTime = s.time.houseTime := by rw [passed, s.formSlices_time]
  have execRaise (r : Fin 400) : exec (.alarmRaise r order) s = .next (s.takeWhen s.time.sliceDue (s.slice order) (s.raises (s.slice order) r)) := rfl
  have execFall (r : Fin 400) : exec (.alarmFallEnd r order) s = .next (s.takeWhen s.time.sliceDue (s.slice order) (s.endsFall (s.slice order) r)) :=
    rfl
  have execRepeat (r : Fin 400) : exec (.repeatDue r order) s = .next (s.takeWhen s.time.sliceDue (s.slice order) (s.repeats (s.slice order) r)) := rfl
  refine ⟨s.slice order, (s.atSweep order).sweepMoves s.handover, logs, exec_sliceEnd due order, ?_⟩
  generalize s.atSweep order = c at *
  generalize s.slice order = t at *
  intro again told
  have telling : told = c.sweepTold s.handover := by
    simp only [told, again]
    unfold State.sweepTold State.untold
    rw [sameRecords]
  have report (m : Fin 400 × AlarmReportType) : c.sweepReport m = s.sweepReport m := by
    unfold State.sweepReport
    rw [sameRecords, policies, time]
  rw [c.sweep_reports s.handover, ← telling, List.map_congr_left fun m _ => report m] at reports
  clear_value told
  refine ⟨c.sweepMoves_ordered s.handover, last, reports, fun r => ?_⟩
  intro k x y holds raised fallen repeated
  obtain ⟨record, loud, quiet⟩ := c.sweep_record s.handover r
  have offered {type : AlarmReportType} := c.mem_sweepMoves s.handover (r := r) (type := type)
  rw [← records] at record loud quiet
  rw [← telling] at loud quiet
  rw [sameRecords, policies, time] at record loud quiet offered
  have told_of {type : AlarmReportType} (mem : (r, type) ∈ told) : s.sweepReport (r, type) ∈ t.processor.reports := by
    rw [reports]
    exact List.mem_append_left _ (List.mem_append_right _ (List.mem_map_of_mem mem))
  have rows : (s.raises t r = true ↔ raised) ∧ (s.endsFall t r = true ↔ fallen) ∧ (s.repeats t r = true ↔ repeated) := by
    have state : t.alarms.records[r].state = _ := (congrArg AlarmRecord.state record :)
    have count : t.alarms.records[r].repeatCount = _ := (congrArg AlarmRecord.repeatCount record :)
    rw [State.raises_iff', State.endsFall_iff', State.repeats_iff', state, count]
    exact ⟨AlarmRecord.raises_iff, AlarmRecord.endsFall_iff, AlarmRecord.repeats_iff⟩
  have row {brings : Bool} {P : Prop} (comes : brings = true ↔ P) {i : Instr}
      (taken : exec i s = .next (s.takeWhen s.time.sliceDue t brings)) : (P → exec i s = .next t) ∧ (¬ P → exec i s = .next s) := by
    unfold State.takeWhen at taken
    rw [due, Bool.true_and] at taken
    rw [taken]
    exact ⟨fun yes => congrArg Host.Outcome.next (if_pos (comes.mpr yes)), fun no => congrArg Host.Outcome.next (if_neg (mt comes.mp no))⟩
  have raises : (r, .raise) ∈ c.sweepMoves s.handover ↔ raised := offered.trans AlarmRecord.offers_raise
  have clears : (r, .clear) ∈ c.sweepMoves s.handover ↔ fallen ∧ k.latching = false := offered.trans AlarmRecord.offers_clear
  have repeats : (r, .rpt) ∈ c.sweepMoves s.handover ↔ repeated := offered.trans AlarmRecord.offers_rpt
  refine ⟨read.condition_iff r, raises, clears, repeats, c.state_notMem_sweepMoves s.handover r, fun yes => ?_, fun yes plain => ?_,
    fun noRaise noClear => ?_, fun off => ?_, fun yes => ⟨?_, ?_⟩, fun yes => ⟨?_, fun plain => ?_⟩, fun yes => ?_, fun on noRaise noFall noRepeat => ?_,
    ?_⟩
  · exact loud .raise (offered.mp (raises.mpr yes)) (.inl rfl)
  · exact loud .clear (offered.mp (clears.mpr ⟨yes, plain⟩)) (.inr rfl)
  · refine quiet ?_
    cases offer : (x.swept k s.time.houseTime (condition s.handover c r)).offer with
    | none => exact .inl rfl
    | some type =>
      cases type with
      | raise => exact absurd (raises.mp (offered.mpr offer)) noRaise
      | clear => exact absurd (clears.mp (offered.mpr offer)) noClear
      | rpt => exact .inr rfl
      | state => exact absurd rfl (AlarmRecord.swept_offer offer).1
  · exact record.trans (congrArg RecordMove.record (AlarmRecord.swept_disabled off _ _))
  · exact record.trans (congrArg RecordMove.record (AlarmRecord.swept_raises yes))
  · by_cases mem : (r, .raise) ∈ told
    · exact .inr (told_of mem)
    · exact .inl ((loud .raise (offered.mp (raises.mpr yes)) (.inl rfl)).mpr mem)
  · refine record.trans ((congrArg RecordMove.record (AlarmRecord.swept_endsFall yes)).trans ?_)
    exact AlarmRecord.endFall_record ..
  · by_cases mem : (r, .clear) ∈ told
    · exact .inr (told_of mem)
    · exact .inl ((loud .clear (offered.mp (clears.mpr ⟨yes, plain⟩)) (.inr rfl)).mpr mem)
  · exact record.trans (congrArg RecordMove.record (AlarmRecord.swept_repeats yes))
  · refine record.trans ((congrArg RecordMove.record (AlarmRecord.swept_rests noRaise noFall noRepeat)).trans ((if_pos on).trans ?_))
    rfl
  · obtain ⟨raise, noRaise⟩ := row rows.1 (execRaise r)
    obtain ⟨fall, noFall⟩ := row rows.2.1 (execFall r)
    obtain ⟨again, noAgain⟩ := row rows.2.2 (execRepeat r)
    exact ⟨raise, noRaise, fall, noFall, again, noAgain⟩

end Sys2Proof.Machine
end

