-- ==== Sys2Proof/Proofs/BurstRows.lean ====
section
/-! SUPPORT. Good CONTROL and REPORT bursts of a line: counted in HUNT, handed on in FRAMED, and what takes them (R155, R160, R161, R167). -/

namespace Sys2Proof.Machine

/-! ### A good burst of the line, by the state of its receiver (R155) -/

/-- The receiver of a good burst counted in HUNT. -/
def Receiver.counted (r : Receiver) : Receiver :=
  if r.goodRun = 0 then { r with silence := 0, assembly := none, goodRun := 1 }
  else { r with state := .framed, silence := 0, assembly := none, goodRun := 0, badRun := 0 }

/-- The part once the receiver of trunk `n`, FRAMED, has taken a good burst, before the burst is handed on. -/
def State.handed (s : State) (n : Fin 4) : State :=
  s.updReceiver n fun _ => { s.inputs[n].receiver with silence := 0, assembly := none, badRun := 0 }

section Arrives

variable {s : State} {n : Fin 4} {b : Burst}

theorem State.burstArrives_deaf (h : ¬ (s.inputs[n].enabled = true ∧ s.inputs[n].loopback = false) ∨ s.inputs[n].receiver.state = .down) :
    s.burstArrives n b = s := by
  refine if_neg fun finds => ?_
  obtain ⟨listens, up⟩ := State.findsBursts_iff.mp finds
  exact h.elim (fun deaf => deaf (State.listens_iff.mp listens)) up

theorem Receiver.good_ended_hunt {r : Receiver} (hunt : r.state = .hunt) : r.ended.good = r.counted := by
  unfold Receiver.counted
  by_cases first : r.goodRun = 0
  · rw [if_pos first]
    exact Receiver.good_first hunt first
  · rw [if_neg first]
    exact Receiver.good_second hunt first

/-- A good burst at a HUNT receiver is counted and not handed on. -/
theorem State.burstArrives_hunt (listens : s.inputs[n].enabled = true ∧ s.inputs[n].loopback = false)
    (hunt : s.inputs[n].receiver.state = .hunt) (good : burstGood b = true) :
    s.burstArrives n b = s.updReceiver n fun _ => s.inputs[n].receiver.counted := by
  have finds : s.findsBursts n = true := State.findsBursts_iff.mpr ⟨State.listens_iff.mpr listens, by rw [hunt]; decide⟩
  have unframed : ¬ (s.afterWholeBurst n).framed n = true := fun framed => by
    rw [State.framed_iff, State.afterWholeBurst_receiver] at framed
    exact absurd (hunt.symm.trans framed) nofun
  rw [exec_burst_good finds good, State.goodBurst, if_neg unframed]
  exact (s.updReceiver_updReceiver n _ _).trans (State.updReceiver_to (Receiver.good_ended_hunt hunt))

/-- A good burst at a FRAMED receiver is handed on. -/
theorem State.burstArrives_framed (listens : s.inputs[n].enabled = true ∧ s.inputs[n].loopback = false)
    (framed : s.inputs[n].receiver.state = .framed) (good : burstGood b = true) :
    s.burstArrives n b = (s.handed n).handOn n b := by
  have finds : s.findsBursts n = true := State.findsBursts_iff.mpr ⟨State.listens_iff.mpr listens, by rw [framed]; decide⟩
  have still : (s.afterWholeBurst n).framed n = true := by
    rw [State.framed_iff, State.afterWholeBurst_receiver]
    exact framed
  have taken : (s.afterWholeBurst n).updReceiver n Receiver.good = s.handed n :=
    (s.updReceiver_updReceiver n _ _).trans (State.updReceiver_to (Receiver.good_framed (r := s.inputs[n].receiver.ended) framed))
  rw [exec_burst_good finds good, State.goodBurst, if_pos still, taken]

end Arrives

/-! ### Forwarding (R161, R162) -/

theorem State.updOutput_to {s : State} {k : Fin 2} {g h : OutputTrunk → OutputTrunk} (same : g s.outputs[k] = h s.outputs[k]) :
    s.updOutput k g = s.updOutput k h := by
  unfold State.updOutput
  rw [updAt_congr s.outputs k same]

theorem State.updOutput_self (s : State) (k : Fin 2) : (s.updOutput k fun t => t) = s := by
  unfold State.updOutput
  rw [updAt_id]

theorem State.forwardBurst_none {s : State} {n : Fin 4} (target : s.inputs[n].forward = none) (b : Burst) : s.forwardBurst n b = s := by
  unfold State.forwardBurst
  rw [target]

theorem State.forwardBurst_some {s : State} {n : Fin 4} {k : Fin 2} (target : s.inputs[n].forward = some k) (b : Burst) :
    s.forwardBurst n b =
      if s.outputs[k].forward.length < 4 then s.updOutput k fun t => { t with forward := t.forward ++ [b] } else s := by
  unfold State.forwardBurst
  rw [target]
  dsimp only
  split
  · exact State.updOutput_to (if_pos (by assumption))
  · exact (State.updOutput_to (if_neg (by assumption))).trans (s.updOutput_self k)

theorem State.forwardBurst_processor (s : State) (n : Fin 4) (b : Burst) : (s.forwardBurst n b).processor = s.processor := by
  unfold State.forwardBurst
  split <;> rfl

/-- No station number names all stations (R158, R160). -/
theorem station_ne_all (station : BitVec 6) : (255 : Byte) ≠ station.setWidth 8 := by
  bv_omega

/-! ### Taking a command whatever its destination (R160, R167) -/

/-- A command is answered by its originator, tag, code, form and parameters alone. -/
theorem State.takeCommand_congr (s : State) {b c : ControlBurst} (originator : b.originator = c.originator) (tag : b.tag = c.tag)
    (code : b.code = c.code) (form : b.form = c.form) (params : b.params = c.params) : s.takeCommand b = s.takeCommand c := by
  have judged : judgeBurstCommand b s = judgeBurstCommand c s := by
    unfold judgeBurstCommand
    rw [originator, code, form, params]
  have reply (j : Judged) : j.answer b = j.answer c := by
    unfold Judged.answer replyOf
    rw [originator, tag, code, form]
  rw [State.takeCommand, State.takeCommand, judged, reply]

theorem exec_unknownCommand_idle {s : State} (idle : s.Idle) (sender : Sender) (code form : Byte) (params : List Byte) :
    exec (.unknownCommand sender code form params) s =
      .next (s.takeCommand (s.commandBurst sender { code := code, form := form, params := params })) :=
  congrArg Host.Outcome.next (State.intake_idle idle _)

/-- Settles O29: by the state of the receiver, the destination of the burst, and whether a command is taken now. -/
theorem controlAndReportBurstsAreQueued : Obligations.ControlAndReportBurstsAreQueued := by
  intro s n q listens counted
  have deaf (b : Burst) (h : ¬ listens ∨ q.state = .down) : s.burstArrives n b = s := State.burstArrives_deaf h
  have hunts {b : Burst} (good : burstGood b = true) (hears : listens) (hunt : q.state = .hunt) : s.burstArrives n b = counted :=
    State.burstArrives_hunt hears hunt good
  refine ⟨fun b good => ⟨fun h => congrArg Host.Outcome.next (deaf _ h), fun hears hunt => congrArg Host.Outcome.next (hunts good hears hunt)⟩,
    fun b good => ⟨fun h => congrArg Host.Outcome.next (deaf _ h), fun hears hunt => congrArg Host.Outcome.next (hunts good hears hunt)⟩,
    fun hears framed => ?_⟩
  intro handed forwarded queued
  have arrives {b : Burst} (good : burstGood b = true) : s.burstArrives n b = (s.handed n).handOn n b :=
    State.burstArrives_framed hears framed good
  have same : s.handed n = handed :=
    (State.updReceiver_to (g := fun r => { r with silence := 0, assembly := none, badRun := 0 }) rfl).symm
  have forwards (b : Burst) : handed.forwardBurst n b = forwarded b := by
    have kept : handed.inputs[n].forward = s.inputs[n].forward := by
      simp only [handed]
      rw [State.input_updReceiver]
    simp only [forwarded]
    cases target : s.inputs[n].forward with
    | none => exact State.forwardBurst_none (kept.trans target) b
    | some k => exact State.forwardBurst_some (kept.trans target) b
  have processors (t : State) (b : ControlBurst) (h : t = handed ∨ t = forwarded (.control b)) : t.processor = s.processor := by
    obtain rfl | rfl := h
    · rfl
    · rw [← forwards, State.forwardBurst_processor]
      rfl
  -- where a CONTROL burst goes, by its destination
  have own {b : ControlBurst} (good : controlGood b = true) (here : b.destination = s.processor.station.setWidth 8) :
      exec (.controlBurst n b) s = .next (handed.intake b) := by
    refine congrArg Host.Outcome.next ((arrives (b := .control b) good).trans ?_)
    rw [same]
    exact if_pos (beq_iff_eq.mpr here)
  have away {b : ControlBurst} (other : b.destination ≠ s.processor.station.setWidth 8) : ¬ handed.addressed b.destination = true :=
    fun here => other (beq_iff_eq.mp here)
  have all {b : ControlBurst} (good : controlGood b = true) (every : b.destination = 255) :
      exec (.controlBurst n b) s = .next ((forwarded (.control b)).intake b) := by
    refine congrArg Host.Outcome.next ((arrives (b := .control b) good).trans ?_)
    rw [same, ← forwards]
    exact (if_neg (away (every ▸ station_ne_all _))).trans (if_pos every)
  have waiting {t : State} {b : ControlBurst} (waits : s.takesNow = false) (kept : t.processor = s.processor) : t.intake b = queued t b := by
    have still : t.takesNow = false := by
      unfold State.takesNow State.reportRoom at waits ⊢
      rwa [kept]
    exact (State.intake_waits still b).trans (if_congr (by rw [kept]) rfl rfl)
  refine ⟨fun b good => ?_, fun b good other notAll => ?_, fun waits b good => ⟨fun here => ?_, fun every => ?_⟩,
    fun idle b good t place => ?_⟩
  · refine congrArg Host.Outcome.next ((arrives (b := .report b) good).trans ?_)
    rw [same]
    exact forwards _
  · refine congrArg Host.Outcome.next ((arrives (b := .control b) good).trans ?_)
    rw [same, ← forwards]
    exact (if_neg (away other)).trans (if_neg notAll)
  · rw [own good here, waiting waits (processors _ b (.inl rfl))]
  · rw [all good every, waiting waits (processors _ b (.inr rfl))]
  · have taken : exec (.controlBurst n b) s = .next (t.intake b) := by
      obtain ⟨here, rfl⟩ | ⟨every, rfl⟩ := place
      · exact own good here
      · exact all good every
    have kept : t.processor = s.processor := processors t b (place.imp And.right And.right)
    have still : t.Idle := by
      unfold State.Idle State.takesNow State.reportRoom at idle ⊢
      rwa [kept]
    rw [taken, State.intake_idle still]
    refine ⟨?_, fun i sender c row originator tag code => ?_⟩
    · rw [exec_unknownCommand_idle still]
      exact congrArg Host.Outcome.next (t.takeCommand_congr rfl rfl rfl rfl rfl)
    · rw [exec_management row, State.submit, State.intake_idle still, code]
      exact congrArg Host.Outcome.next (t.takeCommand_congr originator.symm tag.symm rfl rfl rfl)

end Sys2Proof.Machine
end

