-- ==== Sys2Proof/Proofs/Arrivals.lean ====
section
/-! SUPPORT. A good SAMPLE burst at its feed (R6, R7, R10, R13 to R16). -/

namespace Sys2Proof.Machine

/-! ### Frames stored, a mark appended, a conversion started (R7, R14 to R16) -/

/-- How many frames a burst pushes out of the buffer. -/
def FeedContext.excess (c : FeedContext) (frames : List (List Sample)) : Nat := (c.frames ++ frames).length - 256

theorem FeedContext.storeFrames_eq (c : FeedContext) (frames : List (List Sample)) :
    let n := BitVec.ofNat 32 (c.excess frames)
    let limit := if c.converting then c.phase + n else c.oldest + n
    c.storeFrames frames = { c with
      frames := (c.frames ++ frames).drop (c.excess frames), oldest := c.oldest + n
      phase := if c.converting then c.phase + n else c.phase, slip := c.slip || decide (0 < c.excess frames)
      anchors := if c.excess frames = 0 then c.anchors else keepMarks limit c.anchors } := by
  intro n limit
  have fold : (c.frames ++ frames).length - 256 = c.excess frames := rfl
  unfold FeedContext.storeFrames
  dsimp only
  rw [fold]
  by_cases whole : c.excess frames = 0
  · have zero : n = 0 := by
      simp only [n, whole]
      rfl
    have same : (if c.converting then c.phase + n else c.phase) = c.phase := by
      rw [zero, add_zero, ite_self]
    rw [if_pos whole, if_pos whole, same, whole, zero, add_zero, List.drop_zero, decide_eq_false (Nat.lt_irrefl 0), Bool.or_false]
  · have some_ : decide (0 < c.excess frames) = true := decide_eq_true (Nat.pos_of_ne_zero whole)
    rw [if_neg whole, if_neg whole, some_, Bool.or_true]
    simp only [limit]
    by_cases converts : c.converting = true
    · rw [if_pos converts, if_pos converts, if_pos converts]
    · rw [if_neg converts, if_neg converts, if_neg converts]

/-- The anchor list once a burst's capture time, if it has one, has become a mark (R16). -/
def marksAfter (kept : List Anchor) (first : Word32) : Option Word32 → List Anchor
  | none => kept
  | some now => (if kept.length < 8 then kept else kept.drop 1) ++ [{ index := first, capture := now }]

/-- A feed once a burst is stored, `k` frames pushed out, and its capture time marked, before a conversion may start. -/
def FeedContext.stored (a : FeedContext) (b : SampleBurst) (k : Nat) : FeedContext :=
  let n := BitVec.ofNat 32 k
  let limit := if a.converting then a.phase + n else a.oldest + n
  { a with
    frames := (a.frames ++ b.frames).drop k, oldest := a.oldest + n, phase := if a.converting then a.phase + n else a.phase
    slip := a.slip || decide (0 < k), silence := 0
    anchors := marksAfter (if k = 0 then a.anchors else keepMarks limit a.anchors) (a.oldest + BitVec.ofNat 32 a.frames.length)
      b.capture }

theorem Feed.accept_eq (x : Feed) (b : SampleBurst) :
    x.accept b = (x.arrival.stored b (x.arrival.excess b.frames)).startConversion x.record.setpoint := by
  have first : x.arrival.newest + 1 = x.arrival.oldest + BitVec.ofNat 32 x.arrival.frames.length := by
    unfold FeedContext.newest
    exact sub_add_cancel _ _
  unfold Feed.accept
  dsimp only
  rw [first, x.arrival.storeFrames_eq]
  unfold FeedContext.stored marksAfter
  generalize x.arrival.excess b.frames = k
  cases b.capture <;> rfl

section Start

variable {c : FeedContext} {setpoint : Nat}

theorem FeedContext.startConversion_starts (priming : c.state = .priming) (full : setpoint + 8 ≤ c.frames.length) :
    c.startConversion setpoint = { c with phase := c.oldest + 7, fraction := 0, started := true, lockCount := 0, state := .acquiring } :=
  if_pos ⟨priming, full⟩

theorem FeedContext.startConversion_waits (waits : c.state = .priming → c.frames.length < setpoint + 8) : c.startConversion setpoint = c :=
  if_neg fun both => absurd both.2 (waits both.1).not_ge

/-- A start of conversion leaves what the buffer holds. -/
theorem FeedContext.startConversion_eq (c : FeedContext) (setpoint : Nat) :
    c.startConversion setpoint = { c with
      phase := (c.startConversion setpoint).phase, fraction := (c.startConversion setpoint).fraction
      started := (c.startConversion setpoint).started, lockCount := (c.startConversion setpoint).lockCount
      state := (c.startConversion setpoint).state } := by
  unfold FeedContext.startConversion
  split <;> rfl

end Start

section Taken

variable (a : FeedContext) (b : SampleBurst) (k setpoint : Nat)

/-- What the buffer, the flags, the ratios and the anchor list are once a burst has been taken. -/
theorem FeedContext.taken_buffer :
    let n := BitVec.ofNat 32 k
    let limit := if a.converting then a.phase + n else a.oldest + n
    let u := (a.stored b k).startConversion setpoint
    u.frames = (a.frames ++ b.frames).drop k ∧ u.oldest = a.oldest + n ∧ u.silence = 0 ∧
      u.slip = (a.slip || decide (0 < k)) ∧ u.starve = a.starve ∧ u.format = a.format ∧ u.ratio = a.ratio ∧
      u.rbase = a.rbase ∧
      u.anchors = marksAfter (if k = 0 then a.anchors else keepMarks limit a.anchors)
        (a.oldest + BitVec.ofNat 32 a.frames.length) b.capture := by
  intro n limit u
  have same : u = _ := (a.stored b k).startConversion_eq setpoint
  rw [same]
  exact ⟨rfl, rfl, rfl, rfl, rfl, rfl, rfl, rfl, rfl⟩

/-- The rest of a feed that does not prime, or whose buffer is not full enough yet. -/
theorem FeedContext.taken_stays (waits : a.state = .priming → ((a.frames ++ b.frames).drop k).length < setpoint + 8) :
    let u := (a.stored b k).startConversion setpoint
    u.state = a.state ∧ u.lockCount = a.lockCount ∧ u.started = a.started ∧
      u.phase = (if a.converting then a.phase + BitVec.ofNat 32 k else a.phase) ∧ u.fraction = a.fraction := by
  intro u
  have same : u = a.stored b k := FeedContext.startConversion_waits waits
  rw [same]
  exact ⟨rfl, rfl, rfl, rfl, rfl⟩

/-- A priming feed whose buffer is full enough starts its conversion (R7). -/
theorem FeedContext.taken_starts (priming : a.state = .priming) (full : setpoint + 8 ≤ ((a.frames ++ b.frames).drop k).length) :
    let u := (a.stored b k).startConversion setpoint
    u.state = .acquiring ∧ u.started = true ∧ u.phase = u.oldest + 7 ∧ u.fraction = 0 ∧ u.lockCount = 0 := by
  intro u
  have same : u = _ := FeedContext.startConversion_starts (c := a.stored b k) priming full
  rw [same]
  exact ⟨rfl, rfl, rfl, rfl, rfl⟩

end Taken

/-! ### The move of the feed state (R6, R10) -/

/-- The feed waits for its first burst, or for one after it was lost. -/
abbrev FeedContext.Fresh (c : FeedContext) : Prop := c.state = .waiting ∨ c.state = .lost

/-- What the arrival of an accepted burst makes of a feed, by its state. -/
theorem Feed.arrival_fresh {x : Feed} (fresh : x.context.Fresh) : x.arrival = x.primingReset := by
  unfold Feed.arrival
  obtain state | state := fresh
  · rw [state]
  · rw [state]

theorem Feed.arrival_resumes {x : Feed} (holdover : x.context.state = .holdover) (started : x.context.started = true) :
    x.arrival = { x.context with state := .acquiring, lockCount := 0 } := by
  unfold Feed.arrival
  rw [holdover]
  exact if_pos started

theorem Feed.arrival_primes {x : Feed} (holdover : x.context.state = .holdover) (stopped : x.context.started = false) :
    x.arrival = { x.context with state := .priming } := by
  unfold Feed.arrival
  rw [holdover]
  exact if_neg (by rw [stopped]; exact Bool.false_ne_true)

theorem Feed.arrival_stays {x : Feed} (state : x.context.state = .priming ∨ x.context.state = .acquiring ∨ x.context.state = .locked) :
    x.arrival = x.context := by
  unfold Feed.arrival
  obtain state | state | state := state
  · rw [state]
  · rw [state]
  · rw [state]

/-- The arrival of a burst at a feed that was not fresh moves the state and the lock count alone. -/
theorem Feed.arrival_keeps {x : Feed} (stale : ¬ x.context.Fresh) (on : x.context.state ≠ .off) :
    x.arrival = { x.context with state := x.arrival.state, lockCount := x.arrival.lockCount } := by
  cases state : x.context.state with
  | off => exact absurd state on
  | waiting => exact absurd (.inl state) stale
  | lost => exact absurd (.inr state) stale
  | priming => rw [Feed.arrival_stays (.inl state)]
  | acquiring => rw [Feed.arrival_stays (.inr (.inl state))]
  | locked => rw [Feed.arrival_stays (.inr (.inr state))]
  | holdover =>
    cases started : x.context.started with
    | true => rw [Feed.arrival_resumes state started]
    | false => rw [Feed.arrival_primes state started]

/-- A fresh feed, a priming one and a HOLDOVER one that was not converting are PRIMING when the burst is stored (R6, R10). -/
theorem Feed.arrival_priming {x : Feed}
    (primes : x.context.Fresh ∨ x.context.state = .priming ∨ (x.context.state = .holdover ∧ x.context.started = false)) :
    x.arrival.state = .priming := by
  obtain fresh | state | ⟨state, stopped⟩ := primes
  · rw [Feed.arrival_fresh fresh]
    rfl
  · rw [Feed.arrival_stays (.inl state), state]
  · rw [Feed.arrival_primes state stopped]

/-- A priming feed and a HOLDOVER one that was not converting keep their phase and their lock count. -/
theorem Feed.arrival_waiting {x : Feed}
    (waiting : x.context.state = .priming ∨ (x.context.state = .holdover ∧ x.context.started = false)) :
    x.arrival.lockCount = x.context.lockCount ∧ x.arrival.started = x.context.started ∧ x.arrival.phase = x.context.phase ∧
      x.arrival.fraction = x.context.fraction := by
  obtain state | ⟨state, stopped⟩ := waiting
  · rw [Feed.arrival_stays (.inl state)]
    exact ⟨rfl, rfl, rfl, rfl⟩
  · rw [Feed.arrival_primes state stopped]
    exact ⟨rfl, rfl, rfl, rfl⟩

/-- Such a feed has no phase that moves with its buffer (R14). -/
theorem FeedContext.not_converting {c : FeedContext} (waiting : c.state = .priming ∨ (c.state = .holdover ∧ c.started = false)) :
    ¬ (c.state = .acquiring ∨ c.state = .locked ∨ (c.state = .holdover ∧ c.started = true)) := by
  obtain state | ⟨state, stopped⟩ := waiting
  · simp [state]
  · simp [state, stopped]

section Found

variable {x : Feed} (on : x.context.state ≠ .off)
include on

/-- The buffer and the marks that a burst finds: emptied at a fresh feed (R6). -/
theorem Feed.arrival_buffer :
    x.arrival.frames = (if x.context.Fresh then [] else x.context.frames) ∧
      x.arrival.oldest = (if x.context.Fresh then 0 else x.context.oldest) ∧
      x.arrival.anchors = (if x.context.Fresh then [] else x.context.anchors) := by
  by_cases fresh : x.context.Fresh
  · rw [if_pos fresh, if_pos fresh, if_pos fresh, Feed.arrival_fresh fresh]
    exact ⟨rfl, rfl, rfl⟩
  · rw [if_neg fresh, if_neg fresh, if_neg fresh, Feed.arrival_keeps fresh on]
    exact ⟨rfl, rfl, rfl⟩

/-- The index of the first frame of a burst that arrives. -/
theorem Feed.arrival_first :
    x.arrival.oldest + BitVec.ofNat 32 x.arrival.frames.length =
      if x.context.Fresh then 0 else x.context.oldest + BitVec.ofNat 32 x.context.frames.length := by
  by_cases fresh : x.context.Fresh
  · rw [if_pos fresh, Feed.arrival_fresh fresh]
    rfl
  · rw [if_neg fresh, Feed.arrival_keeps fresh on]

theorem Feed.arrival_flags :
    x.arrival.slip = x.context.slip ∧ x.arrival.starve = x.context.starve ∧ x.arrival.format = x.context.format := by
  by_cases fresh : x.context.Fresh
  · rw [Feed.arrival_fresh fresh]
    exact ⟨rfl, rfl, rfl⟩
  · rw [Feed.arrival_keeps fresh on]
    exact ⟨rfl, rfl, rfl⟩

/-- A feed that a burst finds has a phase of its own in ACQUIRING and LOCKED, and in a HOLDOVER it entered converting (R14). -/
theorem Feed.arrival_converting :
    x.arrival.converting = true ↔
      x.context.state = .acquiring ∨ x.context.state = .locked ∨ (x.context.state = .holdover ∧ x.context.started = true) := by
  cases state : x.context.state with
  | off => exact absurd state on
  | waiting =>
    rw [Feed.arrival_fresh (.inl state)]
    exact iff_of_false Bool.false_ne_true (by simp)
  | lost =>
    rw [Feed.arrival_fresh (.inr state)]
    exact iff_of_false Bool.false_ne_true (by simp)
  | priming =>
    rw [Feed.arrival_stays (.inl state), FeedContext.converting, state]
    exact iff_of_false Bool.false_ne_true (by simp)
  | acquiring =>
    rw [Feed.arrival_stays (.inr (.inl state)), FeedContext.converting, state]
    exact iff_of_true rfl (.inl rfl)
  | locked =>
    rw [Feed.arrival_stays (.inr (.inr state)), FeedContext.converting, state]
    exact iff_of_true rfl (.inr (.inl rfl))
  | holdover =>
    cases started : x.context.started with
    | true =>
      rw [Feed.arrival_resumes state started]
      exact iff_of_true rfl (.inr (.inr ⟨rfl, rfl⟩))
    | false =>
      rw [Feed.arrival_primes state started]
      exact iff_of_false Bool.false_ne_true (by simp)

end Found

theorem State.deliverSample_to {s : State} {b : SampleBurst} {f : Fin 8} (stream : b.stream.toNat = f.val) (n : Fin 4) :
    s.deliverSample n b = s.updFeed f fun _ => { s.feeds[f] with context := s.feeds[f].deliver n b } := by
  unfold State.deliverSample
  rw [below_eq stream]
  rfl

/-- Settles O28: the receiver by its state, then the feed by its state. -/
theorem sampleBurstsReachTheirFeed : Obligations.SampleBurstsReachTheirFeed := by
  intro s n b f good stream r listens
  refine ⟨fun h => congrArg Host.Outcome.next (State.burstArrives_deaf h),
    fun hears hunt => congrArg Host.Outcome.next (State.burstArrives_hunt hears hunt good), fun hears framed => ?_⟩
  intro x c fresh wrong stored excess
  refine ⟨x.deliver n b, ?_, fun off => if_pos off, fun on bad => (if_neg on).trans (if_pos bad), fun on right => ?_⟩
  · refine congrArg Host.Outcome.next ((State.burstArrives_framed (b := .sample b) hears framed good).trans ?_)
    exact State.deliverSample_to stream n
  · obtain ⟨holds, oldest, marks⟩ := Feed.arrival_buffer on
    obtain ⟨slip, starve, format⟩ := Feed.arrival_flags on
    have pushed : x.arrival.excess b.frames = excess := by
      unfold FeedContext.excess
      rw [holds]
    have taken : x.deliver n b = (x.arrival.stored b excess).startConversion x.record.setpoint :=
      (((if_neg on).trans (if_neg right)).trans (x.accept_eq b)).trans (by rw [pushed])
    have stays := x.arrival.taken_stays b excess x.record.setpoint
    have starts := x.arrival.taken_starts b excess x.record.setpoint
    obtain ⟨bufferAfter, oldestAfter, silent, slipAfter, starveAfter, formatAfter, ratioAfter, rbaseAfter, anchorsAfter⟩ :=
      x.arrival.taken_buffer b excess x.record.setpoint
    rw [← taken] at bufferAfter oldestAfter silent slipAfter starveAfter formatAfter ratioAfter rbaseAfter anchorsAfter
    dsimp only at stays starts
    rw [← taken] at stays starts
    rw [holds] at bufferAfter stays starts
    clear_value excess
    have keeps (h : ¬ fresh) := Feed.arrival_keeps h on
    have moving (h : c.state = .acquiring ∨ c.state = .locked) : x.arrival = c := Feed.arrival_stays (.inr h)
    have phaseOf (converts : c.state = .acquiring ∨ c.state = .locked ∨ (c.state = .holdover ∧ c.started = true)) :
        x.arrival.phase = c.phase := by
      rw [keeps (by rintro (h | h) <;> simp [c, h] at converts)]
    have phased (converts : c.state = .acquiring ∨ c.state = .locked ∨ (c.state = .holdover ∧ c.started = true)) :
        (if x.arrival.converting then x.arrival.phase + BitVec.ofNat 32 excess else x.arrival.phase) =
          x.arrival.phase + BitVec.ofNat 32 excess := if_pos ((Feed.arrival_converting on).mpr converts)
    refine ⟨bufferAfter, oldestAfter.trans (by rw [oldest]), silent, slipAfter.trans (by rw [slip]), starveAfter.trans starve,
      formatAfter.trans format, fun h => ?_, fun h => ?_, ?_, fun h => ?_, fun holdover started => ?_, fun h => ?_⟩
    · rw [ratioAfter, rbaseAfter, Feed.arrival_fresh h]
      refine ⟨rfl, rfl, ?_⟩
      have zero : x.arrival.lockCount = 0 := congrArg FeedContext.lockCount (Feed.arrival_fresh h)
      obtain full | short := le_or_gt (x.record.setpoint + 8) (((if fresh then [] else c.frames) ++ b.frames).drop excess).length
      · obtain ⟨-, -, -, -, locks⟩ := starts (Feed.arrival_priming (.inl h)) full
        exact locks
      · obtain ⟨-, locks, -, -, -⟩ := stays fun _ => short
        exact locks.trans zero
    · rw [ratioAfter, rbaseAfter, keeps h]
      exact ⟨rfl, rfl⟩
    · intro before limit kept
      have same : (if excess = 0 then x.arrival.anchors
          else keepMarks (if x.arrival.converting then x.arrival.phase + BitVec.ofNat 32 excess else
            x.arrival.oldest + BitVec.ofNat 32 excess) x.arrival.anchors) = kept := by
        refine if_congr Iff.rfl marks ?_
        rw [marks]
        refine congrArg (keepMarks · before) ?_
        by_cases converts : c.state = .acquiring ∨ c.state = .locked ∨ (c.state = .holdover ∧ c.started = true)
        · exact ((if_pos ((Feed.arrival_converting on).mpr converts)).trans (by rw [phaseOf converts])).trans (if_pos converts).symm
        · refine (if_neg fun h => converts ((Feed.arrival_converting on).mp h)).trans ?_
          exact oldestAfter.symm.trans (if_neg converts).symm
      rw [same, Feed.arrival_first on] at anchorsAfter
      refine ⟨fun capture => anchorsAfter.trans (by rw [capture]; rfl), fun now capture => anchorsAfter.trans (by rw [capture]; rfl)⟩
    · obtain ⟨state, locks, started, phase, fraction⟩ := stays fun priming => by
        rw [moving h] at priming
        exact absurd (h.imp priming.symm.trans priming.symm.trans) (by simp)
      rw [phased (h.imp_right .inl)] at phase
      rw [moving h] at state locks started phase fraction
      exact ⟨state, locks, started, phase, fraction⟩
    · have resumes : x.arrival = { c with state := .acquiring, lockCount := 0 } := Feed.arrival_resumes holdover started
      obtain ⟨state, locks, started', phase, fraction⟩ := stays fun priming => by
        rw [resumes] at priming
        exact nomatch priming
      rw [phased (.inr (.inr ⟨holdover, started⟩))] at phase
      rw [resumes] at state locks started' phase fraction
      exact ⟨state, locks, started'.trans started, phase, fraction⟩
    · have primes := Feed.arrival_priming h
      refine ⟨fun full => starts primes (by rw [← bufferAfter]; exact full), fun short => ?_⟩
      obtain ⟨state, locks, started, phase, fraction⟩ := stays fun _ => by rw [← bufferAfter]; exact short
      refine ⟨state.trans primes, fun fresh => started.trans (congrArg FeedContext.started (Feed.arrival_fresh fresh)), fun stale => ?_⟩
      have waiting := h.resolve_left stale
      rw [if_neg fun converts => FeedContext.not_converting waiting ((Feed.arrival_converting on).mp converts)] at phase
      obtain ⟨sameLocks, sameStart, samePhase, sameFraction⟩ := Feed.arrival_waiting waiting
      exact ⟨locks.trans sameLocks, started.trans sameStart, phase.trans samePhase, fraction.trans sameFraction⟩

end Sys2Proof.Machine
end

