-- ==== Sys2Proof/Proofs/LoopFree.lean ====
section
/-! SUPPORT. The management window where no receiver is looped, and the arbiter's choice (R164). -/

namespace Sys2Proof.Machine

/-! ### Nothing is looped (R157) -/

section NoLoop

variable {s : State} (free : s.NoLoop)
include free

theorem State.NoLoop.loops (n : Fin 4) (k : Fin 2) : s.loops n k = false := by
  unfold State.loops
  rw [free n, Bool.and_false, Bool.false_and]

theorem State.NoLoop.sendLooped (k : Fin 2) (xs : List LineSymbol) : s.sendLooped k xs = s := by
  have symbol (x : LineSymbol) : State.loopSymbol k s x = s := by
    unfold State.loopSymbol
    induction List.finRange 4 with
    | nil => rfl
    | cons n ns ih => rw [List.foldl_cons, free.loops n k, if_neg Bool.false_ne_true, ih]
  unfold State.sendLooped
  induction xs with
  | nil => rfl
  | cons x xs ih => rw [List.foldl_cons, symbol, ih]

theorem State.NoLoop.sendManagement (k : Fin 2) : s.sendManagement k = s := by
  unfold State.sendManagement
  split
  · exact free.sendLooped k _
  · rfl

theorem State.NoLoop.sendSample (k : Fin 2) : s.sendSample k = s := by
  unfold State.sendSample
  split
  · exact free.sendLooped k _
  · rfl

end NoLoop

theorem State.NoLoop.of_inputs {s t : State} (free : s.NoLoop) (same : t.inputs = s.inputs) : t.NoLoop := fun n => by
  rw [same]
  exact free n

/-! ### The window open (R163) -/

/-- The window of output trunk `k` has opened in this burst period. -/
def State.opened (s : State) (k : Fin 2) : State := s.updOutput k fun t => { t with windowDue := false }

theorem State.NoLoop.openWindow {s : State} (free : s.NoLoop) (k : Fin 2) : s.openWindow k = s.opened k :=
  State.NoLoop.sendSample (s := s.opened k) (free.of_inputs rfl) k

/-- Output trunk `k` of the state. -/
theorem State.opened_outputs (s : State) (k : Fin 2) : (s.opened k).outputs[k] = { s.outputs[k] with windowDue := false } :=
  updAt_same s.outputs k _

/-! ### The arbiter (R164) -/

section Choice

variable {s : State} {k : Fin 2}

theorem State.reportWaits_iff : s.reportWaits k = true ↔ s.processor.replyTrunk = k ∧ s.processor.reports ≠ [] := by
  unfold State.reportWaits
  rw [Bool.and_eq_true, beq_iff_eq, Bool.not_eq_true', List.isEmpty_eq_false_iff]

theorem State.serve_nothing (first : Bool) (empty : s.outputs[k].forward = [])
    (quiet : ¬ (s.processor.replyTrunk = k ∧ s.processor.reports ≠ [])) :
    s.serve k first = s.updOutput k fun t => { t with management := none } := by
  have choice : s.choice k = none := by
    rw [State.choice, Bool.eq_false_iff.mpr (State.reportWaits_iff.not.mpr quiet), empty]
    rfl
  unfold State.serve
  rw [choice]

theorem State.serve_forward (first : Bool) {b : Burst} {rest : List Burst} (head : s.outputs[k].forward = b :: rest)
    (turn : ¬ (s.processor.replyTrunk = k ∧ s.processor.reports ≠ []) ∨ s.outputs[k].lastServed = .report) :
    s.serve k first = s.updOutput k fun t => { t with management := some b, forward := rest, lastServed := .forward } := by
  have choice : s.choice k = some .forward := by
    rw [State.choice, head]
    obtain quiet | last := turn
    · rw [Bool.eq_false_iff.mpr (State.reportWaits_iff.not.mpr quiet)]
      rfl
    · rw [last]
      cases s.reportWaits k <;> rfl
  have served : OutputTrunk.serveForward s.outputs[k] =
      { s.outputs[k] with management := some b, forward := rest, lastServed := .forward } := by
    unfold OutputTrunk.serveForward
    rw [head]
    rfl
  unfold State.serve
  rw [choice]
  exact State.updOutput_to served

theorem State.serve_report (first : Bool) {r : Report} {rest : List Report} (reply : s.processor.replyTrunk = k)
    (head : s.processor.reports = r :: rest) (turn : s.outputs[k].forward = [] ∨ s.outputs[k].lastServed = .forward) :
    s.choice k = some .report ∧ s.serve k first = s.depart k first r rest := by
  have choice : s.choice k = some .report := by
    rw [State.choice, State.reportWaits_iff.mpr ⟨reply, by rw [head]; exact List.cons_ne_nil r rest⟩]
    obtain empty | last := turn
    · rw [empty]
      rfl
    · rw [last]
      cases s.outputs[k].forward.isEmpty <;> rfl
  refine ⟨choice, ?_⟩
  unfold State.serve
  rw [choice, head]

end Choice

/-! ### A departure (R165, R181) -/

/-- The report `r` has departed on output trunk `k`, whose window was open; `rest` are the reports left. -/
def State.departed (s : State) (k : Fin 2) (r : Report) (rest : List Report) : State :=
  { s with processor := { s.processor with reports := rest } }.updOutput k fun o =>
    { o with windowDue := false, lastServed := .report, management := some (.report (s.formReport r)) }

theorem State.depart_opened (s : State) (k : Fin 2) (first : Bool) (r : Report) (rest : List Report) :
    (s.opened k).depart k first r rest =
      (if s.restartActsAt r then (s.departed k r rest).restartActs else s.departed k r rest).afterDeparture first := by
  have sent : { s.opened k with processor := { (s.opened k).processor with reports := rest } }.updOutput k
      (fun t => { t with management := some (.report ((s.opened k).formReport r)), lastServed := .report }) = s.departed k r rest :=
    congrArg (fun v => { s with processor := { s.processor with reports := rest }, outputs := v }) (updAt_updAt s.outputs k
      (fun t => { t with windowDue := false }) fun t => { t with management := some (.report (s.formReport r)), lastServed := .report })
  unfold State.depart
  rw [sent]
  rfl

/-- Where no receiver is looped, a window in which a report departs ends with the tests that the departure calls for. -/
theorem State.NoLoop.window_report {s : State} (free : s.NoLoop) {k : Fin 2} (first : Bool) {r : Report} {rest : List Report}
    (reply : s.processor.replyTrunk = k) (head : s.processor.reports = r :: rest)
    (turn : s.outputs[k].forward = [] ∨ s.outputs[k].lastServed = .forward) :
    s.window k first =
      ((if s.restartActsAt r then (s.departed k r rest).restartActs else s.departed k r rest).afterDeparture first).sendManagement k := by
  have same := s.opened_outputs k
  unfold State.window
  rw [free.openWindow k, (State.serve_report (s := s.opened k) first reply head (by rw [same]; exact turn)).2, State.depart_opened]

/-- A transfer that cannot step does not (R146). -/
theorem State.transferSteps_rests {s : State} (rests : ¬ s.CanStep) (fuel : Nat) : State.transferSteps fuel s = s := by
  cases fuel with
  | zero => rfl
  | succ n => exact if_neg (by rw [s.canStep_iff]; exact rests)

theorem State.CanStep.active {s : State} (can : s.CanStep) : s.log.transfer.state = .active := can.1

theorem State.drain_empty {s : State} (empty : s.processor.commands = []) : s.drain = s := by
  unfold State.drain
  rw [empty]
  rfl

/-- A departure after which nothing can be taken and no transfer step is possible. -/
theorem State.afterDeparture_rests {s : State} (drained : s.drain = s) (rests : ¬ s.CanStep) (first : Bool) :
    s.afterDeparture first = s := by
  unfold State.afterDeparture
  cases first
  · rw [if_neg Bool.false_ne_true, drained, State.transferSteps_rests rests]
  · rw [if_pos rfl, State.transferSteps_rests rests, drained]

end Sys2Proof.Machine
end

