-- ==== Sys2Proof/Proofs/Restarts.lean ====
section
/-! SUPPORT. The acts of a restart (R182), and the window in which its REPLY departs (R181). -/

namespace Sys2Proof.Machine

/-! ### The acts of a restart (R182) -/

/-- The records that stand, in index order (R138). -/
def State.stood (s : State) : List (Fin 400) := s.standingOf (List.finRange 400)

/-- The CLEAR reports that a restart queues: those of the first 24 records that stood (R136, R138). -/
def State.restartClears (s : State) : List Report :=
  (s.stood.take 24).map fun i => Report.alarm
    { type := .clear, index := i, state := .clear, severity := (s.alarms.policyOf i).severity, acknowledged := false
      timeOfRaise := 0, houseTime := s.time.houseTime }

/-- The final LOG report that a restart queues, if a transfer was ACTIVE (R148). -/
def State.restartLogs (s : State) : List Report :=
  if s.log.transfer.state = .active then
    [.log { entries := [], overrun := s.log.transfer.overrun, delivered := s.log.transfer.delivered, cause := some .aborted }]
  else []

/-- A record after a restart: CLEAR, with its time of raise 0; unreported if it stood and its CLEAR report found no room (R138). -/
def State.restartRecord (s : State) (i : Fin 400) : AlarmRecord :=
  { state := .clear, count := 0, repeatCount := 0, repeatsDue := 0, acknowledged := false
    unreported := if s.alarms.records[i].standing = true then decide (i ∉ s.stood.take 24) else s.alarms.records[i].unreported
    timeOfRaise := 0 }

/-- The alarm unit after a restart. -/
def State.restartAlarms (s : State) : AlarmUnit := { s.alarms with records := Vector.ofFn s.restartRecord }.formLines

/-- The loudness log after a restart. -/
def State.restartLog (s : State) : LoudnessLog :=
  { s.log with ring := [], overflow := false
               transfer := if s.log.transfer.state = .active then s.log.transfer.aborted else s.log.transfer }

theorem State.mem_stood (s : State) (i : Fin 400) : i ∈ s.stood ↔ s.alarms.records[i].standing = true := by
  unfold State.stood State.standingOf
  rw [List.mem_filter]
  exact and_iff_right (List.mem_finRange i)

theorem State.forceAll_record (s : State) (i : Fin 400) :
    s.forceAll.alarms.records[i] = { s.alarms.records[i].forced with timeOfRaise := 0 } := by
  simp only [State.forceAll, Fin.getElem_fin, mapAll_getElem]

theorem State.forceAll_withTold (s : State) (w : Vector AlarmRecord 400) (q : List Report) :
    s.forceAll.withTold w q =
      { s with alarms := { s.alarms with records := w }, processor := { s.processor with reports := q } } := by
  simp only [State.withTold, State.forceAll]

/-- Step 4, of a state whose queues are empty. -/
theorem State.clearAlarms_eq {s : State} (empty : s.processor.reports = []) :
    s.clearAlarms = { s with alarms := s.restartAlarms, processor := { s.processor with reports := s.restartClears } } := by
  obtain ⟨w, told, records⟩ := s.forceAll.offerClears_told s.stood (s.standingOf_nodup (List.nodup_finRange 400))
  have room : s.forceAll.alarmSpace = 24 := by
    unfold State.alarmSpace Processor.alarmReports
    rw [State.forceAll_processor, empty]
    rfl
  have reports : s.forceAll.processor.reports ++
      (s.stood.take s.forceAll.alarmSpace).map (fun r => s.forceAll.reportOf s.forceAll.alarms.records (r, .clear)) = s.restartClears := by
    rw [room, State.forceAll_processor, empty, List.nil_append]
    refine List.map_congr_left fun i _ => ?_
    have policy : s.forceAll.alarms.policyOf i = s.alarms.policyOf i :=
      AlarmUnit.policyOf_congr (by simp only [State.forceAll]) i
    simp only [State.reportOf, State.formAlarm, State.withTold_records, State.withTold_policyOf, State.withTold_time, s.forceAll_record i,
      policy, State.forceAll_time, AlarmRecord.forced]
  have same : w = Vector.ofFn s.restartRecord := by
    refine Vector.ext fun i inside => ?_
    rw [Vector.getElem_ofFn]
    refine (records ⟨i, inside⟩).trans ?_
    rw [s.forceAll_record ⟨i, inside⟩, room]
    unfold State.restartRecord
    by_cases stands : s.alarms.records[(⟨i, inside⟩ : Fin 400)].standing = true
    · rw [if_pos ((s.mem_stood _).mpr stands), if_pos stands]
      rfl
    · rw [if_neg ((s.mem_stood _).not.mpr stands), if_neg stands]
      rfl
  rw [reports, same, s.forceAll_withTold] at told
  have fold : s.standingOf (List.finRange 400) = s.stood := rfl
  rw [State.clearAlarms, fold, told]
  rfl

theorem State.endLog_eq {s : State} (room : s.processor.reports.length < 32) :
    s.endLog = { s with log := s.restartLog, processor := { s.processor with reports := s.processor.reports ++ s.restartLogs } } := by
  unfold State.endLog State.restartLog State.restartLogs
  by_cases active : s.log.transfer.state = .active
  · have enters : (s.setTransfer s.log.transfer.aborted).reportRoom = true := decide_eq_true room
    rw [if_pos active, if_pos active, if_pos active, State.offerAborted, if_pos enters]
    rfl
  · rw [if_neg active, if_neg active, if_neg active, List.append_nil]

/-- What a restart leaves (R182). -/
theorem State.restartActs_eq (s : State) :
    s.restartActs =
      { s.emptyQueues.releaseAll with
        alarms := s.restartAlarms, log := s.restartLog
        processor := { s.processor with commands := [], reports := s.restartClears ++ s.restartLogs, state := .ready } } := by
  have alarms : s.emptyQueues.releaseAll.clearAlarms = _ := State.clearAlarms_eq rfl
  have few : s.restartClears.length < 32 := by
    unfold State.restartClears
    rw [List.length_map, List.length_take]
    omega
  unfold State.restartActs
  rw [alarms, State.endLog_eq]
  · rfl
  · exact few

theorem State.restartActs_output (s : State) (j : Fin 2) :
    s.restartActs.outputs[j] = { s.outputs[j] with forward := [], lastServed := .forward } := by
  simp only [State.restartActs_eq, State.releaseAll_outputs, State.emptyQueues, Fin.getElem_fin, mapAll_getElem]

theorem State.restartActs_programme (s : State) (p : Fin 16) : s.restartActs.programmes[p] = s.programmes[p].restarted s.tables.unity := by
  simp only [State.restartActs_eq, State.releaseAll, State.emptyQueues, Fin.getElem_fin, mapAll_getElem]

theorem State.restartActs_feed (s : State) (f : Fin 8) : s.restartActs.feeds[f] = { s.feeds[f] with context := s.feeds[f].restarted } := by
  simp only [State.restartActs_eq, State.releaseAll, State.emptyQueues, Fin.getElem_fin, mapAll_getElem]

theorem State.restartActs_record (s : State) (i : Fin 400) : s.restartActs.alarms.records[i] = s.restartRecord i := by
  simp only [State.restartActs_eq, State.restartAlarms, AlarmUnit.formLines, Fin.getElem_fin, Vector.getElem_ofFn]

theorem State.restartActs_line (s : State) (v : Severity) : ({ s.alarms with records := Vector.ofFn s.restartRecord }.lineOf v) = false := by
  refine Bool.eq_false_iff.mpr fun asserted => ?_
  obtain ⟨r, -, -, stands⟩ := (AlarmUnit.lineOf_iff _ v).mp asserted
  have record : (Vector.ofFn s.restartRecord)[r] = s.restartRecord r := Vector.getElem_ofFn ..
  rw [record] at stands
  exact nomatch stands

/-- No record stands after a restart, so both lines are off (R133, R182). -/
theorem State.restartAlarms_eq (s : State) :
    s.restartAlarms = { s.alarms with records := Vector.ofFn s.restartRecord, major := false, minor := false } := by
  unfold State.restartAlarms AlarmUnit.formLines
  rw [s.restartActs_line, s.restartActs_line]

theorem mem_freshPages {retired : List Page} {n : Page} : n ∈ freshPages retired ↔ n ∉ retired := by
  unfold freshPages
  rw [List.mem_filter, Bool.not_eq_true', List.contains_eq_mem, decide_eq_false_iff_not]
  exact and_iff_right (List.mem_finRange n)

theorem freshPages_sorted (retired : List Page) : (freshPages retired).Pairwise (· < ·) :=
  (List.pairwise_lt_finRange 16384).filter _

theorem Programme.restarted_gain (q : Programme) (unity : Byte) :
    (q.level.gainMode = .fixed → (q.restarted unity).rider.gain = q.level.fixedGain) ∧
      (q.level.gainMode = .ride → (q.restarted unity).rider.gain = clampNat q.level.gMin q.level.gMax unity.toNat) := by
  have gain : (q.restarted unity).rider.gain = (q.riderRestart unity).gain := rfl
  rw [gain, Programme.riderRestart]
  exact ⟨fun mode => by rw [mode], fun mode => by rw [mode]⟩

/-! ### The window in which the REPLY departs (R181) -/

theorem State.restartActsAt_iff (s : State) (x : Reply) :
    s.restartActsAt (.reply x) = true ↔ s.processor.state = .restartPending ∧ x.code = 21 ∧ x.result = .done := by
  have answers : (Report.reply x).answersRestart = (x.code == 21 && x.result == .done) := rfl
  unfold State.restartActsAt
  rw [answers, Bool.and_eq_true, Bool.and_eq_true, beq_iff_eq, beq_iff_eq, beq_iff_eq]

theorem State.departed_output (s : State) (k j : Fin 2) (r : Report) (rest : List Report) :
    (s.departed k r rest).outputs[j] =
      if k = j then { s.outputs[j] with windowDue := false, lastServed := .report, management := some (.report (s.formReport r)) }
      else s.outputs[j] := by
  by_cases own : k = j
  · subst own
    rw [if_pos rfl]
    exact updAt_same s.outputs k _
  · rw [if_neg own]
    exact updAt_other s.outputs k j _ own

theorem State.departed_inputs (s : State) (k : Fin 2) (r : Report) (rest : List Report) : (s.departed k r rest).inputs = s.inputs := rfl

/-- After a restart nothing waits and no transfer steps. -/
theorem State.restartActs_settles (s : State) (first : Bool) : s.restartActs.afterDeparture first = s.restartActs := by
  refine State.afterDeparture_rests (State.drain_empty ?_) (fun can => ?_) first
  · rw [State.restartActs_eq]
  · have active := can.active
    rw [State.restartActs_eq] at active
    dsimp only [State.restartLog] at active
    split at active
    · exact nomatch active
    · contradiction

/-- Settles O32: the window lets the REPLY depart, and the restart leaves nothing for the tests after a departure. -/
theorem restartActsAtTheDepartureOfItsReply : Obligations.RestartActsAtTheDepartureOfItsReply := by
  intro s r rest free k due pending head code done turn
  have acts : s.restartActsAt (.reply r) = true := (s.restartActsAt_iff r).mpr ⟨pending, code, done⟩
  have window (first : Bool) : s.window k first = (s.departed k (.reply r) rest).restartActs := by
    rw [free.window_report first rfl head turn, if_pos acts, State.restartActs_settles]
    refine State.NoLoop.sendManagement (free.of_inputs ?_) k
    rw [State.restartActs_eq]
    exact s.departed_inputs k (.reply r) rest
  have departs : s.restartDeparts k = true := by
    have same := s.opened_outputs k
    have choice := (State.serve_report (s := s.opened k) (k := k) false rfl head (by rw [same]; exact turn)).1
    unfold State.restartDeparts
    rw [free.openWindow k, due, choice]
    have first : (s.opened k).processor.reports = .reply r :: rest := head
    rw [first]
    exact acts
  have outputs (j : Fin 2) := s.departed_output k j (.reply r) rest
  have kept : s.departed k (.reply r) rest = { s with
      processor := { s.processor with reports := rest }, outputs := (s.departed k (.reply r) rest).outputs } := rfl
  generalize s.departed k (.reply r) rest = d at window outputs kept
  have alarms : d.restartAlarms = s.restartAlarms := by rw [kept]; rfl
  have reports : d.restartClears ++ d.restartLogs = s.restartClears ++ s.restartLogs := by rw [kept]; rfl
  have log : d.restartLog = s.restartLog := by rw [kept]; rfl
  have record (i : Fin 400) : d.restartRecord i = s.restartRecord i := by rw [kept]; rfl
  refine ⟨d.restartActs, ?_, fun first => ?_, ?_, fun j => ?_, ?_, ?_, ?_, ?_, ?_, ⟨?_, fun i => ?_⟩, fun p => ?_, fun f => ?_, ?_⟩
  · exact congrArg Host.Outcome.next ((if_pos departs).trans (window false))
  · exact congrArg Host.Outcome.next ((if_pos due).trans (window first))
  · rw [State.restartActs_output, outputs, if_pos rfl]
  · rw [State.restartActs_output, outputs]
    by_cases own : k = j
    · rw [if_pos own]
      exact ⟨rfl, rfl, rfl, rfl, rfl⟩
    · rw [if_neg own]
      exact ⟨rfl, rfl, rfl, rfl, rfl⟩
  · rw [State.restartActs_eq]
  · rw [State.restartActs_eq]
  · rw [State.restartActs_eq, kept]
  · rw [State.restartActs_eq, kept]
  · rw [State.restartActs_eq, kept]
  · rw [State.restartActs_eq]
    exact reports
  · exact (d.restartActs_record i).trans (record i)
  · intro q u
    have programme : u = q.restarted s.tables.unity := by
      refine (d.restartActs_programme p).trans ?_
      rw [kept]
    obtain ⟨fixed, ride⟩ := q.restarted_gain s.tables.unity
    rw [programme]
    exact ⟨rfl, rfl, rfl, rfl, rfl, rfl, rfl, rfl, rfl, rfl, rfl, rfl, rfl, rfl, rfl, rfl, rfl, rfl, rfl, rfl, rfl, fixed, ride⟩
  · intro x
    have feed : d.restartActs.feeds[f] = { x with context := x.restarted } := by
      refine (d.restartActs_feed f).trans ?_
      rw [kept]
    rw [feed]
    exact ⟨rfl, rfl⟩
  · have store : d.restartActs.store = { s.store with freeList := freshPages s.store.retired } := by
      rw [State.restartActs_eq, kept]
      rfl
    have unit : d.restartActs.alarms =
        { s.alarms with records := Vector.ofFn s.restartRecord, major := false, minor := false } := by
      rw [State.restartActs_eq]
      exact alarms.trans s.restartAlarms_eq
    have after : d.restartActs.log = s.restartLog := by
      rw [State.restartActs_eq]
      exact log
    rw [store, unit, after]
    dsimp only
    refine ⟨fun n => mem_freshPages (retired := s.store.retired), freshPages_sorted s.store.retired, rfl, rfl, rfl, rfl, rfl, rfl, rfl, rfl,
      rfl, rfl, fun active => if_pos active, fun idle => if_neg idle, ?_⟩
    rw [State.restartActs_eq, kept]
    exact ⟨rfl, rfl, rfl, rfl⟩

end Sys2Proof.Machine
end

