-- ==== Sys2Proof/Proofs/Landing.lean ====
section
/-! SUPPORT. A good burst that ends at a receiver while no command can be taken: what it does apart from the receivers does not read them
(R155, R159 to R161). -/

namespace Sys2Proof.Machine

/-! ### The input trunks replaced -/

def State.withInputs (s : State) (v : Vector InputTrunk 4) : State := { s with inputs := v }

theorem State.withInputs_withInputs (s : State) (v w : Vector InputTrunk 4) : (s.withInputs v).withInputs w = s.withInputs w := rfl

theorem State.withInputs_self (s : State) : s.withInputs s.inputs = s := rfl

theorem updAt_comm {α : Type} {n : Nat} (v : Vector α n) {i j : Fin n} (apart : i ≠ j) (g h : α → α) :
    updAt (updAt v i g) j h = updAt (updAt v j h) i g := by
  have differ : i.val ≠ j.val := fun same => apart (Fin.ext same)
  refine Vector.ext fun k inside => ?_
  simp only [updAt_getElem]
  by_cases first : i.val = k
  · have second : ¬ j.val = k := fun same => differ (first.trans same.symm)
    simp only [if_pos first, if_neg second]
  · simp only [if_neg first]

/-! ### Handing on (R159 to R161) -/

/-- A CONTROL burst for this station has to wait (R167). -/
def State.Waits (s : State) (b : Burst) : Prop :=
  ∀ c, b = .control c → c.destination = s.processor.station.setWidth 8 ∨ c.destination = 255 → s.takesNow = false

theorem State.Waits.of_processor {s t : State} {b : Burst} (waits : s.Waits b) (station : t.processor.station = s.processor.station)
    (takes : t.takesNow = s.takesNow) : t.Waits b := fun c control mine => by
  rw [takes]
  rw [station] at mine
  exact waits c control mine

section HandOn

variable {s : State} {v : Vector InputTrunk 4} {n : Fin 4}

theorem State.forwardBurst_withInputs (target : v[n].forward = s.inputs[n].forward) (b : Burst) :
    (s.withInputs v).forwardBurst n b = (s.forwardBurst n b).withInputs v := by
  unfold State.forwardBurst
  have same : (s.withInputs v).inputs[n].forward = s.inputs[n].forward := target
  rw [same]
  cases s.inputs[n].forward <;> rfl

theorem State.deliverSample_withInputs (b : SampleBurst) : (s.withInputs v).deliverSample n b = (s.deliverSample n b).withInputs v := by
  unfold State.deliverSample
  cases below 8 b.stream.toNat <;> rfl

theorem State.intake_withInputs (waits : s.takesNow = false) (c : ControlBurst) : (s.withInputs v).intake c = (s.intake c).withInputs v := by
  have still : (s.withInputs v).takesNow = false := waits
  rw [State.intake_waits still, State.intake_waits waits]
  by_cases room : s.processor.commands.length < 8
  · rw [if_pos room, if_pos (show (s.withInputs v).processor.commands.length < 8 from room)]
    rfl
  · rw [if_neg room, if_neg (show ¬ (s.withInputs v).processor.commands.length < 8 from room)]
    rfl

theorem State.forwardBurst_takesNow (s : State) (n : Fin 4) (b : Burst) : (s.forwardBurst n b).takesNow = s.takesNow := by
  unfold State.takesNow State.reportRoom
  rw [s.forwardBurst_processor n b]

theorem State.handControl_withInputs {c : ControlBurst} (waits : s.Waits (.control c)) (target : v[n].forward = s.inputs[n].forward) :
    (s.withInputs v).handControl n c = (s.handControl n c).withInputs v := by
  have forwarded := State.forwardBurst_withInputs target (.control c)
  unfold State.handControl
  by_cases own : s.addressed c.destination = true
  · have mine : (s.withInputs v).addressed c.destination = true := own
    rw [if_pos own, if_pos mine]
    exact State.intake_withInputs (waits c rfl (.inl (beq_iff_eq.mp own))) c
  · have other : ¬ (s.withInputs v).addressed c.destination = true := own
    rw [if_neg own, if_neg other]
    by_cases all : c.destination = 255
    · rw [if_pos all, if_pos all, forwarded]
      exact State.intake_withInputs ((s.forwardBurst_takesNow n _).trans (waits c rfl (.inr all))) c
    · rw [if_neg all, if_neg all, forwarded]

theorem State.handOn_withInputs {b : Burst} (waits : s.Waits b) (target : v[n].forward = s.inputs[n].forward) :
    (s.withInputs v).handOn n b = (s.handOn n b).withInputs v := by
  cases b with
  | sample b => exact State.deliverSample_withInputs b
  | control c => exact State.handControl_withInputs waits target
  | report b => exact State.forwardBurst_withInputs target (.report b)

theorem State.intake_processor (waits : s.takesNow = false) (c : ControlBurst) :
    (s.intake c).takesNow = s.takesNow ∧ (s.intake c).processor.station = s.processor.station := by
  rw [State.intake_waits waits]
  split
  · exact ⟨rfl, rfl⟩
  · exact ⟨rfl, rfl⟩

/-- A burst handed on leaves the command processor as ready as it was. -/
theorem State.handOn_processor {b : Burst} (waits : s.Waits b) :
    (s.handOn n b).takesNow = s.takesNow ∧ (s.handOn n b).processor.station = s.processor.station := by
  have forwarded (x : Burst) : (s.forwardBurst n x).takesNow = s.takesNow ∧ (s.forwardBurst n x).processor.station = s.processor.station :=
    ⟨s.forwardBurst_takesNow n x, by rw [s.forwardBurst_processor]⟩
  cases b with
  | sample b =>
    change (s.deliverSample n b).takesNow = _ ∧ (s.deliverSample n b).processor.station = _
    unfold State.deliverSample
    cases below 8 b.stream.toNat <;> exact ⟨rfl, rfl⟩
  | report b => exact forwarded (.report b)
  | control c =>
    change (s.handControl n c).takesNow = _ ∧ (s.handControl n c).processor.station = _
    unfold State.handControl
    split
    · rename_i own
      exact State.intake_processor (waits c rfl (.inl (beq_iff_eq.mp own))) c
    · split
      · rename_i all
        obtain ⟨takes, station⟩ := forwarded (.control c)
        obtain ⟨takes', station'⟩ := State.intake_processor (s := s.forwardBurst n (.control c)) (takes.trans (waits c rfl (.inr all))) c
        exact ⟨takes'.trans takes, station'.trans station⟩
      · exact forwarded (.control c)

end HandOn

/-! ### A good burst ends (R155) -/

/-- The part after a good burst has ended at the receiver of trunk `n`. -/
def State.landed (s : State) (n : Fin 4) (b : Burst) : State := (s.afterWholeBurst n).goodBurst n b

/-- What the burst does apart from its receiver: a FRAMED one hands it on. -/
def State.landing (s : State) (n : Fin 4) (b : Burst) : State := if s.framed n then s.handOn n b else s

/-- An input trunk whose receiver has taken a good burst. -/
def InputTrunk.landed (x : InputTrunk) : InputTrunk := { x with receiver := x.receiver.ended.good }

section Landed

variable {s : State} {v : Vector InputTrunk 4} {n : Fin 4} {b : Burst} (waits : s.Waits b)
include waits

theorem State.landing_withInputs (framed : v[n].receiver.state = s.inputs[n].receiver.state) (target : v[n].forward = s.inputs[n].forward) :
    (s.withInputs v).landing n b = (s.landing n b).withInputs v := by
  have same : (s.withInputs v).framed n = s.framed n := congrArg (· == ReceiverState.framed) framed
  unfold State.landing
  rw [same]
  split
  · exact State.handOn_withInputs waits target
  · rfl

theorem State.landing_inputs : (s.landing n b).inputs = s.inputs := by
  have same : (s.withInputs s.inputs).landing n b = (s.landing n b).withInputs s.inputs := State.landing_withInputs waits rfl rfl
  exact (congrArg State.inputs same :)

theorem State.landed_eq : s.landed n b = (s.landing n b).withInputs (updAt s.inputs n InputTrunk.landed) := by
  have taken : (s.afterWholeBurst n).updReceiver n Receiver.good = s.withInputs (updAt s.inputs n InputTrunk.landed) :=
    congrArg s.withInputs (updAt_updAt s.inputs n (fun x => { x with receiver := x.receiver.ended }) fun x =>
      { x with receiver := x.receiver.good })
  have own : (updAt s.inputs n InputTrunk.landed)[n] = s.inputs[n].landed := updAt_same s.inputs n _
  have framed : (s.afterWholeBurst n).framed n = s.framed n := by
    unfold State.framed
    rw [s.afterWholeBurst_receiver n]
    rfl
  unfold State.landed State.goodBurst State.landing
  rw [framed, taken]
  split
  · exact State.handOn_withInputs waits (by rw [own]; rfl)
  · rfl

theorem State.landed_withInputs (receiver : v[n].receiver = s.inputs[n].receiver) (target : v[n].forward = s.inputs[n].forward) :
    (s.withInputs v).landed n b = (s.landed n b).withInputs (updAt v n InputTrunk.landed) := by
  have still : (s.withInputs v).Waits b := waits.of_processor rfl rfl
  rw [State.landed_eq still, State.landed_eq waits, State.landing_withInputs waits (congrArg Receiver.state receiver) target]
  rfl

theorem State.landed_waits : (s.landed n b).Waits b := by
  rw [State.landed_eq waits]
  have kept : (s.landing n b).takesNow = s.takesNow ∧ (s.landing n b).processor.station = s.processor.station := by
    unfold State.landing
    split
    · exact State.handOn_processor waits
    · exact ⟨rfl, rfl⟩
  exact waits.of_processor kept.2 kept.1

theorem State.landed_inputs : (s.landed n b).inputs = updAt s.inputs n InputTrunk.landed := by
  rw [State.landed_eq waits]
  rfl

end Landed

end Sys2Proof.Machine
end

