-- ==== Sys2Proof/Proofs/Looped.lean ====
section
/-! SUPPORT. The symbols of a good burst at the receivers looped to its transmitter: both take it, one after the other (R157). -/

namespace Sys2Proof.Machine

/-! ### The receivers of an output trunk (R157) -/

/-- The receivers that can be looped to output trunk `k`. -/
def firstLoop (k : Fin 2) : Fin 4 := if k = 0 then 0 else 1
def secondLoop (k : Fin 2) : Fin 4 := if k = 0 then 2 else 3

theorem firstLoop_ne (k : Fin 2) : firstLoop k ≠ secondLoop k := by revert k; decide

/-- The receiver of trunk `n` takes its symbols from a transmitter. -/
abbrev State.Looped (s : State) (n : Fin 4) : Prop := s.inputs[n].enabled = true ∧ s.inputs[n].loopback = true

/-- A symbol of the transmitter at the receiver of trunk `n`. -/
def State.hears (s : State) (n : Fin 4) (x : LineSymbol) : State := if s.Looped n then s.receive n x else s

theorem State.loops_eq (s : State) (n : Fin 4) (k : Fin 2) (x : LineSymbol) :
    (if s.loops n k then s.receive n x else s) = if n.val % 2 = k.val then s.hears n x else s := by
  unfold State.hears
  by_cases own : n.val % 2 = k.val
  · rw [if_pos own]
    exact if_congr (State.loops_iff.trans ⟨fun h => ⟨h.1, h.2.1⟩, fun h => ⟨h.1, h.2, own⟩⟩) rfl rfl
  · rw [if_neg own]
    exact if_neg fun looped => own (State.loops_iff.mp looped).2.2

theorem State.loopSymbol_eq (s : State) (k : Fin 2) (x : LineSymbol) :
    State.loopSymbol k s x = (s.hears (firstLoop k) x).hears (secondLoop k) x := by
  have trunks : List.finRange 4 = [0, 1, 2, 3] := by decide
  unfold State.loopSymbol
  rw [trunks]
  simp only [List.foldl_cons, List.foldl_nil, State.loops_eq]
  match k with
  | 0 => rfl
  | 1 => rfl

/-! ### A burst collected (R150) -/

/-- The receiver has collected these octets of a burst, newest first, or is outside a burst. -/
def Receiver.collecting (r : Receiver) (a : Option (List Byte)) : Receiver := { r with silence := 0, assembly := a }

def InputTrunk.collecting (a : Option (List Byte)) (x : InputTrunk) : InputTrunk :=
  if x.enabled = true ∧ x.loopback = true then { x with receiver := x.receiver.collecting a } else x

/-- So it is at the receiver of trunk `n`, if it is looped. -/
def State.collecting (s : State) (n : Fin 4) (a : Option (List Byte)) : State := s.withInputs (updAt s.inputs n (InputTrunk.collecting a))

/-- The receiver of trunk `n`, if it is looped, is up and outside a burst. -/
def State.Ready (s : State) (n : Fin 4) : Prop :=
  s.Looped n → s.inputs[n].receiver.state ≠ .down ∧ s.inputs[n].receiver.assembly = none

theorem State.Ready.of_input {s t : State} {n : Fin 4} (ready : s.Ready n) (same : t.inputs[n] = s.inputs[n]) : t.Ready n := by
  unfold State.Ready State.Looped
  rw [same]
  exact ready

theorem State.collecting_other (s : State) {m n : Fin 4} (apart : m ≠ n) (a : Option (List Byte)) :
    (s.collecting m a).inputs[n] = s.inputs[n] := updAt_other s.inputs m n _ apart

theorem State.collecting_comm (s : State) {m n : Fin 4} (apart : m ≠ n) (a c : Option (List Byte)) :
    (s.collecting m a).collecting n c = (s.collecting n c).collecting m a :=
  congrArg s.withInputs (updAt_comm s.inputs apart (InputTrunk.collecting a) (InputTrunk.collecting c))

section Symbols

variable {s : State} {n : Fin 4}

theorem State.collecting_looped (looped : s.Looped n) (a : Option (List Byte)) :
    s.collecting n a = s.updReceiver n fun _ => s.inputs[n].receiver.collecting a :=
  congrArg s.withInputs (updAt_congr s.inputs n (if_pos looped))

theorem State.collecting_line (line : ¬ s.Looped n) (a : Option (List Byte)) : s.collecting n a = s := by
  have same : updAt s.inputs n (InputTrunk.collecting a) = s.inputs := (updAt_congr s.inputs n (if_neg line)).trans (updAt_id s.inputs n)
  exact congrArg s.withInputs same

theorem State.hears_line (line : ¬ s.Looped n) (x : LineSymbol) : s.hears n x = s := if_neg line

theorem State.collecting_hears (looped : s.Looped n) (a : Option (List Byte)) (x : LineSymbol) :
    (s.collecting n a).hears n x = (s.updReceiver n fun _ => s.inputs[n].receiver.collecting a).receive n x := by
  rw [State.collecting_looped looped]
  refine if_pos ?_
  unfold State.Looped
  rw [State.input_updReceiver]
  exact looped

end Symbols

/-- The symbol takes a receiver that has collected `a` to one that has collected `c`. -/
def Leads (x : LineSymbol) (a c : Option (List Byte)) : Prop :=
  ∀ (s : State) (n : Fin 4), s.Ready n → (s.collecting n a).hears n x = s.collecting n c

theorem leads_of {x : LineSymbol} {a c : Option (List Byte)}
    (own : ∀ (t : State) (n : Fin 4) (r : Receiver), r.state ≠ .down → t.inputs[n].receiver = r.collecting a →
      t.receive n x = t.updReceiver n fun _ => r.collecting c) : Leads x a c := by
  intro s n ready
  by_cases looped : s.Looped n
  · rw [State.collecting_hears looped, State.collecting_looped looped c]
    refine (own _ n s.inputs[n].receiver (ready looped).1 (s.receiver_updReceiver n _)).trans ?_
    exact s.updReceiver_updReceiver n _ _
  · rw [State.collecting_line looped, State.hears_line looped, State.collecting_line looped]

theorem leads_open : Leads .openBurst none (some []) := leads_of fun t n r up same => by
  have woken : t.inputs[n].receiver.wake = r.collecting none := by
    rw [same]
    exact Receiver.wake_up up
  rw [State.receive_outside (by rw [woken]; rfl), woken]
  rfl

theorem leads_data {octets : List Byte} (room : octets.length < 4672) (d : Byte) : Leads (.data d) (some octets) (some (d :: octets)) :=
  leads_of fun t n r up same => by
    rw [State.receive_inside (octets := octets) (by rw [same]; exact up) (by rw [same]; rfl), same]
    refine (if_neg (not_le.mpr room)).trans ?_
    exact t.updReceiver_updReceiver n _ _

/-- The part once the receiver of trunk `n`, if it is looped, has taken a good burst. -/
def State.lands (s : State) (n : Fin 4) (b : Burst) : State := if s.Looped n then s.landed n b else s

theorem State.collecting_close {s : State} {n : Fin 4} (ready : s.Ready n) {octets : List Byte} {b : Burst}
    (judged : judgeBurst octets.reverse = some b) : (s.collecting n (some octets)).hears n .closeBurst = s.lands n b := by
  unfold State.lands
  by_cases looped : s.Looped n
  · rw [State.collecting_hears looped, if_pos looped]
    have same := s.receiver_updReceiver n fun _ => s.inputs[n].receiver.collecting (some octets)
    have ended : (s.updReceiver n fun _ => s.inputs[n].receiver.collecting (some octets)).afterWholeBurst n = s.afterWholeBurst n :=
      s.updReceiver_updReceiver n _ _
    generalize s.updReceiver n (fun _ => s.inputs[n].receiver.collecting (some octets)) = t at same ended
    rw [State.receive_inside (octets := octets) (by rw [same]; exact (ready looped).1) (by rw [same]; rfl)]
    unfold State.symbolInside
    dsimp only
    rw [judged]
    dsimp only
    rw [t.setAssembly_none n, ended]
    rfl
  · rw [State.collecting_line looped, State.hears_line looped, if_neg looped]

theorem State.hears_idle {s : State} {n : Fin 4} (ready : s.Ready n) : s.hears n .idle = s.collecting n none := by
  unfold State.hears
  by_cases looped : s.Looped n
  · obtain ⟨up, outside⟩ := ready looped
    have woken : s.inputs[n].receiver.wake = { s.inputs[n].receiver with silence := 0 } := Receiver.wake_up up
    rw [if_pos looped, State.collecting_looped looped, State.receive_outside (by rw [woken]; exact outside), woken]
    rfl
  · rw [if_neg looped, State.collecting_line looped]

/-- A receiver that was up is up and outside a burst once it has taken one. -/
theorem Receiver.good_ready {r : Receiver} (up : r.state ≠ .down) :
    r.ended.good.state ≠ .down ∧ r.ended.good.silence = 0 ∧ r.ended.good.assembly = none := by
  match state : r.state with
  | .down => exact absurd state up
  | .framed =>
    rw [Receiver.good_framed (r := r.ended) state]
    exact ⟨up, rfl, rfl⟩
  | .hunt =>
    rw [Receiver.good_ended_hunt state]
    unfold Receiver.counted
    split
    · exact ⟨up, rfl, rfl⟩
    · exact ⟨nofun, rfl, rfl⟩

/-- The receiver of trunk `n`, if it is looped, is up and outside a burst, and its silence count is 0. -/
def State.Rested (s : State) (n : Fin 4) : Prop :=
  s.Looped n → s.inputs[n].receiver.state ≠ .down ∧ s.inputs[n].receiver.silence = 0 ∧ s.inputs[n].receiver.assembly = none

theorem State.Rested.of_input {s t : State} {n : Fin 4} (rested : s.Rested n) (same : t.inputs[n] = s.inputs[n]) : t.Rested n := by
  unfold State.Rested State.Looped
  rw [same]
  exact rested

theorem State.Rested.ready {s : State} {n : Fin 4} (rested : s.Rested n) : s.Ready n := fun looped =>
  ⟨(rested looped).1, (rested looped).2.2⟩

theorem State.Rested.hears_idle {s : State} {n : Fin 4} (rested : s.Rested n) : s.hears n .idle = s := by
  unfold State.hears
  split
  · rename_i looped
    obtain ⟨up, silence, outside⟩ := rested looped
    have woken : s.inputs[n].receiver.wake = s.inputs[n].receiver := (Receiver.wake_up up).trans (by rw [← silence])
    have still : { s.inputs[n].receiver with assembly := if LineSymbol.idle = .openBurst then some [] else none } =
        s.inputs[n].receiver := by
      rw [if_neg nofun, ← outside]
    rw [State.receive_outside (by rw [woken]; exact outside), woken, still]
    exact (State.updReceiver_to rfl).symm.trans (s.updReceiver_self n)
  · rfl

section Lands

variable {s : State} {n : Fin 4} {b : Burst} (waits : s.Waits b)
include waits

theorem State.lands_waits : (s.lands n b).Waits b := by
  unfold State.lands
  split
  · exact State.landed_waits waits
  · exact waits

theorem State.lands_other {m : Fin 4} (apart : n ≠ m) : (s.lands n b).inputs[m] = s.inputs[m] := by
  unfold State.lands
  split
  · have other := updAt_other s.inputs n m InputTrunk.landed apart
    simp only [State.landed_inputs waits]
    exact other
  · rfl

/-- The receiver of trunk `n` takes the burst whatever another one has collected. -/
theorem State.lands_collecting {m : Fin 4} (apart : m ≠ n) (a : Option (List Byte)) :
    (s.collecting m a).lands n b = (s.lands n b).collecting m a := by
  have own := s.collecting_other apart a
  have looped : (s.collecting m a).Looped n ↔ s.Looped n := by
    unfold State.Looped
    rw [own]
  unfold State.lands
  rw [if_congr looped rfl rfl]
  by_cases mine : s.Looped n
  · rw [if_pos mine, if_pos mine]
    have inputs := State.landed_inputs (n := n) waits
    refine (State.landed_withInputs waits (congrArg InputTrunk.receiver own) (congrArg InputTrunk.forward own)).trans ?_
    unfold State.collecting
    rw [inputs]
    exact congrArg (s.landed n b).withInputs (updAt_comm s.inputs apart (InputTrunk.collecting a) InputTrunk.landed)
  · rw [if_neg mine, if_neg mine]

/-- After the burst a looped receiver rests. -/
theorem State.lands_rested (ready : s.Ready n) : (s.lands n b).Rested n := fun looped => by
  by_cases mine : s.Looped n
  · obtain ⟨up, silence, outside⟩ := Receiver.good_ready (ready mine).1
    have own : (s.lands n b).inputs[n].receiver = s.inputs[n].receiver.ended.good := by
      have input := updAt_same s.inputs n InputTrunk.landed
      unfold State.lands
      simp only [if_pos mine, State.landed_inputs waits]
      exact congrArg InputTrunk.receiver input
    rw [own]
    exact ⟨up, silence, outside⟩
  · unfold State.lands at looped
    rw [if_neg mine] at looped
    exact absurd looped mine

end Lands

/-! ### The octets of a good burst (R151) -/

/-- A receiver has room for the octets of a good burst (R150). -/
theorem burstOctets_length_le {b : Burst} (good : burstGood b = true) : (burstOctets b).length ≤ 4672 := by
  have tail : (octets16 (checkWord (burstContent b))).length = 2 := rfl
  have start (kind : Byte) (length : Nat) : (headerStart kind length).length = 3 := by
    rw [headerStart, List.length_cons, octetsOf_length]
  rw [burstOctets, List.length_append, tail]
  cases b with
  | sample b =>
    simp only [burstGood, sampleGood, Bool.and_eq_true, decide_eq_true_eq, List.all_eq_true, beq_iff_eq] at good
    obtain ⟨⟨_, width⟩, size⟩ := good
    have body := sampleBody_length width
    cases captured : b.capture with
    | none =>
      simp only [burstContent, captured, List.length_append, start, List.length_cons, List.length_nil, body]
      omega
    | some t =>
      have word : (wordOctets t).length = 4 := rfl
      simp only [burstContent, captured, List.length_append, start, List.length_cons, List.length_nil, body, word]
      omega
  | control c =>
    simp only [burstGood, controlGood, Bool.and_eq_true, decide_eq_true_eq, beq_iff_eq] at good
    simp only [burstContent, List.length_append, start, List.length_cons, List.length_nil]
    omega
  | report r =>
    simp only [burstGood, reportGood, Bool.and_eq_true, decide_eq_true_eq, beq_iff_eq] at good
    simp only [burstContent, List.length_append, start, List.length_cons, List.length_nil]
    omega

/-! ### Both receivers (R157) -/

/-- Both receivers of output trunk `k`, as far as they are looped, have collected the same octets. -/
def State.bothCollecting (s : State) (k : Fin 2) (a : Option (List Byte)) : State :=
  (s.collecting (firstLoop k) a).collecting (secondLoop k) a

/-- Both receivers of output trunk `k`, as far as they are looped, are up and outside a burst. -/
def State.BothReady (s : State) (k : Fin 2) : Prop := s.Ready (firstLoop k) ∧ s.Ready (secondLoop k)

section Both

variable {s : State} {k : Fin 2} (ready : s.BothReady k)
include ready

theorem loopSymbol_leads {x : LineSymbol} {a c : Option (List Byte)} (leads : Leads x a c) :
    State.loopSymbol k (s.bothCollecting k a) x = s.bothCollecting k c := by
  obtain ⟨first, second⟩ := ready
  have apart := firstLoop_ne k
  have atFirst := leads _ _ (first.of_input (s.collecting_other apart.symm a))
  have atSecond := leads _ _ (second.of_input (s.collecting_other apart c))
  unfold State.bothCollecting
  rw [State.loopSymbol_eq, s.collecting_comm apart, atFirst, ← s.collecting_comm apart, atSecond]

theorem loopSymbol_idle : State.loopSymbol k s .idle = s.bothCollecting k none := by
  obtain ⟨first, second⟩ := ready
  rw [State.loopSymbol_eq, State.hears_idle first]
  exact State.hears_idle (second.of_input (s.collecting_other (firstLoop_ne k) none))

theorem loopOctets (ds octets : List Byte) (room : octets.length + ds.length ≤ 4672) :
    (ds.map LineSymbol.data).foldl (State.loopSymbol k) (s.bothCollecting k (some octets)) =
      s.bothCollecting k (some (ds.reverse ++ octets)) := by
  induction ds generalizing octets with
  | nil => rfl
  | cons d ds ih =>
    rw [List.length_cons] at room
    rw [List.map_cons, List.foldl_cons, loopSymbol_leads ready (leads_data (by omega) d), ih (d :: octets) (by rw [List.length_cons]; omega),
      List.reverse_cons, List.append_assoc, List.singleton_append]

variable {b : Burst} (waits : s.Waits b)
include waits

theorem loopSymbol_close {octets : List Byte} (judged : judgeBurst octets.reverse = some b) :
    State.loopSymbol k (s.bothCollecting k (some octets)) .closeBurst = (s.lands (firstLoop k) b).lands (secondLoop k) b := by
  obtain ⟨first, second⟩ := ready
  have apart := firstLoop_ne k
  have atFirst := State.collecting_close (first.of_input (s.collecting_other apart.symm (some octets))) judged
  have atSecond := State.collecting_close (second.of_input (State.lands_other waits apart)) judged
  unfold State.bothCollecting
  rw [State.loopSymbol_eq, s.collecting_comm apart, atFirst, State.lands_collecting waits apart.symm, atSecond]

theorem loopSymbol_after :
    State.loopSymbol k ((s.lands (firstLoop k) b).lands (secondLoop k) b) .idle = (s.lands (firstLoop k) b).lands (secondLoop k) b := by
  obtain ⟨first, second⟩ := ready
  have apart := firstLoop_ne k
  have later := State.lands_waits (n := firstLoop k) waits
  have atFirst := (State.lands_rested waits first).of_input (State.lands_other later apart.symm)
  have atSecond := State.lands_rested later (second.of_input (State.lands_other waits apart))
  rw [State.loopSymbol_eq, atFirst.hears_idle, atSecond.hears_idle]

/-- The symbols of a good burst: both looped receivers take it, one after the other. -/
theorem State.sendLooped_burst (good : burstGood b = true) :
    s.sendLooped k (burstSymbols b) = (s.lands (firstLoop k) b).lands (secondLoop k) b := by
  have judged := judgeBurst_burstOctets b good
  have small := burstOctets_length_le good
  unfold State.sendLooped burstSymbols
  rw [List.foldl_append, List.foldl_append]
  simp only [List.foldl_cons, List.foldl_nil]
  rw [loopSymbol_idle ready, loopSymbol_leads ready leads_open, loopOctets ready _ [] (by rw [List.length_nil]; omega), List.append_nil,
    loopSymbol_close ready waits (by rw [List.reverse_reverse]; exact judged), loopSymbol_after ready waits]

end Both

/-! ### As each would take it from its line (R157) -/

theorem exec_arrivalRow (s : State) (n : Fin 4) (b : Burst) : exec (arrivalRow n b) s = .next (s.burstArrives n b) := by
  cases b with
  | sample b => rfl
  | control c => rfl
  | report r => rfl

/-- A burst that ends at a receiver changes no loopback. -/
theorem landed_unlooped (v : Vector InputTrunk 4) (n : Fin 4) :
    mapAll (fun m x => { x with loopback := v[m].loopback }) (updAt (mapAll (fun _ x => { x with loopback := false }) v) n InputTrunk.landed) =
      updAt v n InputTrunk.landed := by
  refine Vector.ext fun i inside => ?_
  simp only [mapAll_getElem, updAt_getElem]
  split <;> rfl

theorem State.lands_takes {s : State} {n : Fin 4} {b : Burst} (ready : s.Ready n) (waits : s.Waits b) (good : burstGood b = true) :
    if s.Looped n then ∃ w, exec (arrivalRow n b) s.unlooped = .next w ∧ s.lands n b = w.loopedAs s else s.lands n b = s := by
  unfold State.lands
  by_cases looped : s.Looped n
  · rw [if_pos looped, if_pos looped]
    have own : s.unlooped.inputs[n] = { s.inputs[n] with loopback := false } := mapAll_getElem ..
    have finds : s.unlooped.findsBursts n = true := by
      rw [State.findsBursts_iff, State.listens_iff, own]
      exact ⟨⟨looped.1, rfl⟩, (ready looped).1⟩
    refine ⟨s.unlooped.landed n b, ?_, ?_⟩
    · rw [exec_arrivalRow, exec_burst_good finds good]
      rfl
    · have taken : s.unlooped.landed n b = (s.landed n b).withInputs (updAt s.unlooped.inputs n InputTrunk.landed) :=
        State.landed_withInputs waits (congrArg InputTrunk.receiver own :) (congrArg InputTrunk.forward own :)
      have inputs := State.landed_inputs (n := n) waits
      rw [taken]
      refine ((s.landed n b).withInputs_self.symm.trans ?_).trans
        (congrArg (s.landed n b).withInputs (landed_unlooped s.inputs n)).symm
      rw [inputs]
  · rw [if_neg looped, if_neg looped]

/-- The receivers looped to output trunk `k` take a good burst that it sends as they would take it from their lines. -/
theorem State.sendLooped_takes {s : State} {k : Fin 2} {b : Burst} (ready : s.BothReady k) (waits : s.Waits b)
    (good : burstGood b = true) : s.LoopTakes k b (s.sendLooped k (burstSymbols b)) := by
  rw [State.sendLooped_burst ready waits good]
  obtain ⟨first, second⟩ := ready
  exact ⟨s.lands (firstLoop k) b, State.lands_takes first waits good,
    State.lands_takes (second.of_input (State.lands_other waits (firstLoop_ne k))) (State.lands_waits waits) good⟩

end Sys2Proof.Machine
end

