-- ==== Sys2Proof/Proofs/OpenedWindow.lean ====
section
/-! SUPPORT. A management window whose looped receivers take what it sends, where no command waits (R157, R163, R164). -/

namespace Sys2Proof.Machine

/-! ### The arbiter does not read the input trunks -/

section WithInputs

variable (s : State) (v : Vector InputTrunk 4)

theorem State.transferSteps_withInputs (fuel : Nat) :
    State.transferSteps fuel (s.withInputs v) = (State.transferSteps fuel s).withInputs v := by
  induction fuel generalizing s with
  | zero => rfl
  | succ n ih =>
    have step : (s.withInputs v).transferStep = s.transferStep.withInputs v := rfl
    unfold State.transferSteps
    rw [step, ih]
    exact (apply_ite (State.withInputs · v) (s.canStep = true) _ _).symm

theorem State.restartActs_withInputs : (s.withInputs v).restartActs = s.restartActs.withInputs v := by
  rw [State.restartActs_eq, State.restartActs_eq]
  rfl

/-- Where no command waits, a departure calls for transfer steps alone. -/
theorem State.afterDeparture_empty {s : State} (empty : s.processor.commands = []) (first : Bool) :
    s.afterDeparture first = State.transferSteps 33 s := by
  have still : (State.transferSteps 33 s).processor.commands = [] := by
    obtain ⟨-, commands, -, -, -⟩ := Told.transferSteps 33 s
    exact commands.trans empty
  unfold State.afterDeparture
  cases first
  · rw [if_neg Bool.false_ne_true, State.drain_empty empty]
  · rw [if_pos rfl, State.drain_empty still]

/-- A report sent, before a restart may act and the tests that its departure calls for. -/
def State.sent (s : State) (k : Fin 2) (r : Report) (rest : List Report) : State :=
  { s with processor := { s.processor with reports := rest } }.updOutput k fun o =>
    { o with management := some (.report (s.formReport r)), lastServed := .report }

theorem State.depart_empty {s : State} (empty : s.processor.commands = []) (k : Fin 2) (first : Bool) (r : Report) (rest : List Report) :
    s.depart k first r rest =
      if s.restartActsAt r then (s.sent k r rest).restartActs else State.transferSteps 33 (s.sent k r rest) := by
  have departs : s.depart k first r rest =
      (if s.restartActsAt r then (s.sent k r rest).restartActs else s.sent k r rest).afterDeparture first := rfl
  rw [departs]
  split
  · exact State.restartActs_settles _ first
  · exact State.afterDeparture_empty (s := s.sent k r rest) empty first

theorem State.depart_withInputs {s : State} (empty : s.processor.commands = []) (k : Fin 2) (first : Bool) (r : Report) (rest : List Report) :
    (s.withInputs v).depart k first r rest = (s.depart k first r rest).withInputs v := by
  have sent : (s.withInputs v).sent k r rest = (s.sent k r rest).withInputs v := rfl
  have acts : (s.withInputs v).restartActsAt r = s.restartActsAt r := rfl
  rw [State.depart_empty empty, State.depart_empty (s := s.withInputs v) empty, sent, acts]
  split
  · exact State.restartActs_withInputs _ v
  · exact State.transferSteps_withInputs _ v 33

theorem State.serve_withInputs {s : State} (empty : s.processor.commands = []) (k : Fin 2) (first : Bool) :
    (s.withInputs v).serve k first = (s.serve k first).withInputs v := by
  have choice : (s.withInputs v).choice k = s.choice k := rfl
  have reports : (s.withInputs v).processor.reports = s.processor.reports := rfl
  unfold State.serve
  rw [choice, reports]
  split
  · rfl
  · exact State.depart_withInputs v empty k first _ _
  · rfl

theorem State.serve_inputs {s : State} (empty : s.processor.commands = []) (k : Fin 2) (first : Bool) :
    (s.serve k first).inputs = s.inputs := by
  have same := State.serve_withInputs s.inputs empty k first
  exact (congrArg State.inputs same :)

end WithInputs

/-! ### The SAMPLE burst of the window (R163) -/

theorem State.waits_sample (s : State) (x : SampleBurst) : s.Waits (.sample x) := nofun

/-- A SAMPLE burst at a receiver touches the feeds and the receivers alone, and a window that opens meanwhile is the same after it. -/
theorem State.lands_sample (s : State) (n : Fin 4) (x : SampleBurst) (k : Fin 2) :
    (s.opened k).lands n (.sample x) = (s.lands n (.sample x)).opened k ∧ (s.lands n (.sample x)).processor = s.processor ∧
      (s.lands n (.sample x)).outputs = s.outputs := by
  have landing : (s.opened k).landing n (.sample x) = (s.landing n (.sample x)).opened k ∧ (s.landing n (.sample x)).processor = s.processor ∧
      (s.landing n (.sample x)).outputs = s.outputs := by
    have same : (s.opened k).framed n = s.framed n := rfl
    unfold State.landing State.handOn State.deliverSample
    rw [same]
    dsimp only
    by_cases framed : s.framed n = true
    · rw [if_pos framed, if_pos framed]
      cases below 8 x.stream.toNat <;> exact ⟨rfl, rfl, rfl⟩
    · rw [if_neg framed, if_neg framed]
      exact ⟨rfl, rfl, rfl⟩
  obtain ⟨opens, processor, outputs⟩ := landing
  have looped : (s.opened k).Looped n ↔ s.Looped n := Iff.rfl
  unfold State.lands
  rw [if_congr looped rfl rfl]
  by_cases mine : s.Looped n
  · rw [if_pos mine, if_pos mine, State.landed_eq (s.waits_sample x), State.landed_eq ((s.opened k).waits_sample x), opens]
    exact ⟨rfl, processor, outputs⟩
  · rw [if_neg mine, if_neg mine]
    exact ⟨rfl, rfl, rfl⟩

/-- The receivers of output trunk `k` after both, as far as they are looped, have taken a burst. -/
theorem State.sendLooped_ready {s : State} {k : Fin 2} {b : Burst} (ready : s.BothReady k) (waits : s.Waits b)
    (good : burstGood b = true) : (s.sendLooped k (burstSymbols b)).BothReady k := by
  rw [State.sendLooped_burst ready waits good]
  obtain ⟨first, second⟩ := ready
  have apart := firstLoop_ne k
  have later := State.lands_waits (n := firstLoop k) waits
  have atFirst := (State.lands_rested waits first).of_input (State.lands_other later apart.symm)
  have atSecond := State.lands_rested later (second.of_input (State.lands_other waits apart))
  exact ⟨atFirst.ready, atSecond.ready⟩

theorem State.sendLooped_sample {s : State} {k : Fin 2} {x : SampleBurst} (ready : s.BothReady k) (good : sampleGood x = true) :
    let t := s.sendLooped k (burstSymbols (.sample x))
    (s.opened k).sendLooped k (burstSymbols (.sample x)) = t.opened k ∧ t.processor = s.processor ∧ t.outputs = s.outputs := by
  intro t
  have same : t = (s.lands (firstLoop k) (.sample x)).lands (secondLoop k) (.sample x) :=
    State.sendLooped_burst ready (s.waits_sample x) good
  have opens := State.sendLooped_burst (s := s.opened k) (b := .sample x) ready ((s.opened k).waits_sample x) good
  obtain ⟨first, processor, outputs⟩ := s.lands_sample (firstLoop k) x k
  obtain ⟨second, processor', outputs'⟩ := (s.lands (firstLoop k) (.sample x)).lands_sample (secondLoop k) x k
  rw [same, opens, first, second]
  exact ⟨rfl, processor'.trans processor, outputs'.trans outputs⟩

theorem State.sendSample_none {s : State} {k : Fin 2} (nothing : s.outputs[k].sample = none) : s.sendSample k = s := by
  unfold State.sendSample
  rw [nothing]

theorem State.sendSample_some {s : State} {k : Fin 2} {x : SampleBurst} (sample : s.outputs[k].sample = some x) :
    s.sendSample k = s.sendLooped k (burstSymbols (.sample x)) := by
  unfold State.sendSample
  rw [sample]

/-- The part once output trunk `k` has sent the SAMPLE burst of its window, if it has one. -/
theorem State.openWindow_takes {s : State} {k : Fin 2} (ready : s.BothReady k) (good : ∀ x, s.outputs[k].sample = some x → sampleGood x = true) :
    let t := s.sendSample k
    (∀ x, s.outputs[k].sample = some x → s.LoopTakes k (.sample x) t) ∧ (s.outputs[k].sample = none → t = s) ∧
      s.openWindow k = t.opened k ∧ t.processor = s.processor ∧ t.outputs = s.outputs ∧ t.BothReady k := by
  intro t
  have window : (s.opened k).outputs[k].sample = s.outputs[k].sample := (congrArg OutputTrunk.sample (s.opened_outputs k) :)
  have opens : s.openWindow k = (s.opened k).sendSample k := rfl
  rw [opens]
  cases sample : s.outputs[k].sample with
  | none =>
    have same : t = s := State.sendSample_none sample
    rw [State.sendSample_none (window.trans sample), same]
    exact ⟨nofun, fun _ => rfl, rfl, rfl, rfl, ready⟩
  | some x =>
    have sends : t = s.sendLooped k (burstSymbols (.sample x)) := State.sendSample_some sample
    rw [State.sendSample_some (window.trans sample), sends]
    obtain ⟨same, processor, outputs⟩ := State.sendLooped_sample ready (good x sample)
    refine ⟨fun y own => ?_, nofun, same, processor, outputs, State.sendLooped_ready ready (s.waits_sample x) (good x sample)⟩
    cases own
    exact State.sendLooped_takes ready (s.waits_sample x) (good x sample)

/-! ### What the arbiter serves (R157, R164) -/

/-- The loopbacks of every input trunk off. -/
def unloopedInputs (v : Vector InputTrunk 4) : Vector InputTrunk 4 := mapAll (fun _ x => { x with loopback := false }) v

theorem State.unlooped_eq (s : State) : s.unlooped = s.withInputs (unloopedInputs s.inputs) := rfl

theorem State.withInputs_loopedAs (s t : State) : (s.withInputs (unloopedInputs t.inputs)).loopedAs t = s.withInputs t.inputs := by
  have same : mapAll (fun n x => { x with loopback := t.inputs[n].loopback }) (unloopedInputs t.inputs) = t.inputs := by
    refine Vector.ext fun i inside => ?_
    unfold unloopedInputs
    simp only [mapAll_getElem]
    rfl
  exact congrArg s.withInputs same

theorem unloopedInputs_free {s : State} {v : Vector InputTrunk 4} (same : s.inputs = unloopedInputs v) : s.NoLoop := fun n => by
  have own : (unloopedInputs v)[n] = { v[n] with loopback := false } := mapAll_getElem ..
  simp only [same]
  exact congrArg InputTrunk.loopback own

/-- Where no command waits, the part with every loopback off serves what the part serves. -/
theorem exec_managementWindow_unlooped {t : State} {k : Fin 2} (due : t.outputs[k].windowDue = true) (empty : t.processor.commands = [])
    (first : Bool) :
    exec (.managementWindow k first) t.unlooped = .next (((t.opened k).serve k first).withInputs (unloopedInputs t.inputs)) := by
  have free : t.unlooped.NoLoop := unloopedInputs_free rfl
  have served : (t.unlooped.opened k).serve k first = ((t.opened k).serve k first).withInputs (unloopedInputs t.inputs) :=
    State.serve_withInputs (s := t.opened k) (unloopedInputs t.inputs) empty k first
  refine congrArg Host.Outcome.next ((if_pos due).trans ?_)
  unfold State.window
  rw [free.openWindow k, served]
  exact State.NoLoop.sendManagement (unloopedInputs_free rfl) k

/-- A window where no command waits: the looped receivers take the SAMPLE burst and then what the arbiter serves. -/
theorem exec_managementWindow_looped {s : State} {k : Fin 2} (due : s.outputs[k].windowDue = true) (empty : s.processor.commands = [])
    (good : ∀ x, s.outputs[k].sample = some x → sampleGood x = true) (ready : s.BothReady k) (first : Bool) :
    let t := s.sendSample k
    let u := ((t.opened k).serve k first).withInputs (unloopedInputs t.inputs)
    exec (.managementWindow k first) t.unlooped = .next u ∧
      (u.outputs[k].management = none → exec (.managementWindow k first) s = .next (u.loopedAs t)) ∧
      ∀ b, u.outputs[k].management = some b → burstGood b = true → u.Waits b →
        ∃ v, (u.loopedAs t).LoopTakes k b v ∧ exec (.managementWindow k first) s = .next v := by
  obtain ⟨-, -, opens, processor, outputs, later⟩ := State.openWindow_takes ready good
  intro t u
  have still : t.processor.commands = [] := (congrArg Processor.commands processor).trans empty
  have stillDue : t.outputs[k].windowDue = true := by
    have same : t.outputs = s.outputs := outputs
    simp only [same, due]
  have inputs : ((t.opened k).serve k first).inputs = t.inputs := State.serve_inputs (s := t.opened k) still k first
  have restored : u.loopedAs t = (t.opened k).serve k first := by
    refine (State.withInputs_loopedAs _ t).trans ?_
    rw [← inputs]
    rfl
  have window : exec (.managementWindow k first) s = .next (((t.opened k).serve k first).sendManagement k) := by
    refine congrArg Host.Outcome.next ((if_pos due).trans ?_)
    unfold State.window
    rw [opens]
  refine ⟨exec_managementWindow_unlooped stillDue still first, fun nothing => ?_, fun b served whole waits => ?_⟩
  · rw [window, restored]
    unfold State.sendManagement
    rw [show ((t.opened k).serve k first).outputs[k].management = none from nothing]
  · refine ⟨_, ?_, window⟩
    rw [restored]
    unfold State.sendManagement
    rw [show ((t.opened k).serve k first).outputs[k].management = some b from served]
    refine State.sendLooped_takes ⟨?_, ?_⟩ waits whole
    · exact later.1.of_input (by simp only [inputs]; rfl)
    · exact later.2.of_input (by simp only [inputs]; rfl)

end Sys2Proof.Machine
end

