-- ==== Sys2Proof/Proofs/CommandsAside.lean ====
section
/-! SUPPORT. What commands do to the input trunks and to the transfer: SET alone writes the one, the LOG commands alone the other
(R145, R148, R152). -/

namespace Sys2Proof.Machine

/-- The input trunks and the transfer: what most commands leave aside. -/
def State.aside (s : State) : Vector InputTrunk 4 × Transfer := (s.inputs, s.log.transfer)

theorem foldl_aside {α : Type} {g : State → α → State} (h : ∀ s a, (g s a).aside = s.aside) (as : List α) (s : State) :
    (as.foldl g s).aside = s.aside := by
  induction as generalizing s with
  | nil => rfl
  | cons a as ih => exact (ih _).trans (h s a)

/-! ### The group forms (R177) -/

theorem State.writeProgramme_aside (s : State) (o : Byte) (cls : RightClass) (field v : Nat) (p : Fin 16) :
    (s.writeProgramme o cls field v p).state.aside = s.aside := by
  unfold State.writeProgramme
  repeat' split
  all_goals rfl

section Group

variable {one : State → Fin 16 → State × CommandResult} (alone : ∀ s p, (one s p).1.aside = s.aside)

include alone

theorem judgeEach_aside (ps : List (Fin 16)) (s : State) (g : GroupTally) : (judgeEach one ps s g).1.aside = s.aside := by
  induction ps generalizing s g with
  | nil => rfl
  | cons p ps ih => exact (ih _ _).trans (alone s p)

omit alone in
theorem groupReply_aside (s : State) (g : GroupTally) (whole : Option CommandResult) : (groupReply s g whole).state.aside = s.aside := by
  obtain ⟨n, same⟩ := groupReply_state s g whole
  rw [same]
  rfl

theorem judgeGroup_aside (selection : BitVec 16) (s : State) : (judgeGroup selection one s).state.aside = s.aside :=
  (groupReply_aside ..).trans (judgeEach_aside alone ..)

theorem judgeChoice_aside (o : Byte) (cls : RightClass) (choice : ProgrammeChoice) (s : State) :
    (judgeChoice o cls choice one s).state.aside = s.aside := by
  unfold judgeChoice refuse
  split
  · repeat' split
    · rfl
    · rfl
    · exact alone s _
  · exact judgeGroup_aside alone _ s

end Group

theorem cancelTake_aside (o : Byte) (s : State) (p : Fin 16) : (cancelTake o s p).1.aside = s.aside := by
  unfold cancelTake
  repeat' split
  all_goals rfl

theorem restartMeter_aside (o : Byte) (s : State) (p : Fin 16) : (restartMeter o s p).1.aside = s.aside := by
  unfold restartMeter
  split <;> rfl

theorem judgeGroupSet_aside (o : Byte) (selection : BitVec 16) (field : Byte) (value : Word32) (s : State) :
    (judgeGroupSet o selection field value s).state.aside = s.aside := by
  unfold judgeGroupSet
  repeat' split
  · exact groupReply_aside ..
  · exact groupReply_aside ..
  · exact judgeGroup_aside (fun t p => t.writeProgramme_aside ..) _ s

theorem State.acknowledgeAll_aside (s : State) (rs : List (Fin 400)) : (s.acknowledgeAll rs).aside = s.aside :=
  foldl_aside (g := fun t r => t.updRecord r AlarmRecord.acknowledge) (fun _ _ => rfl) rs s

theorem judgeAcknowledge_aside (o : Byte) (choice : AcknowledgeChoice) (s : State) :
    (judgeAcknowledge o choice s).state.aside = s.aside := by
  unfold judgeAcknowledge
  split
  · unfold acknowledgeOne refuse
    repeat' split
    · rfl
    · rfl
    · exact s.acknowledgeAll_aside _
    · rfl
  · unfold acknowledgeGroup
    split
    · exact judgeGroup_aside (one := fun t _ => (t, .noRight)) (fun _ _ => rfl) _ s
    · split
      · exact groupReply_aside ..
      · exact (State.acknowledgeAll_aside ..).trans (judgeGroup_aside (one := fun t _ => (t, .done)) (fun _ _ => rfl) _ s)

/-! ### SET (R152, R156, R176) -/

/-- Every looped receiver is out of FRAMED and has counted no good burst: what a SET of a loopback leaves (R156). -/
def State.LoopsFresh (s : State) : Prop :=
  ∀ n : Fin 4, s.Looped n → s.inputs[n].receiver.state ≠ .framed ∧ s.inputs[n].receiver.goodRun = 0

theorem State.NoLoop.fresh {s : State} (free : s.NoLoop) : s.LoopsFresh := fun n looped =>
  absurd (looped.2.symm.trans (free n)) nofun

theorem State.LoopsFresh.of_inputs {s t : State} (fresh : s.LoopsFresh) (same : t.inputs = s.inputs) : t.LoopsFresh := by
  unfold State.LoopsFresh State.Looped
  simp only [same]
  exact fresh

theorem InputTrunk.writeField_fresh (x : InputTrunk) (line : x.loopback = false) (field v : Nat) :
    let y := x.writeField field v
    y.enabled = true ∧ y.loopback = true → y.receiver.state ≠ .framed ∧ y.receiver.goodRun = 0 := by
  intro y looped
  have stays (z : InputTrunk) (same : y = z) (off : z.loopback = false) : y.receiver.state ≠ .framed ∧ y.receiver.goodRun = 0 := by
    rw [same] at looped
    exact absurd (looped.2.symm.trans off) nofun
  have writes : y = x.writeField field v := rfl
  unfold InputTrunk.writeField at writes
  split at writes
  · refine stays _ writes ?_
    unfold InputTrunk.writeEnabled
    split <;> exact line
  · exact stays _ writes line
  · unfold InputTrunk.writeLoopback at writes
    split at writes
    · exact stays _ writes line
    · rw [writes] at looped ⊢
      rw [if_pos looped.1]
      exact ⟨nofun, rfl⟩

theorem State.afterReceiver_log (s before : State) (n : Fin 4) : (s.afterReceiver before n).log = s.log := by
  unfold State.afterReceiver
  split
  · exact s.trunkUnframed_log n
  · rfl

theorem setTrunk_fresh {s : State} (free : s.NoLoop) (o object field : Byte) (value : Word32) :
    (setTrunk o object field value s).state.LoopsFresh := by
  unfold setTrunk refuse
  repeat' split
  · exact free.fresh
  · exact free.fresh
  · exact free.fresh
  · exact free.fresh
  · rename_i n _ _ fv _
    refine State.LoopsFresh.of_inputs (s := s.updInput n fun x => x.writeField field.toNat fv.stored) (fun m => ?_)
      (State.afterReceiver_inputs _ s n)
    have same := updAt_same s.inputs n fun x => x.writeField field.toNat fv.stored
    have apart := updAt_other s.inputs n m fun x => x.writeField field.toNat fv.stored
    unfold State.Looped
    simp only [State.updInput_inputs]
    by_cases own : n = m
    · subst own
      rw [same]
      exact s.inputs[n].writeField_fresh (free n) field.toNat fv.stored
    · rw [apart own]
      exact free.fresh m

/-- SET keeps the transfer, and after it every looped receiver is fresh if none was looped. -/
theorem judgeSet_aside (o target object field : Byte) (value : Word32) (s : State) :
    (judgeSet o target object field value s).state.log = s.log ∧
      (s.NoLoop → (judgeSet o target object field value s).state.LoopsFresh) := by
  have keeps {t : State} (log : t.log = s.log) (inputs : t.inputs = s.inputs) : t.log = s.log ∧ (s.NoLoop → t.LoopsFresh) :=
    ⟨log, fun free => free.fresh.of_inputs inputs⟩
  unfold judgeSet
  split
  · unfold setFeed refuse
    repeat' split
    all_goals exact keeps rfl rfl
  · unfold setProgramme refuse
    repeat' split
    · exact keeps rfl rfl
    · exact keeps rfl rfl
    · exact keeps rfl rfl
    · dsimp only
      split
      · unfold State.writeProgramme
        repeat' split
        all_goals exact keeps rfl rfl
      · exact keeps rfl rfl
  · unfold setMap refuse
    repeat' split
    all_goals exact keeps rfl rfl
  · refine ⟨?_, fun free => setTrunk_fresh free o object field value⟩
    unfold setTrunk refuse
    repeat' split
    · rfl
    · rfl
    · rfl
    · rfl
    · exact State.afterReceiver_log ..
  · unfold setPolicy refuse
    repeat' split
    · exact keeps rfl rfl
    · exact keeps rfl rfl
    · exact keeps rfl rfl
    · exact keeps rfl rfl
    · exact keeps ((State.formLines_log _).trans (State.forceKind_log ..)) ((State.formLines_inputs _).trans (State.forceKind_inputs ..))
    · exact keeps (State.formLines_log _) (State.formLines_inputs _)
  · unfold setOriginator refuse
    repeat' split
    all_goals exact keeps rfl rfl
  · unfold setPart refuse accept
    repeat' split
    all_goals exact keeps rfl rfl
  · exact keeps rfl rfl

/-! ### Every command -/

/-- A judgement that opens no transfer but with its steps, and leaves every looped receiver fresh. -/
structure Judged.Aside (s : State) (j : Judged) : Prop where
  transfer : j.state.log.transfer.state = .active → s.log.transfer.state = .active ∨ j.after = [.transferSteps]
  inputs   : s.NoLoop → j.state.LoopsFresh

theorem Judged.Aside.of_aside {s : State} {j : Judged} (same : j.state.aside = s.aside) : j.Aside s where
  transfer active := .inl (by rw [← active]; exact congrArg (·.2.state) same.symm)
  inputs free := free.fresh.of_inputs (congrArg Prod.fst same)

theorem judge_aside (o : Byte) (c : Command) (s : State) : (judge o c s).Aside s := by
  cases c with
  | set t ob f v =>
    obtain ⟨log, fresh⟩ := judgeSet_aside o t ob f v s
    exact ⟨fun active => .inl (by rw [← active]; exact congrArg (·.transfer.state) log.symm), fresh⟩
  | groupSet m f v => exact .of_aside (judgeGroupSet_aside ..)
  | takeCancel c => exact .of_aside (judgeChoice_aside (cancelTake_aside o) ..)
  | restartMeasurement c => exact .of_aside (judgeChoice_aside (restartMeter_aside o) ..)
  | acknowledge c => exact .of_aside (judgeAcknowledge_aside ..)
  | timeSet v =>
    change (judgeTimeSet o v s).Aside s
    unfold judgeTimeSet refuse accept
    split <;> exact .of_aside rfl
  | timeAdjust v =>
    change (judgeTimeAdjust o v s).Aside s
    unfold judgeTimeAdjust refuse
    split <;> exact .of_aside rfl
  | logStatus => exact .of_aside rfl
  | status => exact .of_aside rfl
  | read g ob a n =>
    change (judgeRead g.toNat ob.toNat a.toNat n.toNat s).Aside s
    unfold judgeRead refuse accept
    cases readsImmediate s g.toNat ob.toNat
    all_goals
      dsimp only [Bool.false_eq_true, if_true, if_false]
      split <;> exact .of_aside rfl
  | load t a cs =>
    change (judgeLoad o t a cs s).Aside s
    unfold judgeLoad refuse accept
    repeat' split
    · exact .of_aside rfl
    · exact .of_aside rfl
    · dsimp only
      split <;> exact .of_aside rfl
  | allocate p f =>
    change (judgeAllocate o p f s).Aside s
    unfold judgeAllocate refuse
    repeat' split
    · exact .of_aside rfl
    · exact .of_aside rfl
    · exact .of_aside rfl
    · dsimp only
      split <;> exact .of_aside rfl
  | take p i t r l =>
    change (judgeTake o p i t r l s).Aside s
    unfold judgeTake refuse accept
    repeat' split
    all_goals exact .of_aside rfl
  | release p =>
    change (judgeRelease o p s).Aside s
    unfold judgeRelease refuse accept
    repeat' split
    all_goals exact .of_aside rfl
  | retire n =>
    change (judgeRetire o n s).Aside s
    unfold judgeRetire refuse accept
    repeat' split
    all_goals exact .of_aside rfl
  | restore n =>
    change (judgeRestore o n s).Aside s
    unfold judgeRestore refuse accept
    repeat' split
    all_goals exact .of_aside rfl
  | readFault =>
    change (judgeReadFault o s).Aside s
    unfold judgeReadFault refuse accept
    split <;> exact .of_aside rfl
  | releaseHold p c =>
    change (judgeReleaseHold o p c s).Aside s
    unfold judgeReleaseHold refuse accept
    repeat' split
    all_goals exact .of_aside rfl
  | logRead m n f =>
    change (judgeLogRead o m n f s).Aside s
    unfold judgeLogRead refuse
    repeat' split
    · exact .of_aside rfl
    · exact .of_aside rfl
    · exact ⟨fun _ => .inr rfl, fun free => free.fresh⟩
    · exact .of_aside rfl
  | logCancel =>
    change (judgeLogCancel o s).Aside s
    unfold judgeLogCancel refuse
    repeat' split
    · exact .of_aside rfl
    · exact .of_aside rfl
    · exact ⟨nofun, fun free => free.fresh⟩
  | restart =>
    change (judgeRestart o s).Aside s
    unfold judgeRestart refuse accept
    split <;> exact .of_aside rfl

end Sys2Proof.Machine
end

