-- ==== Sys2Proof/Proofs/FreshLoops.lean ====
section
/-! SUPPORT. A burst sent to receivers that have just been looped back: it is counted at most, and touches the receivers alone (R155, R157). -/

namespace Sys2Proof.Machine

/-- A receiver out of FRAMED that has counted no good burst. -/
def Receiver.Fresh (r : Receiver) : Prop := r.state ≠ .framed ∧ r.goodRun = 0

/-! ### A receiver out of FRAMED hands nothing on (R155) -/

theorem Receiver.wake_unframed {r : Receiver} (out : r.state ≠ .framed) :
    r.wake.state ≠ .framed ∧ (r.goodRun = 0 → r.wake.goodRun = 0) := by
  by_cases down : r.state = .down
  · rw [Receiver.wake_down down]
    exact ⟨nofun, fun _ => rfl⟩
  · rw [Receiver.wake_up down]
    exact ⟨out, id⟩

theorem Receiver.bad_unframed {r : Receiver} (out : r.state ≠ .framed) : r.bad.state ≠ .framed ∧ (r.goodRun = 0 → r.bad.goodRun = 0) := by
  match state : r.state with
  | .down =>
    have same : r.bad = r := by
      unfold Receiver.bad
      rw [state]
    rw [same]
    exact ⟨out, id⟩
  | .hunt =>
    rw [Receiver.bad_hunt state]
    exact ⟨out, fun _ => rfl⟩
  | .framed => exact absurd state out

theorem Receiver.good_fresh {r : Receiver} (fresh : r.Fresh) : r.good.state ≠ .framed := by
  obtain ⟨out, zero⟩ := fresh
  match state : r.state with
  | .down =>
    have same : r.good = r := by
      unfold Receiver.good
      rw [state]
    rw [same]
    exact out
  | .hunt =>
    rw [Receiver.good_first state zero]
    exact out
  | .framed => exact absurd state out

section Unframed

variable {s : State} {n : Fin 4}

theorem State.badBurst_unframed (out : s.inputs[n].receiver.state ≠ .framed) : s.badBurst n = s.updReceiver n Receiver.bad :=
  State.afterReceiver_unframed out

theorem State.goodBurst_unframed (out : s.inputs[n].receiver.state ≠ .framed) (b : Burst) : s.goodBurst n b = s.updReceiver n Receiver.good :=
  if_neg fun framed => out (State.framed_iff.mp framed)

/-- A bad burst at a receiver out of FRAMED, with what is then in assembly. -/
theorem State.drops_unframed (out : s.inputs[n].receiver.state ≠ .framed) :
    ∃ r : Receiver, (s.setAssembly n none).badBurst n = (s.updReceiver n fun _ => r) ∧ r.state ≠ .framed ∧
      (s.inputs[n].receiver.goodRun = 0 → r.goodRun = 0) := by
  have own : (s.setAssembly n none).inputs[n].receiver = { s.inputs[n].receiver with assembly := none } := s.receiver_updReceiver n _
  obtain ⟨after, zero⟩ := Receiver.bad_unframed (r := { s.inputs[n].receiver with assembly := none }) out
  refine ⟨_, ?_, after, zero⟩
  rw [State.badBurst_unframed (by rw [own]; exact out)]
  exact (s.updReceiver_updReceiver n _ _).trans (State.updReceiver_to rfl)

/-- A symbol inside a burst at a receiver out of FRAMED changes the receiver alone; only a CLOSE can count a good burst. -/
theorem State.symbolInside_unframed (out : s.inputs[n].receiver.state ≠ .framed) (octets : List Byte) (x : LineSymbol) :
    ∃ r : Receiver, s.symbolInside n octets x = (s.updReceiver n fun _ => r) ∧
      (s.inputs[n].receiver.goodRun = 0 → r.state ≠ .framed ∧ (x ≠ .closeBurst → r.goodRun = 0)) := by
  obtain ⟨bad, drops, after, zero⟩ := State.drops_unframed out
  have dropped : ∃ r : Receiver, (s.setAssembly n none).badBurst n = (s.updReceiver n fun _ => r) ∧
      (s.inputs[n].receiver.goodRun = 0 → r.state ≠ .framed ∧ (x ≠ .closeBurst → r.goodRun = 0)) :=
    ⟨bad, drops, fun h => ⟨after, fun _ => zero h⟩⟩
  unfold State.symbolInside
  split
  · split
    · exact dropped
    · exact ⟨_, State.updReceiver_to rfl, fun h => ⟨out, fun _ => h⟩⟩
  · split
    · have own : (s.setAssembly n none).inputs[n].receiver = { s.inputs[n].receiver with assembly := none } := s.receiver_updReceiver n _
      refine ⟨Receiver.good { s.inputs[n].receiver with assembly := none }, ?_, fun h =>
        ⟨Receiver.good_fresh (r := { s.inputs[n].receiver with assembly := none }) ⟨out, h⟩, fun other => absurd rfl other⟩⟩
      rw [State.goodBurst_unframed (by rw [own]; exact out)]
      exact (s.updReceiver_updReceiver n _ _).trans (State.updReceiver_to rfl)
    · exact dropped
  · exact ⟨_, State.updReceiver_to rfl, fun h => ⟨out, fun _ => h⟩⟩
  · refine ⟨{ bad with assembly := some [] }, ?_, fun h => ⟨after, fun _ => zero h⟩⟩
    rw [drops]
    exact s.updReceiver_updReceiver n _ _
  · exact dropped

/-- So does any symbol. -/
theorem State.receive_unframed (out : s.inputs[n].receiver.state ≠ .framed) (x : LineSymbol) :
    ∃ r : Receiver, s.receive n x = (s.updReceiver n fun _ => r) ∧
      (s.inputs[n].receiver.goodRun = 0 → r.state ≠ .framed ∧ (x ≠ .closeBurst → r.goodRun = 0)) := by
  obtain ⟨woken, zero⟩ := Receiver.wake_unframed out
  have own := s.receiver_updReceiver n Receiver.wake
  unfold State.receive
  dsimp only
  split
  · obtain ⟨r, same, fresh⟩ := State.symbolInside_unframed (s := s.updReceiver n Receiver.wake) (n := n) (by rw [own]; exact woken) _ x
    rw [own] at fresh
    refine ⟨r, same.trans (s.updReceiver_updReceiver n _ _), fun h => fresh (zero h)⟩
  · split
    · exact ⟨{ s.inputs[n].receiver.wake with assembly := some [] },
        (s.updReceiver_updReceiver n _ _).trans (State.updReceiver_to rfl), fun h => ⟨woken, fun _ => zero h⟩⟩
    · exact ⟨s.inputs[n].receiver.wake, State.updReceiver_to rfl, fun h => ⟨woken, fun _ => zero h⟩⟩

end Unframed

/-! ### The symbols of a transmitter (R157) -/

/-- Every looped receiver is out of FRAMED. -/
def State.LoopsUnframed (s : State) : Prop := ∀ n : Fin 4, s.Looped n → s.inputs[n].receiver.state ≠ .framed

theorem State.LoopsFresh.unframed {s : State} (fresh : s.LoopsFresh) : s.LoopsUnframed := fun n looped => (fresh n looped).1

/-- From `s` to `t` the input trunks alone move. -/
def State.OnlyInputs (s t : State) : Prop := t = s.withInputs t.inputs

theorem State.OnlyInputs.trans {s t u : State} (first : s.OnlyInputs t) (second : t.OnlyInputs u) : s.OnlyInputs u := by
  unfold State.OnlyInputs at first second
  rw [first] at second
  exact second

/-- From `s` to `t` the receiver of trunk `n` alone moves. -/
structure State.MovesAt (s : State) (n : Fin 4) (t : State) : Prop where
  beside : s.OnlyInputs t
  others : ∀ m : Fin 4, n ≠ m → t.inputs[m] = s.inputs[m]

theorem State.hears_unframed {s : State} {n : Fin 4} (out : s.Looped n → s.inputs[n].receiver.state ≠ .framed) (x : LineSymbol) :
    s.MovesAt n (s.hears n x) ∧
      ((s.Looped n → s.inputs[n].receiver.goodRun = 0) → (s.hears n x).Looped n →
        (s.hears n x).inputs[n].receiver.state ≠ .framed ∧ (x ≠ .closeBurst → (s.hears n x).inputs[n].receiver.goodRun = 0)) := by
  by_cases looped : s.Looped n
  · obtain ⟨r, same, fresh⟩ := State.receive_unframed (out looped) x
    have hears : s.hears n x = s.updReceiver n fun _ => r := (if_pos looped).trans same
    have own := s.receiver_updReceiver n fun _ => r
    rw [hears]
    refine ⟨⟨rfl, fun m apart => updAt_other s.inputs n m _ apart⟩, fun zero _ => ?_⟩
    rw [own]
    exact fresh (zero looped)
  · have hears : s.hears n x = s := if_neg looped
    rw [hears]
    exact ⟨⟨rfl, fun _ _ => rfl⟩, fun _ mine => absurd mine looped⟩

theorem State.Looped.of_input {s t : State} {n : Fin 4} (same : t.inputs[n] = s.inputs[n]) (looped : t.Looped n) : s.Looped n := by
  unfold State.Looped at looped
  rw [same] at looped
  exact looped

section Loop

variable {s : State} (k : Fin 2)

/-- Where every looped receiver is out of FRAMED, a symbol moves the receivers alone. -/
theorem loopSymbol_unframed (out : s.LoopsUnframed) (x : LineSymbol) :
    s.OnlyInputs (State.loopSymbol k s x) := by
  obtain ⟨first, -⟩ := State.hears_unframed (out (firstLoop k)) x
  have kept := first.others (secondLoop k) (firstLoop_ne k)
  obtain ⟨second, -⟩ := State.hears_unframed (s := s.hears (firstLoop k) x) (n := secondLoop k)
    (fun looped => by rw [kept]; exact out _ (State.Looped.of_input kept looped)) x
  rw [State.loopSymbol_eq]
  exact first.beside.trans second.beside

/-- A symbol other than a CLOSE keeps fresh receivers fresh, and a CLOSE leaves them out of FRAMED. -/
theorem loopSymbol_fresh (fresh : s.LoopsFresh) (x : LineSymbol) :
    (State.loopSymbol k s x).LoopsUnframed ∧ (x ≠ .closeBurst → (State.loopSymbol k s x).LoopsFresh) := by
  obtain ⟨first, own⟩ := State.hears_unframed (fresh.unframed (firstLoop k)) x
  have kept := first.others (secondLoop k) (firstLoop_ne k)
  have still (looped : (s.hears (firstLoop k) x).Looped (secondLoop k)) := fresh _ (State.Looped.of_input kept looped)
  obtain ⟨second, own'⟩ := State.hears_unframed (s := s.hears (firstLoop k) x) (n := secondLoop k)
    (fun looped => by rw [kept]; exact (still looped).1) x
  rw [State.loopSymbol_eq]
  have each (n : Fin 4) (looped : ((s.hears (firstLoop k) x).hears (secondLoop k) x).Looped n) :
      ((s.hears (firstLoop k) x).hears (secondLoop k) x).inputs[n].receiver.state ≠ .framed ∧
        (x ≠ .closeBurst → ((s.hears (firstLoop k) x).hears (secondLoop k) x).inputs[n].receiver.goodRun = 0) := by
    by_cases two : secondLoop k = n
    · subst two
      exact own' (fun looped => by rw [kept]; exact (still looped).2) looped
    · have same := second.others n two
      have before := State.Looped.of_input same looped
      rw [same]
      by_cases one : firstLoop k = n
      · subst one
        exact own (fun looped => (fresh _ looped).2) before
      · have same := first.others n one
        rw [same]
        obtain ⟨unframed, zero⟩ := fresh n (State.Looped.of_input same before)
        exact ⟨unframed, fun _ => zero⟩
  exact ⟨fun n looped => (each n looped).1, fun other n looped => ⟨(each n looped).1, (each n looped).2 other⟩⟩

theorem State.sendLooped_append (s : State) (k : Fin 2) (xs ys : List LineSymbol) :
    s.sendLooped k (xs ++ ys) = (s.sendLooped k xs).sendLooped k ys := List.foldl_append

theorem State.sendLooped_pair (s : State) (k : Fin 2) (x y : LineSymbol) :
    s.sendLooped k [x, y] = State.loopSymbol k (State.loopSymbol k s x) y := by
  unfold State.sendLooped
  rw [List.foldl_cons, List.foldl_cons, List.foldl_nil]

theorem loopSymbols_fresh (fresh : s.LoopsFresh) (xs : List LineSymbol) (open_ : ∀ x ∈ xs, x ≠ .closeBurst) :
    (s.sendLooped k xs).LoopsFresh ∧ s.OnlyInputs (s.sendLooped k xs) := by
  induction xs generalizing s with
  | nil => exact ⟨fresh, rfl⟩
  | cons x xs ih =>
    have same := loopSymbol_unframed k fresh.unframed x
    obtain ⟨after, beside⟩ := ih ((loopSymbol_fresh k fresh x).2 (open_ x List.mem_cons_self)) fun y member =>
      open_ y (List.mem_cons_of_mem x member)
    exact ⟨after, same.trans beside⟩

/-- A burst sent to receivers that have just been looped back moves the receivers alone. -/
theorem State.LoopsFresh.sendManagement (fresh : s.LoopsFresh) : s.OnlyInputs (s.sendManagement k) := by
  unfold State.sendManagement
  split
  · rename_i b _
    have quiet : ∀ x ∈ [LineSymbol.idle, .openBurst] ++ (burstOctets b).map LineSymbol.data, x ≠ .closeBurst := by
      intro x member
      simp only [List.mem_append, List.mem_cons, List.not_mem_nil, or_false, List.mem_map] at member
      obtain (rfl | rfl) | ⟨d, -, rfl⟩ := member <;> exact nofun
    obtain ⟨before, beside⟩ := loopSymbols_fresh k fresh _ quiet
    have last : s.sendLooped k (burstSymbols b) = _ := State.sendLooped_append s k _ [.closeBurst, .idle]
    rw [last, State.sendLooped_pair]
    generalize s.sendLooped k ([LineSymbol.idle, .openBurst] ++ (burstOctets b).map .data) = t at before beside
    have closed := loopSymbol_unframed k before.unframed .closeBurst
    have after := loopSymbol_unframed k (loopSymbol_fresh k before .closeBurst).1 .idle
    exact beside.trans (closed.trans after)
  · rfl

end Loop

end Sys2Proof.Machine
end

