-- ==== Sys2Proof/Proofs/RoomCommands.lean ====
section
/-! SUPPORT. A command taken in the room that a departure makes (R146, R167): what it leaves of the queues, the transfer and the input
trunks. -/

namespace Sys2Proof.Machine

/-! ### The reports that a command causes -/

theorem State.offerAlarm_aside (s : State) (type : AlarmReportType) (r : Fin 400) : (s.offerAlarm type r).aside = s.aside := by
  unfold State.offerAlarm
  repeat' split
  all_goals rfl

theorem State.offerAlarm_full {s : State} (full : 32 ≤ s.processor.reports.length) (type : AlarmReportType) (r : Fin 400) :
    (s.offerAlarm type r).processor = s.processor := by
  have none : s.alarmRoom = false := by
    unfold State.alarmRoom State.reportRoom
    rw [decide_eq_false (not_lt.mpr full), Bool.and_false]
  unfold State.offerAlarm
  rw [if_neg (by rw [none]; exact Bool.false_ne_true)]
  split <;> rfl

theorem Deferred.run_aside (d : Deferred) (s : State) : (d.run s).aside = s.aside ∨ d = .transferSteps := by
  cases d with
  | clears rs => exact .inl (foldl_aside (g := fun t r => t.offerAlarm .clear r) (fun t r => t.offerAlarm_aside .clear r) rs s)
  | abortedLog =>
    refine .inl (show s.offerAborted.aside = s.aside from ?_)
    unfold State.offerAborted
    split <;> rfl
  | transferSteps => exact .inr rfl

theorem State.transferSteps_inputs (fuel : Nat) (s : State) : (State.transferSteps fuel s).inputs = s.inputs := by
  rw [State.transferSteps_eq]

theorem Deferred.run_inputs (d : Deferred) (s : State) : (d.run s).inputs = s.inputs := by
  obtain same | steps := d.run_aside s
  · exact congrArg Prod.fst same
  · subst steps
    exact State.transferSteps_inputs 33 s

/-- A cause of reports starts no transfer. -/
theorem Deferred.run_active (d : Deferred) (s : State) (rests : s.log.transfer.state ≠ .active) :
    (d.run s).log.transfer.state ≠ .active := by
  obtain same | steps := d.run_aside s
  · have transfer : (d.run s).log.transfer = s.log.transfer := congrArg Prod.snd same
    rw [transfer]
    exact rests
  · subst steps
    have still : Deferred.run .transferSteps s = s := State.transferSteps_rests (fun can => rests can.active) 33
    rw [still]
    exact rests

/-- A full report queue stays as it is. -/
theorem Deferred.run_full (d : Deferred) (s : State) (full : 32 ≤ s.processor.reports.length) : (d.run s).processor = s.processor := by
  cases d with
  | clears rs =>
    change (s.offerClears rs).processor = s.processor
    unfold State.offerClears
    induction rs generalizing s with
    | nil => rfl
    | cons r rs ih =>
      have same := State.offerAlarm_full full .clear r
      exact (ih _ (by rw [same]; exact full)).trans same
  | abortedLog =>
    have none : ¬ s.reportRoom = true := fun room => absurd (of_decide_eq_true room) (not_lt.mpr full)
    exact congrArg State.processor (if_neg none)
  | transferSteps =>
    have still : Deferred.run .transferSteps s = s := State.transferSteps_rests (fun can => absurd can.2.1 (not_lt.mpr full)) 33
    rw [still]

/-- 33 rounds are as many transfer steps as the report queue lets be taken. -/
theorem State.transferSteps_ends (fuel : Nat) (s : State) (enough : 32 < s.processor.reports.length + fuel) :
    ¬ (State.transferSteps fuel s).CanStep := by
  induction fuel generalizing s with
  | zero => exact fun can => absurd (show s.processor.reports.length < 32 from can.2.1) (by omega)
  | succ n ih =>
    unfold State.transferSteps
    split
    · refine ih s.transferStep ?_
      have pushed : s.transferStep.processor.reports.length = s.processor.reports.length + 1 := List.length_append
      omega
    · rename_i cannot
      exact fun can => cannot (s.canStep_iff.mpr can)

/-! ### A command taken (R168) -/

theorem judgeBurstCommand_aside (b : ControlBurst) (s : State) : (judgeBurstCommand b s).Aside s := by
  unfold judgeBurstCommand
  split
  · exact judge_aside ..
  · exact .of_aside rfl
  · exact .of_aside rfl

section Taken

variable {s : State} (b : ControlBurst)

/-- The REPLY of a command taken. -/
def State.replyTo (s : State) (b : ControlBurst) : Reply := replyOf b (judgeBurstCommand b s)

/-- The part once a command has been judged and its REPLY queued, before the reports it causes. -/
def State.judged (s : State) (b : ControlBurst) : State := (judgeBurstCommand b s).state.pushReport (.reply (s.replyTo b))

theorem State.takeCommand_eq (s : State) (b : ControlBurst) :
    s.takeCommand b = (judgeBurstCommand b s).after.foldl (fun t d => d.run t) (s.judged b) := rfl

theorem State.judged_reports (s : State) : (s.judged b).processor.reports = s.processor.reports ++ [.reply (s.replyTo b)] :=
  congrArg (· ++ [Report.reply (s.replyTo b)]) (judgeBurstCommand_same b s).reports

theorem State.judged_commands (s : State) : (s.judged b).processor.commands = s.processor.commands := (judgeBurstCommand_same b s).commands

theorem State.takeCommand_told (s : State) : Told (s.judged b) (s.takeCommand b) := by
  rw [State.takeCommand_eq]
  exact .foldl (fun t d => .run d t) _ _

theorem State.takeCommand_inputs (s : State) : (s.takeCommand b).inputs = (s.judged b).inputs := by
  rw [State.takeCommand_eq]
  generalize s.judged b = t
  induction (judgeBurstCommand b s).after generalizing t with
  | nil => rfl
  | cons d ds ih => exact (ih _).trans (d.run_inputs t)

/-- A command taken where nothing is looped leaves every looped receiver fresh. -/
theorem State.takeCommand_fresh (free : s.NoLoop) : (s.takeCommand b).LoopsFresh :=
  ((judgeBurstCommand_aside b s).inputs free).of_inputs (s.takeCommand_inputs b)

/-- A command that finds no transfer ACTIVE leaves no transfer step to take: an opened transfer has taken its steps. -/
theorem State.takeCommand_rests (rests : s.log.transfer.state ≠ .active) : ¬ (s.takeCommand b).CanStep := by
  have aside := (judgeBurstCommand_aside b s).transfer
  rw [State.takeCommand_eq]
  by_cases opened : (judgeBurstCommand b s).after = [.transferSteps]
  · rw [opened]
    refine State.transferSteps_ends 33 (s.judged b) ?_
    omega
  · have still : (s.judged b).log.transfer.state ≠ .active := fun active => (aside active).elim rests opened
    intro can
    refine absurd can.active ?_
    generalize s.judged b = t at still
    clear can opened aside
    induction (judgeBurstCommand b s).after generalizing t with
    | nil => exact still
    | cons d ds ih => exact ih _ (d.run_active t still)

/-- A command whose REPLY fills the report queue causes no report. -/
theorem State.takeCommand_full (s : State) (full : s.processor.reports.length = 31) :
    (s.takeCommand b).processor = (s.judged b).processor := by
  have filled : 32 ≤ (s.judged b).processor.reports.length := by
    rw [State.judged_reports, List.length_append, full]
    exact Nat.le_refl 32
  rw [State.takeCommand_eq]
  generalize s.judged b = t at filled
  induction (judgeBurstCommand b s).after generalizing t with
  | nil => rfl
  | cons d ds ih =>
    have same := d.run_full t filled
    exact (ih _ (by rw [same]; exact filled)).trans same

end Taken

end Sys2Proof.Machine
end

