-- ==== Sys2Proof/Proofs/WindowServes.lean ====
section
/-! SUPPORT. What a management window serves, and what the room that a departure makes lets be taken (R146, R163 to R165, R167). -/

namespace Sys2Proof.Machine

/-! ### No restart (R181) -/

theorem State.restartActsAt_ready {s : State} (ready : s.processor.state = .ready) (r : Report) : ¬ s.restartActsAt r = true := by
  unfold State.restartActsAt
  rw [ready]
  exact Bool.false_ne_true

theorem State.restartActsAt_other {s : State} {r : Report} (other : ∀ x, r = .reply x → ¬ (x.code = 21 ∧ x.result = .done)) :
    ¬ s.restartActsAt r = true := by
  cases r with
  | reply x => exact fun acts => other x rfl ((s.restartActsAt_iff x).mp acts).2
  | alarm a =>
    unfold State.restartActsAt
    exact fun acts => absurd (Bool.and_eq_true_iff.mp acts).2 Bool.false_ne_true
  | log l =>
    unfold State.restartActsAt
    exact fun acts => absurd (Bool.and_eq_true_iff.mp acts).2 Bool.false_ne_true

theorem exec_managementWindow_due {s : State} {k : Fin 2} (due : s.outputs[k].windowDue = true) (first : Bool) :
    exec (.managementWindow k first) s = .next (s.window k first) := congrArg Host.Outcome.next (if_pos due)

/-- A window in which a report departs and lets no restart act. -/
theorem State.NoLoop.window_departs {s : State} (free : s.NoLoop) {k : Fin 2} (first : Bool) {r : Report} {rest : List Report}
    (reply : s.processor.replyTrunk = k) (head : s.processor.reports = r :: rest)
    (turn : s.outputs[k].forward = [] ∨ s.outputs[k].lastServed = .forward) (stays : ¬ s.restartActsAt r = true) :
    s.window k first = ((s.departed k r rest).afterDeparture first).sendManagement k := by
  rw [free.window_report first reply head turn, if_neg stays]

/-! ### The arbiter keeps the station number -/

theorem State.serve_station {s : State} (empty : s.processor.commands = []) (k : Fin 2) (first : Bool) :
    (s.serve k first).processor.station = s.processor.station := by
  unfold State.serve
  split
  · rfl
  · rw [State.depart_empty empty]
    split
    · rw [State.restartActs_eq]
      rfl
    · rw [State.transferSteps_eq]
      rfl
  · rfl

/-! ### Waiting commands taken (R167) -/

theorem State.drainRounds_waits {s : State} (waits : s.takesNow = false) (n : Nat) : State.drainRounds n s = s := by
  cases n with
  | zero => rfl
  | succ n =>
    unfold State.drainRounds
    split
    · rfl
    · rw [if_neg (by rw [waits]; exact Bool.false_ne_true)]

theorem State.takesNow_full {s : State} (full : 32 ≤ s.processor.reports.length) : s.takesNow = false := by
  unfold State.takesNow State.reportRoom
  rw [decide_eq_false (not_lt.mpr full), Bool.and_false]

theorem State.takesNow_pending {s : State} (pending : s.processor.state = .restartPending) : s.takesNow = false := by
  unfold State.takesNow
  rw [pending]
  rfl

theorem State.takesNow_ready {s : State} (ready : s.processor.state = .ready) (room : s.processor.reports.length < 32) : s.takesNow = true := by
  unfold State.takesNow State.reportRoom
  rw [ready, decide_eq_true room]
  rfl

theorem State.drain_cons {s : State} {b : ControlBurst} {more : List ControlBurst} (waiting : s.processor.commands = b :: more)
    (takes : s.takesNow = true) : s.drain = State.drainRounds more.length ((s.setCommands more).takeCommand b) := by
  unfold State.drain
  rw [waiting, List.length_cons, State.drainRounds]
  split
  · rename_i none
    exact absurd (waiting.symm.trans none) nofun
  · rename_i c rest same
    cases waiting.symm.trans same
    exact if_pos takes

/-- A command that waits alone. -/
theorem State.drain_lone {s : State} {b : ControlBurst} (waiting : s.processor.commands = [b]) :
    s.drain = if s.takesNow = true then (s.setCommands []).takeCommand b else s := by
  by_cases takes : s.takesNow = true
  · rw [if_pos takes]
    exact State.drain_cons waiting takes
  · rw [if_neg takes]
    exact State.drain_waits (Bool.eq_false_iff.mpr takes)

/-- A command that waits alone is taken as its row would be taken. -/
theorem exec_lone {d : State} {i : Instr} {sender : Sender} {c : Command} (row : i.management = some (sender, c))
    (waiting : d.processor.commands = [d.commandBurst sender (encodeCommand c)]) : exec i (d.setCommands []) = .next d.drain := by
  have entered : (d.setCommands []).enqueue (d.commandBurst sender (encodeCommand c)) = d := by
    refine (if_pos (show ([] : List ControlBurst).length < 8 by decide)).trans ?_
    change d.setCommands [d.commandBurst sender (encodeCommand c)] = d
    rw [← waiting]
    rfl
  rw [exec_management row]
  exact congrArg (Host.Outcome.next ∘ State.drain) entered

section Lone

variable {d : State} {b : ControlBurst} (waiting : d.processor.commands = [b])
include waiting

/-- A command that waits alone, taken where nothing is looped, leaves every looped receiver fresh. -/
theorem State.drain_lone_fresh (free : d.NoLoop) : d.drain.LoopsFresh := by
  rw [State.drain_lone waiting]
  split
  · exact State.takeCommand_fresh b (s := d.setCommands []) free
  · exact free.fresh

/-- After a command that waited alone no transfer step is possible. -/
theorem State.drain_lone_rests (ready : d.processor.state = .ready)
    (rests : d.log.transfer.state ≠ .active ∨ d.processor.reports.length = 31) : ¬ d.drain.CanStep := by
  rw [State.drain_lone waiting]
  obtain idle | nearly := rests
  · split
    · exact State.takeCommand_rests b (s := d.setCommands []) idle
    · exact fun can => idle can.active
  · rw [if_pos (State.takesNow_ready ready (by omega))]
    have full : ((d.setCommands []).judged b).processor.reports.length = 32 := by
      rw [State.judged_reports, List.length_append]
      exact congrArg (· + 1) nearly
    intro can
    have room : ((d.setCommands []).takeCommand b).processor.reports.length < 32 := can.2.1
    rw [State.takeCommand_full b (d.setCommands []) nearly, full] at room
    exact absurd room (Nat.lt_irrefl 32)

theorem State.afterDeparture_lone (ready : d.processor.state = .ready) {first : Bool}
    (rests : d.log.transfer.state ≠ .active ∨ (first = false ∧ d.processor.reports.length = 31)) : d.afterDeparture first = d.drain := by
  unfold State.afterDeparture
  cases first
  · rw [if_neg Bool.false_ne_true]
    exact State.transferSteps_rests (State.drain_lone_rests waiting ready (rests.imp_right And.right)) 33
  · have idle : d.log.transfer.state ≠ .active := rests.elim id fun h => absurd h.1 nofun
    rw [if_pos rfl, State.transferSteps_rests fun can => idle can.active]

end Lone

/-- The first of several commands fills the report queue, and the others go on waiting. -/
theorem State.drain_fills {d : State} {b : ControlBurst} {more : List ControlBurst} (waiting : d.processor.commands = b :: more)
    (ready : d.processor.state = .ready) (nearly : d.processor.reports.length = 31) :
    d.drain = (d.setCommands more).takeCommand b ∧ d.drain.processor.commands = more ∧
      d.drain.processor.reports = d.processor.reports ++ [.reply ((d.setCommands more).replyTo b)] := by
  have same : ((d.setCommands more).takeCommand b).processor = ((d.setCommands more).judged b).processor :=
    State.takeCommand_full b (d.setCommands more) nearly
  have reports : ((d.setCommands more).takeCommand b).processor.reports = d.processor.reports ++ [.reply ((d.setCommands more).replyTo b)] := by
    rw [same]
    exact State.judged_reports b (d.setCommands more)
  have full : ((d.setCommands more).takeCommand b).takesNow = false := State.takesNow_full (by
    rw [reports, List.length_append, nearly]
    exact Nat.le_refl 32)
  have drained : d.drain = (d.setCommands more).takeCommand b :=
    (State.drain_cons waiting (State.takesNow_ready ready (by omega))).trans (State.drainRounds_waits full _)
  rw [drained]
  refine ⟨rfl, ?_, reports⟩
  rw [same]
  exact State.judged_commands b (d.setCommands more)

/-! ### A single transfer step (R146) -/

theorem exec_transferStep_eq (s : State) : exec .transferStep s = .next (if s.canStep = true then s.transferStep else s) := rfl

/-- Where one report fills the queue, the transfer steps once at most. -/
theorem State.transferSteps_once {s : State} (once : 31 ≤ s.processor.reports.length ∨ ¬ s.CanStep) (n : Nat) :
    State.transferSteps (n + 1) s = if s.canStep = true then s.transferStep else s := by
  unfold State.transferSteps
  by_cases can : s.canStep = true
  · rw [if_pos can, if_pos can]
    refine State.transferSteps_rests (fun again => ?_) n
    have room : s.transferStep.processor.reports.length < 32 := again.2.1
    have pushed : s.transferStep.processor.reports.length = s.processor.reports.length + 1 := List.length_append
    have long : 31 ≤ s.processor.reports.length := once.resolve_right fun cannot => cannot (s.canStep_iff.mp can)
    omega
  · rw [if_neg can, if_neg can]

theorem State.transferStep_fills {s : State} (long : 31 ≤ s.processor.reports.length) : s.transferStep.takesNow = false :=
  State.takesNow_full (by
    have pushed : s.transferStep.processor.reports.length = s.processor.reports.length + 1 := List.length_append
    omega)

/-! ### The window -/

theorem State.NoLoop.window_opened {s : State} (free : s.NoLoop) (k : Fin 2) (first : Bool) {t : State}
    (served : (s.opened k).serve k first = t) (inputs : t.inputs = s.inputs) : s.window k first = t := by
  unfold State.window
  rw [free.openWindow k, served]
  exact (free.of_inputs inputs).sendManagement k

theorem State.opened_updOutput (s : State) (k : Fin 2) (g : OutputTrunk → OutputTrunk) :
    (s.opened k).updOutput k g = s.updOutput k fun t => g { t with windowDue := false } :=
  congrArg (fun v => { s with outputs := v }) (updAt_updAt s.outputs k (fun t => { t with windowDue := false }) g)

/-- A window that changes its output trunk alone. -/
theorem State.NoLoop.exec_serves {s : State} (free : s.NoLoop) {k : Fin 2} (due : s.outputs[k].windowDue = true) {first : Bool}
    {g : OutputTrunk → OutputTrunk} (served : (s.opened k).serve k first = (s.opened k).updOutput k g) :
    exec (.managementWindow k first) s = .next (s.updOutput k fun t => g { t with windowDue := false }) := by
  rw [exec_managementWindow_due due, free.window_opened k first served rfl, State.opened_updOutput]

/-- A window in which a report departs, with what the room it makes lets be taken: the receivers that a command looped back take the
departing burst. -/
theorem State.NoLoop.exec_departs {s : State} (free : s.NoLoop) {k : Fin 2} (due : s.outputs[k].windowDue = true) {first : Bool} {r : Report}
    {rest : List Report} (reply : s.processor.replyTrunk = k) (head : s.processor.reports = r :: rest)
    (turn : s.outputs[k].forward = [] ∨ s.outputs[k].lastServed = .forward) (stays : ¬ s.restartActsAt r = true) {u : State}
    (after : (s.departed k r rest).afterDeparture first = u) (fresh : u.LoopsFresh) :
    ∃ v, exec (.managementWindow k first) s = .next v ∧ u.OnlyInputs v ∧ (u.NoLoop → v = u) := by
  refine ⟨u.sendManagement k, ?_, fresh.sendManagement k, fun free => free.sendManagement k⟩
  rw [exec_managementWindow_due due, free.window_departs first reply head turn stays, after]

/-- Settles O31: the looped receivers by `exec_managementWindow_looped`; without them, by what the arbiter serves and, after a departure, by
what waits for the room it makes. -/
theorem managementWindowServesOneBurst : Obligations.ManagementWindowServesOneBurst := by
  intro s k first o reports
  refine ⟨fun shut => congrArg Host.Outcome.next (if_neg (by rw [shut]; exact Bool.false_ne_true)), fun due empty good ready => ?_,
    fun free due => ?_⟩
  · have both : s.BothReady k := ⟨fun looped => ready _ looped.1 looped.2, fun looped => ready _ looped.1 looped.2⟩
    obtain ⟨takes, stays, -, processor, -, -⟩ := State.openWindow_takes both good
    obtain ⟨serves, nothing, something⟩ := exec_managementWindow_looped due empty good both first
    refine ⟨s.sendSample k, _, ?_, serves, nothing, fun b served whole waits => something b served whole fun c control mine => ?_⟩
    · split
      · exact takes _ (by assumption)
      · exact stays (by assumption)
    · have still : (s.sendSample k).processor.commands = [] := (congrArg Processor.commands processor).trans empty
      have station : ((s.sendSample k).opened k).processor.station = s.processor.station := congrArg Processor.station processor
      refine waits c control ?_
      rw [← station, ← State.serve_station (s := (s.sendSample k).opened k) still k first]
      exact mine
  · have opened := s.opened_outputs k
    refine ⟨fun empty quiet => ?_, fun b rest head turn => ?_, fun r rest reply head turn idle calm => ?_,
      fun r rest reply head turn ready => ?_⟩
    · exact free.exec_serves due (State.serve_nothing first (by rw [opened]; exact empty) quiet)
    · exact free.exec_serves due (State.serve_forward first (by rw [opened]; exact head) (by rw [opened]; exact turn))
    · have stays : ¬ s.restartActsAt r = true := calm.elim (fun h => State.restartActsAt_ready h.1 r) fun h => State.restartActsAt_other h.2
      have drained : (s.departed k r rest).drain = s.departed k r rest :=
        calm.elim (fun h => State.drain_empty h.2) fun h => State.drain_waits (State.takesNow_pending h.1)
      obtain ⟨v, window, -, same⟩ := free.exec_departs due reply head turn stays
        (State.afterDeparture_rests drained (fun can => idle can.active) first) (State.NoLoop.fresh (s := s.departed k r rest) free)
      rw [window, same free]
      rfl
    · have stays : ¬ s.restartActsAt r = true := State.restartActsAt_ready ready r
      have length : s.processor.reports.length = rest.length + 1 := by
        rw [head]
        rfl
      intro departed
      have same : departed = s.departed k r rest := rfl
      refine ⟨fun i sender c row waiting rests => ?_, fun b more waiting full rests => ?_, fun active calm => ?_⟩
      · have lone : departed.processor.commands = [departed.commandBurst sender (encodeCommand c)] := waiting
        have once : departed.log.transfer.state ≠ .active ∨ (first = false ∧ departed.processor.reports.length = 31) :=
          rests.imp_right fun h => ⟨h.1, show rest.length = 31 by omega⟩
        obtain ⟨v, window, beside, last⟩ := free.exec_departs due reply head turn stays (State.afterDeparture_lone lone ready once)
          (State.drain_lone_fresh lone free)
        exact ⟨departed.drain, v, exec_lone row lone, window, beside, last⟩
      · have nearly : departed.processor.reports.length = 31 := show rest.length = 31 by omega
        obtain ⟨taken, commands, answered⟩ := State.drain_fills (d := departed) waiting ready nearly
        have settled : ¬ departed.drain.CanStep := fun can => absurd can.2.1 (by
          rw [answered, List.length_append, nearly]
          exact Nat.lt_irrefl 32)
        have after : departed.afterDeparture first = departed.drain := by
          unfold State.afterDeparture
          by_cases steps : first = true
          · have idle : departed.log.transfer.state ≠ .active := rests.elim id fun h => absurd (steps.symm.trans h) nofun
            rw [if_pos steps, State.transferSteps_rests fun can => idle can.active]
          · rw [if_neg steps, State.transferSteps_rests settled]
        have fresh : departed.drain.LoopsFresh := by
          rw [taken]
          exact State.takeCommand_fresh b (s := departed.setCommands more) free
        obtain ⟨v, window, beside, -⟩ := free.exec_departs due reply head turn stays after fresh
        refine ⟨v, (replyOf b (judgeBurstCommand b (departed.setCommands more))).result,
          (replyOf b (judgeBurstCommand b (departed.setCommands more))).items, window, ?_, ?_⟩
        · exact (congrArg (fun t : State => t.processor.commands) beside).trans commands
        · exact (congrArg (fun t : State => t.processor.reports) beside).trans answered
      · have after : departed.afterDeparture first = if departed.canStep = true then departed.transferStep else departed := by
          obtain ⟨empty, few⟩ | ⟨steps, full, some⟩ := calm
          · have once : 31 ≤ departed.processor.reports.length ∨ ¬ departed.CanStep := by
              obtain full | ⟨dry, mode⟩ := few
              · exact .inl (show 31 ≤ rest.length by omega)
              · exact .inr fun can => can.2.2.elim (fun ring => ring dry) mode
            rw [State.afterDeparture_empty (s := departed) empty, State.transferSteps_once once 32]
          · have nearly : 31 ≤ departed.processor.reports.length := show 31 ≤ rest.length by omega
            have can : departed.canStep = true := departed.canStep_iff.mpr ⟨active, show rest.length < 32 by omega, some⟩
            unfold State.afterDeparture
            rw [if_pos steps, State.transferSteps_once (.inl nearly) 32, if_pos can]
            exact State.drain_waits (State.transferStep_fills nearly)
        obtain ⟨v, window, -, last⟩ := free.exec_departs due reply head turn stays after (State.NoLoop.fresh (free.of_inputs (by
          split <;> rfl)))
        rw [window, exec_transferStep_eq, last (free.of_inputs (by split <;> rfl))]

end Sys2Proof.Machine
end
